-- ==== Sys2Proof/Word.lean ====
section
/-! DEFINITION. The widths the block computes in: 32-bit words, bytes, binary64 patterns, PCM samples. -/

namespace Sys2Proof

/-- A CSR value or a command word (R30, R130). -/
abbrev Word := BitVec 32

/-- One byte of BUF (R101). -/
abbrev Byte := BitVec 8

/-- An IEEE 754 binary64 bit pattern (R11, R32). -/
abbrev F64 := BitVec 64

/-- One signed 16-bit PCM sample (R103). -/
abbrev Pcm := BitVec 16

/-- Bits 31:0 of a 64-bit value: the `_LO` half of a register pair (R32). -/
abbrev lowHalf (x : BitVec 64) : Word := x.setWidth 32

/-- Bits 63:32 of a 64-bit value: the `_HI` half of a register pair (R32). -/
abbrev highHalf (x : BitVec 64) : Word := (x >>> 32).setWidth 32

end Sys2Proof
end

