-- ==== Sys2Proof/Config.lean ====
section
/-! DEFINITION. What an implementation of the block fixes: the identity constants (R33), the sizes of R6, and the
OPEN parameters as constants without a body, so that no proof can see their values. -/

namespace Sys2Proof.Config

/-- `ID` (R33): ASCII "RSRD". -/
def idValue : Word := 0x52535244#32

/-- `VERSION` (R33): command interface 1.0. -/
def versionValue : Word := 0x00010000#32

/-- BUF_SIZE (R6, R101): BUF offsets are 0..65535. -/
def bufSize : Nat := 65536

/-- First MMIO offset of BUF (R100). -/
def bufWindow : Nat := 0x10000

/-- One past the last CSR offset (R100); the range up to `bufWindow` is reserved. -/
def csrWindow : Nat := 0x1000

/-- Size of the MMIO window: 128 KiB (R100). -/
def mmioSize : Nat := 0x20000

/-- Microseconds between two refreshes of FM_PWR and the least bit-rate window (R241, R414). -/
def oneSecond : Nat := 1000000

/-- BUF_INIT (R117, D36, I1): what BUF held at each offset at power-on. A free value (log 3). -/
opaque bufInit : Nat → Byte

/-- P_NUMERICS (R260, D25): the implementation's choice for SIN. A free value, which `Numerics` limits by R260 (log 4). -/
opaque sinChoice : F64 → F64

/-- P_NUMERICS (R260): the implementation's choice for COS. A free value (log 4). -/
opaque cosChoice : F64 → F64

/-- P_NUMERICS (R260): the implementation's choice for EXP. A free value (log 4). -/
opaque expChoice : F64 → F64

/-- P_NUMERICS (R260): the implementation's choice for LOG10. A free value (log 4). -/
opaque log10Choice : F64 → F64

/-- What ERR_INFO shows of a needed length of 2^32 or more: R240 check 4 gives the length and no narrowing of it. A free value
of that length (log 21). -/
opaque longLengthInfo : Nat → Word

/-- STATION_SCORE_FN (R415, D33): the score 0..100 from the zero-crossing count, the sample count, the window RMS
values and their variance. A free value (log 7). -/
opaque stationScore : Nat → Nat → List F64 → F64 → Fin 101

end Sys2Proof.Config
end

