-- ==== Sys2Proof/Syntax.lean ====
section
/-! DEFINITION. The command set (R133): one constructor per row of the opcode table, each with its SEL field. -/

namespace Sys2Proof

/-- A command the engine's decoder recognises (R132): a listed opcode with RSV = 0, with the four bits of SEL. Whether SEL is
in the command's range is `Instr.wf`; a command whose SEL is outside it ends with BAD_SELECTOR. The operands are not part
of the command word: they are the snapshot of ARG0..ARG3 (R131). -/
inductive Instr where
  /-- OPC 0x00 (R418). -/
  | nop (sel : BitVec 4)
  /-- OPC 0x10 (R210). -/
  | fmStart (sel : BitVec 4)
  /-- OPC 0x11 (R240). -/
  | fmProcess (sel : BitVec 4)
  /-- OPC 0x12 (R245). -/
  | fmFinish (sel : BitVec 4)
  /-- OPC 0x13 (R246); SEL 0 exact, 1 fast. -/
  | iqPolar (sel : BitVec 4)
  /-- OPC 0x20 (R265); SEL is the slot. -/
  | bqDesign (sel : BitVec 4)
  /-- OPC 0x21 (R267); SEL is the slot. -/
  | bqRun (sel : BitVec 4)
  /-- OPC 0x22 (R268); SEL is the slot. -/
  | bqClear (sel : BitVec 4)
  /-- OPC 0x23 (R273). -/
  | pllRun (sel : BitVec 4)
  /-- OPC 0x24 (R274). -/
  | pllClear (sel : BitVec 4)
  /-- OPC 0x30 (R305). -/
  | dabReset (sel : BitVec 4)
  /-- OPC 0x31 (R306). -/
  | dabFeed (sel : BitVec 4)
  /-- OPC 0x40 (R334). -/
  | rsInit (sel : BitVec 4)
  /-- OPC 0x41 (R340). -/
  | rsDecode (sel : BitVec 4)
  /-- OPC 0x50 (R363); SEL is the CRC mode. -/
  | crcCalc (sel : BitVec 4)
  /-- OPC 0x51 (R364); SEL is the CRC mode. -/
  | crcCheck (sel : BitVec 4)
  /-- OPC 0x60 (R388); SEL is the protection level. -/
  | vitDecode (sel : BitVec 4)
  /-- OPC 0x70 (R412). -/
  | pwrCalc (sel : BitVec 4)
  /-- OPC 0x71 (R414). -/
  | brAdd (sel : BitVec 4)
  /-- OPC 0x72 (R416). -/
  | stnScore (sel : BitVec 4)
deriving DecidableEq, Repr

end Sys2Proof
end

