-- ==== Sys2Proof/WellFormed.lean ====
section
/-! DEFINITION. Which commands are legal: SEL in the range the opcode map gives (R132, R133). -/

namespace Sys2Proof

/-- The SEL field of a command (R130). -/
def Instr.sel : Instr → BitVec 4
  | .nop sel | .fmStart sel | .fmProcess sel | .fmFinish sel | .iqPolar sel
  | .bqDesign sel | .bqRun sel | .bqClear sel | .pllRun sel | .pllClear sel
  | .dabReset sel | .dabFeed sel | .rsInit sel | .rsDecode sel
  | .crcCalc sel | .crcCheck sel | .vitDecode sel
  | .pwrCalc sel | .brAdd sel | .stnScore sel => sel

/-- The lowest and the highest legal SEL of a command (the SEL column of R133). -/
def Instr.selRange : Instr → Nat × Nat
  | .iqPolar _ | .crcCalc _ | .crcCheck _ => (0, 1)
  | .bqDesign _ | .bqRun _ | .bqClear _ => (0, 7)
  | .vitDecode _ => (1, 4)
  | .nop _ | .fmStart _ | .fmProcess _ | .fmFinish _ | .pllRun _ | .pllClear _
  | .dabReset _ | .dabFeed _ | .rsInit _ | .rsDecode _
  | .pwrCalc _ | .brAdd _ | .stnScore _ => (0, 0)

/-- A command is well formed when its SEL is legal: the legal encodings of R132. -/
def Instr.wf (i : Instr) : Bool :=
  decide (i.selRange.1 ≤ i.sel.toNat) && decide (i.sel.toNat ≤ i.selRange.2)

end Sys2Proof
end

