-- ==== Sys2Proof/Decode.lean ====
section
/-! DEFINITION. The command word (R130-R134): decoding, total on all 32-bit words, and the encoder. -/

namespace Sys2Proof

/-- What decoding makes of a word (R132). -/
inductive Decoded where
  /-- The opcode is listed and RSV = 0. SEL may still be outside the command's range. -/
  | command (i : Instr)
  /-- The opcode is not listed, or RSV is not 0: the engine raises ILLEGAL_COMMAND. -/
  | illegalCommand
deriving DecidableEq, Repr

/-- The OPC field, bits 31:24 (R130). -/
def opcField (w : Word) : BitVec 8 := w.extractLsb' 24 8

/-- The SEL field, bits 23:20 (R130). -/
def selField (w : Word) : BitVec 4 := w.extractLsb' 20 4

/-- The RSV field, bits 19:0 (R130). -/
def rsvField (w : Word) : BitVec 20 := w.extractLsb' 0 20

/-- The opcode map (R133); none for an opcode that is not listed. -/
def commandOf (opc : Nat) (sel : BitVec 4) : Option Instr :=
  match opc with
  | 0x00 => some (.nop sel)
  | 0x10 => some (.fmStart sel)
  | 0x11 => some (.fmProcess sel)
  | 0x12 => some (.fmFinish sel)
  | 0x13 => some (.iqPolar sel)
  | 0x20 => some (.bqDesign sel)
  | 0x21 => some (.bqRun sel)
  | 0x22 => some (.bqClear sel)
  | 0x23 => some (.pllRun sel)
  | 0x24 => some (.pllClear sel)
  | 0x30 => some (.dabReset sel)
  | 0x31 => some (.dabFeed sel)
  | 0x40 => some (.rsInit sel)
  | 0x41 => some (.rsDecode sel)
  | 0x50 => some (.crcCalc sel)
  | 0x51 => some (.crcCheck sel)
  | 0x60 => some (.vitDecode sel)
  | 0x70 => some (.pwrCalc sel)
  | 0x71 => some (.brAdd sel)
  | 0x72 => some (.stnScore sel)
  | _ => none

/-- Decoding a command word (R132). -/
def decode (w : Word) : Decoded :=
  if rsvField w = 0#20 then
    match commandOf (opcField w).toNat (selField w) with
    | some i => .command i
    | none => .illegalCommand
  else .illegalCommand

/-- The opcode of a command (R133). -/
def opcodeOf : Instr → BitVec 8
  | .nop _ => 0x00#8
  | .fmStart _ => 0x10#8
  | .fmProcess _ => 0x11#8
  | .fmFinish _ => 0x12#8
  | .iqPolar _ => 0x13#8
  | .bqDesign _ => 0x20#8
  | .bqRun _ => 0x21#8
  | .bqClear _ => 0x22#8
  | .pllRun _ => 0x23#8
  | .pllClear _ => 0x24#8
  | .dabReset _ => 0x30#8
  | .dabFeed _ => 0x31#8
  | .rsInit _ => 0x40#8
  | .rsDecode _ => 0x41#8
  | .crcCalc _ => 0x50#8
  | .crcCheck _ => 0x51#8
  | .vitDecode _ => 0x60#8
  | .pwrCalc _ => 0x70#8
  | .brAdd _ => 0x71#8
  | .stnScore _ => 0x72#8

/-- The word of a command: OPC, SEL, and RSV = 0 (R130, R133). -/
def encode (i : Instr) : Word := opcodeOf i ++ i.sel ++ 0#20

/-- The word an opcode-table row's bits stand for: `nbits` bits of `w`, the rest 0. A command is one 32-bit word. -/
def tableWord (nbits w : Nat) : Word := BitVec.ofNat 32 (w % 2 ^ nbits)

/-- The command the decoder reads from an opcode-table word; none where it refuses. -/
def decodeTableWord (nbits w : Nat) : Option Instr :=
  match decode (tableWord nbits w) with
  | .command i => some i
  | .illegalCommand => none

end Sys2Proof
end

