-- ==== Sys2Proof/Machine/State.lean ====
section
/-! DEFINITION. The state of the block (spec file 10), the host's events, the reasons a step can stop, and the
state after reset (R600). Every field is plain data. -/

namespace Sys2Proof.Machine

/-- Command error codes 1..7 (R500). Code 0, NONE, is the absence of an error. -/
inductive ErrCode where
  | illegalCommand
  | badSelector
  | notReady
  | badConfig
  | badLength
  | misaligned
  | addrRange
deriving DecidableEq, Repr

/-- Four words: ARG0..ARG3, RES0..RES3, or the command's snapshot (R37, R54). -/
structure Quad where
  r0 : Word
  r1 : Word
  r2 : Word
  r3 : Word
deriving DecidableEq, Repr

/-- The FM unit's registers (R41, R42, R43). -/
structure Fm where
  /-- FM_CTRL[2:0]: STEREO, EMPH, FAST_ATAN (R41). -/
  ctrl : BitVec 3
  /-- FM_SAMPLERATE (R41). -/
  samplerate : Word
  /-- FM_OUT_RATE (R41). -/
  outRate : Word
  /-- FM_DOWNSAMPLE, the latched decimation factor D (R42, R211). -/
  downsample : Word
  /-- FM_DEEMPH_A, the latched divisor (R42, R230). -/
  deemphA : Word
  /-- FM_STATE.RUNNING (R42). -/
  running : Bool
  /-- FM_STATE.FINISHED (R42). -/
  finished : Bool
  /-- FM_STATE.PWR_VALID (R42). -/
  pwrValid : Bool
  /-- FM_STATE.L_STEREO (R42). -/
  lStereo : Bool
  /-- FM_STATE.L_EMPH (R42). -/
  lEmph : Bool
  /-- FM_STATE.L_FAST (R42). -/
  lFast : Bool
  /-- FM_ACC_I, two's complement (R42). -/
  accI : Word
  /-- FM_ACC_Q, two's complement (R42). -/
  accQ : Word
  /-- FM_ACC_CNT (R42). -/
  accCnt : Word
  /-- FM_PREV_I, two's complement (R42). -/
  prevI : Word
  /-- FM_PREV_Q, two's complement (R42). -/
  prevQ : Word
  /-- FM_DEEMPH_AVG, two's complement (R42). -/
  deemphAvg : Word
  /-- FM_LPR_ACC, two's complement (R42). -/
  lprAcc : Word
  /-- FM_LPR_IDX (R42). -/
  lprIdx : Word
  /-- FM_PWR (R42). -/
  pwr : Word
  /-- FM_OUT_RATE_DESC (R42). -/
  outRateDesc : Word
  /-- FM_OUT_FMT: [15:0] channels, [31:16] bits per sample (R42). -/
  outFmt : Word
  /-- FM_L_SR, the latched sample rate (R42). -/
  lSr : Word
  /-- FM_L_OUT_RATE, the latched output rate (R42). -/
  lOutRate : Word
  /-- FM_PWR_T, hidden: TIME at the last update of FM_PWR (R42). -/
  pwrT : BitVec 64
  /-- ST_PILOT_F (R43). -/
  pilotF : Word
  /-- ST_PILOT_QM (R43). -/
  pilotQm : Word
  /-- ST_SUB_F (R43). -/
  subF : Word
  /-- ST_SUB_QM (R43). -/
  subQm : Word
  /-- ST_LPF_F (R43). -/
  lpfF : Word
  /-- ST_LPF_QM (R43). -/
  lpfQm : Word
deriving DecidableEq, Repr

/-- The PLL's binary64 registers (R44, R270). -/
structure Pll where
  kp : F64
  ki : F64
  w0 : F64
  phase : F64
  integ : F64
deriving DecidableEq, Repr

/-- One biquad slot: five coefficients and four state values (R52, R262). -/
structure BqSlot where
  b0 : F64
  b1 : F64
  b2 : F64
  a1 : F64
  a2 : F64
  x1 : F64
  x2 : F64
  y1 : F64
  y2 : F64
deriving DecidableEq, Repr

/-- The DAB synchronizer (R45, R46, R300). WCNT is the number of held fragments, `win.length` (log 10). -/
structure Dab where
  /-- DAB_FRAG_LEN (R45). -/
  fragLen : Word
  /-- DAB_CTRL.FIRE_EN (R45). -/
  fireEn : Bool
  /-- DAB_LOSS_THR (R45). -/
  lossThr : Word
  /-- DAB_STATUS.SYNCED, mirrored in STATUS (R35, R46). -/
  synced : Bool
  /-- DAB_STATUS.FAILS (R46). -/
  fails : BitVec 8
  /-- DAB_SF_COUNT (R46). -/
  sfCount : Word
  /-- DAB_REJ_COUNT (R46). -/
  rejCount : Word
  /-- WIN, hidden: the held fragments, oldest first (R302). -/
  win : List (List Byte)
  /-- DAB_WIN_F, hidden: the length the held fragments were fed with (R46). -/
  winF : Word
deriving DecidableEq, Repr

/-- The six Reed-Solomon parameters, as configuration CSRs or as the latched copy (R47, R48). -/
structure RsConfig where
  symsize : Word
  gfpoly : Word
  fcr : Word
  prim : Word
  nroots : Word
  pad : Word
deriving DecidableEq, Repr

/-- The Reed-Solomon unit's registers (R47, R48). -/
structure Rs where
  /-- RS_SYMSIZE .. RS_PAD (R47). -/
  config : RsConfig
  /-- RS_STATUS.READY (R48). -/
  ready : Bool
  /-- RS_N (R48). -/
  n : Word
  /-- RS_K (R48). -/
  k : Word
  /-- rs.m .. rs.pad, hidden: the copy RS_INIT latched (R48). -/
  latched : RsConfig
deriving DecidableEq, Repr

/-- One CRC mode's registers (R49). -/
structure CrcMode where
  poly : BitVec 16
  init : BitVec 16
  xorout : BitVec 16
  /-- CRCn_CFG[2:0]: REFIN, REFOUT, STORED_LE. -/
  cfg : BitVec 3
deriving DecidableEq, Repr

/-- The Viterbi code registers (R50). -/
structure Vit where
  /-- VIT_POLY0..3. -/
  poly : Vector (BitVec 7) 4
  /-- VIT_TAIL. -/
  tail : BitVec 24
  /-- VIT_PI_1..24, at index k - 1. -/
  pi : Vector Word 24
  /-- VIT_PROF_L_s, at index 2 (L - 1) + s. -/
  prof : Vector (BitVec 24) 8
deriving DecidableEq, Repr

/-- The diagnostics registers (R51). -/
structure Diag where
  /-- PWR_WIN. -/
  pwrWin : Word
  /-- PWR_MAX. -/
  pwrMax : Word
  /-- PWR_LAST. -/
  pwrLast : Word
  /-- BITRATE. -/
  bitrate : Word
  /-- BR_BYTES, 64 bits of which the CSR shows the low half. -/
  brBytes : BitVec 64
  /-- BR_T0, hidden: TIME at which the open window began. -/
  brT0 : BitVec 64
deriving DecidableEq, Repr

/-- The width of a host access (R105). -/
inductive Width where
  | w8
  | w16
  | w32
  | w64
deriving DecidableEq, Repr

/-- What the outside world can do to the block between two steps (logs 1 and 2). Offsets are MMIO offsets (R100). -/
inductive Event where
  /-- A host read (R102, R105). -/
  | read (off : Nat) (width : Width)
  /-- A host write of the low bits of `value` (R102, R105). -/
  | write (off : Nat) (width : Width) (value : BitVec 64)
  /-- Real time passes: TIME advances by so many microseconds (R410). -/
  | elapse (us : Nat)
  /-- The instant at which the pending command completes (R531); nothing when no command is pending. -/
  | complete
deriving DecidableEq, Repr

/-- BUF as the bytes written since power-on: offsets strictly rising (R53, R101). -/
abbrev Memory := List Host.Cell

/-- The state of one block instance. -/
structure State where
  /-- STATUS.BUSY: a command is pending (R35, R54). -/
  busy : Bool
  /-- STATUS.ERR (R35). -/
  err : Bool
  /-- STATUS.CRC_PASS (R35). -/
  crcPass : Bool
  /-- STATUS.ERRCODE (R35). -/
  errcode : BitVec 8
  /-- STATUS.OVERRUN, sticky (R35). -/
  overrun : Bool
  /-- STATUS.WR_IGNORED, sticky (R35). -/
  wrIgnored : Bool
  /-- STATUS.BUF_HAZ, sticky (R35). -/
  bufHaz : Bool
  /-- CMD: the last accepted command word (R36, R54). -/
  cmd : Word
  /-- The snapshot of ARG0..ARG3 taken at acceptance, hidden (R54, R530). -/
  snap : Quad
  /-- ARG0..ARG3 (R37). -/
  args : Quad
  /-- RES0..RES3 (R37). -/
  res : Quad
  /-- ERR_INFO (R38). -/
  errInfo : Word
  /-- IRQ_STATUS[8:0] (R39). -/
  irqStatus : BitVec 9
  /-- IRQ_ENABLE[8:0] (R39). -/
  irqEnable : BitVec 9
  /-- TIME (R40, R410). -/
  time : BitVec 64
  /-- TIME_HI_LATCH, hidden; what TIME_HI returns (R40). -/
  timeHiLatch : Word
  /-- The FM unit (R41-R43). -/
  fm : Fm
  /-- The phase-locked loop (R44). -/
  pll : Pll
  /-- The DAB synchronizer (R45, R46). -/
  dab : Dab
  /-- The Reed-Solomon decoder (R47, R48). -/
  rs : Rs
  /-- CRC mode 0 (R49). -/
  crc0 : CrcMode
  /-- CRC mode 1 (R49). -/
  crc1 : CrcMode
  /-- The Viterbi code tables (R50). -/
  vit : Vit
  /-- The diagnostics (R51). -/
  diag : Diag
  /-- The biquad slots 0..7 (R52). -/
  bq : Vector BqSlot 8
  /-- BUF (R53). -/
  buf : Memory
  /-- The model's own field: the events of the outside world still to happen, first one first (logs 1 and 2). -/
  env : List Event
  /-- The model's own field: what the last host read returned (log 14). -/
  hostData : Word
deriving DecidableEq, Repr

/-- Why a step stops. -/
inductive Fault where
  /-- A host access of the wrong width or alignment (R105, I12): the block answers a bus error and changes no state, "a fault
  of the host program". Raised by a host access only, never by a command. Safe. -/
  | busError
  /-- A host access at an offset of 0x20000 or more: outside the block's MMIO window (R100), so no access to this block.
  Raised by a host access only. Safe. -/
  | outsideWindow
deriving DecidableEq, Repr

/-- Why the model gives no answer. -/
inductive Refusal where
  /-- A command that has no meaning yet; raised by `exec`'s refused arms only, of which there are none. Safe. -/
  | notModelled (mnemonic : String)
deriving DecidableEq, Repr

/-- Four words of zero. -/
def Quad.zero : Quad := ⟨0#32, 0#32, 0#32, 0#32⟩

/-- The FM unit after reset (R41-R43, R600). -/
def Fm.reset : Fm where
  ctrl := 0#3
  samplerate := 170000#32
  outRate := 32000#32
  downsample := 0#32
  deemphA := 0#32
  running := false
  finished := false
  pwrValid := false
  lStereo := false
  lEmph := false
  lFast := false
  accI := 0#32
  accQ := 0#32
  accCnt := 0#32
  prevI := 0#32
  prevQ := 0#32
  deemphAvg := 0#32
  lprAcc := 0#32
  lprIdx := 0#32
  pwr := 0#32
  outRateDesc := 0#32
  outFmt := 0#32
  lSr := 0#32
  lOutRate := 0#32
  pwrT := 0#64
  pilotF := 19000#32
  pilotQm := 19000#32
  subF := 38000#32
  subQm := 1267#32
  lpfF := 15000#32
  lpfQm := 707#32

/-- The PLL after reset (R44, R270): 0.01, 1e-5, +0.0, +0.0, +0.0. -/
def Pll.reset : Pll where
  kp := 0x3F847AE147AE147B#64
  ki := 0x3EE4F8B588E368F1#64
  w0 := 0#64
  phase := 0#64
  integ := 0#64

/-- A biquad slot after reset: nine times +0.0 (R52). -/
def BqSlot.reset : BqSlot := ⟨0#64, 0#64, 0#64, 0#64, 0#64, 0#64, 0#64, 0#64, 0#64⟩

/-- The DAB synchronizer after reset (R45, R46). -/
def Dab.reset : Dab where
  fragLen := 288#32
  fireEn := false
  lossThr := 3#32
  synced := false
  fails := 0#8
  sfCount := 0#32
  rejCount := 0#32
  win := []
  winF := 0#32

/-- The reset code RS(120,110) (R47). -/
def RsConfig.reset : RsConfig where
  symsize := 8#32
  gfpoly := 0x11D#32
  fcr := 0#32
  prim := 1#32
  nroots := 10#32
  pad := 135#32

/-- The Reed-Solomon unit after reset (R47, R48). -/
def Rs.reset : Rs where
  config := RsConfig.reset
  ready := true
  n := 120#32
  k := 110#32
  latched := RsConfig.reset

/-- CRC mode 0 after reset (R49). -/
def CrcMode.reset0 : CrcMode := ⟨0x1021#16, 0xFFFF#16, 0xFFFF#16, 0x3#3⟩

/-- CRC mode 1 after reset (R49). -/
def CrcMode.reset1 : CrcMode := ⟨0x782F#16, 0x0000#16, 0x0000#16, 0x0#3⟩

/-- The Viterbi tables after reset: not loaded (R50). -/
def Vit.reset : Vit where
  poly := Vector.replicate 4 0#7
  tail := 0#24
  pi := Vector.replicate 24 0#32
  prof := Vector.replicate 8 0#24

/-- The diagnostics after reset (R51). -/
def Diag.reset : Diag where
  pwrWin := 1024#32
  pwrMax := 238#32
  pwrLast := 0#32
  bitrate := 0#32
  brBytes := 0#64
  brT0 := 0#64

/-- Power-on reset (R600). No byte of BUF is listed (R53); the model's own fields are empty (logs 1 and 14). -/
def State.reset : State where
  busy := false
  err := false
  crcPass := false
  errcode := 0#8
  overrun := false
  wrIgnored := false
  bufHaz := false
  cmd := 0#32
  snap := Quad.zero
  args := Quad.zero
  res := Quad.zero
  errInfo := 0#32
  irqStatus := 0#9
  irqEnable := 0#9
  time := 0#64
  timeHiLatch := 0#32
  fm := Fm.reset
  pll := Pll.reset
  dab := Dab.reset
  rs := Rs.reset
  crc0 := CrcMode.reset0
  crc1 := CrcMode.reset1
  vit := Vit.reset
  diag := Diag.reset
  bq := Vector.replicate 8 BqSlot.reset
  buf := []
  env := []
  hostData := 0#32

end Sys2Proof.Machine
end

