-- ==== Sys2Proof/Machine/Bits.lean ====
section
/-! DEFINITION. The width and integer functions of R8 and R9: truncated division, saturation, bit reversal, popcount, parity,
little-endian bytes, the integer square root. -/

namespace Sys2Proof.Machine

/-- `a quot b`: division truncated toward zero (R8). -/
def quot (a b : Int) : Int := a.tdiv b

/-- `sat16` (R9). -/
def sat16 (v : Int) : Int := max (-32768) (min 32767 v)

/-- `s32`: a 32-bit pattern as two's complement (R9). -/
def s32 (w : Word) : Int := w.toInt

/-- A signed number as its 32-bit two's complement pattern (R131). -/
def word32 (v : Int) : Word := BitVec.ofInt 32 v

/-- An unsigned number narrowed to 32 bits, `wrap32` (R9). -/
def wrap32 (v : Nat) : Word := BitVec.ofNat 32 v

/-- `s8`: a byte as two's complement (R9). -/
def s8 (b : Byte) : Int := b.toInt

/-- `reflect_n`: the n-bit value whose bit i is bit n-1-i of v (R9, R361). -/
def reflect : Nat → Nat → Nat
  | 0, _ => 0
  | n + 1, v => (v % 2) * 2 ^ n + reflect n (v / 2)

/-- The number of 1 bits among the n low bits of v (R9). -/
def popcount : Nat → Nat → Nat
  | 0, _ => 0
  | n + 1, v => v % 2 + popcount n (v / 2)

/-- `parity` of the n low bits of v (R9). -/
def parity (n v : Nat) : Nat := popcount n v % 2

/-- The bits of an n-bit value, most significant first. -/
def bitsMsb : Nat → Nat → List Bool
  | 0, _ => []
  | n + 1, v => decide (v / 2 ^ n % 2 = 1) :: bitsMsb n v

/-- The value of a bit sequence, first bit most significant (R388). -/
def msbValue (bs : List Bool) : Nat := bs.foldl (fun v b => 2 * v + b.toNat) 0

/-- The number a little-endian byte sequence holds: `MemRead` (R10, R102). -/
def leValue : List Byte → Nat
  | [] => 0
  | b :: bs => b.toNat + 256 * leValue bs

/-- The n low bytes of v, least significant first: `MemWrite` (R10, R102). -/
def leBytes : Nat → Nat → List Byte
  | 0, _ => []
  | n + 1, v => BitVec.ofNat 8 v :: leBytes n (v / 256)

/-- Digit-by-digit search for the floor of the square root: `r` is the part found, `k` binary digits remain. -/
def isqrtFrom (n : Nat) : Nat → Nat → Nat
  | 0, r => r
  | k + 1, r => if (r + 2 ^ k) * (r + 2 ^ k) ≤ n then isqrtFrom n k (r + 2 ^ k) else isqrtFrom n k r

/-- The exact integer square root `floor(sqrt(n))` (R246). -/
def isqrt (n : Nat) : Nat := isqrtFrom n (Nat.log2 n / 2 + 1) 0

/-- The elements two by two, an odd one at the end left out. -/
def pairsOf {α : Type} : List α → List (α × α)
  | x :: y :: rest => (x, y) :: pairsOf rest
  | _ => []

/-- Cut a list into consecutive pieces of n elements, `count` of them. -/
def pieces {α : Type} (n : Nat) : Nat → List α → List (List α)
  | 0, _ => []
  | k + 1, xs => xs.take n :: pieces n k (xs.drop n)

end Sys2Proof.Machine
end

