-- ==== Sys2Proof/Machine/Float64.lean ====
section
/-! DEFINITION. IEEE 754 binary64 arithmetic on bit patterns (R11, R261): each operation exact on the values and rounded once,
to nearest, ties to even; subnormals kept; every NaN the canonical quiet NaN; no flags and no traps. -/

namespace Sys2Proof.Machine

/-- The value a binary64 pattern stands for. -/
inductive Unpacked where
  | nan
  | inf (neg : Bool)
  /-- The number (-1)^neg * m * 2^e; a zero keeps its sign. -/
  | fin (neg : Bool) (m : Nat) (e : Int)
deriving DecidableEq, Repr

/-- The canonical quiet NaN (R261). -/
def canonicalNaN : F64 := 0x7FF8000000000000#64

/-- Infinity with the given sign. -/
def infinity (neg : Bool) : F64 := if neg then 0xFFF0000000000000#64 else 0x7FF0000000000000#64

/-- Zero with the given sign. -/
def signedZero (neg : Bool) : F64 := if neg then 0x8000000000000000#64 else 0#64

/-- The sign bit, the 11 exponent bits and the 52 fraction bits of a pattern, as a value. -/
def unpack (x : F64) : Unpacked :=
  let neg := decide (2 ^ 63 ≤ x.toNat)
  let expo : Nat := x.toNat / 2 ^ 52 % 2048
  let frac : Nat := x.toNat % 2 ^ 52
  if expo = 2047 then (if frac = 0 then .inf neg else .nan)
  else if expo = 0 then .fin neg frac (-1074)
  else .fin neg (2 ^ 52 + frac) ((expo : Int) - 1075)

/-- The pattern of (-1)^neg * t * 2^q for t at most 2^53 and q at least -1074, where t has 53 bits unless q = -1074. The
exponent field and the hidden bit fall out of one addition; too large a number is infinity. -/
def packExact (neg : Bool) (t : Nat) (q : Int) : F64 :=
  let bits := (q + 1074).toNat * 2 ^ 52 + t
  if 2047 * 2 ^ 52 ≤ bits then infinity neg
  else BitVec.ofNat 64 ((if neg then 2 ^ 63 else 0) + bits)

/-- m / 2^sh rounded to nearest, ties to even. -/
def shiftRne (m sh : Nat) : Nat :=
  let t := m / 2 ^ sh
  let rest := 2 * (m % 2 ^ sh)
  if 2 ^ sh < rest ∨ (rest = 2 ^ sh ∧ t % 2 = 1) then t + 1 else t

/-- (-1)^neg * m * 2^e rounded to binary64, to nearest, ties to even (R11). -/
def roundPack (neg : Bool) (m : Nat) (e : Int) : F64 :=
  if m = 0 then signedZero neg
  else
    let q := max (e + (Nat.log2 m : Int) - 52) (-1074)
    if q ≤ e then packExact neg (m * 2 ^ (e - q).toNat) q
    else packExact neg (shiftRne m (q - e).toNat) q

/-- A pattern with every NaN made the canonical one (R261). -/
def canon (x : F64) : F64 :=
  match unpack x with
  | .nan => canonicalNaN
  | _ => x

/-- Negation: the sign changed; a NaN gives the canonical NaN (R261). -/
def fneg (x : F64) : F64 :=
  match unpack x with
  | .nan => canonicalNaN
  | _ => x ^^^ 0x8000000000000000#64

/-- m * 2^e as an integer times 2^lo, for lo at most e, with its sign. -/
def scaled (neg : Bool) (m : Nat) (e lo : Int) : Int :=
  let v : Int := ((m * 2 ^ (e - lo).toNat : Nat) : Int)
  if neg then -v else v

/-- `x + y` in binary64. A zero sum of unlike signs is +0.0. -/
def fadd (x y : F64) : F64 :=
  match unpack x, unpack y with
  | .nan, _ => canonicalNaN
  | _, .nan => canonicalNaN
  | .inf a, .inf b => if a = b then infinity a else canonicalNaN
  | .inf a, .fin _ _ _ => infinity a
  | .fin _ _ _, .inf b => infinity b
  | .fin a m e, .fin b n f =>
    let lo := min e f
    let sum := scaled a m e lo + scaled b n f lo
    if sum = 0 then signedZero (a && b)
    else roundPack (decide (sum < 0)) sum.natAbs lo

/-- `x - y` in binary64. -/
def fsub (x y : F64) : F64 := fadd x (fneg y)

/-- `x * y` in binary64. -/
def fmul (x y : F64) : F64 :=
  match unpack x, unpack y with
  | .nan, _ => canonicalNaN
  | _, .nan => canonicalNaN
  | .inf a, .inf b => infinity (a != b)
  | .inf a, .fin b n _ => if n = 0 then canonicalNaN else infinity (a != b)
  | .fin a m _, .inf b => if m = 0 then canonicalNaN else infinity (a != b)
  | .fin a m e, .fin b n f => roundPack (a != b) (m * n) (e + f)

/-- A quotient or root with a last bit that says whether anything was left over, so that one rounding of it is the rounding
of the exact result. -/
def withSticky (q rest : Nat) : Nat := 2 * q + (if rest = 0 then 0 else 1)

/-- `x / y` in binary64. -/
def fdiv (x y : F64) : F64 :=
  match unpack x, unpack y with
  | .nan, _ => canonicalNaN
  | _, .nan => canonicalNaN
  | .inf _, .inf _ => canonicalNaN
  | .inf a, .fin b _ _ => infinity (a != b)
  | .fin a _ _, .inf b => signedZero (a != b)
  | .fin a m e, .fin b n f =>
    if n = 0 then (if m = 0 then canonicalNaN else infinity (a != b))
    else
      let num := m * 2 ^ 110
      roundPack (a != b) (withSticky (num / n) (num % n)) (e - f - 111)

/-- `sqrt(x)` in binary64. -/
def fsqrt (x : F64) : F64 :=
  match unpack x with
  | .nan => canonicalNaN
  | .inf neg => if neg then canonicalNaN else infinity false
  | .fin neg m e =>
    if m = 0 then signedZero neg
    else if neg then canonicalNaN
    else
      let sh : Nat := if e % 2 = 0 then 120 else 121
      let n := m * 2 ^ sh
      let r := isqrt n
      roundPack false (withSticky r (n - r * r)) ((e - (sh : Int)) / 2 - 1)

/-- The order of the non-NaN patterns as integers; both zeros are 0. -/
def orderKey (x : F64) : Int :=
  if 2 ^ 63 ≤ x.toNat then -((x.toNat - 2 ^ 63 : Nat) : Int) else (x.toNat : Int)

/-- `x < y`; false when either is a NaN. -/
def flt (x y : F64) : Bool :=
  match unpack x, unpack y with
  | .nan, _ => false
  | _, .nan => false
  | _, _ => decide (orderKey x < orderKey y)

/-- `x <= y`; false when either is a NaN. -/
def fle (x y : F64) : Bool :=
  match unpack x, unpack y with
  | .nan, _ => false
  | _, .nan => false
  | _, _ => decide (orderKey x ≤ orderKey y)

/-- The pattern is a NaN. -/
def isNaN (x : F64) : Bool :=
  match unpack x with
  | .nan => true
  | _ => false

/-- `|x|` of a pattern that is no NaN. -/
def fabs (x : F64) : F64 := x &&& 0x7FFFFFFFFFFFFFFF#64

/-- `f64(n)`: an integer converted, exactly when |n| is at most 2^53 (R11). -/
def fofInt (n : Int) : F64 := roundPack (decide (n < 0)) n.natAbs 0

/-- `f64(n)` of a natural number (R11). -/
def fofNat (n : Nat) : F64 := fofInt n

/-- The magnitude m * 2^e with its fraction dropped. -/
def magnitudeTrunc (m : Nat) (e : Int) : Nat := if 0 ≤ e then m * 2 ^ e.toNat else m / 2 ^ (-e).toNat

/-- `trunc(x)`: the fraction dropped toward zero (R11). No rule applies it to a NaN or an infinity: 0 there (log 16). -/
def ftrunc (x : F64) : Int :=
  match unpack x with
  | .fin neg m e => if neg then -(magnitudeTrunc m e : Int) else magnitudeTrunc m e
  | _ => 0

/-- `floor(x)` (R8, R411). No rule applies it to a NaN or an infinity: 0 there (log 16). -/
def ffloor (x : F64) : Int :=
  match unpack x with
  | .fin neg m e => (if neg then -(m : Int) else m) * 2 ^ e.toNat / 2 ^ (-e).toNat
  | _ => 0

/-- `round(x)`: to the nearest integer, halves away from zero (R11). No rule applies it to a NaN or an infinity: 0 there
(log 16). -/
def fround (x : F64) : Int :=
  match unpack x with
  | .fin neg m e =>
    let r := if 0 ≤ e then m * 2 ^ e.toNat else (2 * m + 2 ^ (-e).toNat) / 2 ^ ((-e).toNat + 1)
    if neg then -(r : Int) else r
  | _ => 0

/-- PI64, the double nearest pi (R212, R264). -/
def pi64 : F64 := 0x400921FB54442D18#64

/-- TWO_PI64 (R272). -/
def twoPi64 : F64 := 0x401921FB54442D18#64

/-- TAU64, the double nearest 75e-6 (R230). -/
def tau64 : F64 := 0x3F13A92A30553261#64

/-- 1.0 -/
def fone : F64 := 0x3FF0000000000000#64

/-- 2.0 -/
def ftwo : F64 := 0x4000000000000000#64

end Sys2Proof.Machine
end

