-- ==== Sys2Proof/Machine/Flags.lean ====
section
/-! DEFINITION. Every flag of the block (R56): the error code numbers (R500), the interrupt bits (R520), and the status words
composed of flags (R35, R42, R46, R48). -/

namespace Sys2Proof.Machine

/-- The number of an error code (R500). -/
def errNumber : ErrCode → BitVec 8
  | .illegalCommand => 1#8
  | .badSelector => 2#8
  | .notReady => 3#8
  | .badConfig => 4#8
  | .badLength => 5#8
  | .misaligned => 6#8
  | .addrRange => 7#8

/-- IRQ bit 0: a command completed successfully (R520). -/
def irqDone : BitVec 9 := 0x001#9

/-- IRQ bit 1: a command completed with an error (R520). -/
def irqErr : BitVec 9 := 0x002#9

/-- IRQ bit 2: FM_PROCESS completed (R520). -/
def irqFmFrame : BitVec 9 := 0x004#9

/-- IRQ bit 3: FM_FINISH completed (R520). -/
def irqFmFinished : BitVec 9 := 0x008#9

/-- IRQ bit 4: DAB_FEED accepted a superframe (R520). -/
def irqSuperframe : BitVec 9 := 0x010#9

/-- IRQ bit 5: Searching to Synced (R520). -/
def irqSyncAcq : BitVec 9 := 0x020#9

/-- IRQ bit 6: Synced to Searching by rejections (R520). -/
def irqSyncLost : BitVec 9 := 0x040#9

/-- IRQ bit 7: FM_PWR refreshed or PWR_CALC completed (R520). -/
def irqPwrUpd : BitVec 9 := 0x080#9

/-- IRQ bit 8: BR_ADD closed a window (R520). -/
def irqBrUpd : BitVec 9 := 0x100#9

/-- An interrupt bit that is set only under a condition. -/
def irqIf (c : Bool) (bit : BitVec 9) : BitVec 9 := if c then bit else 0#9

/-- `irq_out`: some pending bit is enabled (R522). -/
def irqOut (s : State) : Bool := decide (s.irqStatus &&& s.irqEnable ≠ 0#9)

/-- A flag as the bit of a word at a position. -/
def flagAt (b : Bool) (pos : Nat) : Word := if b then BitVec.ofNat 32 (2 ^ pos) else 0#32

/-- STATUS as the host reads it (R35). -/
def statusWord (s : State) : Word :=
  flagAt s.busy 0 ||| flagAt s.err 1 ||| flagAt s.crcPass 2 ||| flagAt s.dab.synced 3
    ||| (s.errcode.setWidth 32 <<< 8)
    ||| flagAt s.overrun 16 ||| flagAt s.wrIgnored 17 ||| flagAt s.bufHaz 18

/-- FM_STATE as the host reads it (R42). -/
def fmStateWord (f : Fm) : Word :=
  flagAt f.running 0 ||| flagAt f.finished 1 ||| flagAt f.pwrValid 2
    ||| flagAt f.lStereo 8 ||| flagAt f.lEmph 9 ||| flagAt f.lFast 10

/-- WCNT: the number of fragments held (R46, R302). -/
def wcnt (d : Dab) : BitVec 3 := BitVec.ofNat 3 d.win.length

/-- DAB_STATUS as the host reads it (R46). -/
def dabStatusWord (d : Dab) : Word :=
  flagAt d.synced 0 ||| ((wcnt d).setWidth 32 <<< 8) ||| (d.fails.setWidth 32 <<< 16)

/-- RS_STATUS as the host reads it (R48). -/
def rsStatusWord (r : Rs) : Word := flagAt r.ready 0

/-- FM_CTRL.STEREO (R41). -/
def ctrlStereo (f : Fm) : Bool := f.ctrl.getLsbD 0

/-- FM_CTRL.EMPH (R41). -/
def ctrlEmph (f : Fm) : Bool := f.ctrl.getLsbD 1

/-- FM_CTRL.FAST_ATAN (R41). -/
def ctrlFast (f : Fm) : Bool := f.ctrl.getLsbD 2

/-- CRCn_CFG.REFIN (R49). -/
def crcRefin (m : CrcMode) : Bool := m.cfg.getLsbD 0

/-- CRCn_CFG.REFOUT (R49). -/
def crcRefout (m : CrcMode) : Bool := m.cfg.getLsbD 1

/-- CRCn_CFG.STORED_LE (R49). -/
def crcStoredLe (m : CrcMode) : Bool := m.cfg.getLsbD 2

/-- The STATUS flags a write of v to STATUS clears, applied: W1C bits 16, 17, 18 (R31, R35). -/
def clearSticky (s : State) (v : Word) : State :=
  { s with
    overrun := s.overrun && !v.getLsbD 16
    wrIgnored := s.wrIgnored && !v.getLsbD 17
    bufHaz := s.bufHaz && !v.getLsbD 18 }

end Sys2Proof.Machine
end

