-- ==== Sys2Proof/Machine/Ops.lean ====
section
/-! DEFINITION. The named operations: BUF, the two ways a command completes (R504), running a command behind its checks
(R501), and the resets (R602, R45, R335). -/

namespace Sys2Proof.Machine

/-- The canonical form of BUF: offsets strictly rising and below 65536. An offset that is not listed holds no written value,
so no entry can equal what it holds (log 3). -/
def Memory.wf (m : Memory) : Bool :=
  decide (m.Pairwise (fun c d => c.1 < d.1)) && m.all (fun c => decide (c.1 < Config.bufSize))

/-- The byte written last at an offset; none where nothing has been written since power-on. -/
def Memory.written (m : Memory) (a : Nat) : Option Byte :=
  (m.find? (fun c => c.1 == a)).map (fun c => c.2)

/-- The byte BUF holds at an offset: the one written last, else its power-on contents, a free value (R117, log 3). -/
def Memory.read (m : Memory) (a : Nat) : Byte := (m.written a).getD (Config.bufInit a)

/-- The cells with offsets a .. a + n - 1. -/
def Memory.region (m : Memory) (a n : Nat) : Memory := m.filter (fun c => decide (a ≤ c.1) && decide (c.1 < a + n))

/-- `Bytes(a, n)`: the bytes at offsets a .. a + n - 1, in order (R10). They are looked up among the region's cells only. -/
def Memory.bytes (m : Memory) (a n : Nat) : List Byte :=
  (List.range n).map (fun i => (m.region a n).read (a + i))

/-- Bytes with the offsets they go to, from a on. -/
def cellsFrom : Nat → List Byte → Memory
  | _, [] => []
  | a, b :: bs => (a, b) :: cellsFrom (a + 1) bs

/-- `MemWrite`: the bytes stored from offset a on; every other byte keeps its value (R10, R107). -/
def Memory.write (m : Memory) (a : Nat) (bs : List Byte) : Memory :=
  m.filter (fun c => decide (c.1 < a)) ++ cellsFrom a bs ++ m.filter (fun c => decide (a + bs.length ≤ c.1))

/-- Why a command ends with an error: its code and the word for ERR_INFO (R500). -/
structure CmdError where
  code : ErrCode
  info : Word
deriving DecidableEq, Repr

/-- What a command that passed its checks does: the new state, the four results, the interrupts besides DONE. -/
structure Effect where
  state : State
  res : Quad
  irqs : BitVec 9

/-- `raise E(info)`, the one way a command ends with an error: STATUS.ERR, ERRCODE, ERR_INFO, BUSY and the ERR interrupt, and
nothing else (R504, R505). The block saves no other state and has no return from it (R506). -/
def raiseError (e : CmdError) (s : State) : State :=
  { s with
    busy := false
    err := true
    errcode := errNumber e.code
    errInfo := e.info
    irqStatus := s.irqStatus ||| irqErr }

/-- The success record: BUSY, ERR and ERRCODE cleared, the results written, DONE and the command's interrupts set (R504). -/
def succeed (d : Effect) : State :=
  { d.state with
    busy := false
    err := false
    errcode := 0#8
    res := d.res
    irqStatus := d.state.irqStatus ||| d.irqs ||| irqDone }

/-- One command at its completion instant: the first failing check decides the error; a command that passes its checks has all
its effects (R501, R503-R505). -/
def runCommand (check : State → Option CmdError) (effect : State → Effect) (s : State) :
    Host.Outcome State Fault Refusal :=
  .next (match check s with
    | some e => raiseError e s
    | none => succeed (effect s))

/-- The synchronizer cleared: WCNT, FAILS and SYNCED (R45, R305). -/
def clearSync (d : Dab) : Dab := { d with win := [], fails := 0#8, synced := false }

/-- Soft reset: every piece of state at its power-on value, but for BUF (R602). What the outside world will still do is no
state of the block. -/
def softReset (s : State) : State :=
  { State.reset with buf := s.buf, env := s.env, hostData := s.hostData }

/-- Real time passes: TIME advances, modulo 2^64 (R410). -/
def elapseTime (us : Nat) (s : State) : State := { s with time := s.time + BitVec.ofNat 64 us }

/-- A word accepted as a command: BUSY, CMD and the snapshot of the ARG registers (R530). -/
def acceptCommand (w : Word) (s : State) : State := { s with busy := true, cmd := w, snap := s.args }

/-- The word the engine executes: CMD, as accepted (R115, R531). -/
def fetch (s : State) : Decoded := decode s.cmd

end Sys2Proof.Machine
end

