-- ==== Sys2Proof/Machine/Operands.lean ====
section
/-! DEFINITION. Every operand form: the selector, the unsigned and signed ARG operands of the snapshot (R131), the BUF regions and
their legality and alignment (R106), and the data formats read from and written to BUF (R103). -/

namespace Sys2Proof.Machine

/-- A command's checks behind the selector check: SEL outside lo..hi raises BAD_SELECTOR with the command word (R132, R501). -/
def withSelector (lo hi : Nat) (sel : BitVec 4) (check : State → Option CmdError) (s : State) : Option CmdError :=
  if lo ≤ sel.toNat ∧ sel.toNat ≤ hi then check s else some ⟨.badSelector, s.cmd⟩

/-- A command with no checks beyond decoding. -/
def noChecks (_ : State) : Option CmdError := none

/-- The biquad slot a selector names (R133); a selector that passed its check is below 8. -/
def slotOf (sel : BitVec 4) : Fin 8 := Fin.ofNat 8 sel.toNat

/-- The CRC mode a selector names (R133). -/
def crcModeOf (sel : BitVec 4) (s : State) : CrcMode := if sel = 0#4 then s.crc0 else s.crc1

/-- ARG0 as an unsigned number, from the snapshot (R131). -/
def arg0 (s : State) : Nat := s.snap.r0.toNat

/-- ARG1 as an unsigned number. -/
def arg1 (s : State) : Nat := s.snap.r1.toNat

/-- ARG2 as an unsigned number. -/
def arg2 (s : State) : Nat := s.snap.r2.toNat

/-- ARG3 as an unsigned number. -/
def arg3 (s : State) : Nat := s.snap.r3.toNat

/-- `s32(ARG0)` (R131). -/
def arg0s (s : State) : Int := s32 s.snap.r0

/-- `s32(ARG1)` (R131). -/
def arg1s (s : State) : Int := s32 s.snap.r1

/-- A region of n bytes at offset a is legal: it fits in BUF, on unbounded integers (R106). -/
def regionOk (a n : Nat) : Bool := decide (a + n ≤ Config.bufSize)

/-- An offset is divisible by k (R106). -/
def aligned (k a : Nat) : Bool := decide (a % k = 0)

/-- Four results, of which the rest are 0 (R37). -/
def results (r0 r1 r2 r3 : Word) : Quad := ⟨r0, r1, r2, r3⟩

/-- The n raw IQ pairs at offset a (R103). -/
def Memory.iqPairs (m : Memory) (a n : Nat) : List (Byte × Byte) := pairsOf (m.bytes a (2 * n))

/-- The n binary64 samples at offset a, eight bytes each (R103). -/
def Memory.f64s (m : Memory) (a n : Nat) : List F64 :=
  (pieces 8 n (m.bytes a (8 * n))).map (fun bs => BitVec.ofNat 64 (leValue bs))

/-- The n PCM samples at offset a, two bytes each, as signed numbers: `sext_16(MemRead(a + 2i, 2))` (R103, R416). -/
def Memory.pcms (m : Memory) (a n : Nat) : List Int :=
  (pieces 2 n (m.bytes a (2 * n))).map (fun bs => (BitVec.ofNat 16 (leValue bs)).toInt)

/-- Binary64 samples as the bytes they are stored in (R103). -/
def f64Bytes (xs : List F64) : List Byte := xs.flatMap (fun x => leBytes 8 x.toNat)

/-- PCM samples as the bytes they are stored in (R103). -/
def pcmBytes (xs : List Pcm) : List Byte := xs.flatMap (fun x => leBytes 2 x.toNat)

/-- A stored CRC: big-endian when STORED_LE = 0, little-endian when 1 (R103, R364). -/
def storedCrc (le : Bool) (first second : Byte) : Nat :=
  if le then first.toNat + second.toNat * 256 else first.toNat * 256 + second.toNat

end Sys2Proof.Machine
end

