-- ==== Sys2Proof/Machine/Crc.lean ====
section
/-! DEFINITION. The CRC-16 engine (spec file 44): CRC_CALC, CRC_CHECK. -/

namespace Sys2Proof.Machine

/-- One of the eight shifts of a byte (R362). -/
def crcShift (poly reg : BitVec 16) : BitVec 16 :=
  if reg.getLsbD 15 then (reg <<< 1) ^^^ poly else reg <<< 1

/-- `k` shifts (R362). -/
def crcShifts (poly : BitVec 16) : Nat → BitVec 16 → BitVec 16
  | 0, reg => reg
  | k + 1, reg => crcShifts poly k (crcShift poly reg)

/-- One byte taken into the register (R362). -/
def crcByte (m : CrcMode) (reg : BitVec 16) (b : Byte) : BitVec 16 :=
  let v := if crcRefin m then reflect 8 b.toNat else b.toNat
  crcShifts m.poly 8 (reg ^^^ (BitVec.ofNat 16 v <<< 8))

/-- `CRC16(n, bytes)` for the registers of a mode (R362). -/
def crc16 (m : CrcMode) (bytes : List Byte) : BitVec 16 :=
  let reg := bytes.foldl (crcByte m) m.init
  (if crcRefout m then BitVec.ofNat 16 (reflect 16 reg.toNat) else reg) ^^^ m.xorout

/-- CRC_CALC's check (R363). -/
def crcCalcCheck (s : State) : Option CmdError :=
  if ¬ regionOk (arg0 s) (arg1 s) then some ⟨.addrRange, s.snap.r0⟩ else none

/-- CRC_CALC's effect (R363). -/
def crcCalcEffect (mode : BitVec 4) (s : State) : Effect where
  state := s
  res := results ((crc16 (crcModeOf mode s) (s.buf.bytes (arg0 s) (arg1 s))).setWidth 32) 0#32 0#32 0#32
  irqs := 0#9

/-- CRC_CALC (R363). -/
def execCrcCalc (sel : BitVec 4) (s : State) : Host.Outcome State Fault Refusal :=
  runCommand (withSelector 0 1 sel crcCalcCheck) (crcCalcEffect sel) s

/-- CRC_CHECK's checks (R364). -/
def crcCheckCheck (s : State) : Option CmdError :=
  if ¬ regionOk (arg0 s) (arg1 s) then some ⟨.addrRange, s.snap.r0⟩
  else if ¬ regionOk (arg2 s) 2 then some ⟨.addrRange, s.snap.r2⟩
  else none

/-- CRC_CHECK's effect (R364). -/
def crcCheckEffect (mode : BitVec 4) (s : State) : Effect :=
  let m := crcModeOf mode s
  let computed := crc16 m (s.buf.bytes (arg0 s) (arg1 s))
  let stored := storedCrc (crcStoredLe m) (s.buf.read (arg2 s)) (s.buf.read (arg2 s + 1))
  let pass := decide (computed.toNat = stored)
  { state := { s with crcPass := pass }
    res := results (computed.setWidth 32) (wrap32 stored) (flagAt pass 0) 0#32
    irqs := 0#9 }

/-- CRC_CHECK (R364). -/
def execCrcCheck (sel : BitVec 4) (s : State) : Host.Outcome State Fault Refusal :=
  runCommand (withSelector 0 1 sel crcCheckCheck) (crcCheckEffect sel) s

end Sys2Proof.Machine
end

