-- ==== Sys2Proof/Machine/ReedSolomon.lean ====
section
/-! DEFINITION. The Reed-Solomon decoder (spec file 43): the field, the code, RS_CORRECT, and the commands RS_INIT and
RS_DECODE. Field elements are numbers below 2^m (R330); polynomials are lists of coefficients, lowest degree first. -/

namespace Sys2Proof.Machine

/-- The latched code as numbers: m, the field polynomial, FCR, PRIM, NROOTS (R331). -/
structure RsCode where
  m : Nat
  poly : Nat
  fcr : Nat
  prim : Nat
  nroots : Nat
deriving DecidableEq, Repr

/-- The code of a latched configuration (R331). -/
def rsCodeOf (c : RsConfig) : RsCode :=
  ⟨c.symsize.toNat, c.gfpoly.toNat, c.fcr.toNat, c.prim.toNat, c.nroots.toNat⟩

/-- Multiplication by x modulo p: one doubling, reduced when it reaches degree m (R330). -/
def gfDouble (c : RsCode) (a : Nat) : Nat := if 2 ^ c.m ≤ 2 * a then 2 * a ^^^ c.poly else 2 * a

/-- Polynomial multiplication modulo p over the `k` low bits of b (R330). -/
def gfMulBits (c : RsCode) : Nat → Nat → Nat → Nat
  | 0, _, _ => 0
  | k + 1, a, b => (if b % 2 = 1 then a else 0) ^^^ gfMulBits c k (gfDouble c a) (b / 2)

/-- The field product (R330). -/
def gfMul (c : RsCode) (a b : Nat) : Nat := gfMulBits c c.m a b

/-- `a` to the power `e`, over the `k` low bits of e. -/
def gfPowBits (c : RsCode) : Nat → Nat → Nat → Nat
  | 0, _, _ => 1
  | k + 1, a, e => gfMul c (if e % 2 = 1 then a else 1) (gfPowBits c k (gfMul c a a) (e / 2))

/-- NN = 2^m - 1, the order of the field's group (R330, R331). -/
def rsOrder (c : RsCode) : Nat := 2 ^ c.m - 1

/-- `a` to the power `e` in the field, `e` taken modulo NN. -/
def gfPow (c : RsCode) (a e : Nat) : Nat := gfPowBits c c.m a (e % rsOrder c)

/-- The inverse of a field element; 0 for 0. -/
def gfInv (c : RsCode) (a : Nat) : Nat := if a = 0 then 0 else gfPow c a (rsOrder c - 1)

/-- alpha to the power e; alpha is the element 2 (R330). -/
def alphaPow (c : RsCode) (e : Nat) : Nat := gfPow c 2 e

/-- The root rho_i (R331). -/
def rsRoot (c : RsCode) (i : Nat) : Nat := alphaPow c (c.prim * (c.fcr + i))

/-- The word r as a polynomial, r[0] of highest degree, at a field element (R331, R332). -/
def wordAt (c : RsCode) (x : Nat) (r : List Nat) : Nat := r.foldl (fun acc sym => gfMul c acc x ^^^ sym) 0

/-- The syndromes of a received word: its values at the roots. -/
def syndromes (c : RsCode) (r : List Nat) : List Nat := (List.range c.nroots).map (fun i => wordAt c (rsRoot c i) r)

/-- r is a codeword: it vanishes at every root (R331). -/
def isCodeword (c : RsCode) (r : List Nat) : Bool := (syndromes c r).all (fun v => v == 0)

/-- The locator of position j in a word of n symbols: beta^(n-1-j) (R331). -/
def locator (c : RsCode) (n j : Nat) : Nat := alphaPow c (c.prim * (n - 1 - j))

/-- The sum of two polynomials. -/
def polyAdd : List Nat → List Nat → List Nat
  | [], q => q
  | p, [] => p
  | a :: p, b :: q => (a ^^^ b) :: polyAdd p q

/-- A polynomial times a field element. -/
def polyScale (c : RsCode) (k : Nat) (p : List Nat) : List Nat := p.map (gfMul c k)

/-- A polynomial at a field element. -/
def polyAt (c : RsCode) (p : List Nat) (x : Nat) : Nat := p.foldr (fun a acc => a ^^^ gfMul c acc x) 0

/-- A polynomial applied to a sequence: the i-th coefficient times the i-th term, summed. -/
def pairing (c : RsCode) (p seq : List Nat) : Nat := (List.zipWith (gfMul c) p seq).foldr (fun a b => a ^^^ b) 0

/-- The product of (z + X) over locators X. -/
def rootsPoly (c : RsCode) (xs : List Nat) : List Nat := xs.foldr (fun x p => polyAdd (polyScale c x p) (0 :: p)) [1]

/-- The combinations of polynomials that vanish on a sequence, one fewer than the given ones, or all of them when all vanish. -/
def eliminate (c : RsCode) (seq : List Nat) : List (List Nat) → List (List Nat)
  | [] => []
  | p :: ps =>
    let d := pairing c p seq
    if d = 0 then p :: eliminate c seq ps
    else ps.map (fun q => polyAdd q (polyScale c (gfMul c (pairing c q seq) (gfInv c d)) p))

/-- A polynomial of degree at most t, not 0, that vanishes on the first t shifts of a sequence. -/
def annihilator (c : RsCode) (t : Nat) (seq : List Nat) : List Nat :=
  let powers := (List.range (t + 1)).map (fun k => List.replicate k 0 ++ [1])
  ((List.range t).foldl (fun ps i => eliminate c (seq.drop i) ps) powers).headD []

/-- The value of the error at locator x, where all errors stand at x and the other locators `xs`: the polynomial with the roots
`xs` leaves only this one of the syndromes' terms. -/
def errorValue (c : RsCode) (syn xs : List Nat) (x : Nat) : Nat :=
  let p := rootsPoly c xs
  gfMul c (pairing c p syn) (gfInv c (gfMul c (gfPow c x c.fcr) (polyAt c p x)))

/-- Where errors may stand: the erased positions, and those whose locator is a root of the annihilator of the syndromes with the
erased positions' terms taken out. At most (NROOTS - f) / 2 errors, f the number of erasures, stand at no other position. -/
def suspectPositions (c : RsCode) (n : Nat) (syn erased : List Nat) : List Nat :=
  let free := c.nroots - erased.length
  let gamma := rootsPoly c (erased.map (locator c n))
  let reduced := (List.range free).map (fun i => pairing c gamma (syn.drop i))
  let lambda := annihilator c (free / 2) reduced
  (List.range n).filter (fun j => erased.contains j || polyAt c lambda (locator c n j) == 0)

/-- The word RS_CORRECT tries: the received word with the error values added at the suspect positions. It is only a candidate:
`rsCorrect` checks it against R338 (log 13). -/
def rsCandidate (c : RsCode) (r : List Nat) (erased : List Nat) : List Nat :=
  let n := r.length
  let syn := syndromes c r
  let suspects := suspectPositions c n syn erased
  (r.zipIdx).map (fun sj =>
    if suspects.contains sj.2 then
      sj.1 ^^^ errorValue c syn ((suspects.filter (fun j => j != sj.2)).map (locator c n)) (locator c n sj.2)
    else sj.1)

/-- The positions of E and those where c differs from r, in ascending order (R338). -/
def correctedPositions (r c : List Nat) (erased : List Nat) : List Nat :=
  (List.range r.length).filter (fun j => erased.contains j || r.getD j 0 != c.getD j 0)

/-- The positions outside E where c differs from r: e of R338. -/
def errorPositions (r c : List Nat) (erased : List Nat) : List Nat :=
  (List.range r.length).filter (fun j => !erased.contains j && r.getD j 0 != c.getD j 0)

/-- c is a codeword of the field's symbols within the decoder's bound of r: 2 e + f <= NROOTS (R338). -/
def withinBound (code : RsCode) (r c : List Nat) (erased : List Nat) : Bool :=
  isCodeword code c && c.all (fun v => decide (v < 2 ^ code.m))
    && decide (2 * (errorPositions r c erased).length + erased.length ≤ code.nroots)

/-- `RS_CORRECT(r, E)` (R338): the corrected word and the positions counted, as many as cnt; none where cnt = -1. -/
def rsCorrect (code : RsCode) (r : List Nat) (erased : List Nat) : Option (List Nat × List Nat) :=
  if isCodeword code r then some (r, [])
  else
    let c := rsCandidate code r erased
    if withinBound code r c erased then some (c, correctedPositions r c erased) else none

/-- x, x^2, ... by repeated doubling from `a`, until 1 is met: the number of steps left out of `fuel` then; none if it is not
met. -/
def orderSearch (c : RsCode) : Nat → Nat → Option Nat
  | 0, _ => none
  | fuel + 1, a => if a = 1 then some fuel else orderSearch c fuel (gfDouble c a)

/-- p has degree m and alpha = x has order exactly 2^m - 1 modulo p: the first power of x that is 1 is that one (R334). -/
def isPrimitive (m p : Nat) : Bool :=
  decide (2 ^ m ≤ p) && decide (p < 2 ^ (m + 1))
    && decide (orderSearch ⟨m, p, 0, 1, 1⟩ (2 ^ m - 1) 2 = some 0)

/-- RS_INIT's checks, in order (R334). -/
def rsInitCheck (s : State) : Option CmdError :=
  let c := s.rs.config
  let m := c.symsize.toNat
  if ¬ (2 ≤ m ∧ m ≤ 8) then some ⟨.badConfig, 0x240#32⟩
  else if ¬ isPrimitive m c.gfpoly.toNat then some ⟨.badConfig, 0x244#32⟩
  else if ¬ c.fcr.toNat ≤ 2 ^ m - 2 then some ⟨.badConfig, 0x248#32⟩
  else if ¬ (1 ≤ c.prim.toNat ∧ c.prim.toNat ≤ 2 ^ m - 2 ∧ Nat.gcd c.prim.toNat (2 ^ m - 1) = 1) then
    some ⟨.badConfig, 0x24C#32⟩
  else if ¬ (1 ≤ c.nroots.toNat ∧ c.nroots.toNat ≤ 2 ^ m - 2) then some ⟨.badConfig, 0x250#32⟩
  else if ¬ c.pad.toNat + c.nroots.toNat ≤ 2 ^ m - 2 then some ⟨.badConfig, 0x254#32⟩
  else none

/-- RS_INIT's effect (R334). -/
def rsInitEffect (s : State) : Effect :=
  let n := wrap32 (2 ^ s.rs.config.symsize.toNat - 1 - s.rs.config.pad.toNat)
  let k := n - s.rs.config.nroots
  { state := { s with rs := { s.rs with latched := s.rs.config, n := n, k := k, ready := true } }
    res := results n k 0#32 0#32
    irqs := 0#9 }

/-- RS_INIT (R334). -/
def execRsInit (sel : BitVec 4) (s : State) : Host.Outcome State Fault Refusal :=
  runCommand (withSelector 0 0 sel rsInitCheck) rsInitEffect s

/-- Bytes as field symbols: bits m-1:0 (R332). -/
def symbolsOf (code : RsCode) (bs : List Byte) : List Nat := bs.map (fun b => b.toNat % 2 ^ code.m)

/-- Field symbols, or positions, as bytes (R332). -/
def bytesOf (xs : List Nat) : List Byte := xs.map (fun x => BitVec.ofNat 8 x)

/-- RS_DECODE's checks (R340). -/
def rsDecodeCheck (s : State) : Option CmdError :=
  if ¬ s.rs.ready then some ⟨.notReady, 0x258#32⟩
  else if s.rs.latched.nroots.toNat < arg2 s then some ⟨.badLength, s.snap.r2⟩
  else if ¬ regionOk (arg0 s) s.rs.n.toNat then some ⟨.addrRange, s.snap.r0⟩
  else if ¬ regionOk (arg1 s) (arg2 s) then some ⟨.addrRange, s.snap.r1⟩
  else if ¬ regionOk (arg3 s) s.rs.latched.nroots.toNat then some ⟨.addrRange, s.snap.r3⟩
  else none

/-- The erasure list names no position twice and none at or above N (R340). -/
def erasuresOk (n : Nat) (es : List Nat) : Bool := es.all (fun e => decide (e < n)) && decide es.Nodup

/-- RS_DECODE's effect (R340). -/
def rsDecodeEffect (s : State) : Effect :=
  let code := rsCodeOf s.rs.latched
  let r := symbolsOf code (s.buf.bytes (arg0 s) s.rs.n.toNat)
  let es := (s.buf.bytes (arg1 s) (arg2 s)).map (fun b => b.toNat)
  if erasuresOk s.rs.n.toNat es then
    match rsCorrect code r es with
    | some (c, ps) =>
      { state := { s with buf := (s.buf.write (arg0 s) (bytesOf c)).write (arg3 s) (bytesOf ps) }
        res := results (wrap32 ps.length) 0#32 s.snap.r2 0#32
        irqs := 0#9 }
    | none => { state := s, res := results 0xFFFFFFFF#32 0#32 s.snap.r2 0#32, irqs := 0#9 }
  else { state := s, res := results 0xFFFFFFFF#32 1#32 s.snap.r2 0#32, irqs := 0#9 }

/-- RS_DECODE (R340). -/
def execRsDecode (sel : BitVec 4) (s : State) : Host.Outcome State Fault Refusal :=
  runCommand (withSelector 0 0 sel rsDecodeCheck) rsDecodeEffect s

end Sys2Proof.Machine
end

