-- ==== Sys2Proof/Machine/DabSync.lean ====
section
/-! DEFINITION. The DAB frame synchronizer (spec file 42): DAB_RESET, DAB_FEED. -/

namespace Sys2Proof.Machine

/-- DAB_RESET's effect (R305). -/
def dabResetEffect (s : State) : Effect where
  state := { s with dab := clearSync s.dab }
  res := Quad.zero
  irqs := 0#9

/-- DAB_RESET (R305). -/
def execDabReset (sel : BitVec 4) (s : State) : Host.Outcome State Fault Refusal :=
  runCommand (withSelector 0 0 sel noChecks) dabResetEffect s

/-- Codeword k of an interleaved superframe: bytes k, k + s, k + 2s, ... (R303). -/
def interleaved (sf : List Byte) (s n k : Nat) : List Byte := (List.range n).map (fun j => sf.getD (k + s * j) 0#8)

/-- The superframe whose codeword k has its j-th symbol at k + s j (R303). -/
def deinterleave (s n : Nat) (cws : List (List Byte)) : List Byte :=
  (List.range (s * n)).map (fun i => (cws.getD (i % s) []).getD (i / s) 0#8)

/-- One codeword of a superframe decoded, with no erasures: the count and the corrected bytes; none if uncorrectable (R304). -/
def correctCodeword (code : RsCode) (cw : List Byte) : Option (Nat × List Byte) :=
  match rsCorrect code (symbolsOf code cw) [] with
  | some (c, ps) => some (ps.length, bytesOf c)
  | none => none

/-- The corrected superframe SF' and the total count, when every codeword decodes (R304). -/
def correctSuperframe (code : RsCode) (n : Nat) (sf : List Byte) : Option (List Byte × Nat) :=
  let s := sf.length / n
  let decoded := (List.range s).map (fun k => correctCodeword code (interleaved sf s n k))
  if decoded.all Option.isSome then
    let good := decoded.filterMap id
    some (deinterleave s n (good.map (fun d => d.2)), (good.map (fun d => d.1)).sum)
  else none

/-- The Fire-code header check of a corrected superframe: CRC mode 1 over bytes 2..10 against bytes 0, 1 (R304). -/
def fireCodeOk (m : CrcMode) (sf : List Byte) : Bool :=
  let computed := crc16 m ((sf.drop 2).take 9)
  decide (computed.toNat = storedCrc (crcStoredLe m) (sf.getD 0 0#8) (sf.getD 1 0#8))

/-- `VALIDATE(SF)` (R304): SF' and the total when ok, none when not. -/
def validate (s : State) (sf : List Byte) : Option (List Byte × Nat) :=
  match correctSuperframe (rsCodeOf s.rs.latched) s.rs.n.toNat sf with
  | some (sf', total) =>
    if s.dab.fireEn && !fireCodeOk s.crc1 sf' then none else some (sf', total)
  | none => none

/-- DAB_FRAG_LEN is legal (R45, R306). -/
def fragLenOk (f : Nat) : Bool := decide (24 ≤ f) && decide (f ≤ 1152) && decide (f % 24 = 0)

/-- DAB_FEED's checks (R306). -/
def dabFeedCheck (s : State) : Option CmdError :=
  let f := s.dab.fragLen.toNat
  let thr := s.dab.lossThr.toNat
  if ¬ s.rs.ready then some ⟨.notReady, 0x258#32⟩
  else if ¬ (fragLenOk f && decide (5 * f % s.rs.n.toNat = 0)) then some ⟨.badConfig, 0x200#32⟩
  else if ¬ (1 ≤ thr ∧ thr ≤ 255) then some ⟨.badConfig, 0x208#32⟩
  else if arg1 s ≠ f then some ⟨.badLength, s.snap.r1⟩
  else if ¬ regionOk (arg0 s) f then some ⟨.addrRange, s.snap.r0⟩
  else if ¬ regionOk (arg2 s) (5 * f) then some ⟨.addrRange, s.snap.r2⟩
  else none

/-- The synchronizer with a fragment appended (R302, R306). -/
def appendFragment (d : Dab) (frag : List Byte) : Dab := { d with win := d.win ++ [frag], winF := d.fragLen }

/-- The synchronizer after accepting a superframe (R306). -/
def acceptSuperframe (d : Dab) : Dab :=
  { d with sfCount := d.sfCount + 1#32, synced := true, fails := 0#8, win := [] }

/-- This rejection ends Synced: FAILS + 1 reaches DAB_LOSS_THR (R306). -/
def lossReached (d : Dab) : Bool := d.synced && decide (d.lossThr.toNat ≤ d.fails.toNat + 1)

/-- The synchronizer after rejecting a superframe: in Synced the five are dropped, in Searching the window slides by one
(R306). -/
def rejectSuperframe (d : Dab) : Dab :=
  if d.synced then
    { d with
      rejCount := d.rejCount + 1#32
      win := []
      fails := if lossReached d then 0#8 else d.fails + 1#8
      synced := !lossReached d }
  else { d with rejCount := d.rejCount + 1#32, win := d.win.drop 1 }

/-- The results of DAB_FEED (R306, R307). -/
def feedResults (outcome corrected : Nat) (d : Dab) : Quad :=
  results (wrap32 outcome) (wrap32 corrected) ((wcnt d).setWidth 32) (flagAt d.synced 0)

/-- DAB_FEED's effect (R306). -/
def dabFeedEffect (s : State) : Effect :=
  let held := appendFragment s.dab (s.buf.bytes (arg0 s) s.dab.fragLen.toNat)
  if held.win.length < 5 then
    { state := { s with dab := held }, res := feedResults 0 0 held, irqs := 0#9 }
  else
    match validate s held.win.flatten with
    | some (sf, total) =>
      let d := acceptSuperframe held
      { state := { s with dab := d, buf := s.buf.write (arg2 s) sf }
        res := feedResults 1 total d
        irqs := irqSuperframe ||| irqIf (!s.dab.synced) irqSyncAcq }
    | none =>
      let d := rejectSuperframe held
      { state := { s with dab := d }
        res := feedResults 2 0 d
        irqs := irqIf (lossReached held) irqSyncLost }

/-- DAB_FEED (R306). -/
def execDabFeed (sel : BitVec 4) (s : State) : Host.Outcome State Fault Refusal :=
  runCommand (withSelector 0 0 sel dabFeedCheck) dabFeedEffect s

end Sys2Proof.Machine
end

