-- ==== Sys2Proof/Machine/Angle.lean ====
section
/-! DEFINITION. The two discriminator angle functions and IQ_POLAR (R222-R224, R246). -/

namespace Sys2Proof.Machine

/-- The `k` binary digits of the angle of (x, y) in units of pi, for an angle in [0, pi): the angle is at least half of pi
exactly when x <= 0; squaring the point doubles its angle, and turning it back by pi keeps the angle below pi. All in exact
integers, so `angleDigits 14` is floor(angle / pi * 16384) (log 17). -/
def angleDigits : Nat → Int → Int → Nat
  | 0, _, _ => 0
  | k + 1, x, y =>
    if x ≤ 0 then 2 ^ k + angleDigits k (y * y - x * x) (-(2 * x * y))
    else angleDigits k (x * x - y * y) (2 * x * y)

/-- `ANGLE_EXACT(y, x)`: trunc(atan2(y, x) / pi * 16384) on real numbers, 0 for (0, 0) (R222). -/
def angleExact (y x : Int) : Int :=
  if y = 0 then (if x < 0 then 16384 else 0)
  else if 0 < y then (angleDigits 14 x y : Int)
  else -(angleDigits 14 x (-y) : Int)

/-- `ANGLE_FAST(y, x)`, the piecewise-linear approximation (R223). -/
def angleFast (y x : Int) : Int :=
  if x = 0 ∧ y = 0 then 0
  else
    let yabs : Int := (y.natAbs : Int)
    let a :=
      if 0 ≤ x then 4096 - quot (4096 * (x - yabs)) (x + yabs)
      else 12288 - quot (4096 * (x + yabs)) (yabs - x)
    if y < 0 then -a else a

/-- The angle function a selector or a latched flag picks (R221, R246). -/
def angleBy (fast : Bool) (y x : Int) : Int := if fast then angleFast y x else angleExact y x

/-- IQ_POLAR's effect (R246). -/
def iqPolarEffect (fast : Bool) (s : State) : Effect where
  state := s
  res := results (word32 (angleBy fast (arg1s s) (arg0s s)))
    (wrap32 (isqrt (arg0s s * arg0s s + arg1s s * arg1s s).toNat)) 0#32 0#32
  irqs := 0#9

/-- IQ_POLAR (R246): SEL 0 exact, 1 fast. -/
def execIqPolar (sel : BitVec 4) (s : State) : Host.Outcome State Fault Refusal :=
  runCommand (withSelector 0 1 sel noChecks) (iqPolarEffect (decide (sel = 1#4))) s

end Sys2Proof.Machine
end

