-- ==== Sys2Proof/Machine/Numerics.lean ====
section
/-! DEFINITION. The numerics functions SIN, COS, EXP and LOG10 (R260), the OPEN parameter P_NUMERICS. Each function of the
model takes the implementation's free choice (Config) where the choice meets R260, and the correctly rounded value where it
does not: so the model's functions always meet R260, and every conforming choice is one of them (logs 4 and 5). R271 bounds
SIN at every finite argument (log 24). The exact values are held as integers `n` at a scale `p`, standing for n / 2^p. -/

namespace Sys2Proof.Machine

/-- The four numerics functions (R260). -/
structure Numerics where
  sin : F64 → F64
  cos : F64 → F64
  exp : F64 → F64
  log10 : F64 → F64

/-- A real number held as the integer `n`, standing for n / 2^p, far closer to it than a binary64 ulp (log 5). -/
structure Approx where
  n : Int
  p : Nat

/-- The binary64 number nearest to the approximated one. -/
def Approx.nearest (a : Approx) : F64 := roundPack (decide (a.n < 0)) a.n.natAbs (-(a.p : Int))

/-- The approximated number's binade exponent less 52, at least -1074: the exponent of its ulp. -/
def Approx.ulpExponent (a : Approx) : Int := max ((Nat.log2 a.n.natAbs : Int) - a.p - 52) (-1074)

/-- `c` is a finite number within 1 ulp of the approximated one (R260). -/
def Approx.withinUlp (a : Approx) (c : F64) : Bool :=
  match unpack c with
  | .fin neg m e =>
    let lo : Int := -((a.p : Int) + 1100)
    let ulp : Nat := 2 ^ (a.ulpExponent - lo).toNat
    decide ((scaled neg m e lo - a.n * 2 ^ 1100).natAbs ≤ ulp)
  | _ => false

/-- The implementation's choice where it is within 1 ulp and passes `extra`, else the nearest number. -/
def Approx.choose (a : Approx) (extra : F64 → Bool) (choice : F64) : F64 :=
  if a.withinUlp choice && extra choice then choice else a.nearest

/-- How many bits below the binary point the leading bit of m * 2^e lies; 0 when it lies above. -/
def leadingZeros (m : Nat) (e : Int) : Nat := (-(e + (Nat.log2 m : Int))).toNat

/-- The scale (bits below the binary point) at which sine and cosine of m * 2^e are computed. -/
def trigScale (m : Nat) (e : Int) : Nat := 512 + 4 * leadingZeros m e

/-- How often sine and cosine arguments, or the exponential's, are halved before the power series. -/
def halvings (m : Nat) (e : Int) : Nat := (e + (Nat.log2 m : Int) + 8).toNat

/-- Cosine and sine of x / 2^w by their power series, at scale w: `term` is the current term of the exponential of i x, and
`k` its index. Four terms a turn. -/
def cisSeries (w : Nat) (x : Int) : Nat → Nat → Int → Int × Int
  | 0, _, _ => (0, 0)
  | turns + 1, k, term =>
    let t1 := term * x / 2 ^ w / ((k + 1 : Nat) : Int)
    let t2 := t1 * x / 2 ^ w / ((k + 2 : Nat) : Int)
    let t3 := t2 * x / 2 ^ w / ((k + 3 : Nat) : Int)
    let t4 := t3 * x / 2 ^ w / ((k + 4 : Nat) : Int)
    let rest := cisSeries w x turns (k + 4) t4
    (term - t2 + rest.1, t1 - t3 + rest.2)

/-- The angle doubled `k` times: the square of a point on the unit circle, at scale w. -/
def doubleAngle (w : Nat) : Nat → Int × Int → Int × Int
  | 0, cs => cs
  | k + 1, (c, s) => doubleAngle w k ((c * c - s * s) / 2 ^ w, 2 * c * s / 2 ^ w)

/-- (cos x, sin x) for x = m * 2^e, m not 0, with the scale they are held at. -/
def cisApprox (m : Nat) (e : Int) : Approx × Approx :=
  let k := halvings m e
  let p := trigScale m e
  let w := p + k
  -- x / 2^k at scale w is x at scale p; trigScale keeps p + e at least 0
  let x : Int := ((m * 2 ^ ((p : Int) + e).toNat : Nat) : Int)
  -- the more doublings follow, the more terms are taken
  let cs := doubleAngle w k (cisSeries w x (20 + k / 40) 0 (2 ^ w))
  (⟨cs.1, w⟩, ⟨cs.2, w⟩)

/-- |x| is at most 2^20, the range in which R260 limits SIN and COS to 1 ulp. -/
def trigRange (m : Nat) (e : Int) : Bool := decide (scaled false m e (-1074) ≤ 2 ^ (1074 + 20))

/-- c is a number in [-1.0, 1.0]: false for a NaN. -/
def unitBounded (c : F64) : Bool := fle (fabs c) fone

/-- The nearest number to a sine or a cosine, held to [-1.0, 1.0], where both lie. -/
def Approx.nearestUnit (a : Approx) : F64 :=
  if unitBounded a.nearest then a.nearest else if a.n < 0 then fneg fone else fone

/-- The implementation's choice where it lies in [-1.0, 1.0] and, if `limited`, within 1 ulp; else the nearest number. -/
def Approx.chooseUnit (a : Approx) (limited : Bool) (choice : F64) : F64 :=
  if unitBounded choice && (!limited || a.withinUlp choice) then choice else a.nearestUnit

/-- SIN limited by R260 from an implementation's choice; R271 bounds it by 1.0 at every finite argument (log 24). -/
def conformSin (choice : F64 → F64) (x : F64) : F64 :=
  match unpack x with
  | .nan | .inf _ => canonicalNaN
  | .fin neg m e =>
    if m = 0 then x
    else
      let a := (cisApprox m e).2
      Approx.chooseUnit ⟨if neg then -a.n else a.n, a.p⟩ (trigRange m e) (canon (choice x))

/-- COS limited by R260 from an implementation's choice; beyond 2^20 it is free (log 6). -/
def conformCos (choice : F64 → F64) (x : F64) : F64 :=
  match unpack x with
  | .nan | .inf _ => canonicalNaN
  | .fin _ m e =>
    if m = 0 then fone
    else if trigRange m e then (cisApprox m e).1.chooseUnit true (canon (choice x))
    else canon (choice x)

/-- The exponential of x / 2^w by its power series, at scale w. -/
def expSeries (w : Nat) (x : Nat) : Nat → Nat → Nat → Nat
  | 0, _, _ => 0
  | terms + 1, k, term => term + expSeries w x terms (k + 1) (term * x / 2 ^ w / (k + 1))

/-- A number squared `k` times, at scale w. -/
def squareTimes (w : Nat) : Nat → Nat → Nat
  | 0, y => y
  | k + 1, y => squareTimes w k (y * y / 2 ^ w)

/-- e^x for x = (-1)^neg * m * 2^e with |x| at most 1024, m not 0. -/
def expApprox (neg : Bool) (m : Nat) (e : Int) : Approx :=
  let k := halvings m e
  let p := 2048 + 2 * leadingZeros m e
  let w := p + k
  let x := m * 2 ^ ((p : Int) + e).toNat
  let y := squareTimes w k (expSeries w x 200 0 (2 ^ w))
  if neg then ⟨((2 ^ (2 * w) / y : Nat) : Int), w⟩ else ⟨(y : Int), w⟩

/-- c is +0.0 or a positive subnormal. -/
def zeroOrSubnormal (c : F64) : Bool := decide (c.toNat < 2 ^ 52)

/-- EXP limited by R260 from an implementation's choice. -/
def conformExp (choice : F64 → F64) (x : F64) : F64 :=
  match unpack x with
  | .nan | .inf _ => canon (choice x)
  | .fin neg m e =>
    if x = 0#64 then fone
    else if m = 0 then (Approx.mk 1 0).choose (fun _ => true) (canon (choice x))
    else if decide (2 ^ (1074 + 10) < scaled false m e (-1074)) then
      -- |x| above 1024: e^x overflows, or lies below a quarter of the least subnormal
      if neg then (if (canon (choice x)).toNat ≤ 1 then canon (choice x) else 0#64) else infinity false
    else
      let a := expApprox neg m e
      let r := a.nearest
      if r = infinity false then r
      else if zeroOrSubnormal r then a.choose zeroOrSubnormal (canon (choice x))
      else a.choose (fun _ => true) (canon (choice x))

/-- 2 * artanh(z) by its power series, for z = num / 2^w at scale w: `zz` is z squared, `k` the odd index of the term. -/
def artanhSeries (w : Nat) (zz : Nat) : Nat → Nat → Nat → Nat
  | 0, _, _ => 0
  | terms + 1, k, power => 2 * power / k + artanhSeries w zz terms (k + 2) (power * zz / 2 ^ w)

/-- ln(num / den) for den <= num <= 2 den, at scale w. -/
def lnRatio (w num den : Nat) : Nat :=
  let z := (num - den) * 2 ^ w / (num + den)
  artanhSeries w (z * z / 2 ^ w) 220 1 z

/-- ln 2 at scale w. -/
def ln2 (w : Nat) : Nat := lnRatio w 2 1

/-- ln 10 = 3 ln 2 + ln (10/8) at scale w. -/
def ln10 (w : Nat) : Nat := 3 * ln2 w + lnRatio w 10 8

/-- log10 x for x = m * 2^e, m not 0. -/
def log10Approx (m : Nat) (e : Int) : Approx :=
  let w := 640
  let top := Nat.log2 m
  let ln : Int := (e + top) * (ln2 w : Int) + (lnRatio w m (2 ^ top) : Int)
  ⟨ln * 2 ^ w / (ln10 w : Int), w⟩

/-- The power of ten among 10^0 .. 10^22 that m * 2^e is, if it is one. -/
def tenPower (m : Nat) (e : Int) : Option Nat :=
  (List.range 23).find? (fun k => decide (scaled false m e (-1074) = ((10 ^ k * 2 ^ 1074 : Nat) : Int)))

/-- LOG10 limited by R260 from an implementation's choice. -/
def conformLog10 (choice : F64 → F64) (x : F64) : F64 :=
  match unpack x with
  | .nan => canonicalNaN
  | .inf neg => if neg then canonicalNaN else canon (choice x)
  | .fin neg m e =>
    if m = 0 then (if neg then canon (choice x) else infinity true)
    else if neg then canonicalNaN
    else
      match tenPower m e with
      | some k => fofNat k
      | none => (log10Approx m e).choose (fun _ => true) (canon (choice x))

/-- The numerics of an implementation that makes the given choices. -/
def Numerics.conform (sin cos exp log10 : F64 → F64) : Numerics where
  sin := conformSin sin
  cos := conformCos cos
  exp := conformExp exp
  log10 := conformLog10 log10

/-- The block's numerics: P_NUMERICS, free within R260 and R271. -/
def numerics : Numerics := Numerics.conform Config.sinChoice Config.cosChoice Config.expChoice Config.log10Choice

/-- The correctly rounded numerics, the choice the spec's test vectors assume (R260): a choice of NaN everywhere never
conforms where R260 limits the value, so the nearest number is taken. -/
def numericsNearest : Numerics :=
  Numerics.conform (fun _ => canonicalNaN) (fun _ => canonicalNaN) (fun _ => canonicalNaN) (fun _ => canonicalNaN)

end Sys2Proof.Machine
end

