-- ==== Sys2Proof/Machine/Diagnostics.lean ====
section
/-! DEFINITION. The diagnostics (spec file 46): NOP, PWR_CALC, BR_ADD, STN_SCORE. -/

namespace Sys2Proof.Machine

/-- NOP's effect: nothing but the success record (R418). -/
def nopEffect (s : State) : Effect where
  state := s
  res := Quad.zero
  irqs := 0#9

/-- NOP (R418). -/
def execNop (sel : BitVec 4) (s : State) : Host.Outcome State Fault Refusal :=
  runCommand (withSelector 0 0 sel noChecks) nopEffect s

/-- A raw IQ byte less the centre 127 (R220, R411). -/
def centred (b : Byte) : Int := (b.toNat : Int) - 127

/-- `I*I + Q*Q` of a raw IQ pair (R411). -/
def pairPower (p : Byte × Byte) : Nat := (centred p.1 * centred p.1 + centred p.2 * centred p.2).natAbs

/-- The dB of one pair: 10 * LOG10(I*I + Q*Q), and 0.0 for I = Q = 0 (R411). -/
def pairDb (nm : Numerics) (p : Byte × Byte) : F64 :=
  if pairPower p = 0 then 0#64 else fmul (fofNat 10) (nm.log10 (fofNat (pairPower p)))

/-- `POWER_PERCENT` over the given pairs, which are the first min(PWR_WIN, count) (R411). -/
def powerPercent (nm : Numerics) (pwrMax : Nat) (pairs : List (Byte × Byte)) : Nat :=
  if pairs.length = 0 then 0
  else
    let sum := pairs.foldl (fun acc p => fadd acc (pairDb nm p)) 0#64
    let mean := fdiv sum (fofNat pairs.length)
    (min 100 (max 0 (ffloor (fdiv (fmul (fofNat 100) mean) (fofNat pwrMax))))).toNat

/-- The power configuration is legal: PWR_WIN in 1..65535, then PWR_MAX not 0 (R240, R412). -/
def powerConfigError (d : Diag) : Option CmdError :=
  if ¬ (1 ≤ d.pwrWin.toNat ∧ d.pwrWin.toNat ≤ 65535) then some ⟨.badConfig, 0x380#32⟩
  else if ¬ 1 ≤ d.pwrMax.toNat then some ⟨.badConfig, 0x384#32⟩
  else none

/-- PWR_CALC's checks (R412). -/
def pwrCalcCheck (s : State) : Option CmdError :=
  match powerConfigError s.diag with
  | some e => some e
  | none => if ¬ regionOk (arg0 s) (2 * arg1 s) then some ⟨.addrRange, s.snap.r0⟩ else none

/-- The power of `count` pairs at offset a, by the registers in force (R411). -/
def powerAt (s : State) (a count : Nat) : Nat :=
  powerPercent numerics s.diag.pwrMax.toNat (s.buf.iqPairs a (min s.diag.pwrWin.toNat count))

/-- PWR_CALC's effect (R412). -/
def pwrCalcEffect (s : State) : Effect :=
  let p := wrap32 (powerAt s (arg0 s) (arg1 s))
  { state := { s with diag := { s.diag with pwrLast := p } }
    res := results p 0#32 0#32 0#32
    irqs := irqPwrUpd }

/-- PWR_CALC (R412). -/
def execPwrCalc (sel : BitVec 4) (s : State) : Host.Outcome State Fault Refusal :=
  runCommand (withSelector 0 0 sel pwrCalcCheck) pwrCalcEffect s

/-- Bytes in the open window with ARG0 added, saturating at 2^64 - 1 (R414). -/
def brTotal (s : State) : Nat := min (2 ^ 64 - 1) (s.diag.brBytes.toNat + arg0 s)

/-- Time since the window opened, modulo 2^64 (R414). -/
def brElapsed (s : State) : Nat := (s.time - s.diag.brT0).toNat

/-- The rate of a closing window, saturating at 2^32 - 1 (R414). -/
def brRate (s : State) : Nat := min (2 ^ 32 - 1) (brTotal s * 8 * 1000000 / brElapsed s)

/-- BR_ADD's effect (R414). -/
def brAddEffect (s : State) : Effect :=
  if Config.oneSecond ≤ brElapsed s then
    { state := { s with diag := { s.diag with bitrate := wrap32 (brRate s), brBytes := 0#64, brT0 := s.time } }
      res := results (wrap32 (brRate s)) 1#32 0#32 0#32
      irqs := irqBrUpd }
  else
    { state := { s with diag := { s.diag with brBytes := BitVec.ofNat 64 (brTotal s) } }
      res := results s.diag.bitrate 0#32 0#32 0#32
      irqs := 0#9 }

/-- BR_ADD (R414). -/
def execBrAdd (sel : BitVec 4) (s : State) : Host.Outcome State Fault Refusal :=
  runCommand (withSelector 0 0 sel noChecks) brAddEffect s

/-- Sign changes between neighbours, 0 counted as positive (R416). -/
def zeroCrossings : List Int → Nat
  | x :: y :: rest => (if decide (x < 0) != decide (y < 0) then 1 else 0) + zeroCrossings (y :: rest)
  | _ => 0

/-- The root mean square of one window of w samples (R416). -/
def windowRms (w : Nat) (xs : List Int) : F64 :=
  fsqrt (fdiv (fofInt ((xs.map (fun x => x * x)).sum)) (fofNat w))

/-- A sum of binary64 numbers, left to right (R416). -/
def fsum : List F64 → F64
  | [] => 0#64
  | x :: xs => xs.foldl fadd x

/-- The mean of binary64 numbers (R416). -/
def fmean (xs : List F64) : F64 := fdiv (fsum xs) (fofNat xs.length)

/-- The population variance (R416). -/
def fvariance (xs : List F64) : F64 :=
  let mean := fmean xs
  fmean (xs.map (fun x => fmul (fsub x mean) (fsub x mean)))

/-- The RMS values of the whole windows of a sample sequence at a rate (R416). -/
def rmsWindows (rate : Nat) (xs : List Int) : List F64 :=
  let w := rate / 100
  (pieces w (xs.length / w) xs).map (windowRms w)

/-- STN_SCORE's checks (R416). -/
def stnScoreCheck (s : State) : Option CmdError :=
  if ¬ (100 ≤ arg2 s ∧ arg2 s ≤ 204899) then some ⟨.badConfig, 2#32⟩
  else if arg1 s < 4096 ∨ arg1 s % 2 = 1 then some ⟨.badLength, s.snap.r1⟩
  else if ¬ aligned 2 (arg0 s) then some ⟨.misaligned, s.snap.r0⟩
  else if ¬ regionOk (arg0 s) (arg1 s) then some ⟨.addrRange, s.snap.r0⟩
  else none

/-- STN_SCORE's effect (R416). -/
def stnScoreEffect (s : State) : Effect :=
  let xs := s.buf.pcms (arg0 s) (arg1 s / 2)
  let rms := rmsWindows (arg2 s) xs
  let var := fvariance rms
  { state := s
    res := results (wrap32 (zeroCrossings xs)) (lowHalf var) (highHalf var)
      (wrap32 (Config.stationScore (zeroCrossings xs) (arg1 s / 2) rms var).val)
    irqs := 0#9 }

/-- STN_SCORE (R416). -/
def execStnScore (sel : BitVec 4) (s : State) : Host.Outcome State Fault Refusal :=
  runCommand (withSelector 0 0 sel stnScoreCheck) stnScoreEffect s

end Sys2Proof.Machine
end

