-- ==== Sys2Proof/Machine/Filters.lean ====
section
/-! DEFINITION. The biquad bank and the phase-locked loop (spec file 41): design, step, wrap, and the commands BQ_DESIGN, BQ_RUN,
BQ_CLEAR, PLL_RUN, PLL_CLEAR. -/

namespace Sys2Proof.Machine

/-- Which design check fails first (R263). -/
inductive DesignFault where
  | filterType
  | sampleRate
  | frequency
  | quality
deriving DecidableEq, Repr

/-- The design checks, in order (R263): t in 0..1, Fs at least 1, f0 at least 1 and 2 f0 < Fs, QM at least 1. -/
def designFault (t f0 fs qm : Nat) : Option DesignFault :=
  if ¬ t ≤ 1 then some .filterType
  else if ¬ 1 ≤ fs then some .sampleRate
  else if ¬ (1 ≤ f0 ∧ 2 * f0 < fs) then some .frequency
  else if ¬ 1 ≤ qm then some .quality
  else none

/-- The coefficients B0, B1, B2, A1, A2 of a design. -/
structure Coeffs where
  b0 : F64
  b1 : F64
  b2 : F64
  a1 : F64
  a2 : F64
deriving DecidableEq, Repr

/-- The phase increment `((2.0 * PI64) * f64(f0)) / f64(Fs)` (R212, R264). -/
def radiansPerSample (f0 fs : Nat) : F64 := fdiv (fmul (fmul ftwo pi64) (fofNat f0)) (fofNat fs)

/-- `DESIGN(t, f0, Fs, QM)` (R264), t = 0 low-pass, else band-pass. -/
def design (nm : Numerics) (t f0 fs qm : Nat) : Coeffs :=
  let w0 := radiansPerSample f0 fs
  let cs := nm.cos w0
  let sn := nm.sin w0
  let q := fdiv (fofNat qm) (fofNat 1000)
  let alpha := fdiv sn (fmul ftwo q)
  let b0 := if t = 0 then fdiv (fsub fone cs) ftwo else alpha
  let b1 := if t = 0 then fsub fone cs else 0#64
  let b2 := if t = 0 then fdiv (fsub fone cs) ftwo else fneg alpha
  let a0 := fadd fone alpha
  let a1 := fmul (fneg ftwo) cs
  let a2 := fsub fone alpha
  ⟨fdiv b0 a0, fdiv b1 a0, fdiv b2 a0, fdiv a1 a0, fdiv a2 a0⟩

/-- A slot with designed coefficients and cleared state (R265). -/
def designedSlot (c : Coeffs) : BqSlot := ⟨c.b0, c.b1, c.b2, c.a1, c.a2, 0#64, 0#64, 0#64, 0#64⟩

/-- A slot with its four state values cleared (R268). -/
def clearedSlot (b : BqSlot) : BqSlot := { b with x1 := 0#64, x2 := 0#64, y1 := 0#64, y2 := 0#64 }

/-- The output of one direct-form-I step (R266), left to right. DESIGN CHOICE (log 25): R262 says that an unconfigured slot outputs
+0.0 for every finite input, but with every coefficient +0.0 these steps give -0.0 where x, X1 and X2 are all of negative sign
and Y1 and Y2 are +0.0; the steps of R266 are followed. -/
def bqOutput (b : BqSlot) (x : F64) : F64 :=
  fsub (fsub (fadd (fadd (fmul b.b0 x) (fmul b.b1 b.x1)) (fmul b.b2 b.x2)) (fmul b.a1 b.y1)) (fmul b.a2 b.y2)

/-- `BQ_STEP` (R266): the slot after the step, and the output. -/
def bqStep (b : BqSlot) (x : F64) : BqSlot × F64 :=
  let y := bqOutput b x
  ({ b with x2 := b.x1, x1 := x, y2 := b.y1, y1 := y }, y)

/-- A step function run over samples in order: the state after the last, and the outputs. -/
def runSamples {σ α β : Type} (f : σ → α → σ × β) : σ → List α → σ × List β
  | s, [] => (s, [])
  | s, x :: xs =>
    let one := f s x
    let rest := runSamples f one.1 xs
    (rest.1, one.2 :: rest.2)

/-- The first loop of `WRAP` (R272), at most `turns` times: 2 pi is added while v < 0.0. -/
def wrapUp : Nat → F64 → F64
  | 0, v => v
  | turns + 1, v => if flt v 0#64 then wrapUp turns (fadd v twoPi64) else v

/-- The second loop of `WRAP` (R272), at most `turns` times: 2 pi is subtracted while v >= TWO_PI64. -/
def wrapDown : Nat → F64 → F64
  | 0, v => v
  | turns + 1, v => if fle twoPi64 v then wrapDown turns (fsub v twoPi64) else v

/-- How many turns each loop of `WRAP` is given; the loops end within 163 (R272). -/
def wrapTurns : Nat := 200

/-- v is NaN, infinite, or |v| >= 1024.0 (R272). -/
def outOfWrapBound (v : F64) : Bool :=
  match unpack v with
  | .nan | .inf _ => true
  | .fin _ _ _ => fle (fofNat 1024) (fabs v)

/-- `WRAP(v)` (R272). -/
def wrapPhase (v : F64) : F64 :=
  if outOfWrapBound v then 0#64 else wrapDown wrapTurns (wrapUp wrapTurns v)

/-- `PLL_STEP(p)` (R227): the loop after the step, and the carrier -SIN(2 phi), both from phi before the update. -/
def pllStep (nm : Numerics) (l : Pll) (p : F64) : Pll × F64 :=
  let e := fmul p (nm.sin l.phase)
  let c := fneg (nm.sin (fmul ftwo l.phase))
  let integ := fadd l.integ (fmul l.ki e)
  let next := fadd (fadd (fadd l.phase l.w0) (fmul l.kp e)) integ
  ({ l with integ := integ, phase := wrapPhase next }, c)

/-- BQ_DESIGN's checks: the index of the failing operand is reported (R265). -/
def bqDesignCheck (s : State) : Option CmdError :=
  match designFault (arg0 s) (arg1 s) (arg2 s) (arg3 s) with
  | some .filterType => some ⟨.badConfig, 0#32⟩
  | some .sampleRate => some ⟨.badConfig, 2#32⟩
  | some .frequency => some ⟨.badConfig, 1#32⟩
  | some .quality => some ⟨.badConfig, 3#32⟩
  | none => none

/-- BQ_DESIGN's effect (R265). -/
def bqDesignEffect (slot : Fin 8) (s : State) : Effect where
  state := { s with bq := s.bq.set slot (designedSlot (design numerics (arg0 s) (arg1 s) (arg2 s) (arg3 s))) }
  res := Quad.zero
  irqs := 0#9

/-- BQ_DESIGN (R265). -/
def execBqDesign (sel : BitVec 4) (s : State) : Host.Outcome State Fault Refusal :=
  runCommand (withSelector 0 7 sel bqDesignCheck) (bqDesignEffect (slotOf sel)) s

/-- The checks of a command over a binary64 source and destination of ARG1 samples (R267, R273). -/
def f64RunCheck (s : State) : Option CmdError :=
  if ¬ aligned 8 (arg0 s) then some ⟨.misaligned, s.snap.r0⟩
  else if ¬ aligned 8 (arg2 s) then some ⟨.misaligned, s.snap.r2⟩
  else if ¬ regionOk (arg0 s) (8 * arg1 s) then some ⟨.addrRange, s.snap.r0⟩
  else if ¬ regionOk (arg2 s) (8 * arg1 s) then some ⟨.addrRange, s.snap.r2⟩
  else none

/-- BQ_RUN's effect: all samples read, filtered in order, stored (R267). -/
def bqRunEffect (slot : Fin 8) (s : State) : Effect :=
  let run := runSamples bqStep s.bq[slot] (s.buf.f64s (arg0 s) (arg1 s))
  { state := { s with bq := s.bq.set slot run.1, buf := s.buf.write (arg2 s) (f64Bytes run.2) }
    res := results s.snap.r1 0#32 0#32 0#32
    irqs := 0#9 }

/-- BQ_RUN (R267). -/
def execBqRun (sel : BitVec 4) (s : State) : Host.Outcome State Fault Refusal :=
  runCommand (withSelector 0 7 sel f64RunCheck) (bqRunEffect (slotOf sel)) s

/-- BQ_CLEAR's effect (R268). -/
def bqClearEffect (slot : Fin 8) (s : State) : Effect where
  state := { s with bq := s.bq.set slot (clearedSlot s.bq[slot]) }
  res := Quad.zero
  irqs := 0#9

/-- BQ_CLEAR (R268). -/
def execBqClear (sel : BitVec 4) (s : State) : Host.Outcome State Fault Refusal :=
  runCommand (withSelector 0 7 sel noChecks) (bqClearEffect (slotOf sel)) s

/-- PLL_RUN's effect: all samples read, the loop stepped over them, the carrier stored (R273). -/
def pllRunEffect (s : State) : Effect :=
  let run := runSamples (pllStep numerics) s.pll (s.buf.f64s (arg0 s) (arg1 s))
  { state := { s with pll := run.1, buf := s.buf.write (arg2 s) (f64Bytes run.2) }
    res := results s.snap.r1 0#32 0#32 0#32
    irqs := 0#9 }

/-- PLL_RUN (R273). -/
def execPllRun (sel : BitVec 4) (s : State) : Host.Outcome State Fault Refusal :=
  runCommand (withSelector 0 0 sel f64RunCheck) pllRunEffect s

/-- PLL_CLEAR's effect (R274). -/
def pllClearEffect (s : State) : Effect where
  state := { s with pll := { s.pll with phase := 0#64, integ := 0#64 } }
  res := Quad.zero
  irqs := 0#9

/-- PLL_CLEAR (R274). -/
def execPllClear (sel : BitVec 4) (s : State) : Host.Outcome State Fault Refusal :=
  runCommand (withSelector 0 0 sel noChecks) pllClearEffect s

end Sys2Proof.Machine
end

