-- ==== Sys2Proof/Machine/Fm.lean ====
section
/-! DEFINITION. The FM unit (spec file 40): FM_START, FM_PROCESS, FM_FINISH. -/

namespace Sys2Proof.Machine

/-- The registers the FM data path carries from sample to sample: the FM unit's, biquad slots 0-3 and the PLL (R201). -/
structure FmPath where
  fm : Fm
  pll : Pll
  bq : Vector BqSlot 8
deriving DecidableEq, Repr

/-- `D(SR)`, the decimation factor (R211). -/
def decimation (sr : Nat) : Nat := 1000000 / sr + 1

/-- `A(SR)`, the de-emphasis divisor (R230). -/
def deemphDivisor (nm : Numerics) (sr : Nat) : Int :=
  let t := fmul (fofNat sr) tau64
  let u := fdiv fone t
  let v := nm.exp (fneg u)
  let w := fsub fone v
  fround (fdiv fone w)

/-- `PCM16(v)` (R229). -/
def pcm16 (v : F64) : Int :=
  if isNaN v then 0
  else
    let c := if flt v (fneg fone) then fneg fone else if flt fone v then fone else v
    ftrunc (fmul c (fofNat 32767))

/-- A signed number as a PCM sample (R103). -/
def toPcm (v : Int) : Pcm := BitVec.ofInt 16 v

/-- The stereo path for one discriminator output (R226): L then R. -/
def stereoStep (nm : Numerics) (p : FmPath) (d : Int) : FmPath × List Pcm :=
  let x := fdiv (fofInt d) (fofNat 16384)
  let pilot := bqStep p.bq[0] x
  let loop := pllStep nm p.pll pilot.2
  let sub := bqStep p.bq[1] x
  let dm := fmul (fmul ftwo sub.2) loop.2
  let mono := bqStep p.bq[2] x
  let diff := bqStep p.bq[3] dm
  let left := fdiv (fadd mono.2 diff.2) ftwo
  let right := fdiv (fsub mono.2 diff.2) ftwo
  ({ p with pll := loop.1, bq := (((p.bq.set 0 pilot.1).set 1 sub.1).set 2 mono.1).set 3 diff.1 },
    [toPcm (pcm16 left), toPcm (pcm16 right)])

/-- The de-emphasis filter's next `avg` (R231). -/
def deemphNext (a avg d : Int) : Int :=
  let dl := d - avg
  if 0 < dl then avg + quot (dl + quot a 2) a else avg + quot (dl - quot a 2) a

/-- The emphasize path for one discriminator output: de-emphasis (R231), then the second decimation (R232). -/
def emphStep (p : FmPath) (d : Int) : FmPath × List Pcm :=
  let avg := deemphNext p.fm.deemphA.toNat (s32 p.fm.deemphAvg) d
  let acc := s32 p.fm.lprAcc + sat16 avg
  let idx := p.fm.lprIdx.toNat + p.fm.lOutRate.toNat
  let fast := p.fm.lSr.toNat
  if fast ≤ idx then
    ({ p with fm := { p.fm with
        deemphAvg := word32 avg
        lprAcc := 0#32
        lprIdx := wrap32 (idx - fast) } },
      [toPcm (sat16 (quot acc ((fast / p.fm.lOutRate.toNat : Nat) : Int)))])
  else
    ({ p with fm := { p.fm with
        deemphAvg := word32 avg
        lprAcc := word32 acc
        lprIdx := wrap32 idx } }, [])

/-- One discriminator output to the output path that FM_START chose (R200, R225, R226, R231). -/
def pathStep (nm : Numerics) (p : FmPath) (d : Int) : FmPath × List Pcm :=
  if p.fm.lStereo then stereoStep nm p d
  else if p.fm.lEmph then emphStep p d
  else (p, [toPcm (sat16 d)])

/-- The discriminator's output for a decimated sample, from the previous one (R221). -/
def discriminate (f : Fm) (ci cq : Int) : Int :=
  let re := ci * s32 f.prevI + cq * s32 f.prevQ
  let im := cq * s32 f.prevI - ci * s32 f.prevQ
  angleBy f.lFast im re

/-- One decimated sample through the discriminator and the output path (R221). -/
def sampleStep (nm : Numerics) (p : FmPath) (ci cq : Int) : FmPath × List Pcm :=
  pathStep nm { p with fm := { p.fm with prevI := word32 ci, prevQ := word32 cq } } (discriminate p.fm ci cq)

/-- One raw IQ pair through the decimator, and on when D pairs are summed (R220). -/
def pairStep (nm : Numerics) (p : FmPath) (pair : Byte × Byte) : FmPath × List Pcm :=
  let accI := s32 p.fm.accI + centred pair.1
  let accQ := s32 p.fm.accQ + centred pair.2
  let cnt := p.fm.accCnt.toNat + 1
  let d := p.fm.downsample.toNat
  if cnt = d then
    sampleStep nm { p with fm := { p.fm with accI := 0#32, accQ := 0#32, accCnt := 0#32 } } (quot accI d) (quot accQ d)
  else
    ({ p with fm := { p.fm with accI := word32 accI, accQ := word32 accQ, accCnt := wrap32 cnt } }, [])

/-- The whole input of an FM_PROCESS: the registers after the last pair, and every PCM sample produced (R240). -/
def fmRun (nm : Numerics) : FmPath → List (Byte × Byte) → FmPath × List Pcm
  | p, [] => (p, [])
  | p, pair :: rest =>
    let one := pairStep nm p pair
    let more := fmRun nm one.1 rest
    (more.1, one.2 ++ more.2)

/-- How many decimated samples n pairs complete, from the current count (R220). -/
def decimatedCount (f : Fm) (n : Nat) : Nat := (f.accCnt.toNat + n) / f.downsample.toNat

/-- `nout`: the number of PCM bytes n pairs would produce from the current state (R240 check 4), in closed form: it equals what
`fmRun` produces in every state the unit can be in (log 12). -/
def fmBytesOut (f : Fm) (n : Nat) : Nat :=
  let k := decimatedCount f n
  if f.lStereo then 4 * k
  else if f.lEmph then 2 * ((f.lprIdx.toNat + k * f.lOutRate.toNat) / f.lSr.toNat)
  else 2 * k

/-- FM_START's stereo checks: the first failing pair reports the offset of its `_F` register (R210 check 4). -/
def stereoConfigError (f : Fm) : Option CmdError :=
  if (designFault 1 f.pilotF.toNat f.samplerate.toNat f.pilotQm.toNat).isSome then some ⟨.badConfig, 0x150#32⟩
  else if (designFault 1 f.subF.toNat f.samplerate.toNat f.subQm.toNat).isSome then some ⟨.badConfig, 0x158#32⟩
  else if (designFault 0 f.lpfF.toNat f.samplerate.toNat f.lpfQm.toNat).isSome then some ⟨.badConfig, 0x160#32⟩
  else none

/-- FM_START's checks (R210). -/
def fmStartCheck (s : State) : Option CmdError :=
  let f := s.fm
  let sr := f.samplerate.toNat
  let or := f.outRate.toNat
  if ¬ (1 ≤ sr ∧ sr ≤ 3200000) then some ⟨.badConfig, 0x104#32⟩
  else if ctrlStereo f && ctrlEmph f then some ⟨.badConfig, 0x100#32⟩
  else if ctrlEmph f && !(decide (1 ≤ or) && decide (or ≤ sr) && decide (sr / or ≤ 32768)) then some ⟨.badConfig, 0x108#32⟩
  else if ctrlStereo f then stereoConfigError f
  else none

/-- The FM registers FM_START leaves (R210). -/
def fmStarted (nm : Numerics) (f : Fm) : Fm :=
  let emph := ctrlEmph f
  { f with
    lSr := f.samplerate
    downsample := wrap32 (decimation f.samplerate.toNat)
    lStereo := ctrlStereo f
    lEmph := emph
    lFast := ctrlFast f
    lOutRate := if emph then f.outRate else 0#32
    deemphA := if emph then word32 (deemphDivisor nm f.samplerate.toNat) else 0#32
    accI := 0#32
    accQ := 0#32
    accCnt := 0#32
    prevI := 0#32
    prevQ := 0#32
    deemphAvg := 0#32
    lprAcc := 0#32
    lprIdx := 0#32
    pwr := 0#32
    pwrT := 0#64
    pwrValid := false
    outRateDesc := if emph then f.outRate else f.samplerate
    outFmt := if ctrlStereo f then 0x00100002#32 else 0x00100001#32
    running := true
    finished := false }

/-- The four slots of the stereo decoder, designed from the ST registers at the sample rate (R212). -/
def stereoSlots (nm : Numerics) (f : Fm) (bq : Vector BqSlot 8) : Vector BqSlot 8 :=
  let fs := f.samplerate.toNat
  let lpf := designedSlot (design nm 0 f.lpfF.toNat fs f.lpfQm.toNat)
  (((bq.set 0 (designedSlot (design nm 1 f.pilotF.toNat fs f.pilotQm.toNat))).set 1
    (designedSlot (design nm 1 f.subF.toNat fs f.subQm.toNat))).set 2 lpf).set 3 lpf

/-- The loop started for a stereo stream (R212). -/
def stereoLoop (f : Fm) (l : Pll) : Pll :=
  { l with w0 := radiansPerSample f.pilotF.toNat f.samplerate.toNat, phase := 0#64, integ := 0#64 }

/-- FM_START's effect (R210, R212). -/
def fmStartEffect (s : State) : Effect :=
  let f := fmStarted numerics s.fm
  { state :=
      if ctrlStereo s.fm then
        { s with fm := f, bq := stereoSlots numerics s.fm s.bq, pll := stereoLoop s.fm s.pll }
      else { s with fm := f }
    res := results f.downsample f.deemphA 0#32 0#32
    irqs := 0#9 }

/-- FM_START (R210). -/
def execFmStart (sel : BitVec 4) (s : State) : Host.Outcome State Fault Refusal :=
  runCommand (withSelector 0 0 sel fmStartCheck) fmStartEffect s

/-- The needed length as ERR_INFO shows it (R240 check 4): itself, and a free value where 32 bits cannot hold it (log 21). -/
def neededLength (n : Nat) : Word := if n < 2 ^ 32 then wrap32 n else Config.longLengthInfo n

/-- FM_PROCESS's checks (R240). -/
def fmProcessCheck (s : State) : Option CmdError :=
  if ¬ s.fm.running then some ⟨.notReady, 0x114#32⟩
  else
    match powerConfigError s.diag with
    | some e => some e
    | none =>
      let nout := fmBytesOut s.fm (arg1 s / 2)
      if arg1 s % 2 = 1 then some ⟨.badLength, s.snap.r1⟩
      else if arg3 s < nout then some ⟨.badLength, neededLength nout⟩
      else if ¬ aligned 2 (arg2 s) then some ⟨.misaligned, s.snap.r2⟩
      else if ¬ regionOk (arg0 s) (arg1 s) then some ⟨.addrRange, s.snap.r0⟩
      else if ¬ regionOk (arg2 s) (arg3 s) then some ⟨.addrRange, s.snap.r2⟩
      else none

/-- FM_PWR is refreshed by this chunk: it holds a pair, and no value is held or the last is a second old (R241). -/
def powerDue (s : State) (npairs : Nat) : Bool :=
  decide (1 ≤ npairs) && (!s.fm.pwrValid || decide (s.fm.pwrT.toNat + Config.oneSecond ≤ s.time.toNat))

/-- The FM registers with FM_PWR refreshed when due (R241). -/
def refreshPower (s : State) (f : Fm) (src npairs : Nat) : Fm :=
  if powerDue s npairs then
    { f with pwr := wrap32 (powerAt s src npairs), pwrT := s.time, pwrValid := true }
  else f

/-- FM_PROCESS's effect (R240, R241). -/
def fmProcessEffect (s : State) : Effect :=
  let npairs := arg1 s / 2
  let run := fmRun numerics ⟨s.fm, s.pll, s.bq⟩ (s.buf.iqPairs (arg0 s) npairs)
  let out := pcmBytes run.2
  let channels := s.fm.outFmt.toNat % 65536
  { state := { s with
      fm := refreshPower s run.1.fm (arg0 s) npairs
      pll := run.1.pll
      bq := run.1.bq
      buf := s.buf.write (arg2 s) out }
    res := results (wrap32 out.length) (wrap32 (out.length / (2 * channels))) (wrap32 channels) s.fm.outRateDesc
    irqs := irqFmFrame ||| irqIf (powerDue s npairs) irqPwrUpd }

/-- FM_PROCESS (R240). -/
def execFmProcess (sel : BitVec 4) (s : State) : Host.Outcome State Fault Refusal :=
  runCommand (withSelector 0 0 sel fmProcessCheck) fmProcessEffect s

/-- FM_FINISH's check (R245). -/
def fmFinishCheck (s : State) : Option CmdError :=
  if ¬ s.fm.running then some ⟨.notReady, 0x114#32⟩ else none

/-- FM_FINISH's effect (R245). -/
def fmFinishEffect (s : State) : Effect where
  state := { s with fm := { s.fm with running := false, finished := true } }
  res := Quad.zero
  irqs := irqFmFinished

/-- FM_FINISH (R245). -/
def execFmFinish (sel : BitVec 4) (s : State) : Host.Outcome State Fault Refusal :=
  runCommand (withSelector 0 0 sel fmFinishCheck) fmFinishEffect s

end Sys2Proof.Machine
end

