-- ==== Sys2Proof/Machine/Viterbi.lean ====
section
/-! DEFINITION. The punctured Viterbi decoder (spec file 45): VIT_DECODE. -/

namespace Sys2Proof.Machine

/-- The four mother bits of a 7-bit shift register value: its parity with each polynomial (R382). -/
def motherBits (polys : List Nat) (sr : Nat) : List Bool := polys.map (fun p => decide (parity 7 (sr &&& p) = 1))

/-- The encoder (R382): the mother sequence of a bit sequence, from a 6-bit state. -/
def encodeBits (polys : List Nat) : Nat → List Bool → List Bool
  | _, [] => []
  | st, u :: us =>
    let sr := u.toNat * 64 + st
    motherBits polys sr ++ encodeBits polys (sr / 2) us

/-- The mother sequence of information bits followed by the six tail zeros (R382). -/
def motherSequence (polys : List Nat) (info : List Bool) : List Bool :=
  encodeBits polys 0 (info ++ List.replicate 6 false)

/-- One segment of a protection profile: index, A, B (R383). -/
structure Segment where
  idx : Nat
  a : Nat
  b : Int
deriving DecidableEq, Repr

/-- The fields of a VIT_PROF register: idx [7:0], A [15:8], B [23:16] two's complement (R50, R383). -/
def segmentOf (w : BitVec 24) : Segment :=
  ⟨w.toNat % 256, w.toNat / 256 % 256, (w.extractLsb' 16 8).toInt⟩

/-- Segment s of level L (R383). -/
def segment (v : Vit) (level s : Nat) : Segment := segmentOf (v.prof.toList.getD (2 * (level - 1) + s) 0#24)

/-- `L_s`, the number of blocks of a segment for the size parameter n (R383). -/
def blocks (g : Segment) (n : Nat) : Int := (g.a : Int) * n + g.b

/-- The puncturing vector a segment names; 0 for an index outside 1..24, which no decoding uses (R388 check 2). -/
def piVector (v : Vit) (idx : Nat) : Word := if idx = 0 then 0#32 else v.pi.toList.getD (idx - 1) 0#32

/-- The mask of one 128-bit block: the vector applied to four groups of 32 (R384). -/
def blockMask (pi : Word) : List Bool := (List.replicate 4 (bitsMsb 32 pi.toNat)).flatten

/-- The mask of a segment: its blocks' masks (R384). -/
def segmentMask (v : Vit) (g : Segment) (n : Nat) : List Bool :=
  (List.replicate (blocks g n).toNat (blockMask (piVector v g.idx))).flatten

/-- The puncturing mask of the whole mother sequence: the two segments, then the 24-bit tail (R384). -/
def punctureMask (v : Vit) (level n : Nat) : List Bool :=
  segmentMask v (segment v level 0) n ++ segmentMask v (segment v level 1) n ++ bitsMsb 24 v.tail.toNat

/-- How many bits a segment transmits (R384). -/
def segmentSent (v : Vit) (g : Segment) (n : Nat) : Nat :=
  (blocks g n).toNat * 4 * popcount 32 (piVector v g.idx).toNat

/-- T, the number of transmitted bits (R384). -/
def transmitted (v : Vit) (level n : Nat) : Nat :=
  segmentSent v (segment v level 0) n + segmentSent v (segment v level 1) n + popcount 24 v.tail.toNat

/-- Depuncturing: the next input value at a transmitted position, 0 at a punctured one (R385). -/
def depuncture : List Bool → List Int → List Int
  | [], _ => []
  | true :: mask, x :: xs => x :: depuncture mask xs
  | true :: mask, [] => 0 :: depuncture mask []
  | false :: mask, xs => 0 :: depuncture mask xs

/-- Puncturing: the elements at transmitted positions (R384). -/
def puncture {α : Type} : List Bool → List α → List α
  | true :: mask, x :: xs => x :: puncture mask xs
  | false :: mask, _ :: xs => puncture mask xs
  | _, _ => []

/-- `2 * c - 1` for a coded bit (R386). -/
def signOf (b : Bool) : Int := if b then 1 else -1

/-- The correlation of soft values with coded bits (R386). -/
def correlate (vs : List Int) (bits : List Bool) : Int := (List.zipWith (fun v b => v * signOf b) vs bits).sum

/-- The mother bits of every shift register value 0..127. -/
def branchTable (polys : List Nat) : List (List Bool) := (List.range 128).map (motherBits polys)

/-- A path metric; none is minus infinity (R386). -/
abbrev Metric := Option Int

/-- `m_b` for a predecessor's metric and a branch metric (R386). -/
def extend (m : Metric) (bm : Int) : Metric := m.map (fun x => x + bm)

/-- The larger of two metrics; on a tie, or when the second is unreachable, the first (R386: ties choose b = 0). -/
def secondWins : Metric → Metric → Bool
  | some a, some b => decide (a < b)
  | none, some _ => true
  | _, none => false

/-- One add-compare-select for the successor state: its metric and its decision bit (R386). -/
def acs (table : List (List Bool)) (ms : List Metric) (vs : List Int) (tail : Bool) (succ : Nat) : Metric × Bool :=
  let u := succ / 32
  if tail && decide (u = 1) then (none, false)
  else
    let st0 := succ % 32 * 2
    let m0 := extend (ms.getD st0 none) (correlate vs (table.getD (u * 64 + st0) []))
    let m1 := extend (ms.getD (st0 + 1) none) (correlate vs (table.getD (u * 64 + st0 + 1) []))
    if secondWins m0 m1 then (m1, true) else (m0, false)

/-- One trellis step over all 64 states. -/
def acsAll (table : List (List Bool)) (ms : List Metric) (vs : List Int) (tail : Bool) : List (Metric × Bool) :=
  (List.range 64).map (acs table ms vs tail)

/-- The forward pass over the remaining groups of four soft values: `info` groups are information, the rest tail. It answers the
last metrics, and the decisions of every step, last step first, on top of those given. -/
def forward (table : List (List Bool)) : List Metric → List (List Bool) → Nat → List (List Int) → List Metric × List (List Bool)
  | ms, ds, _, [] => (ms, ds)
  | ms, ds, info, vs :: rest =>
    let step := acsAll table ms vs (decide (info = 0))
    forward table (step.map (fun p => p.1)) (step.map (fun p => p.2) :: ds) (info - 1) rest

/-- The traceback from a state over the decisions, last step first: the bits, last first (R386). -/
def traceback : Nat → List (List Bool) → List Bool
  | _, [] => []
  | st, d :: ds => decide (st / 32 = 1) :: traceback (st % 32 * 2 + (d.getD st false).toNat) ds

/-- The metrics before the first step: state 0 reachable at 0 (R386). -/
def startMetrics : List Metric := some 0 :: List.replicate 63 none

/-- `VITERBI(v, I)` (R386): the I decoded bits and the final metric of state 0. -/
def viterbi (polys : List Nat) (v : List Int) (info : Nat) : List Bool × Int :=
  let run := forward (branchTable polys) startMetrics [] info (pieces 4 (info + 6) v)
  ((traceback 0 run.2).reverse.take info, (run.1.getD 0 none).getD 0)

/-- A soft value contradicts a coded bit (R387). -/
def disagrees (v : Int) (c : Bool) : Bool := if c then decide (v < 0) else decide (0 < v)

/-- The error count against the re-encoded decision (R387). -/
def errorCount (xs : List Int) (sent : List Bool) : Nat := (List.zipWith disagrees xs sent).count true

/-- The generator polynomials (R381). -/
def polysOf (v : Vit) : List Nat := v.poly.toList.map (fun p => p.toNat)

/-- A segment is illegal: a negative number of blocks, or blocks with no puncturing vector (R388 check 2). -/
def segmentBad (g : Segment) (n : Nat) : Bool :=
  decide (blocks g n < 0) || (decide (0 < blocks g n) && !(decide (1 ≤ g.idx) && decide (g.idx ≤ 24)))

/-- The offset of VIT_PROF_L_s (R50). -/
def profOffset (level s : Nat) : Nat := 0x360 + 8 * (level - 1) + 4 * s

/-- The number of blocks of both segments, L_0 + L_1 (R383). -/
def totalBlocks (v : Vit) (level n : Nat) : Nat :=
  (blocks (segment v level 0) n + blocks (segment v level 1) n).toNat

/-- VIT_DECODE's checks (R388). -/
def vitDecodeCheck (level : Nat) (s : State) : Option CmdError :=
  let n := arg1 s
  let t := transmitted s.vit level n
  if (polysOf s.vit).all (fun p => p == 0) then some ⟨.notReady, 0x2C0#32⟩
  else if segmentBad (segment s.vit level 0) n then some ⟨.badConfig, wrap32 (profOffset level 0)⟩
  else if segmentBad (segment s.vit level 1) n then some ⟨.badConfig, wrap32 (profOffset level 1)⟩
  else if totalBlocks s.vit level n = 0 then some ⟨.badConfig, wrap32 (profOffset level 0)⟩
  else if arg3 s < t then some ⟨.badLength, if t < 2 ^ 32 then wrap32 t else 0xFFFFFFFF#32⟩
  else if ¬ regionOk (arg0 s) t then some ⟨.addrRange, s.snap.r0⟩
  else if ¬ regionOk (arg2 s) (4 * totalBlocks s.vit level n) then some ⟨.addrRange, s.snap.r2⟩
  else none

/-- Decoded bits as bytes, the first bit of eight in bit 7 (R103, R388). -/
def packBits (bits : List Bool) : List Byte :=
  (pieces 8 (bits.length / 8) bits).map (fun b => BitVec.ofNat 8 (msbValue b))

/-- VIT_DECODE's effect (R388). -/
def vitDecodeEffect (level : Nat) (s : State) : Effect :=
  let n := arg1 s
  let t := transmitted s.vit level n
  let info := 32 * totalBlocks s.vit level n
  let mask := punctureMask s.vit level n
  let xs := (s.buf.bytes (arg0 s) t).map s8
  let decoded := viterbi (polysOf s.vit) (depuncture mask xs) info
  let sent := puncture mask (motherSequence (polysOf s.vit) decoded.1)
  { state := { s with buf := s.buf.write (arg2 s) (packBits decoded.1) }
    res := results (wrap32 info) (wrap32 (errorCount xs sent)) (wrap32 t) (word32 decoded.2)
    irqs := 0#9 }

/-- VIT_DECODE (R388): SEL is the level. -/
def execVitDecode (sel : BitVec 4) (s : State) : Host.Outcome State Fault Refusal :=
  runCommand (withSelector 1 4 sel (vitDecodeCheck sel.toNat)) (vitDecodeEffect sel.toNat) s

end Sys2Proof.Machine
end

