-- ==== Sys2Proof/Machine/Dispatch.lean ====
section
/-! DEFINITION. Which meaning each command has: what completing it does (R531). -/

namespace Sys2Proof.Machine

def exec (i : Instr) (s : State) : Host.Outcome State Fault Refusal :=
  match i with
  | .nop sel => Sys2Proof.Machine.execNop sel s
  | .fmStart sel => Sys2Proof.Machine.execFmStart sel s
  | .fmProcess sel => Sys2Proof.Machine.execFmProcess sel s
  | .fmFinish sel => Sys2Proof.Machine.execFmFinish sel s
  | .iqPolar sel => Sys2Proof.Machine.execIqPolar sel s
  | .bqDesign sel => Sys2Proof.Machine.execBqDesign sel s
  | .bqRun sel => Sys2Proof.Machine.execBqRun sel s
  | .bqClear sel => Sys2Proof.Machine.execBqClear sel s
  | .pllRun sel => Sys2Proof.Machine.execPllRun sel s
  | .pllClear sel => Sys2Proof.Machine.execPllClear sel s
  | .dabReset sel => Sys2Proof.Machine.execDabReset sel s
  | .dabFeed sel => Sys2Proof.Machine.execDabFeed sel s
  | .rsInit sel => Sys2Proof.Machine.execRsInit sel s
  | .rsDecode sel => Sys2Proof.Machine.execRsDecode sel s
  | .crcCalc sel => Sys2Proof.Machine.execCrcCalc sel s
  | .crcCheck sel => Sys2Proof.Machine.execCrcCheck sel s
  | .vitDecode sel => Sys2Proof.Machine.execVitDecode sel s
  | .pwrCalc sel => Sys2Proof.Machine.execPwrCalc sel s
  | .brAdd sel => Sys2Proof.Machine.execBrAdd sel s
  | .stnScore sel => Sys2Proof.Machine.execStnScore sel s

end Sys2Proof.Machine
end

