-- ==== Sys2Proof/Machine/Csr.lean ====
section
/-! DEFINITION. The CSR map (spec file 10): which register stands at which offset, what a read returns, what a write does. -/

namespace Sys2Proof.Machine

/-- The PLL's five binary64 registers (R44). -/
inductive PllReg where
  | kp | ki | w0 | phase | integ
deriving DecidableEq, Repr

/-- The nine binary64 registers of a biquad slot (R52). -/
inductive BqReg where
  | b0 | b1 | b2 | a1 | a2 | x1 | x2 | y1 | y2
deriving DecidableEq, Repr

/-- The six Reed-Solomon configuration registers (R47). -/
inductive RsReg where
  | symsize | gfpoly | fcr | prim | nroots | pad
deriving DecidableEq, Repr

/-- The four registers of a CRC mode (R49). -/
inductive CrcReg where
  | poly | init | xorout | cfg
deriving DecidableEq, Repr

/-- Which half of a 64-bit register a CSR holds (R32). -/
inductive Half where
  | lo | hi
deriving DecidableEq, Repr

/-- The control/status registers, by name. -/
inductive Csr where
  | id | version | ctrl | status | cmd
  | arg (i : Fin 4)
  | res (i : Fin 4)
  | errInfo | irqStatus | irqEnable | timeLo | timeHi
  | fmCtrl | fmSamplerate | fmOutRate | fmDownsample | fmDeemphA | fmState
  | fmAccI | fmAccQ | fmAccCnt | fmPrevI | fmPrevQ | fmDeemphAvg | fmLprAcc | fmLprIdx
  | fmPwr | fmOutRateDesc | fmOutFmt | fmLSr | fmLOutRate
  | stPilotF | stPilotQm | stSubF | stSubQm | stLpfF | stLpfQm
  | pll (r : PllReg) (h : Half)
  | dabFragLen | dabCtrl | dabLossThr | dabStatus | dabSfCount | dabRejCount
  | rsConfig (r : RsReg)
  | rsStatus | rsN | rsK
  | crc (mode : Fin 2) (r : CrcReg)
  | vitPoly (j : Fin 4)
  | vitTail
  | vitPi (k : Fin 24)
  | vitProf (i : Fin 8)
  | pwrWin | pwrMax | pwrLast | bitrate | brBytes
  | bq (slot : Fin 8) (r : BqReg) (h : Half)
deriving DecidableEq, Repr

/-- The half at an offset: `_LO` at the lower one (R32). -/
def halfAt (off : Nat) : Half := if off / 4 % 2 = 0 then .lo else .hi

/-- The PLL register at an offset from 0x180 (R44). -/
def pllRegAt (off : Nat) : Option PllReg :=
  match off / 8 with
  | 0 => some .kp
  | 1 => some .ki
  | 2 => some .w0
  | 3 => some .phase
  | 4 => some .integ
  | _ => none

/-- The register at an offset within a biquad slot (R52). -/
def bqRegAt (off : Nat) : Option BqReg :=
  match off / 8 with
  | 0 => some .b0
  | 1 => some .b1
  | 2 => some .b2
  | 3 => some .a1
  | 4 => some .a2
  | 5 => some .x1
  | 6 => some .x2
  | 7 => some .y1
  | 8 => some .y2
  | _ => none

/-- The registers at 0x000-0x17F that stand alone (R33-R43). -/
def lowCsrAt (off : Nat) : Option Csr :=
  match off with
  | 0x000 => some .id
  | 0x004 => some .version
  | 0x008 => some .ctrl
  | 0x00C => some .status
  | 0x010 => some .cmd
  | 0x014 => some (.arg 0)
  | 0x018 => some (.arg 1)
  | 0x01C => some (.arg 2)
  | 0x020 => some (.arg 3)
  | 0x024 => some (.res 0)
  | 0x028 => some (.res 1)
  | 0x02C => some (.res 2)
  | 0x030 => some (.res 3)
  | 0x034 => some .errInfo
  | 0x038 => some .irqStatus
  | 0x03C => some .irqEnable
  | 0x040 => some .timeLo
  | 0x044 => some .timeHi
  | 0x100 => some .fmCtrl
  | 0x104 => some .fmSamplerate
  | 0x108 => some .fmOutRate
  | 0x10C => some .fmDownsample
  | 0x110 => some .fmDeemphA
  | 0x114 => some .fmState
  | 0x118 => some .fmAccI
  | 0x11C => some .fmAccQ
  | 0x120 => some .fmAccCnt
  | 0x124 => some .fmPrevI
  | 0x128 => some .fmPrevQ
  | 0x12C => some .fmDeemphAvg
  | 0x130 => some .fmLprAcc
  | 0x134 => some .fmLprIdx
  | 0x138 => some .fmPwr
  | 0x13C => some .fmOutRateDesc
  | 0x140 => some .fmOutFmt
  | 0x144 => some .fmLSr
  | 0x148 => some .fmLOutRate
  | 0x150 => some .stPilotF
  | 0x154 => some .stPilotQm
  | 0x158 => some .stSubF
  | 0x15C => some .stSubQm
  | 0x160 => some .stLpfF
  | 0x164 => some .stLpfQm
  | _ => none

/-- The registers at 0x200-0x3FF that stand alone (R45-R51). -/
def midCsrAt (off : Nat) : Option Csr :=
  match off with
  | 0x200 => some .dabFragLen
  | 0x204 => some .dabCtrl
  | 0x208 => some .dabLossThr
  | 0x20C => some .dabStatus
  | 0x210 => some .dabSfCount
  | 0x214 => some .dabRejCount
  | 0x240 => some (.rsConfig .symsize)
  | 0x244 => some (.rsConfig .gfpoly)
  | 0x248 => some (.rsConfig .fcr)
  | 0x24C => some (.rsConfig .prim)
  | 0x250 => some (.rsConfig .nroots)
  | 0x254 => some (.rsConfig .pad)
  | 0x258 => some .rsStatus
  | 0x25C => some .rsN
  | 0x260 => some .rsK
  | 0x280 => some (.crc 0 .poly)
  | 0x284 => some (.crc 0 .init)
  | 0x288 => some (.crc 0 .xorout)
  | 0x28C => some (.crc 0 .cfg)
  | 0x290 => some (.crc 1 .poly)
  | 0x294 => some (.crc 1 .init)
  | 0x298 => some (.crc 1 .xorout)
  | 0x29C => some (.crc 1 .cfg)
  | 0x2C0 => some (.vitPoly 0)
  | 0x2C4 => some (.vitPoly 1)
  | 0x2C8 => some (.vitPoly 2)
  | 0x2CC => some (.vitPoly 3)
  | 0x2D0 => some .vitTail
  | 0x380 => some .pwrWin
  | 0x384 => some .pwrMax
  | 0x388 => some .pwrLast
  | 0x38C => some .bitrate
  | 0x390 => some .brBytes
  | _ => none

/-- The register at a CSR offset divisible by 4; none where the offset is reserved (R30). -/
def csrAt (off : Nat) : Option Csr :=
  if off < 0x180 then lowCsrAt off
  else if off < 0x1C0 then (pllRegAt (off - 0x180)).map (fun r => .pll r (halfAt off))
  else if off < 0x300 then midCsrAt off
  else if off < 0x360 then some (.vitPi (Fin.ofNat 24 ((off - 0x300) / 4)))
  else if off < 0x380 then some (.vitProf (Fin.ofNat 8 ((off - 0x360) / 4)))
  else if off < 0x400 then midCsrAt off
  else if off < 0x800 then
    (bqRegAt (off % 0x80)).map (fun r => .bq (Fin.ofNat 8 ((off - 0x400) / 0x80)) r (halfAt off))
  else none

/-- One word of four. -/
def Quad.get (q : Quad) (i : Fin 4) : Word :=
  match i with
  | 0 => q.r0
  | 1 => q.r1
  | 2 => q.r2
  | 3 => q.r3

/-- Four words with one replaced. -/
def Quad.put (q : Quad) (i : Fin 4) (v : Word) : Quad :=
  match i with
  | 0 => { q with r0 := v }
  | 1 => { q with r1 := v }
  | 2 => { q with r2 := v }
  | 3 => { q with r3 := v }

/-- A half of a 64-bit register (R32). -/
def halfOf (h : Half) (x : BitVec 64) : Word :=
  match h with
  | .lo => lowHalf x
  | .hi => highHalf x

/-- A 64-bit register with one half written, the other kept (R32). -/
def withHalf (h : Half) (x : BitVec 64) (v : Word) : BitVec 64 :=
  match h with
  | .lo => highHalf x ++ v
  | .hi => v ++ lowHalf x

/-- A PLL register (R44). -/
def pllGet (l : Pll) : PllReg → F64
  | .kp => l.kp
  | .ki => l.ki
  | .w0 => l.w0
  | .phase => l.phase
  | .integ => l.integ

/-- A PLL register written (R44). -/
def pllPut (l : Pll) (r : PllReg) (v : F64) : Pll :=
  match r with
  | .kp => { l with kp := v }
  | .ki => { l with ki := v }
  | .w0 => { l with w0 := v }
  | .phase => { l with phase := v }
  | .integ => { l with integ := v }

/-- A register of a biquad slot (R52). -/
def bqGet (b : BqSlot) : BqReg → F64
  | .b0 => b.b0
  | .b1 => b.b1
  | .b2 => b.b2
  | .a1 => b.a1
  | .a2 => b.a2
  | .x1 => b.x1
  | .x2 => b.x2
  | .y1 => b.y1
  | .y2 => b.y2

/-- A register of a biquad slot written (R52). -/
def bqPut (b : BqSlot) (r : BqReg) (v : F64) : BqSlot :=
  match r with
  | .b0 => { b with b0 := v }
  | .b1 => { b with b1 := v }
  | .b2 => { b with b2 := v }
  | .a1 => { b with a1 := v }
  | .a2 => { b with a2 := v }
  | .x1 => { b with x1 := v }
  | .x2 => { b with x2 := v }
  | .y1 => { b with y1 := v }
  | .y2 => { b with y2 := v }

/-- A Reed-Solomon configuration register (R47). -/
def rsGet (c : RsConfig) : RsReg → Word
  | .symsize => c.symsize
  | .gfpoly => c.gfpoly
  | .fcr => c.fcr
  | .prim => c.prim
  | .nroots => c.nroots
  | .pad => c.pad

/-- A Reed-Solomon configuration register written (R47). -/
def rsPut (c : RsConfig) (r : RsReg) (v : Word) : RsConfig :=
  match r with
  | .symsize => { c with symsize := v }
  | .gfpoly => { c with gfpoly := v }
  | .fcr => { c with fcr := v }
  | .prim => { c with prim := v }
  | .nroots => { c with nroots := v }
  | .pad => { c with pad := v }

/-- A CRC mode register as the host reads it (R49). -/
def crcGet (m : CrcMode) : CrcReg → Word
  | .poly => m.poly.setWidth 32
  | .init => m.init.setWidth 32
  | .xorout => m.xorout.setWidth 32
  | .cfg => m.cfg.setWidth 32

/-- A CRC mode register written; the reserved bits are dropped (R30, R49). -/
def crcPut (m : CrcMode) (r : CrcReg) (v : Word) : CrcMode :=
  match r with
  | .poly => { m with poly := v.setWidth 16 }
  | .init => { m with init := v.setWidth 16 }
  | .xorout => { m with xorout := v.setWidth 16 }
  | .cfg => { m with cfg := v.setWidth 3 }

/-- What a read of a register returns (R33-R52). -/
def readCsr (s : State) : Csr → Word
  | .id => Config.idValue
  | .version => Config.versionValue
  | .ctrl => 0#32
  | .status => statusWord s
  | .cmd => s.cmd
  | .arg i => s.args.get i
  | .res i => s.res.get i
  | .errInfo => s.errInfo
  | .irqStatus => s.irqStatus.setWidth 32
  | .irqEnable => s.irqEnable.setWidth 32
  | .timeLo => lowHalf s.time
  | .timeHi => s.timeHiLatch
  | .fmCtrl => s.fm.ctrl.setWidth 32
  | .fmSamplerate => s.fm.samplerate
  | .fmOutRate => s.fm.outRate
  | .fmDownsample => s.fm.downsample
  | .fmDeemphA => s.fm.deemphA
  | .fmState => fmStateWord s.fm
  | .fmAccI => s.fm.accI
  | .fmAccQ => s.fm.accQ
  | .fmAccCnt => s.fm.accCnt
  | .fmPrevI => s.fm.prevI
  | .fmPrevQ => s.fm.prevQ
  | .fmDeemphAvg => s.fm.deemphAvg
  | .fmLprAcc => s.fm.lprAcc
  | .fmLprIdx => s.fm.lprIdx
  | .fmPwr => s.fm.pwr
  | .fmOutRateDesc => s.fm.outRateDesc
  | .fmOutFmt => s.fm.outFmt
  | .fmLSr => s.fm.lSr
  | .fmLOutRate => s.fm.lOutRate
  | .stPilotF => s.fm.pilotF
  | .stPilotQm => s.fm.pilotQm
  | .stSubF => s.fm.subF
  | .stSubQm => s.fm.subQm
  | .stLpfF => s.fm.lpfF
  | .stLpfQm => s.fm.lpfQm
  | .pll r h => halfOf h (pllGet s.pll r)
  | .dabFragLen => s.dab.fragLen
  | .dabCtrl => flagAt s.dab.fireEn 0
  | .dabLossThr => s.dab.lossThr
  | .dabStatus => dabStatusWord s.dab
  | .dabSfCount => s.dab.sfCount
  | .dabRejCount => s.dab.rejCount
  | .rsConfig r => rsGet s.rs.config r
  | .rsStatus => rsStatusWord s.rs
  | .rsN => s.rs.n
  | .rsK => s.rs.k
  | .crc mode r => crcGet (if mode = 0 then s.crc0 else s.crc1) r
  | .vitPoly j => (s.vit.poly[j]).setWidth 32
  | .vitTail => s.vit.tail.setWidth 32
  | .vitPi k => s.vit.pi[k]
  | .vitProf i => (s.vit.prof[i]).setWidth 32
  | .pwrWin => s.diag.pwrWin
  | .pwrMax => s.diag.pwrMax
  | .pwrLast => s.diag.pwrLast
  | .bitrate => s.diag.bitrate
  | .brBytes => lowHalf s.diag.brBytes
  | .bq slot r h => halfOf h (bqGet s.bq[slot] r)

/-- A write to a register that is stored when no command runs: RW registers take the value, the side effects of R45 and R335
follow, RO registers keep theirs (R31, R109). -/
def storeCsr (s : State) (v : Word) : Csr → State
  | .arg i => { s with args := s.args.put i v }
  | .fmCtrl => { s with fm := { s.fm with ctrl := v.setWidth 3 } }
  | .fmSamplerate => { s with fm := { s.fm with samplerate := v } }
  | .fmOutRate => { s with fm := { s.fm with outRate := v } }
  | .stPilotF => { s with fm := { s.fm with pilotF := v } }
  | .stPilotQm => { s with fm := { s.fm with pilotQm := v } }
  | .stSubF => { s with fm := { s.fm with subF := v } }
  | .stSubQm => { s with fm := { s.fm with subQm := v } }
  | .stLpfF => { s with fm := { s.fm with lpfF := v } }
  | .stLpfQm => { s with fm := { s.fm with lpfQm := v } }
  | .pll r h => { s with pll := pllPut s.pll r (withHalf h (pllGet s.pll r) v) }
  | .dabFragLen => { s with dab := { clearSync s.dab with fragLen := v } }
  | .dabCtrl => { s with dab := { s.dab with fireEn := v.getLsbD 0 } }
  | .dabLossThr => { s with dab := { s.dab with lossThr := v } }
  | .rsConfig r => { s with rs := { s.rs with config := rsPut s.rs.config r v, ready := false } }
  | .crc mode r =>
    if mode = 0 then { s with crc0 := crcPut s.crc0 r v } else { s with crc1 := crcPut s.crc1 r v }
  | .vitPoly j => { s with vit := { s.vit with poly := s.vit.poly.set j (v.setWidth 7) } }
  | .vitTail => { s with vit := { s.vit with tail := v.setWidth 24 } }
  | .vitPi k => { s with vit := { s.vit with pi := s.vit.pi.set k v } }
  | .vitProf i => { s with vit := { s.vit with prof := s.vit.prof.set i (v.setWidth 24) } }
  | .pwrWin => { s with diag := { s.diag with pwrWin := v } }
  | .pwrMax => { s with diag := { s.diag with pwrMax := v } }
  | .bq slot r h =>
    { s with bq := s.bq.set slot (bqPut s.bq[slot] r (withHalf h (bqGet s.bq[slot] r) v)) }
  | .id | .version | .ctrl | .status | .cmd | .res _ | .errInfo | .irqStatus | .irqEnable | .timeLo | .timeHi
  | .fmDownsample | .fmDeemphA | .fmState | .fmAccI | .fmAccQ | .fmAccCnt | .fmPrevI | .fmPrevQ | .fmDeemphAvg
  | .fmLprAcc | .fmLprIdx | .fmPwr | .fmOutRateDesc | .fmOutFmt | .fmLSr | .fmLOutRate
  | .dabStatus | .dabSfCount | .dabRejCount | .rsStatus | .rsN | .rsK
  | .pwrLast | .bitrate | .brBytes => s

/-- A host write to a register: CTRL, STATUS, IRQ_STATUS and IRQ_ENABLE take effect also while BUSY; a CMD write is accepted,
or dropped with OVERRUN; any other write while BUSY is ignored with WR_IGNORED (R31, R521, R530, R611, log 9). -/
def writeCsr (s : State) (v : Word) (c : Csr) : State :=
  match c with
  | .ctrl => if v.getLsbD 0 then softReset s else s
  | .status => clearSticky s v
  | .irqStatus => { s with irqStatus := s.irqStatus &&& ~~~(v.setWidth 9) }
  | .irqEnable => { s with irqEnable := v.setWidth 9 }
  | .cmd => if s.busy then { s with overrun := true } else acceptCommand v s
  | other => if s.busy then { s with wrIgnored := true } else storeCsr s v other

/-- The one side effect of a CSR read: TIME_LO loads the latch (R40, R109). -/
def afterCsrRead (s : State) (c : Csr) : State :=
  match c with
  | .timeLo => { s with timeHiLatch := highHalf s.time }
  | _ => s

end Sys2Proof.Machine
end

