-- ==== Sys2Proof/Machine/HostPort.lean ====
section
/-! DEFINITION. The MMIO port (spec file 20): what a host read and a host write do. -/

namespace Sys2Proof.Machine

/-- How many bytes an access moves. -/
def widthBytes : Width → Nat
  | .w8 => 1
  | .w16 => 2
  | .w32 => 4
  | .w64 => 8

/-- The access has a width and an alignment the block answers (R105): 32-bit aligned below BUF, up to 32-bit aligned in BUF. -/
def accessOk (off : Nat) (w : Width) : Bool :=
  match w with
  | .w8 => decide (Config.bufWindow ≤ off)
  | .w16 => decide (Config.bufWindow ≤ off) && decide (off % 2 = 0)
  | .w32 => decide (off % 4 = 0)
  | .w64 => false

/-- The CSR an access reaches; none at a reserved offset (R30, R100). -/
def csrOf (off : Nat) : Option Csr := if off < Config.csrWindow then csrAt off else none

/-- A host read that the block answers (R30, R100, R102, R610). -/
def readAt (off : Nat) (w : Width) (s : State) : State :=
  if off < Config.bufWindow then
    match csrOf off with
    | some c => { afterCsrRead s c with hostData := readCsr s c }
    | none => { s with hostData := 0#32 }
  else if s.busy then { s with bufHaz := true, hostData := 0#32 }
  else { s with hostData := BitVec.ofNat 32 (leValue (s.buf.bytes (off - Config.bufWindow) (widthBytes w))) }

/-- A host write that the block answers (R30, R100, R102, R610). -/
def writeAt (off : Nat) (w : Width) (v : BitVec 64) (s : State) : State :=
  if off < Config.bufWindow then
    match csrOf off with
    | some c => writeCsr s (lowHalf v) c
    | none => s
  else if s.busy then { s with bufHaz := true }
  else { s with buf := s.buf.write (off - Config.bufWindow) (leBytes (widthBytes w) v.toNat) }

/-- A host access: outside the window, a bus error, or the effect (R100, R105). -/
def hostAccess (off : Nat) (w : Width) (effect : State → State) (s : State) : Host.Outcome State Fault Refusal :=
  if Config.mmioSize ≤ off then .fault .outsideWindow
  else if accessOk off w then .next (effect s)
  else .fault .busError

/-- A host read (R102, R105). -/
def hostRead (off : Nat) (w : Width) (s : State) : Host.Outcome State Fault Refusal :=
  hostAccess off w (readAt off w) s

/-- A host write (R102, R105). -/
def hostWrite (off : Nat) (w : Width) (v : BitVec 64) (s : State) : Host.Outcome State Fault Refusal :=
  hostAccess off w (writeAt off w v) s

end Sys2Proof.Machine
end

