-- ==== Sys2Proof/Machine/Engine.lean ====
section
/-! DEFINITION. The command engine: the completion of the pending command (R531), and one event of the outside world. -/

namespace Sys2Proof.Machine

/-- The pending command completes: the accepted word is decoded; an illegal word ends with ILLEGAL_COMMAND and the word in
ERR_INFO, a command has its meaning (R132, R531). -/
def completePending (s : State) : Host.Outcome State Fault Refusal :=
  match fetch s with
  | .command i => exec i s
  | .illegalCommand => .next (raiseError ⟨.illegalCommand, s.cmd⟩ s)

/-- The completion instant: of the pending command, if there is one (R531). -/
def completeIfBusy (s : State) : Host.Outcome State Fault Refusal :=
  if s.busy then completePending s else .next s

/-- One event of the outside world (logs 1 and 2). -/
def takeEvent (e : Event) (s : State) : Host.Outcome State Fault Refusal :=
  match e with
  | .read off w => hostRead off w s
  | .write off w v => hostWrite off w v s
  | .elapse us => .next (elapseTime us s)
  | .complete => completeIfBusy s

/-- One step: the next event, taken off the list; when the outside world has nothing left to do, a pending command completes,
so none stays pending for ever (R621), and an idle block stays as it is (R537). -/
def stepOnce (s : State) : Host.Outcome State Fault Refusal :=
  match s.env with
  | [] => completeIfBusy s
  | e :: rest => takeEvent e { s with env := rest }

/-- Events that make completion the next one; none are needed where the list is empty (log 1). -/
def completionNext (env : List Event) : List Event :=
  match env with
  | [] => []
  | _ :: _ => .complete :: env

/-- A word placed as the pending command, to complete at the next step: accepted as by a CMD write (R530, log 1). -/
def placeCommand (w : Word) (s : State) : State :=
  { acceptCommand w s with env := completionNext s.env }

end Sys2Proof.Machine
end

