-- ==== Sys2Proof/Machine/Step.lean ====
section
/-! DEFINITION. The step of the block, and the placing of a command where the next step runs it. -/

namespace Sys2Proof.Machine

/-- One step of the block: one event of the outside world, or the completion of the pending command. -/
def step (s : State) : Host.Outcome State Fault Refusal := stepOnce s

/-- The state with the command word of an opcode-table row accepted, its completion the next event (R530, log 1). -/
def State.withFetchWord (s : State) (nbits w : Nat) : State := placeCommand (tableWord nbits w) s

end Sys2Proof.Machine
end

