-- ==== Sys2Proof/Safety.lean ====
section
/-! DEFINITION. The terms the claims use: the two completion records written out, the bytes and samples a command reads, the
invariants of the units, and what a safe run is. -/

namespace Sys2Proof.Machine

/-- A state with the success record of R504 written over it: the four results and the interrupt bits, DONE among them. -/
def doneWith (s : State) (r0 r1 r2 r3 : Word) (irqs : BitVec 9) : State :=
  { s with
    busy := false
    err := false
    errcode := 0#8
    res := ⟨r0, r1, r2, r3⟩
    irqStatus := s.irqStatus ||| irqs }

/-- A state with the error record of R504 written over it, by the code's number (R500). -/
def failedWith (s : State) (code : BitVec 8) (info : Word) : State :=
  { s with
    busy := false
    err := true
    errcode := code
    errInfo := info
    irqStatus := s.irqStatus ||| 0x002#9 }

/-- The n bytes of BUF from offset a on, each by the read of one byte. -/
def bytesAt (m : Memory) (a n : Nat) : List Byte := (List.range n).map (fun i => m.read (a + i))

/-- The eight bytes at offset a as one little-endian binary64 pattern (R102, R103). -/
def f64At (m : Memory) (a : Nat) : F64 :=
  m.read (a + 7) ++ m.read (a + 6) ++ m.read (a + 5) ++ m.read (a + 4)
    ++ m.read (a + 3) ++ m.read (a + 2) ++ m.read (a + 1) ++ m.read a

/-- The n binary64 samples from offset a on (R103). -/
def f64sAt (m : Memory) (a n : Nat) : List F64 := (List.range n).map (fun i => f64At m (a + 8 * i))

/-- The n raw IQ pairs from offset a on, byte I then byte Q (R103). -/
def pairsAt (m : Memory) (a n : Nat) : List (Byte × Byte) :=
  (List.range n).map (fun i => (m.read (a + 2 * i), m.read (a + 2 * i + 1)))

/-- The n signed PCM samples from offset a on (R103). -/
def pcmsAt (m : Memory) (a n : Nat) : List Int :=
  (List.range n).map (fun i => (m.read (a + 2 * i + 1) ++ m.read (a + 2 * i)).toInt)

/-- BUF `t` is BUF `s` with the bytes `bs` stored from offset a on: they are read there, and every other byte reads as before
(R107). -/
def Stored (s t : Memory) (a : Nat) (bs : List Byte) : Prop :=
  (∀ i, (h : i < bs.length) → t.read (a + i) = bs[i]) ∧
  (∀ b, b < a ∨ a + bs.length ≤ b → t.read b = s.read b)

/-- Every byte of BUF reads in `t` as in `s`. -/
def SameBytes (s t : Memory) : Prop := ∀ a, t.read a = s.read a

/-- The state no command writes, whatever it is and however it ends: the operand registers and the snapshot (R37), CMD, the
enables, TIME and its latch, the sticky bits of STATUS, the CRC and Viterbi registers, every configuration register of the
other units, and the outside world. -/
def SameHostRegisters (s t : State) : Prop :=
  t.args = s.args ∧ t.snap = s.snap ∧ t.cmd = s.cmd ∧ t.irqEnable = s.irqEnable ∧
  t.time = s.time ∧ t.timeHiLatch = s.timeHiLatch ∧
  t.overrun = s.overrun ∧ t.wrIgnored = s.wrIgnored ∧ t.bufHaz = s.bufHaz ∧
  t.crc0 = s.crc0 ∧ t.crc1 = s.crc1 ∧ t.vit = s.vit ∧
  t.fm.ctrl = s.fm.ctrl ∧ t.fm.samplerate = s.fm.samplerate ∧ t.fm.outRate = s.fm.outRate ∧
  t.fm.pilotF = s.fm.pilotF ∧ t.fm.pilotQm = s.fm.pilotQm ∧ t.fm.subF = s.fm.subF ∧
  t.fm.subQm = s.fm.subQm ∧ t.fm.lpfF = s.fm.lpfF ∧ t.fm.lpfQm = s.fm.lpfQm ∧
  t.pll.kp = s.pll.kp ∧ t.pll.ki = s.pll.ki ∧
  t.dab.fragLen = s.dab.fragLen ∧ t.dab.fireEn = s.dab.fireEn ∧ t.dab.lossThr = s.dab.lossThr ∧
  t.rs.config = s.rs.config ∧
  t.diag.pwrWin = s.diag.pwrWin ∧ t.diag.pwrMax = s.diag.pwrMax ∧
  t.env = s.env ∧ t.hostData = s.hostData

/-- The opcode map's OPC column with the lowest and the highest legal SEL (R133). -/
def commandTable : List (Nat × Nat × Nat) :=
  [(0x00, 0, 0), (0x10, 0, 0), (0x11, 0, 0), (0x12, 0, 0), (0x13, 0, 1), (0x20, 0, 7), (0x21, 0, 7), (0x22, 0, 7),
   (0x23, 0, 0), (0x24, 0, 0)] ++
  [(0x30, 0, 0), (0x31, 0, 0), (0x40, 0, 0), (0x41, 0, 0), (0x50, 0, 1), (0x51, 0, 1), (0x60, 1, 4), (0x70, 0, 0),
   (0x71, 0, 0), (0x72, 0, 0)]

/-- Where a PLL register begins (R44). -/
def pllOffset : PllReg → Nat
  | .kp => 0x180
  | .ki => 0x188
  | .w0 => 0x190
  | .phase => 0x198
  | .integ => 0x1A0

/-- Where a register begins within a biquad slot (R52). -/
def bqOffset : BqReg → Nat
  | .b0 => 0x00
  | .b1 => 0x08
  | .b2 => 0x10
  | .a1 => 0x18
  | .a2 => 0x20
  | .x1 => 0x28
  | .x2 => 0x30
  | .y1 => 0x38
  | .y2 => 0x40

/-- A half's distance from the lower offset (R32). -/
def halfOffset : Half → Nat
  | .lo => 0
  | .hi => 4

/-- A Reed-Solomon configuration register's offset (R47). -/
def rsOffset : RsReg → Nat
  | .symsize => 0x240
  | .gfpoly => 0x244
  | .fcr => 0x248
  | .prim => 0x24C
  | .nroots => 0x250
  | .pad => 0x254

/-- A CRC register's offset within its mode (R49). -/
def crcOffset : CrcReg → Nat
  | .poly => 0x0
  | .init => 0x4
  | .xorout => 0x8
  | .cfg => 0xC

/-- The offset of every register, read off the tables of R33-R52. -/
def csrOffset : Csr → Nat
  | .id => 0x000
  | .version => 0x004
  | .ctrl => 0x008
  | .status => 0x00C
  | .cmd => 0x010
  | .arg i => 0x014 + 4 * i.val
  | .res i => 0x024 + 4 * i.val
  | .errInfo => 0x034
  | .irqStatus => 0x038
  | .irqEnable => 0x03C
  | .timeLo => 0x040
  | .timeHi => 0x044
  | .fmCtrl => 0x100
  | .fmSamplerate => 0x104
  | .fmOutRate => 0x108
  | .fmDownsample => 0x10C
  | .fmDeemphA => 0x110
  | .fmState => 0x114
  | .fmAccI => 0x118
  | .fmAccQ => 0x11C
  | .fmAccCnt => 0x120
  | .fmPrevI => 0x124
  | .fmPrevQ => 0x128
  | .fmDeemphAvg => 0x12C
  | .fmLprAcc => 0x130
  | .fmLprIdx => 0x134
  | .fmPwr => 0x138
  | .fmOutRateDesc => 0x13C
  | .fmOutFmt => 0x140
  | .fmLSr => 0x144
  | .fmLOutRate => 0x148
  | .stPilotF => 0x150
  | .stPilotQm => 0x154
  | .stSubF => 0x158
  | .stSubQm => 0x15C
  | .stLpfF => 0x160
  | .stLpfQm => 0x164
  | .pll r h => pllOffset r + halfOffset h
  | .dabFragLen => 0x200
  | .dabCtrl => 0x204
  | .dabLossThr => 0x208
  | .dabStatus => 0x20C
  | .dabSfCount => 0x210
  | .dabRejCount => 0x214
  | .rsConfig r => rsOffset r
  | .rsStatus => 0x258
  | .rsN => 0x25C
  | .rsK => 0x260
  | .crc mode r => 0x280 + 0x10 * mode.val + crcOffset r
  | .vitPoly j => 0x2C0 + 4 * j.val
  | .vitTail => 0x2D0
  | .vitPi k => 0x300 + 4 * k.val
  | .vitProf i => 0x360 + 4 * i.val
  | .pwrWin => 0x380
  | .pwrMax => 0x384
  | .pwrLast => 0x388
  | .bitrate => 0x38C
  | .brBytes => 0x390
  | .bq slot r h => 0x400 + 0x80 * slot.val + bqOffset r + halfOffset h

/-- The bits of a plain RW register that hold what is written (R31, R41-R52); none for the RO registers and for CTRL, STATUS,
CMD, IRQ_STATUS and IRQ_ENABLE, which have rules of their own. -/
def rwMask : Csr → Option Word
  | .arg _ => some 0xFFFFFFFF#32
  | .fmCtrl => some 0x00000007#32
  | .fmSamplerate | .fmOutRate => some 0xFFFFFFFF#32
  | .stPilotF | .stPilotQm | .stSubF | .stSubQm | .stLpfF | .stLpfQm => some 0xFFFFFFFF#32
  | .pll _ _ => some 0xFFFFFFFF#32
  | .dabFragLen => some 0xFFFFFFFF#32
  | .dabCtrl => some 0x00000001#32
  | .dabLossThr => some 0xFFFFFFFF#32
  | .rsConfig _ => some 0xFFFFFFFF#32
  | .crc _ .cfg => some 0x00000007#32
  | .crc _ .poly | .crc _ .init | .crc _ .xorout => some 0x0000FFFF#32
  | .vitPoly _ => some 0x0000007F#32
  | .vitTail => some 0x00FFFFFF#32
  | .vitPi _ => some 0xFFFFFFFF#32
  | .vitProf _ => some 0x00FFFFFF#32
  | .pwrWin | .pwrMax => some 0xFFFFFFFF#32
  | .bq _ _ _ => some 0xFFFFFFFF#32
  | .id | .version | .ctrl | .status | .cmd | .res _ | .errInfo | .irqStatus | .irqEnable | .timeLo | .timeHi
  | .fmDownsample | .fmDeemphA | .fmState | .fmAccI | .fmAccQ | .fmAccCnt | .fmPrevI | .fmPrevQ | .fmDeemphAvg
  | .fmLprAcc | .fmLprIdx | .fmPwr | .fmOutRateDesc | .fmOutFmt | .fmLSr | .fmLOutRate
  | .dabStatus | .dabSfCount | .dabRejCount | .rsStatus | .rsN | .rsK
  | .pwrLast | .bitrate | .brBytes => none

/-- The registers a host write reaches by a rule of their own, also while BUSY (R31). -/
def isControl (c : Csr) : Bool :=
  match c with
  | .ctrl | .status | .cmd | .irqStatus | .irqEnable => true
  | _ => false

/-- Everything FM_PROCESS computes from its input: the registers after the last pair, and the PCM samples (R220-R232). -/
def fmOutput (s : State) : FmPath × List Pcm :=
  fmRun numerics ⟨s.fm, s.pll, s.bq⟩ (pairsAt s.buf (arg0 s) (arg1 s / 2))

/-- The regions of BUF a command may store to, as offset and length, by the operands it takes them from. -/
def storedRegions (i : Instr) (s : State) : List (Nat × Nat) :=
  match i with
  | .fmProcess _ => [(arg2 s, 2 * (fmOutput s).2.length)]
  | .bqRun _ | .pllRun _ => [(arg2 s, 8 * arg1 s)]
  | .dabFeed _ => [(arg2 s, 5 * s.dab.fragLen.toNat)]
  | .rsDecode _ => [(arg0 s, s.rs.n.toNat), (arg3 s, s.rs.latched.nroots.toNat)]
  | .vitDecode sel => [(arg2 s, 4 * totalBlocks s.vit sel.toNat (arg1 s))]
  | .nop _ | .fmStart _ | .fmFinish _ | .iqPolar _ | .bqDesign _ | .bqClear _ | .pllClear _ | .dabReset _
  | .rsInit _ | .crcCalc _ | .crcCheck _ | .pwrCalc _ | .brAdd _ | .stnScore _ => []

/-- A signed register lies within bounds. -/
def Between (lo : Int) (w : Word) (hi : Int) : Prop := lo ≤ w.toInt ∧ w.toInt ≤ hi

/-- What holds of the emphasize path while a stream runs (R210, R231, R232): the output rate is legal, the phase is below the
input rate, `avg` is in -16384..16384, and the running sum is at most 16384 for each sample summed since the last output. -/
def EmphInv (f : Fm) : Prop :=
  1 ≤ f.lOutRate.toNat ∧ f.lOutRate.toNat ≤ f.lSr.toNat ∧ f.lSr.toNat / f.lOutRate.toNat ≤ 32768 ∧
  f.lprIdx.toNat < f.lSr.toNat ∧
  Between (-16384) f.deemphAvg 16384 ∧
  f.lprAcc.toInt.natAbs * f.lOutRate.toNat ≤ 16384 * f.lprIdx.toNat

/-- What holds of the FM unit: while a stream runs, the latched rate is legal and D is its decimation factor (R211), fewer than
D pairs are summed and the sums have their ranges (R220), the previous sample is in -127..128, at most one of the two
optional paths is chosen (R210), and the announced format is the path's. -/
def FmInv (f : Fm) : Prop :=
  f.running = true →
    1 ≤ f.lSr.toNat ∧ f.lSr.toNat ≤ 3200000 ∧
    f.downsample.toNat = 1000000 / f.lSr.toNat + 1 ∧
    f.accCnt.toNat < f.downsample.toNat ∧
    Between (-127 * (f.accCnt.toNat : Int)) f.accI (128 * (f.accCnt.toNat : Int)) ∧
    Between (-127 * (f.accCnt.toNat : Int)) f.accQ (128 * (f.accCnt.toNat : Int)) ∧
    Between (-127) f.prevI 128 ∧ Between (-127) f.prevQ 128 ∧
    (f.lStereo = true → f.lEmph = false) ∧
    f.outFmt = (if f.lStereo then 0x00100002#32 else 0x00100001#32) ∧
    (f.lEmph = true → EmphInv f)

/-- What holds of the synchronizer (R302, R306): at most four fragments are held, each as long as DAB_FRAG_LEN says and that
length a legal one, and DAB_WIN_F is that length; FAILS is at most 254, and 0 in Searching. -/
def DabInv (d : Dab) : Prop :=
  d.win.length ≤ 4 ∧
  (∀ frag, frag ∈ d.win → frag.length = d.fragLen.toNat) ∧
  (d.win ≠ [] → d.winF = d.fragLen ∧ 24 ≤ d.fragLen.toNat ∧ d.fragLen.toNat ≤ 1152 ∧ d.fragLen.toNat % 24 = 0) ∧
  d.fails.toNat ≤ 254 ∧
  (d.synced = false → d.fails = 0#8)

/-- A Reed-Solomon configuration that passes every check of RS_INIT (R334). -/
def RsLegal (c : RsConfig) : Prop :=
  2 ≤ c.symsize.toNat ∧ c.symsize.toNat ≤ 8 ∧
  isPrimitive c.symsize.toNat c.gfpoly.toNat = true ∧
  c.fcr.toNat ≤ 2 ^ c.symsize.toNat - 2 ∧
  1 ≤ c.prim.toNat ∧ c.prim.toNat ≤ 2 ^ c.symsize.toNat - 2 ∧ Nat.gcd c.prim.toNat (2 ^ c.symsize.toNat - 1) = 1 ∧
  1 ≤ c.nroots.toNat ∧ c.nroots.toNat ≤ 2 ^ c.symsize.toNat - 2 ∧
  c.pad.toNat + c.nroots.toNat ≤ 2 ^ c.symsize.toNat - 2

/-- What holds of the Reed-Solomon unit (R48, R335): the latched configuration is a checked one, RS_N and RS_K belong to it, and
READY means that it is the one in the configuration registers. -/
def RsInv (r : Rs) : Prop :=
  RsLegal r.latched ∧
  r.n.toNat = 2 ^ r.latched.symsize.toNat - 1 - r.latched.pad.toNat ∧
  r.k.toNat = r.n.toNat - r.latched.nroots.toNat ∧
  (r.ready = true → r.latched = r.config)

/-- What holds of the error flags (R35, R500): ERR says whether ERRCODE is not 0, and codes above 7 are never reported. -/
def ErrInv (s : State) : Prop := (s.err = true ↔ s.errcode ≠ 0#8) ∧ s.errcode.toNat ≤ 7

/-- The two power percentages are in 0..100 (R42, R51, R411). -/
def PowerInv (s : State) : Prop := s.fm.pwr.toNat ≤ 100 ∧ s.diag.pwrLast.toNat ≤ 100

/-- The invariant of the block. -/
def BlockInv (s : State) : Prop :=
  s.buf.wf = true ∧ FmInv s.fm ∧ DabInv s.dab ∧ RsInv s.rs ∧ ErrInv s ∧ PowerInv s

/-- A run of k steps from s is safe: it ends in a state that meets the invariant, or at a host access that the block answers with
a bus error or that is no access to the block (R105). It is never refused. -/
def SafeRun (k : Nat) (s : State) : Prop :=
  match Host.Core.run Sys2Proof.core k s with
  | .next t => BlockInv t
  | .fault _ => True
  | .refused _ => False

end Sys2Proof.Machine
end

