-- ==== Sys2Proof/Certificates/Slice0/Obligations.lean ====
section
/-! DEFINITION. The statements for the provers. -/

open Sys2Proof Sys2Proof.Machine

/-! ## The command word -/

/-- Decoding and encoding agree, both ways (R130, R132, R133): a word decodes to a command exactly when it is that command's word. -/
def Obligations.DecodeIffEncode : Prop :=
  ∀ (w : Word) (i : Instr), decode w = .command i ↔ w = encode i

/-- How a pending word completes (R132): a word whose OPC is not in the table or whose RSV is not 0 ends with ILLEGAL_COMMAND and
the word in ERR_INFO; one whose SEL is out of its range ends with BAD_SELECTOR and the word; any other is a well-formed
command and has its meaning. -/
def Obligations.LegalWords : Prop :=
  ∀ s : State, s.env = [] → s.busy = true →
    let opc := (s.cmd.extractLsb' 24 8).toNat
    let sel := (s.cmd.extractLsb' 20 4).toNat
    let rsv := s.cmd.extractLsb' 0 20
    (((∀ row, row ∈ commandTable → row.1 ≠ opc) ∨ rsv ≠ 0#20) → step s = .next (failedWith s 1#8 s.cmd)) ∧
    (∀ row, row ∈ commandTable → row.1 = opc → rsv = 0#20 →
      (¬ (row.2.1 ≤ sel ∧ sel ≤ row.2.2) → step s = .next (failedWith s 2#8 s.cmd)) ∧
      (row.2.1 ≤ sel ∧ sel ≤ row.2.2 → ∃ i, i.wf = true ∧ encode i = s.cmd ∧ step s = exec i s))

/-- The worked encodings of R137: six words decode to their commands, and three pending words raise their errors. -/
def Obligations.WorkedWords : Prop :=
  decode 0x50100000#32 = .command (.crcCalc 1#4) ∧
  decode 0x51100000#32 = .command (.crcCheck 1#4) ∧
  decode 0x60300000#32 = .command (.vitDecode 3#4) ∧
  decode 0x21300000#32 = .command (.bqRun 3#4) ∧
  decode 0x41000000#32 = .command (.rsDecode 0#4) ∧
  decode 0x11000000#32 = .command (.fmProcess 0#4) ∧
  ∀ s : State, s.env = [] → s.busy = true →
    (s.cmd = 0x50200000#32 → step s = .next (failedWith s 2#8 0x50200000#32)) ∧
    (s.cmd = 0x50100001#32 → step s = .next (failedWith s 1#8 0x50100001#32)) ∧
    (s.cmd = 0x01000000#32 → step s = .next (failedWith s 1#8 0x01000000#32))

/-! ## The engine -/

/-- A step runs the decoded command: where a command is pending and its word decodes to i, the step that completes it is exec of i,
whether the completion is the next event or no event is left (logs 1 and 2). -/
def Obligations.StepRunsDecoded : Prop :=
  ∀ (s : State) (i : Instr), s.busy = true → decode s.cmd = .command i →
    (s.env = [] → step s = exec i s) ∧
    (∀ rest, s.env = .complete :: rest → step s = exec i { s with env := rest })

/-- Acceptance (R530): a CMD write to an idle block makes the word pending and takes the snapshot; to a busy one it is dropped
and sets OVERRUN. -/
def Obligations.CmdAcceptance : Prop :=
  ∀ (s : State) (rest : List Event) (v : BitVec 64),
    (s.busy = false →
      step { s with env := .write 0x10 .w32 v :: rest } =
        .next { s with env := rest, busy := true, cmd := v.setWidth 32, snap := s.args }) ∧
    (s.busy = true →
      step { s with env := .write 0x10 .w32 v :: rest } = .next { s with env := rest, overrun := true })

/-- A command reads its operands from the snapshot only (R131, R530): what the live ARG registers hold makes no difference, and
they keep it. -/
def Obligations.SnapshotOnly : Prop :=
  ∀ (i : Instr) (s : State) (q : Quad),
    ∃ t, exec i s = .next t ∧ exec i { s with args := q } = .next { t with args := q }

/-- Every command ends in exactly one of two ways (R504, R505, R532): with an error code 1..7, where the state is the one before
with the error record over it; or with success, where ERR, ERRCODE and BUSY are cleared, DONE is set and the ERR interrupt is
not, and no command writes the host's registers. It never stops the block. -/
def Obligations.CompletionRecord : Prop :=
  ∀ (i : Instr) (s : State),
    (∃ code info, 1 ≤ code.toNat ∧ code.toNat ≤ 7 ∧ exec i s = .next (failedWith s code info)) ∨
    (∃ u r0 r1 r2 r3 irqs, exec i s = .next (doneWith u r0 r1 r2 r3 irqs) ∧
      irqs.getLsbD 0 = true ∧ irqs.getLsbD 1 = false ∧
      u.irqStatus = s.irqStatus ∧ u.errInfo = s.errInfo ∧ SameHostRegisters s u)

/-- Each unit's registers are written by its own commands only: the FM unit's by the FM commands, the PLL's and the biquad slots'
by theirs and the FM commands, of which the FM commands never touch slots 4..7 (R613), the synchronizer's, the Reed-Solomon
unit's and the diagnostics' by theirs, CRC_PASS by CRC_CHECK (R35). -/
def Obligations.UnitFrames : Prop :=
  ∀ (i : Instr) (s t : State), exec i s = .next t →
    ((∀ sel, i ≠ .fmStart sel ∧ i ≠ .fmProcess sel ∧ i ≠ .fmFinish sel) → t.fm = s.fm) ∧
    ((∀ sel, i ≠ .fmStart sel ∧ i ≠ .fmProcess sel ∧ i ≠ .pllRun sel ∧ i ≠ .pllClear sel) → t.pll = s.pll) ∧
    (∀ k : Fin 8,
      (∀ sel, sel.toNat = k.val → i ≠ .bqDesign sel ∧ i ≠ .bqRun sel ∧ i ≠ .bqClear sel) →
      (4 ≤ k.val ∨ ∀ sel, i ≠ .fmStart sel ∧ i ≠ .fmProcess sel) → t.bq[k] = s.bq[k]) ∧
    ((∀ sel, i ≠ .dabReset sel ∧ i ≠ .dabFeed sel) → t.dab = s.dab) ∧
    ((∀ sel, i ≠ .rsInit sel) → t.rs = s.rs) ∧
    ((∀ sel, i ≠ .crcCheck sel) → t.crcPass = s.crcPass) ∧
    ((∀ sel, i ≠ .pwrCalc sel ∧ i ≠ .brAdd sel) → t.diag = s.diag)

/-- A command stores to its output regions only (R107): every byte of BUF outside them reads as before. The regions are computed
from the operands; a command that has none leaves every byte. -/
def Obligations.StoredBytesOnly : Prop :=
  ∀ (i : Instr) (s t : State), BlockInv s → exec i s = .next t →
    ∀ a, (∀ r, r ∈ storedRegions i s → ¬ (r.1 ≤ a ∧ a < r.1 + r.2)) → t.buf.read a = s.buf.read a

/-- Nothing but a host access stops the block (R502, R505): no step is refused, and a step that faults is a read or a write of the
outside world. -/
def Obligations.OnlyHostAccessFaults : Prop :=
  ∀ s : State, (∀ r, step s ≠ .refused r) ∧
    (∀ f, step s = .fault f → ∃ off w rest,
      (s.env = .read off w :: rest ∨ ∃ v, s.env = .write off w v :: rest) ∧
      (f = .busError ↔ off < 0x20000))

/-! ## The MMIO port -/

/-- The access widths and alignments the block answers (R105): every other access of the window is a bus error. -/
def Obligations.BusErrors : Prop :=
  ∀ (s : State) (rest : List Event) (off : Nat) (w : Width) (v : BitVec 64), off < 0x20000 →
    let legal := (off < 0x10000 ∧ w = .w32 ∧ off % 4 = 0) ∨
      (0x10000 ≤ off ∧ (w = .w8 ∨ (w = .w16 ∧ off % 2 = 0) ∨ (w = .w32 ∧ off % 4 = 0)))
    (¬ legal →
      step { s with env := .read off w :: rest } = .fault .busError ∧
      step { s with env := .write off w v :: rest } = .fault .busError) ∧
    (legal →
      (∃ t, step { s with env := .read off w :: rest } = .next t) ∧
      (∃ t, step { s with env := .write off w v :: rest } = .next t))

/-- BUF while BUSY (R610): a read returns 0, a write is dropped, each sets BUF_HAZ and has no other effect. -/
def Obligations.BusyBuf : Prop :=
  ∀ (s : State) (rest : List Event) (off : Nat) (w : Width) (v : BitVec 64),
    s.busy = true → 0x10000 ≤ off → off < 0x20000 → accessOk off w = true →
      step { s with env := .read off w :: rest } = .next { s with env := rest, bufHaz := true, hostData := 0#32 } ∧
      step { s with env := .write off w v :: rest } = .next { s with env := rest, bufHaz := true }

/-- CSR writes while BUSY, and control writes busy or not (R31, R35, R521, R602, R611): while BUSY, CMD sets OVERRUN, and any
register but the five control registers, the read-only ones among them (log 9), is left alone with WR_IGNORED set. Busy or idle,
IRQ_STATUS clears the bits written as 1, IRQ_ENABLE takes the value, STATUS clears the sticky bits written as 1, and CTRL resets
the block when bit 0 is 1 and changes nothing when it is 0. -/
def Obligations.BusyCsrWrites : Prop :=
  ∀ (s : State) (rest : List Event) (off : Nat) (v : BitVec 64) (c : Csr),
    off < 0x1000 → off % 4 = 0 → csrAt off = some c →
      let u : State := { s with env := rest }
      let answer := step { s with env := .write off .w32 v :: rest }
      (s.busy = true → isControl c = false → answer = .next { u with wrIgnored := true }) ∧
      (s.busy = true → c = .cmd → answer = .next { u with overrun := true }) ∧
      (c = .irqStatus → answer = .next { u with irqStatus := s.irqStatus &&& ~~~(v.setWidth 9) }) ∧
      (c = .irqEnable → answer = .next { u with irqEnable := v.setWidth 9 }) ∧
      (c = .status → answer = .next { u with
        overrun := s.overrun && !v.getLsbD 16,
        wrIgnored := s.wrIgnored && !v.getLsbD 17,
        bufHaz := s.bufHaz && !v.getLsbD 18 }) ∧
      (c = .ctrl → answer = .next (if v.getLsbD 0 then { State.reset with buf := s.buf, env := rest, hostData := s.hostData } else u))

/-- The CSR map (R30, R33-R52): an aligned offset of the CSR window holds a register exactly when the register's table puts it
there; every other aligned offset below BUF is reserved: it reads 0, and a write to it has no effect (R30, R109), in every state.
(That such a write has no effect while BUSY either, so that WR_IGNORED stays as it was, is the model's reading of R611: log 9.) -/
def Obligations.CsrMap : Prop :=
  (∀ (off : Nat) (c : Csr), off < 0x1000 → off % 4 = 0 → (csrAt off = some c ↔ off = csrOffset c)) ∧
  (∀ (s : State) (rest : List Event) (off : Nat) (v : BitVec 64), off < 0x10000 → off % 4 = 0 →
    (∀ c, off ≠ csrOffset c) →
      step { s with env := .read off .w32 :: rest } = .next { s with env := rest, hostData := 0#32 } ∧
      step { s with env := .write off .w32 v :: rest } = .next { s with env := rest })

/-- Register reads and writes of the host (R31-R52, R109, R335). A 32-bit read at a register's offset, busy or not, returns the
register and changes nothing else, but that TIME_LO loads the latch; the word of every register of the protocol, the interrupts
and the units is written out over the state, the status words bit by bit, with their reserved bits 0. A 32-bit write at a
register's offset of an idle block is the write of that register: a RW register reads back what was written, in the bits it has,
and every other register reads as before, but that DAB_FRAG_LEN clears the synchronizer and the RS configuration clears READY; a
read-only register ignores the write. -/
def Obligations.CsrWrites : Prop :=
  (∀ (s : State) (rest : List Event) (c : Csr),
    step { s with env := .read (csrOffset c) .w32 :: rest } =
      .next { s with
        env := rest, hostData := readCsr s c,
        timeHiLatch := if c = .timeLo then s.time.extractLsb' 32 32 else s.timeHiLatch }) ∧
  (∀ s : State,
    let status := readCsr s .status
    readCsr s (.res 0) = s.res.r0 ∧ readCsr s (.res 1) = s.res.r1 ∧
    readCsr s (.res 2) = s.res.r2 ∧ readCsr s (.res 3) = s.res.r3 ∧
    readCsr s .errInfo = s.errInfo ∧ readCsr s .cmd = s.cmd ∧
    readCsr s .irqStatus = s.irqStatus.setWidth 32 ∧ readCsr s .irqEnable = s.irqEnable.setWidth 32 ∧
    status.getLsbD 0 = s.busy ∧ status.getLsbD 1 = s.err ∧ status.getLsbD 2 = s.crcPass ∧
    status.getLsbD 3 = s.dab.synced ∧ status.extractLsb' 8 8 = s.errcode ∧ status.getLsbD 16 = s.overrun ∧
    status.getLsbD 17 = s.wrIgnored ∧ status.getLsbD 18 = s.bufHaz ∧
    status.extractLsb' 4 4 = 0#4 ∧ status.extractLsb' 19 13 = 0#13) ∧
  (∀ s : State,
    let fmWord := readCsr s .fmState
    let dabWord := readCsr s .dabStatus
    -- FM_STATE (R42), DAB_STATUS (R46) and RS_STATUS (R48), reserved bits 0
    fmWord.getLsbD 0 = s.fm.running ∧ fmWord.getLsbD 1 = s.fm.finished ∧ fmWord.getLsbD 2 = s.fm.pwrValid ∧
    fmWord.getLsbD 8 = s.fm.lStereo ∧ fmWord.getLsbD 9 = s.fm.lEmph ∧ fmWord.getLsbD 10 = s.fm.lFast ∧
    fmWord.extractLsb' 3 5 = 0#5 ∧ fmWord.extractLsb' 11 21 = 0#21 ∧
    dabWord.getLsbD 0 = s.dab.synced ∧ (s.dab.win.length ≤ 4 → (dabWord.extractLsb' 8 3).toNat = s.dab.win.length) ∧
    dabWord.extractLsb' 16 8 = s.dab.fails ∧
    dabWord.extractLsb' 1 7 = 0#7 ∧ dabWord.extractLsb' 11 5 = 0#5 ∧ dabWord.extractLsb' 24 8 = 0#8 ∧
    readCsr s .rsStatus = (if s.rs.ready then 1#32 else 0#32) ∧
    -- the other read-only registers of the units (R42, R46, R48, R51)
    readCsr s .fmDownsample = s.fm.downsample ∧ readCsr s .fmDeemphA = s.fm.deemphA ∧
    readCsr s .fmAccI = s.fm.accI ∧ readCsr s .fmAccQ = s.fm.accQ ∧ readCsr s .fmAccCnt = s.fm.accCnt ∧
    readCsr s .fmPrevI = s.fm.prevI ∧ readCsr s .fmPrevQ = s.fm.prevQ ∧
    readCsr s .fmDeemphAvg = s.fm.deemphAvg ∧ readCsr s .fmLprAcc = s.fm.lprAcc ∧ readCsr s .fmLprIdx = s.fm.lprIdx ∧
    readCsr s .fmPwr = s.fm.pwr ∧ readCsr s .fmOutRateDesc = s.fm.outRateDesc ∧ readCsr s .fmOutFmt = s.fm.outFmt ∧
    readCsr s .fmLSr = s.fm.lSr ∧ readCsr s .fmLOutRate = s.fm.lOutRate ∧
    readCsr s .dabSfCount = s.dab.sfCount ∧ readCsr s .dabRejCount = s.dab.rejCount ∧
    readCsr s .rsN = s.rs.n ∧ readCsr s .rsK = s.rs.k ∧
    readCsr s .pwrLast = s.diag.pwrLast ∧ readCsr s .bitrate = s.diag.bitrate ∧
    readCsr s .brBytes = s.diag.brBytes.extractLsb' 0 32) ∧
  (∀ (s : State) (h : Half),
    let half (x : BitVec 64) : Word := if h = .lo then x.extractLsb' 0 32 else x.extractLsb' 32 32
    -- the read-write registers of the units, reserved bits 0 (R37, R41, R43-R45, R47, R49-R52)
    readCsr s (.arg 0) = s.args.r0 ∧ readCsr s (.arg 1) = s.args.r1 ∧
    readCsr s (.arg 2) = s.args.r2 ∧ readCsr s (.arg 3) = s.args.r3 ∧
    readCsr s .fmCtrl = s.fm.ctrl.setWidth 32 ∧ readCsr s .fmSamplerate = s.fm.samplerate ∧
    readCsr s .fmOutRate = s.fm.outRate ∧
    readCsr s .stPilotF = s.fm.pilotF ∧ readCsr s .stPilotQm = s.fm.pilotQm ∧
    readCsr s .stSubF = s.fm.subF ∧ readCsr s .stSubQm = s.fm.subQm ∧
    readCsr s .stLpfF = s.fm.lpfF ∧ readCsr s .stLpfQm = s.fm.lpfQm ∧
    readCsr s (.pll .kp h) = half s.pll.kp ∧ readCsr s (.pll .ki h) = half s.pll.ki ∧
    readCsr s (.pll .w0 h) = half s.pll.w0 ∧ readCsr s (.pll .phase h) = half s.pll.phase ∧
    readCsr s (.pll .integ h) = half s.pll.integ ∧
    readCsr s .dabFragLen = s.dab.fragLen ∧ readCsr s .dabCtrl = (if s.dab.fireEn then 1#32 else 0#32) ∧
    readCsr s .dabLossThr = s.dab.lossThr ∧
    readCsr s (.rsConfig .symsize) = s.rs.config.symsize ∧ readCsr s (.rsConfig .gfpoly) = s.rs.config.gfpoly ∧
    readCsr s (.rsConfig .fcr) = s.rs.config.fcr ∧ readCsr s (.rsConfig .prim) = s.rs.config.prim ∧
    readCsr s (.rsConfig .nroots) = s.rs.config.nroots ∧ readCsr s (.rsConfig .pad) = s.rs.config.pad ∧
    (∀ n : Fin 2,
      let m := if n = 0 then s.crc0 else s.crc1
      readCsr s (.crc n .poly) = m.poly.setWidth 32 ∧ readCsr s (.crc n .init) = m.init.setWidth 32 ∧
      readCsr s (.crc n .xorout) = m.xorout.setWidth 32 ∧ readCsr s (.crc n .cfg) = m.cfg.setWidth 32) ∧
    (∀ j : Fin 4, readCsr s (.vitPoly j) = s.vit.poly[j].setWidth 32) ∧
    readCsr s .vitTail = s.vit.tail.setWidth 32 ∧
    (∀ k : Fin 24, readCsr s (.vitPi k) = s.vit.pi[k]) ∧
    (∀ i : Fin 8, readCsr s (.vitProf i) = s.vit.prof[i].setWidth 32) ∧
    readCsr s .pwrWin = s.diag.pwrWin ∧ readCsr s .pwrMax = s.diag.pwrMax ∧
    (∀ k : Fin 8,
      let b := s.bq[k]
      readCsr s (.bq k .b0 h) = half b.b0 ∧ readCsr s (.bq k .b1 h) = half b.b1 ∧ readCsr s (.bq k .b2 h) = half b.b2 ∧
      readCsr s (.bq k .a1 h) = half b.a1 ∧ readCsr s (.bq k .a2 h) = half b.a2 ∧
      readCsr s (.bq k .x1 h) = half b.x1 ∧ readCsr s (.bq k .x2 h) = half b.x2 ∧
      readCsr s (.bq k .y1 h) = half b.y1 ∧ readCsr s (.bq k .y2 h) = half b.y2)) ∧
  (∀ (s : State) (rest : List Event) (v : BitVec 64) (c : Csr), s.busy = false → isControl c = false →
    step { s with env := .write (csrOffset c) .w32 v :: rest } = .next (writeCsr { s with env := rest } (v.setWidth 32) c)) ∧
  (∀ (s : State) (v : Word) (c : Csr), s.busy = false → isControl c = false →
    (∀ m, rwMask c = some m → readCsr (writeCsr s v c) c = v &&& m) ∧
    (rwMask c = none → writeCsr s v c = s) ∧
    (∀ d, d ≠ c → (c = .dabFragLen → d ≠ .status ∧ d ≠ .dabStatus) → (∀ r, c = .rsConfig r → d ≠ .rsStatus) →
      readCsr (writeCsr s v c) d = readCsr s d) ∧
    (c = .dabFragLen → writeCsr s v c =
      { s with dab := { s.dab with fragLen := v, win := [], fails := 0#8, synced := false } }) ∧
    (∀ r, c = .rsConfig r → (writeCsr s v c).rs.ready = false ∧ (writeCsr s v c).rs.latched = s.rs.latched))

/-- Byte order of host accesses (R102, R105): 8, 16 and 32 bits written to BUF of an idle block, at any, an even and a word-aligned
offset, are read back byte by byte from the low end, and every other byte is left alone; reads of 8, 16 and 32 bits take the
byte at their offset as bits 7:0. -/
def Obligations.HostByteOrder : Prop :=
  ∀ (s : State) (rest : List Event) (a : Nat) (v : BitVec 64), s.busy = false → a < 65536 →
    (∃ t, step { s with env := .write (0x10000 + a) .w8 v :: rest } = .next t ∧
      t = { s with env := rest, buf := t.buf } ∧
      t.buf.read a = v.extractLsb' 0 8 ∧
      ∀ b, b ≠ a → t.buf.read b = s.buf.read b) ∧
    (a % 2 = 0 → ∃ t, step { s with env := .write (0x10000 + a) .w16 v :: rest } = .next t ∧
      t = { s with env := rest, buf := t.buf } ∧
      t.buf.read a = v.extractLsb' 0 8 ∧ t.buf.read (a + 1) = v.extractLsb' 8 8 ∧
      ∀ b, b < a ∨ a + 2 ≤ b → t.buf.read b = s.buf.read b) ∧
    (a % 4 = 0 → ∃ t, step { s with env := .write (0x10000 + a) .w32 v :: rest } = .next t ∧
      t = { s with env := rest, buf := t.buf } ∧
      t.buf.read a = v.extractLsb' 0 8 ∧ t.buf.read (a + 1) = v.extractLsb' 8 8 ∧
      t.buf.read (a + 2) = v.extractLsb' 16 8 ∧ t.buf.read (a + 3) = v.extractLsb' 24 8 ∧
      ∀ b, b < a ∨ a + 4 ≤ b → t.buf.read b = s.buf.read b) ∧
    (step { s with env := .read (0x10000 + a) .w8 :: rest } =
      .next { s with env := rest, hostData := (s.buf.read a).setWidth 32 }) ∧
    (a % 2 = 0 → step { s with env := .read (0x10000 + a) .w16 :: rest } =
      .next { s with env := rest, hostData := (s.buf.read (a + 1) ++ s.buf.read a).setWidth 32 }) ∧
    (a % 4 = 0 →
      let word : Word := s.buf.read (a + 3) ++ s.buf.read (a + 2) ++ s.buf.read (a + 1) ++ s.buf.read a
      step { s with env := .read (0x10000 + a) .w32 :: rest } = .next { s with env := rest, hostData := word })

/-! ## Interrupts, time, reset -/

/-- The interrupt output and its bits (R521, R522): irq_out is asserted exactly while some pending bit is enabled; a write to
IRQ_STATUS, busy or not, clears the bits it carries and leaves the others; a write to IRQ_ENABLE sets the enables; all are
masked at reset. -/
def Obligations.InterruptLine : Prop :=
  (∀ s : State, irqOut s = true ↔ ∃ i, i < 9 ∧ s.irqStatus.getLsbD i = true ∧ s.irqEnable.getLsbD i = true) ∧
  (∀ (s : State) (rest : List Event) (v : BitVec 64), ∃ t,
    step { s with env := .write 0x38 .w32 v :: rest } = .next t ∧ t = { s with env := rest, irqStatus := t.irqStatus } ∧
    ∀ i, i < 9 → t.irqStatus.getLsbD i = (s.irqStatus.getLsbD i && !v.getLsbD i)) ∧
  (∀ (s : State) (rest : List Event) (v : BitVec 64),
    step { s with env := .write 0x3C .w32 v :: rest } = .next { s with env := rest, irqEnable := v.setWidth 9 }) ∧
  State.reset.irqEnable = 0#9

/-- Interrupt bits are set only at a command's completion instant, the instant BUSY falls (R520, R524, R531). -/
def Obligations.IrqOnlyAtCompletion : Prop :=
  ∀ (s t : State) (i : Nat), step s = .next t →
    t.irqStatus.getLsbD i = true → s.irqStatus.getLsbD i = false →
      s.busy = true ∧ t.busy = false ∧ (s.env = [] ∨ ∃ rest, s.env = .complete :: rest)

/-- The timer registers (R40): TIME_LO returns the low half of TIME and loads the latch with the high half; TIME_HI returns the
latch and changes nothing else. -/
def Obligations.TimerLatch : Prop :=
  ∀ (s : State) (rest : List Event),
    step { s with env := .read 0x40 .w32 :: rest } =
      .next { s with env := rest, timeHiLatch := s.time.extractLsb' 32 32, hostData := s.time.extractLsb' 0 32 } ∧
    step { s with env := .read 0x44 .w32 :: rest } = .next { s with env := rest, hostData := s.timeHiLatch } ∧
    State.reset.time = 0#64 ∧ State.reset.timeHiLatch = 0#32

/-- What moves TIME (R410, R602): the passing of time adds the microseconds that passed, modulo 2^64, and does nothing else; a reset
clears TIME; no command and no other host access changes it. -/
def Obligations.TimeMoves : Prop :=
  (∀ (s : State) (us : Nat) (rest : List Event), s.env = .elapse us :: rest →
    step s = .next { s with env := rest, time := s.time + BitVec.ofNat 64 us }) ∧
  (∀ s t : State, step s = .next t →
    t.time = s.time ∨
    (∃ us rest, s.env = .elapse us :: rest ∧ t = { s with env := rest, time := s.time + BitVec.ofNat 64 us }) ∨
    (∃ v rest, s.env = .write 0x8 .w32 v :: rest ∧ v.getLsbD 0 = true ∧ t.time = 0#64))

/-- The soft reset (R602, R533): a write of 1 to CTRL.SRST, busy or not, puts every piece of state to its power-on value but for
BUF; the pending command is discarded, and nothing is raised for it. (The last read's data and the outside world's further
events are no state of the block: logs 1 and 14.) -/
def Obligations.SoftReset : Prop :=
  ∀ (s : State) (rest : List Event) (v : BitVec 64), v.getLsbD 0 = true →
    step { s with env := .write 0x8 .w32 v :: rest } =
      .next { State.reset with buf := s.buf, env := rest, hostData := s.hostData }

/-- Power-on reset (R600): every CSR, those of the biquad slots among them, has its reset value, and a host read of it right after
reset returns that value and changes nothing else; the hidden state has its own. (BUF is unspecified: log 3.) -/
def Obligations.ResetValues : Prop :=
  let table : List (Nat × Word) :=
    [(0x000, 0x52535244#32), (0x004, 0x00010000#32), (0x104, 170000#32), (0x108, 32000#32), (0x150, 19000#32),
     (0x154, 19000#32), (0x158, 38000#32), (0x15C, 1267#32), (0x160, 15000#32), (0x164, 707#32)] ++
    [(0x180, 0x47AE147B#32), (0x184, 0x3F847AE1#32), (0x188, 0x88E368F1#32), (0x18C, 0x3EE4F8B5#32), (0x200, 288#32),
     (0x208, 3#32), (0x240, 8#32), (0x244, 0x11D#32), (0x24C, 1#32), (0x250, 10#32)] ++
    [(0x254, 135#32), (0x258, 1#32), (0x25C, 120#32), (0x260, 110#32), (0x280, 0x1021#32), (0x284, 0xFFFF#32),
     (0x288, 0xFFFF#32), (0x28C, 3#32), (0x290, 0x782F#32), (0x380, 1024#32), (0x384, 238#32)]
  (∀ off c, off < 0x1000 → off % 4 = 0 → csrAt off = some c →
    let value := ((table.find? (fun e => e.1 == off)).map (fun e => e.2)).getD 0#32
    readCsr State.reset c = value ∧
    ∀ rest, step { State.reset with env := .read off .w32 :: rest } =
      .next { State.reset with env := rest, hostData := value }) ∧
  State.reset.snap = ⟨0#32, 0#32, 0#32, 0#32⟩ ∧ State.reset.fm.pwrT = 0#64 ∧
  State.reset.dab.win = [] ∧ State.reset.dab.winF = 0#32 ∧
  State.reset.rs.latched = State.reset.rs.config ∧
  State.reset.diag.brBytes = 0#64 ∧ State.reset.diag.brT0 = 0#64 ∧ State.reset.time = 0#64

/-! ## The invariant -/

/-- The invariant of the block holds after reset (R600). -/
def Obligations.InvReset : Prop := BlockInv State.reset

/-- Every step keeps the invariant: BUF in its canonical form, the FM unit, the synchronizer, the Reed-Solomon unit and the error
flags in the ranges the spec gives them (R42, R46, R48, R220, R231, R232, R302, R335, R500). -/
def Obligations.InvKept : Prop := ∀ s t : State, BlockInv s → step s = .next t → BlockInv t

/-! ## NOP and the FM unit -/

/-- NOP (R418): the success record and nothing else; the word 0 is this command. -/
def Obligations.NopCompletes : Prop :=
  decode 0x00000000#32 = .command (.nop 0#4) ∧
  ∀ s : State, exec (.nop 0#4) s = .next (doneWith s 0#32 0#32 0#32 0#32 0x001#9)

/-- FM_START (R210, R211, R212, R230): its checks in order, each BAD_CONFIG with the offset of the register; when they pass, the
configuration latched, the run state cleared, the stereo filters designed and the loop restarted when STEREO is set, and D and
A returned. -/
def Obligations.FmStartCompletes : Prop :=
  ∀ s : State,
    let f := s.fm
    let sr := f.samplerate.toNat
    let rate := f.outRate.toNat
    let stereo := f.ctrl.getLsbD 0
    let emph := f.ctrl.getLsbD 1
    let bad (f0 qm : Word) : Prop := ¬ (1 ≤ f0.toNat ∧ 2 * f0.toNat < sr ∧ 1 ≤ qm.toNat)
    let u := fdiv fone (fmul (fofNat sr) tau64)
    let a : Word := if emph then word32 (fround (fdiv fone (fsub fone (numerics.exp (fneg u))))) else 0#32
    let d : Word := BitVec.ofNat 32 (1000000 / sr + 1)
    let started : Fm := { f with
      lSr := f.samplerate, downsample := d, lStereo := stereo, lEmph := emph, lFast := f.ctrl.getLsbD 2,
      lOutRate := if emph then f.outRate else 0#32, deemphA := a,
      accI := 0#32, accQ := 0#32, accCnt := 0#32, prevI := 0#32, prevQ := 0#32,
      deemphAvg := 0#32, lprAcc := 0#32, lprIdx := 0#32, pwr := 0#32, pwrT := 0#64, pwrValid := false,
      outRateDesc := if emph then f.outRate else f.samplerate,
      outFmt := if stereo then 0x00100002#32 else 0x00100001#32, running := true, finished := false }
    let slot (t : Nat) (f0 qm : Word) : BqSlot := designedSlot (design numerics t f0.toNat sr qm.toNat)
    (¬ (1 ≤ sr ∧ sr ≤ 3200000) → exec (.fmStart 0#4) s = .next (failedWith s 4#8 0x104#32)) ∧
    (1 ≤ sr → sr ≤ 3200000 →
      (stereo = true → emph = true → exec (.fmStart 0#4) s = .next (failedWith s 4#8 0x100#32)) ∧
      (stereo = false → emph = true →
        (¬ (1 ≤ rate ∧ rate ≤ sr ∧ sr / rate ≤ 32768) → exec (.fmStart 0#4) s = .next (failedWith s 4#8 0x108#32)) ∧
        (1 ≤ rate → rate ≤ sr → sr / rate ≤ 32768 →
          exec (.fmStart 0#4) s = .next (doneWith { s with fm := started } d a 0#32 0#32 0x001#9))) ∧
      (stereo = false → emph = false →
        exec (.fmStart 0#4) s = .next (doneWith { s with fm := started } d 0#32 0#32 0#32 0x001#9)) ∧
      (stereo = true → emph = false →
        (bad f.pilotF f.pilotQm → exec (.fmStart 0#4) s = .next (failedWith s 4#8 0x150#32)) ∧
        (¬ bad f.pilotF f.pilotQm → bad f.subF f.subQm → exec (.fmStart 0#4) s = .next (failedWith s 4#8 0x158#32)) ∧
        (¬ bad f.pilotF f.pilotQm → ¬ bad f.subF f.subQm → bad f.lpfF f.lpfQm →
          exec (.fmStart 0#4) s = .next (failedWith s 4#8 0x160#32)) ∧
        (¬ bad f.pilotF f.pilotQm → ¬ bad f.subF f.subQm → ¬ bad f.lpfF f.lpfQm →
          exec (.fmStart 0#4) s = .next (doneWith { s with
            fm := started,
            bq := (((s.bq.set 0 (slot 1 f.pilotF f.pilotQm)).set 1 (slot 1 f.subF f.subQm)).set 2
              (slot 0 f.lpfF f.lpfQm)).set 3 (slot 0 f.lpfF f.lpfQm),
            pll := { s.pll with w0 := radiansPerSample f.pilotF.toNat sr, phase := 0#64, integ := 0#64 } }
            d 0#32 0#32 0#32 0x001#9))))

/-- The errors of FM_PROCESS, in the order of R240: the first check that fails decides, with nout the number of PCM bytes the
input produces. (What ERR_INFO shows of an nout of 2^32 or more is a free value: log 21.) -/
def Obligations.FmProcessErrors : Prop :=
  ∀ s : State, FmInv s.fm →
    let nout := 2 * (fmOutput s).2.length
    let first : Option (BitVec 8 × Word) :=
      if s.fm.running = false then some (3#8, 0x114#32)
      else if ¬ (1 ≤ s.diag.pwrWin.toNat ∧ s.diag.pwrWin.toNat ≤ 65535) then some (4#8, 0x380#32)
      else if s.diag.pwrMax.toNat = 0 then some (4#8, 0x384#32)
      else if arg1 s % 2 = 1 then some (5#8, s.snap.r1)
      else if arg3 s < nout then some (5#8, if nout < 2 ^ 32 then BitVec.ofNat 32 nout else Config.longLengthInfo nout)
      else if arg2 s % 2 = 1 then some (6#8, s.snap.r2)
      else if 65536 < arg0 s + arg1 s then some (7#8, s.snap.r0)
      else if 65536 < arg2 s + arg3 s then some (7#8, s.snap.r2)
      else none
    ∀ e, first = some e → exec (.fmProcess 0#4) s = .next (failedWith s e.1 e.2)

/-- FM_PROCESS (R240, R241): with a running stream, a legal power configuration, an even length, room for the output and legal
regions it completes: the FM, PLL and slot registers are those after the last pair, the PCM samples stand at dst and no other
byte changes, FM_PWR is refreshed when it is due, and the four results are the rule's. (That it is due when TIME - FM_PWR_T,
taken on unbounded integers, is a second or more is the model's reading of R241: log 8.) What a stream computes: the pairs one
after the other, and for one pair of a running stream the sums of the decimator (R220); at the D-th pair the averages, the
angle of the discriminator (R221, the fast one written out from R223), and the path's samples: mono (R225), stereo, left then
right (R226, R229), or emphasize, the filter and the second decimation (R231, R232). -/
def Obligations.FmProcessCompletes : Prop :=
  (∀ s : State, FmInv s.fm → s.fm.running = true →
      1 ≤ s.diag.pwrWin.toNat → s.diag.pwrWin.toNat ≤ 65535 → 1 ≤ s.diag.pwrMax.toNat →
      arg1 s % 2 = 0 → arg2 s % 2 = 0 → 2 * (fmOutput s).2.length ≤ arg3 s →
      arg0 s + arg1 s ≤ 65536 → arg2 s + arg3 s ≤ 65536 →
      let n := arg1 s / 2
      let path := (fmOutput s).1
      let pcm := (fmOutput s).2
      let due : Bool := decide (1 ≤ n) && (!s.fm.pwrValid || decide (s.fm.pwrT.toNat + 1000000 ≤ s.time.toNat))
      let power := powerPercent numerics s.diag.pwrMax.toNat (pairsAt s.buf (arg0 s) (min s.diag.pwrWin.toNat n))
      let channels := if s.fm.lStereo then 2 else 1
      ∃ t, exec (.fmProcess 0#4) s = .next t ∧
        Stored s.buf t.buf (arg2 s) (pcmBytes pcm) ∧
        t = doneWith { s with
          fm := (if due then { path.fm with pwr := BitVec.ofNat 32 power, pwrT := s.time, pwrValid := true } else path.fm),
          pll := path.pll, bq := path.bq, buf := t.buf }
          (BitVec.ofNat 32 (2 * pcm.length)) (BitVec.ofNat 32 (pcm.length / channels)) (BitVec.ofNat 32 channels)
          s.fm.outRateDesc (if due then 0x085#9 else 0x005#9)) ∧
  (∀ (nm : Numerics) (p : FmPath), fmRun nm p [] = (p, [])) ∧
  (∀ (nm : Numerics) (p : FmPath) (x : Byte × Byte) (xs : List (Byte × Byte)),
    let one := fmRun nm p [x]
    let more := fmRun nm one.1 xs
    fmRun nm p (x :: xs) = (more.1, one.2 ++ more.2)) ∧
  (∀ (nm : Numerics) (p : FmPath) (bI bQ : Byte), FmInv p.fm → p.fm.running = true →
    let f := p.fm
    let d := f.downsample.toNat
    let sumI := f.accI.toInt + ((bI.toNat : Int) - 127)
    let sumQ := f.accQ.toInt + ((bQ.toNat : Int) - 127)
    let one := fmRun nm p [(bI, bQ)]
    let sat (v : Int) : Int := max (-32768) (min 32767 v)
    (f.accCnt.toNat + 1 ≠ d →
      one = ({ p with fm := { f with
        accI := BitVec.ofInt 32 sumI, accQ := BitVec.ofInt 32 sumQ, accCnt := BitVec.ofNat 32 (f.accCnt.toNat + 1) } }, [])) ∧
    (f.accCnt.toNat + 1 = d →
      let ci := sumI.tdiv d
      let cq := sumQ.tdiv d
      let re := ci * f.prevI.toInt + cq * f.prevQ.toInt
      let im := cq * f.prevI.toInt - ci * f.prevQ.toInt
      let fast : Int :=
        if re = 0 ∧ im = 0 then 0
        else
          let angle := if 0 ≤ re then 4096 - (4096 * (re - |im|)).tdiv (re + |im|)
            else 12288 - (4096 * (re + |im|)).tdiv (|im| - re)
          if im < 0 then -angle else angle
      let out := if f.lFast then fast else angleExact im re
      let g : Fm := { f with
        accI := 0#32, accQ := 0#32, accCnt := 0#32, prevI := BitVec.ofInt 32 ci, prevQ := BitVec.ofInt 32 cq }
      (f.lStereo = false → f.lEmph = false → one = ({ p with fm := g }, [BitVec.ofInt 16 (sat out)])) ∧
      (f.lStereo = true →
        let x := fdiv (fofInt out) (fofNat 16384)
        let pilot := bqStep p.bq[0] x
        let loop := pllStep nm p.pll pilot.2
        let sub := bqStep p.bq[1] x
        let mono := bqStep p.bq[2] x
        let diff := bqStep p.bq[3] (fmul (fmul ftwo sub.2) loop.2)
        let clamp (v : F64) : F64 := if flt v (fneg fone) then fneg fone else if flt fone v then fone else v
        let pcm (v : F64) : Pcm := BitVec.ofInt 16 (if isNaN v then 0 else ftrunc (fmul (clamp v) (fofNat 32767)))
        one = (⟨g, loop.1, (((p.bq.set 0 pilot.1).set 1 sub.1).set 2 mono.1).set 3 diff.1⟩,
          [pcm (fdiv (fadd mono.2 diff.2) ftwo), pcm (fdiv (fsub mono.2 diff.2) ftwo)])) ∧
      (f.lStereo = false → f.lEmph = true →
        let a : Int := f.deemphA.toNat
        let avg := f.deemphAvg.toInt
        let dl := out - avg
        let next := avg + (if 0 < dl then (dl + a.tdiv 2).tdiv a else (dl - a.tdiv 2).tdiv a)
        let sum := f.lprAcc.toInt + sat next
        let idx := f.lprIdx.toNat + f.lOutRate.toNat
        let rate := f.lSr.toNat
        (idx < rate → one = ({ p with fm := { g with
          deemphAvg := BitVec.ofInt 32 next, lprAcc := BitVec.ofInt 32 sum, lprIdx := BitVec.ofNat 32 idx } }, [])) ∧
        (rate ≤ idx → one = ({ p with fm := { g with
          deemphAvg := BitVec.ofInt 32 next, lprAcc := 0#32, lprIdx := BitVec.ofNat 32 (idx - rate) } },
          [BitVec.ofInt 16 (sat (sum.tdiv ((rate / f.lOutRate.toNat : Nat) : Int)))])))))

/-- The output stream does not depend on how the input is cut (R201): where two FM_PROCESS commands complete, the second in a state
u with the stream's registers as the first left them, and one command completes on the two inputs joined, from the registers
the first began with, then the one writes the PCM bytes of the first and after them those of the second, the counts in RES0
and RES1 add up, and the FM, PLL and slot registers are the same at the end, but for FM_PWR, FM_PWR_T and PWR_VALID, which each
command refreshes by its own chunk and instant (R241). -/
def Obligations.FmChunks : Prop :=
  ∀ s t u v w x : State, FmInv s.fm →
    -- the first command, from s to t
    exec (.fmProcess 0#4) s = .next t → t.err = false →
    -- the second command, from u to v
    u.fm = t.fm → u.pll = t.pll → u.bq = t.bq →
    exec (.fmProcess 0#4) u = .next v → v.err = false →
    -- the one command, from w to x
    w.fm = s.fm → w.pll = s.pll → w.bq = s.bq →
    pairsAt w.buf (arg0 w) (arg1 w / 2) = pairsAt s.buf (arg0 s) (arg1 s / 2) ++ pairsAt u.buf (arg0 u) (arg1 u / 2) →
    exec (.fmProcess 0#4) w = .next x → x.err = false →
      let n1 := t.res.r0.toNat
      let n2 := v.res.r0.toNat
      (∀ i, i < n1 → x.buf.read (arg2 w + i) = t.buf.read (arg2 s + i)) ∧
      (∀ i, i < n2 → x.buf.read (arg2 w + n1 + i) = v.buf.read (arg2 u + i)) ∧
      x.res.r0.toNat = n1 + n2 ∧ x.res.r1.toNat = t.res.r1.toNat + v.res.r1.toNat ∧
      x.res.r2 = v.res.r2 ∧ x.res.r3 = v.res.r3 ∧
      x.pll = v.pll ∧ x.bq = v.bq ∧
      x.fm = { v.fm with pwr := x.fm.pwr, pwrT := x.fm.pwrT, pwrValid := x.fm.pwrValid }

/-- The number of PCM bytes in closed form, by which FM_PROCESS checks the capacity before it runs (R240 check 4, log 12), is the
number the stream produces, for a running stream in any state the unit can be in. -/
def Obligations.FmBytesOutExact : Prop :=
  ∀ (nm : Numerics) (p : FmPath) (xs : List (Byte × Byte)), FmInv p.fm → p.fm.running = true →
    2 * (fmRun nm p xs).2.length = fmBytesOut p.fm xs.length

/-- FM_FINISH (R245): the stream ends and every other FM register keeps its value; NOT_READY when none runs. -/
def Obligations.FmFinishCompletes : Prop :=
  ∀ s : State,
    (s.fm.running = false → exec (.fmFinish 0#4) s = .next (failedWith s 3#8 0x114#32)) ∧
    (s.fm.running = true → exec (.fmFinish 0#4) s =
      .next (doneWith { s with fm := { s.fm with running := false, finished := true } } 0#32 0#32 0#32 0#32 0x009#9))

/-- IQ_POLAR (R246): the angle by the function SEL picks, and the exact integer square root of I*I + Q*Q. -/
def Obligations.IqPolarCompletes : Prop :=
  ∀ s : State,
    let i := s.snap.r0.toInt
    let q := s.snap.r1.toInt
    let amplitude := BitVec.ofNat 32 (Nat.sqrt (i * i + q * q).toNat)
    exec (.iqPolar 0#4) s = .next (doneWith s (BitVec.ofInt 32 (angleExact q i)) amplitude 0#32 0#32 0x001#9) ∧
    exec (.iqPolar 1#4) s = .next (doneWith s (BitVec.ofInt 32 (angleFast q i)) amplitude 0#32 0#32 0x001#9)

/-- ANGLE_EXACT on real numbers (R222): the angle of the point (x, y), over pi, times 16384, truncated toward zero; in
-16383..16384. -/
def Obligations.AngleExactIsTruncated : Prop :=
  ∀ y x : Int,
    let r : ℝ := Complex.arg (⟨(x : ℝ), (y : ℝ)⟩ : ℂ) / Real.pi * 16384
    ((x = 0 ∧ y = 0) → angleExact y x = 0) ∧
    (¬ (x = 0 ∧ y = 0) → angleExact y x = if 0 ≤ r then ⌊r⌋ else ⌈r⌉) ∧
    -16383 ≤ angleExact y x ∧ angleExact y x ≤ 16384

/-- Both angle functions at the origin, on the axes and on the diagonals (R224). -/
def Obligations.AnglesOnAxes : Prop :=
  ∀ f : Int → Int → Int, f = angleExact ∨ f = angleFast →
    f 0 0 = 0 ∧
    (∀ x, 0 < x → f 0 x = 0) ∧ (∀ x, x < 0 → f 0 x = 16384) ∧
    (∀ y, 0 < y → f y 0 = 8192) ∧ (∀ y, y < 0 → f y 0 = -8192) ∧
    (∀ x, 0 < x → f x x = 4096 ∧ f (-x) x = -4096) ∧
    (∀ x, 0 < x → f x (-x) = 12288 ∧ f (-x) (-x) = -12288)

/-! ## Filters and the loop -/

/-- BQ_DESIGN (R263, R265): the four checks in order, each with the index of its operand; else the slot's coefficients are
designed and its four state values are +0.0, and nothing else changes. The design (R264), every step in binary64: low-pass for
t = 0, band-pass for t = 1. It is what `design` gives FM_START's filters too, and w0 is the loop's increment there (R212). -/
def Obligations.BqDesignCompletes : Prop :=
  let one : F64 := 0x3FF0000000000000#64
  let two : F64 := 0x4000000000000000#64
  let minusTwo : F64 := 0xC000000000000000#64
  let thousand : F64 := 0x408F400000000000#64
  let pi : F64 := 0x400921FB54442D18#64
  let w0 (f0 fs : Nat) : F64 := fdiv (fmul (fmul two pi) (fofInt f0)) (fofInt fs)
  let lowPass (f0 fs qm : Nat) : BqSlot :=
    let cs := numerics.cos (w0 f0 fs)
    let alpha := fdiv (numerics.sin (w0 f0 fs)) (fmul two (fdiv (fofInt qm) thousand))
    let a0 := fadd one alpha
    { b0 := fdiv (fdiv (fsub one cs) two) a0, b1 := fdiv (fsub one cs) a0, b2 := fdiv (fdiv (fsub one cs) two) a0,
      a1 := fdiv (fmul minusTwo cs) a0, a2 := fdiv (fsub one alpha) a0, x1 := 0#64, x2 := 0#64, y1 := 0#64, y2 := 0#64 }
  let bandPass (f0 fs qm : Nat) : BqSlot :=
    let cs := numerics.cos (w0 f0 fs)
    let alpha := fdiv (numerics.sin (w0 f0 fs)) (fmul two (fdiv (fofInt qm) thousand))
    let a0 := fadd one alpha
    { b0 := fdiv alpha a0, b1 := fdiv 0#64 a0, b2 := fdiv (fneg alpha) a0,
      a1 := fdiv (fmul minusTwo cs) a0, a2 := fdiv (fsub one alpha) a0, x1 := 0#64, x2 := 0#64, y1 := 0#64, y2 := 0#64 }
  (∀ f0 fs qm : Nat,
    radiansPerSample f0 fs = w0 f0 fs ∧
    designedSlot (design numerics 0 f0 fs qm) = lowPass f0 fs qm ∧
    designedSlot (design numerics 1 f0 fs qm) = bandPass f0 fs qm) ∧
  (∀ (s : State) (k : Fin 8),
    let t := arg0 s
    let f0 := arg1 s
    let fs := arg2 s
    let qm := arg3 s
    let run := exec (.bqDesign (BitVec.ofNat 4 k.val)) s
    let designed (slot : BqSlot) := Host.Outcome.next (doneWith { s with bq := s.bq.set k slot } 0#32 0#32 0#32 0#32 0x001#9)
    (¬ t ≤ 1 → run = .next (failedWith s 4#8 0#32)) ∧
    (t ≤ 1 → fs = 0 → run = .next (failedWith s 4#8 2#32)) ∧
    (t ≤ 1 → fs ≠ 0 → ¬ (1 ≤ f0 ∧ 2 * f0 < fs) → run = .next (failedWith s 4#8 1#32)) ∧
    (t ≤ 1 → 1 ≤ f0 → 2 * f0 < fs → qm = 0 → run = .next (failedWith s 4#8 3#32)) ∧
    (t = 0 → 1 ≤ f0 → 2 * f0 < fs → 1 ≤ qm → run = designed (lowPass f0 fs qm)) ∧
    (t = 1 → 1 ≤ f0 → 2 * f0 < fs → 1 ≤ qm → run = designed (bandPass f0 fs qm)))

/-- A band-pass design is symmetric (R264): B2 is -B0 exactly, for every choice of the numerics. -/
def Obligations.BandPassSymmetric : Prop :=
  ∀ (nm : Numerics) (f0 fs qm : Nat), (design nm 1 f0 fs qm).b2 = fneg (design nm 1 f0 fs qm).b0

/-- BQ_RUN (R267): aligned, legal regions: all samples read, filtered in order, stored at dst; the slot is the one after the last
step; no other byte and no other register changes. -/
def Obligations.BqRunCompletes : Prop :=
  ∀ (s : State) (k : Fin 8),
    arg0 s % 8 = 0 → arg2 s % 8 = 0 → arg0 s + 8 * arg1 s ≤ 65536 → arg2 s + 8 * arg1 s ≤ 65536 →
    let run := runSamples bqStep s.bq[k] (f64sAt s.buf (arg0 s) (arg1 s))
    ∃ t, exec (.bqRun (BitVec.ofNat 4 k.val)) s = .next t ∧
      Stored s.buf t.buf (arg2 s) (f64Bytes run.2) ∧
      t = doneWith { s with bq := s.bq.set k run.1, buf := t.buf } s.snap.r1 0#32 0#32 0#32 0x001#9

/-- PLL_RUN and its loop. PLL_RUN (R273): aligned, legal regions: all samples read, the loop stepped over them in order, the carrier
stored at dst. One step (R227, R271): the integrator, the phase and the carrier from the phase before it; the phase it leaves is
in [0, 2 pi), where a zero of either sign counts as 0; the carrier of a phase below 2^1023 in magnitude lies in [-1.0, 1.0] (at
2^1023 and above the doubled phase is infinite: log 24); with p = +0.0 and finite phase and gains the integrator keeps its
value, and one of +0.0 lets the phase advance by W0 alone. WRAP (R272): +0.0 for a NaN, an infinity and 1024.0 and above; else
what its two loops leave, each left as soon as its condition fails and after at most 163 turns, so the 200 of log 19 suffice. -/
def Obligations.PllRunCompletes : Prop :=
  (∀ s : State,
    arg0 s % 8 = 0 → arg2 s % 8 = 0 → arg0 s + 8 * arg1 s ≤ 65536 → arg2 s + 8 * arg1 s ≤ 65536 →
    let run := runSamples (pllStep numerics) s.pll (f64sAt s.buf (arg0 s) (arg1 s))
    ∃ t, exec (.pllRun 0#4) s = .next t ∧
      Stored s.buf t.buf (arg2 s) (f64Bytes run.2) ∧
      t = doneWith { s with pll := run.1, buf := t.buf } s.snap.r1 0#32 0#32 0#32 0x001#9) ∧
  (∀ (l : Pll) (p : F64),
    let finite (x : F64) : Prop := flt (fabs x) (infinity false) = true
    let u := (pllStep numerics l p).1
    let c := (pllStep numerics l p).2
    let e := fmul p (numerics.sin l.phase)
    u.kp = l.kp ∧ u.ki = l.ki ∧ u.w0 = l.w0 ∧
    u.integ = fadd l.integ (fmul l.ki e) ∧
    u.phase = wrapPhase (fadd (fadd (fadd l.phase l.w0) (fmul l.kp e)) u.integ) ∧
    c = fneg (numerics.sin (fmul ftwo l.phase)) ∧
    (fle 0#64 u.phase = true ∧ flt u.phase twoPi64 = true) ∧
    (flt (fabs l.phase) 0x7FE0000000000000#64 = true → fle (fneg fone) c = true ∧ fle c fone = true) ∧
    (p = 0#64 → finite l.phase → finite l.kp → finite l.ki → isNaN l.integ = false →
      (u.integ = l.integ ∨ (fabs l.integ = 0#64 ∧ fabs u.integ = 0#64)) ∧
      (l.integ = 0#64 → fadd l.phase l.w0 ≠ 0x8000000000000000#64 → u.phase = wrapPhase (fadd l.phase l.w0)))) ∧
  (∀ v : F64,
    let outside : Prop := isNaN v = true ∨ fle (fofNat 1024) (fabs v) = true
    let up (n : Nat) : F64 := (fun x => fadd x twoPi64)^[n] v
    (outside → wrapPhase v = 0#64) ∧
    (¬ outside → ∃ i j, i ≤ 163 ∧ j ≤ 163 ∧
      let down (n : Nat) : F64 := (fun x => fsub x twoPi64)^[n] (up i)
      (∀ n, n < i → flt (up n) 0#64 = true) ∧ flt (up i) 0#64 = false ∧
      (∀ n, n < j → fle twoPi64 (down n) = true) ∧ fle twoPi64 (down j) = false ∧
      wrapPhase v = down j))

/-- The errors of BQ_RUN and PLL_RUN (R267, R273): src then dst misaligned, then src then dst out of range. -/
def Obligations.F64RunErrors : Prop :=
  ∀ (s : State) (i : Instr), (i = .pllRun 0#4 ∨ ∃ k : Fin 8, i = .bqRun (BitVec.ofNat 4 k.val)) →
    (arg0 s % 8 ≠ 0 → exec i s = .next (failedWith s 6#8 s.snap.r0)) ∧
    (arg0 s % 8 = 0 → arg2 s % 8 ≠ 0 → exec i s = .next (failedWith s 6#8 s.snap.r2)) ∧
    (arg0 s % 8 = 0 → arg2 s % 8 = 0 → 65536 < arg0 s + 8 * arg1 s → exec i s = .next (failedWith s 7#8 s.snap.r0)) ∧
    (arg0 s % 8 = 0 → arg2 s % 8 = 0 → arg0 s + 8 * arg1 s ≤ 65536 → 65536 < arg2 s + 8 * arg1 s →
      exec i s = .next (failedWith s 7#8 s.snap.r2))

/-- A slot's outputs obey the difference equation (R266), each from its input, the two inputs and the two outputs before it, the
first ones from the slot's state; afterwards the slot holds the last two of each, and its coefficients are unchanged. (The
unconfigured slot is among them: that R266's steps are followed there, which can give -0.0 where R262 says +0.0, is the model's
choice: log 25.) -/
def Obligations.BiquadRecurrence : Prop :=
  ∀ (b : BqSlot) (xs : List F64),
    let run := runSamples bqStep b xs
    let x (n : Nat) : F64 := (b.x2 :: b.x1 :: xs).getD n 0#64
    let y (n : Nat) : F64 := (b.y2 :: b.y1 :: run.2).getD n 0#64
    run.2.length = xs.length ∧
    (∀ n, n < xs.length → y (n + 2) =
      fsub (fsub (fadd (fadd (fmul b.b0 (x (n + 2))) (fmul b.b1 (x (n + 1)))) (fmul b.b2 (x n)))
        (fmul b.a1 (y (n + 1)))) (fmul b.a2 (y n))) ∧
    run.1 = ⟨b.b0, b.b1, b.b2, b.a1, b.a2, x (xs.length + 1), x xs.length, y (xs.length + 1), y xs.length⟩

/-- BQ_CLEAR (R268) and PLL_CLEAR (R274): the slot's four state values, or the loop's phase and integrator, become +0.0; the
coefficients, the gains, W0 and everything else keep their values. -/
def Obligations.FilterClears : Prop :=
  (∀ (s : State) (k : Fin 8), exec (.bqClear (BitVec.ofNat 4 k.val)) s =
    .next (doneWith { s with bq := s.bq.set k { s.bq[k] with x1 := 0#64, x2 := 0#64, y1 := 0#64, y2 := 0#64 } }
      0#32 0#32 0#32 0#32 0x001#9)) ∧
  (∀ s : State, exec (.pllClear 0#4) s =
    .next (doneWith { s with pll := { s.pll with phase := 0#64, integ := 0#64 } } 0#32 0#32 0#32 0#32 0x001#9))

/-! ## DAB synchronizer -/

/-- DAB_RESET (R305): the window, FAILS and SYNCED cleared; the counters and the configuration keep their values. -/
def Obligations.DabResetCompletes : Prop :=
  ∀ s : State, exec (.dabReset 0#4) s =
    .next (doneWith { s with dab := { s.dab with win := [], fails := 0#8, synced := false } } 0#32 0#32 0#32 0#32 0x001#9)

/-- The errors of DAB_FEED, in the order of R306. -/
def Obligations.DabFeedErrors : Prop :=
  ∀ s : State,
    let f := s.dab.fragLen.toNat
    let thr := s.dab.lossThr.toNat
    let first : Option (BitVec 8 × Word) :=
      if s.rs.ready = false then some (3#8, 0x258#32)
      else if ¬ (24 ≤ f ∧ f ≤ 1152 ∧ f % 24 = 0 ∧ 5 * f % s.rs.n.toNat = 0) then some (4#8, 0x200#32)
      else if ¬ (1 ≤ thr ∧ thr ≤ 255) then some (4#8, 0x208#32)
      else if arg1 s ≠ f then some (5#8, s.snap.r1)
      else if 65536 < arg0 s + f then some (7#8, s.snap.r0)
      else if 65536 < arg2 s + 5 * f then some (7#8, s.snap.r2)
      else none
    ∀ e, first = some e → exec (.dabFeed 0#4) s = .next (failedWith s e.1 e.2)

/-- DAB_FEED (R302, R306-R308), its checks passed: with fewer than four fragments held, the fragment is held; with four, the
five are validated: accepted, the superframe stands at dst, Synced is entered or kept and the window is empty; rejected, BUF
is unchanged, and the five are dropped in Synced, the oldest is dropped in Searching, and the rejection that makes FAILS reach
the threshold ends Synced. -/
def Obligations.DabFeedCompletes : Prop :=
  ∀ s : State, DabInv s.dab → s.rs.ready = true →
    let f := s.dab.fragLen.toNat
    24 ≤ f → f ≤ 1152 → f % 24 = 0 → 5 * f % s.rs.n.toNat = 0 →
    1 ≤ s.dab.lossThr.toNat → s.dab.lossThr.toNat ≤ 255 →
    arg1 s = f → arg0 s + f ≤ 65536 → arg2 s + 5 * f ≤ 65536 →
    let frag := bytesAt s.buf (arg0 s) f
    let synced : Word := if s.dab.synced then 1#32 else 0#32
    (s.dab.win.length < 4 →
      exec (.dabFeed 0#4) s =
        .next (doneWith { s with dab := { s.dab with win := s.dab.win ++ [frag], winF := s.dab.fragLen } }
          0#32 0#32 (BitVec.ofNat 32 (s.dab.win.length + 1)) synced 0x001#9)) ∧
    (s.dab.win.length = 4 → ∀ sf total, validate s (s.dab.win ++ [frag]).flatten = some (sf, total) →
      ∃ t, exec (.dabFeed 0#4) s = .next t ∧ sf.length = 5 * f ∧ Stored s.buf t.buf (arg2 s) sf ∧
        t = doneWith { s with
          dab := { s.dab with win := [], winF := s.dab.fragLen, sfCount := s.dab.sfCount + 1#32, synced := true, fails := 0#8 },
          buf := t.buf }
          1#32 (BitVec.ofNat 32 total) 0#32 1#32 (if s.dab.synced then 0x011#9 else 0x031#9)) ∧
    (s.dab.win.length = 4 → validate s (s.dab.win ++ [frag]).flatten = none →
      let d := { s.dab with winF := s.dab.fragLen, rejCount := s.dab.rejCount + 1#32 }
      let searching := { d with win := s.dab.win.drop 1 ++ [frag] }
      let kept := { d with win := [], fails := s.dab.fails + 1#8 }
      let lost := { d with win := [], fails := 0#8, synced := false }
      exec (.dabFeed 0#4) s =
        .next (if s.dab.synced = false then doneWith { s with dab := searching } 2#32 0#32 4#32 0#32 0x001#9
          else if s.dab.fails.toNat + 1 < s.dab.lossThr.toNat then
            doneWith { s with dab := kept } 2#32 0#32 0#32 1#32 0x001#9
          else doneWith { s with dab := lost } 2#32 0#32 0#32 0#32 0x041#9))

/-- Validation (R304, R309), in every state whose Reed-Solomon unit is a checked one. An accepted superframe is as long as the
candidate, every codeword of it is a codeword of the code, and with FIRE_EN its header passes the Fire-code check. The converse: a
candidate of which every codeword is corrected, the i-th to `good i`, is accepted when FIRE_EN is 0, or when the CRC of mode 1 over
bytes 2 to 10 of the corrected superframe is the one stored in its bytes 0 and 1, in the order STORED_LE says; SF' holds symbol j of
codeword i at i + s j, and the total adds up the counts. With FIRE_EN and another CRC it is rejected, and so is a candidate of which
some codeword is not corrected. -/
def Obligations.AcceptedIsValid : Prop :=
  ∀ (s : State) (sf : List Byte), RsInv s.rs → sf.length % s.rs.n.toNat = 0 →
    let code := rsCodeOf s.rs.latched
    let n := s.rs.n.toNat
    let k := sf.length / n
    let word (bytes : List Byte) (i : Nat) := symbolsOf code (interleaved bytes k n i)
    (∀ (out : List Byte) (total : Nat), validate s sf = some (out, total) →
      out.length = sf.length ∧
      (∀ i, i < k → isCodeword code (word out i) = true) ∧
      (s.dab.fireEn = true → fireCodeOk s.crc1 out = true)) ∧
    (∀ good : Nat → List Nat × List Nat, (∀ i, i < k → rsCorrect code (word sf i) [] = some (good i)) →
      let fixed : List Byte := (List.range sf.length).map (fun a => BitVec.ofNat 8 ((good (a % k)).1.getD (a / k) 0))
      let total := ((List.range k).map (fun i => (good i).2.length)).sum
      let first := fixed.getD 0 0#8
      let second := fixed.getD 1 0#8
      let computed := crc16 s.crc1 ((fixed.drop 2).take 9)
      let fire : Prop := computed = if s.crc1.cfg.getLsbD 2 then second ++ first else first ++ second
      ((s.dab.fireEn = true → fire) → validate s sf = some (fixed, total)) ∧
      (s.dab.fireEn = true → ¬ fire → validate s sf = none)) ∧
    ((∃ i, i < k ∧ rsCorrect code (word sf i) [] = none) → validate s sf = none)

/-! ## Reed-Solomon -/

/-- RS_INIT (R334): the six checks in order, each BAD_CONFIG with the offset of its register; a configuration that passes them
all is latched, RS_N and RS_K follow from it, and READY is set. -/
def Obligations.RsInitCompletes : Prop :=
  ∀ s : State,
    let c := s.rs.config
    let m := c.symsize.toNat
    let n := 2 ^ m - 1 - c.pad.toNat
    let poly : Prop := isPrimitive m c.gfpoly.toNat = true
    let fcr : Prop := c.fcr.toNat ≤ 2 ^ m - 2
    let prim : Prop := 1 ≤ c.prim.toNat ∧ c.prim.toNat ≤ 2 ^ m - 2 ∧ Nat.gcd c.prim.toNat (2 ^ m - 1) = 1
    let roots : Prop := 1 ≤ c.nroots.toNat ∧ c.nroots.toNat ≤ 2 ^ m - 2
    let fits : Prop := c.pad.toNat + c.nroots.toNat ≤ 2 ^ m - 2
    let run := exec (.rsInit 0#4) s
    (¬ (2 ≤ m ∧ m ≤ 8) → run = .next (failedWith s 4#8 0x240#32)) ∧
    (2 ≤ m → m ≤ 8 →
      (¬ poly → run = .next (failedWith s 4#8 0x244#32)) ∧
      (poly → ¬ fcr → run = .next (failedWith s 4#8 0x248#32)) ∧
      (poly → fcr → ¬ prim → run = .next (failedWith s 4#8 0x24C#32)) ∧
      (poly → fcr → prim → ¬ roots → run = .next (failedWith s 4#8 0x250#32)) ∧
      (poly → fcr → prim → roots → ¬ fits → run = .next (failedWith s 4#8 0x254#32)) ∧
      (poly → fcr → prim → roots → fits →
        run = .next (doneWith { s with rs := { s.rs with
            latched := c, n := BitVec.ofNat 32 n, k := BitVec.ofNat 32 (n - c.nroots.toNat), ready := true } }
          (BitVec.ofNat 32 n) (BitVec.ofNat 32 (n - c.nroots.toNat)) 0#32 0#32 0x001#9)))

/-- What the primitivity check decides (R330, R334 check 2): the polynomial has degree m, and the powers of x first come back to
1 at 2^m - 1. -/
def Obligations.PrimitiveMeansOrder : Prop :=
  ∀ m p : Nat, 2 ≤ m →
    let double := gfDouble ⟨m, p, 0, 1, 1⟩
    (isPrimitive m p = true ↔
      2 ^ m ≤ p ∧ p < 2 ^ (m + 1) ∧
      double^[2 ^ m - 1] 1 = 1 ∧ ∀ k, 1 ≤ k → k < 2 ^ m - 1 → double^[k] 1 ≠ 1)

/-- The errors of RS_DECODE, in the order of R340. -/
def Obligations.RsDecodeErrors : Prop :=
  ∀ s : State,
    let first : Option (BitVec 8 × Word) :=
      if s.rs.ready = false then some (3#8, 0x258#32)
      else if s.rs.latched.nroots.toNat < arg2 s then some (5#8, s.snap.r2)
      else if 65536 < arg0 s + s.rs.n.toNat then some (7#8, s.snap.r0)
      else if 65536 < arg1 s + arg2 s then some (7#8, s.snap.r1)
      else if 65536 < arg3 s + s.rs.latched.nroots.toNat then some (7#8, s.snap.r3)
      else none
    ∀ e, first = some e → exec (.rsDecode 0#4) s = .next (failedWith s e.1 e.2)

/-- RS_DECODE (R332, R340), its checks passed: a bad erasure list and an uncorrectable word are normal completions that leave BUF
alone; a decoded word is written back, the corrected positions are written at ARG3, and no other byte changes. -/
def Obligations.RsDecodeCompletes : Prop :=
  ∀ s : State, s.rs.ready = true → arg2 s ≤ s.rs.latched.nroots.toNat →
    arg0 s + s.rs.n.toNat ≤ 65536 → arg1 s + arg2 s ≤ 65536 → arg3 s + s.rs.latched.nroots.toNat ≤ 65536 →
    let code := rsCodeOf s.rs.latched
    let n := s.rs.n.toNat
    let word := (bytesAt s.buf (arg0 s) n).map (fun b => b.toNat % 2 ^ s.rs.latched.symsize.toNat)
    let erased := (bytesAt s.buf (arg1 s) (arg2 s)).map (fun b => b.toNat)
    (¬ ((∀ e, e ∈ erased → e < n) ∧ erased.Nodup) →
      exec (.rsDecode 0#4) s = .next (doneWith s 0xFFFFFFFF#32 1#32 s.snap.r2 0#32 0x001#9)) ∧
    ((∀ e, e ∈ erased → e < n) → erased.Nodup → rsCorrect code word erased = none →
      exec (.rsDecode 0#4) s = .next (doneWith s 0xFFFFFFFF#32 0#32 s.snap.r2 0#32 0x001#9)) ∧
    ((∀ e, e ∈ erased → e < n) → erased.Nodup → ∀ cw ps, rsCorrect code word erased = some (cw, ps) →
      ∃ t, exec (.rsDecode 0#4) s = .next t ∧
        t = doneWith { s with buf := t.buf } (BitVec.ofNat 32 ps.length) 0#32 s.snap.r2 0#32 0x001#9 ∧
        (∀ i, (h : i < ps.length) → t.buf.read (arg3 s + i) = BitVec.ofNat 8 ps[i]) ∧
        (∀ a, ¬ (arg3 s ≤ a ∧ a < arg3 s + ps.length) →
          (∀ j, (h : j < cw.length) → a = arg0 s + j → t.buf.read a = BitVec.ofNat 8 cw[j]) ∧
          (¬ (arg0 s ≤ a ∧ a < arg0 s + cw.length) → t.buf.read a = s.buf.read a)))

/-- RS_CORRECT (R331, R338). A word it answers with is as long as the received word and vanishes at every root; a received codeword
comes back with no positions; any other word is corrected to one of field symbols with 2 e + f <= NROOTS, and the positions are
those of E and those where the two differ, in ascending order. A word is taken for a codeword exactly when it vanishes at every
root. Case 1: a codeword is answered, whatever E is. Case 2, for the code of a configuration RS_INIT accepts, a word r of N
symbols below 2^m that is no codeword, and f <= NROOTS distinct erasures below N: if c is a codeword of N symbols below 2^m with
2 e + f <= NROOTS, e the number of positions outside E where c and r differ, then c is the answer, with the positions of E and
those where the two differ, ascending; so there is one such c at most, and a word is uncorrectable only if there is none
(log 13). -/
def Obligations.RsCorrectSound : Prop :=
  (∀ (code : RsCode) (r erased c ps : List Nat), rsCorrect code r erased = some (c, ps) →
    c.length = r.length ∧
    (∀ i, i < code.nroots → wordAt code (gfPow code 2 (code.prim * (code.fcr + i))) c = 0) ∧
    (isCodeword code r = true → c = r ∧ ps = []) ∧
    (isCodeword code r = false →
      (∀ x, x ∈ c → x < 2 ^ code.m) ∧
      ps.Pairwise (fun a b => a < b) ∧
      (∀ j, j ∈ ps ↔ j < r.length ∧ (j ∈ erased ∨ r.getD j 0 ≠ c.getD j 0)) ∧
      2 * ((List.range r.length).filter (fun j => !erased.contains j && r.getD j 0 != c.getD j 0)).length
        + erased.length ≤ code.nroots)) ∧
  (∀ (code : RsCode) (r : List Nat),
    isCodeword code r = true ↔ ∀ i, i < code.nroots → wordAt code (gfPow code 2 (code.prim * (code.fcr + i))) r = 0) ∧
  (∀ (code : RsCode) (r erased : List Nat), isCodeword code r = true → rsCorrect code r erased = some (r, [])) ∧
  (∀ (cfg : RsConfig) (r erased c : List Nat), RsLegal cfg →
    let code := rsCodeOf cfg
    let n := 2 ^ cfg.symsize.toNat - 1 - cfg.pad.toNat
    let symbols (w : List Nat) : Prop := w.length = n ∧ ∀ x, x ∈ w → x < 2 ^ cfg.symsize.toNat
    let differ (j : Nat) : Bool := r.getD j 0 != c.getD j 0
    let e := ((List.range n).filter (fun j => !erased.contains j && differ j)).length
    symbols r → symbols c → erased.Nodup → (∀ j, j ∈ erased → j < n) → erased.length ≤ cfg.nroots.toNat →
    isCodeword code r = false → isCodeword code c = true → 2 * e + erased.length ≤ cfg.nroots.toNat →
      rsCorrect code r erased = some (c, (List.range n).filter (fun j => erased.contains j || differ j)))

/-! ## CRC -/

/-- CRC_CALC (R363): ADDR_RANGE when the region is not legal; else the CRC of the bytes, zero-extended, and nothing else changes;
any other mode is BAD_SELECTOR with the word in CMD. (In every step that word is the command's own; that exec reports CMD also
where CMD holds another word is the model's choice: log 18.) The CRC of a mode (R361, R362): the register begins with INIT, so that
no bytes at all give INIT, bit-reversed under REFOUT, XOR XOROUT; one more byte, bit-reversed under REFIN, is XORed in at bits 15:8
and the register is shifted left eight times, POLY XORed in whenever bit 15 was 1. -/
def Obligations.CrcCalcCompletes : Prop :=
  (∀ (s : State) (mode : Fin 2),
    let m := if mode = 0 then s.crc0 else s.crc1
    (65536 < arg0 s + arg1 s → exec (.crcCalc (BitVec.ofNat 4 mode.val)) s = .next (failedWith s 7#8 s.snap.r0)) ∧
    (arg0 s + arg1 s ≤ 65536 → exec (.crcCalc (BitVec.ofNat 4 mode.val)) s =
      .next (doneWith s ((crc16 m (bytesAt s.buf (arg0 s) (arg1 s))).setWidth 32) 0#32 0#32 0#32 0x001#9))) ∧
  (∀ (s : State) (sel : BitVec 4), 2 ≤ sel.toNat → exec (.crcCalc sel) s = .next (failedWith s 2#8 s.cmd)) ∧
  (∀ m : CrcMode,
    let output (reg : BitVec 16) : BitVec 16 := (if m.cfg.getLsbD 1 then reg.reverse else reg) ^^^ m.xorout
    let shift (reg : BitVec 16) : BitVec 16 := if reg.getLsbD 15 then (reg <<< 1) ^^^ m.poly else reg <<< 1
    let take (reg : BitVec 16) (b : Byte) : BitVec 16 :=
      shift^[8] (reg ^^^ ((if m.cfg.getLsbD 0 then b.reverse else b) ++ 0#8))
    crc16 m [] = output m.init ∧
    ∀ (bytes : List Byte) (b : Byte) (reg : BitVec 16), crc16 m bytes = output reg → crc16 m (bytes ++ [b]) = output (take reg b))

/-- CRC_CHECK (R364): ADDR_RANGE on the payload, then on the stored CRC; else the computed and the stored CRC, big-endian unless
STORED_LE, and whether they agree, in RES2 and in CRC_PASS; a mismatch is a normal completion. -/
def Obligations.CrcCheckCompletes : Prop :=
  ∀ (s : State) (mode : Fin 2),
    let m := if mode = 0 then s.crc0 else s.crc1
    let computed : Word := (crc16 m (bytesAt s.buf (arg0 s) (arg1 s))).setWidth 32
    let first := s.buf.read (arg2 s)
    let second := s.buf.read (arg2 s + 1)
    let stored : Word := if m.cfg.getLsbD 2 then (second ++ first).setWidth 32 else (first ++ second).setWidth 32
    let pass : Bool := decide (computed = stored)
    let run := exec (.crcCheck (BitVec.ofNat 4 mode.val)) s
    (65536 < arg0 s + arg1 s → run = .next (failedWith s 7#8 s.snap.r0)) ∧
    (arg0 s + arg1 s ≤ 65536 → 65536 < arg2 s + 2 → run = .next (failedWith s 7#8 s.snap.r2)) ∧
    (arg0 s + arg1 s ≤ 65536 → arg2 s + 2 ≤ 65536 →
      run = .next (doneWith { s with crcPass := pass } computed stored (if pass then 1#32 else 0#32) 0#32 0x001#9))

/-- What makes the CRC a check (R362): with no reflection and no final XOR, whatever the polynomial and the initial value, a
message followed by its own CRC, high byte first, has CRC 0. -/
def Obligations.CrcSelfCheck : Prop :=
  ∀ (m : CrcMode) (bytes : List Byte), m.cfg.getLsbD 0 = false → m.cfg.getLsbD 1 = false → m.xorout = 0#16 →
    crc16 m (bytes ++ [(crc16 m bytes).extractLsb' 8 8, (crc16 m bytes).extractLsb' 0 8]) = 0#16

/-! ## Viterbi -/

/-- The errors of VIT_DECODE at levels 1..4, in the order of R388. -/
def Obligations.VitDecodeErrors : Prop :=
  ∀ (s : State) (sel : BitVec 4), 1 ≤ sel.toNat → sel.toNat ≤ 4 →
    let n := arg1 s
    let reg (h : Fin 2) : BitVec 24 := s.vit.prof.toList.getD (2 * (sel.toNat - 1) + h.val) 0#24
    let idx (h : Fin 2) : Nat := ((reg h).extractLsb' 0 8).toNat
    let count (h : Fin 2) : Int := ((reg h).extractLsb' 8 8).toNat * n + ((reg h).extractLsb' 16 8).toInt
    let illegal (h : Fin 2) : Prop := count h < 0 ∨ (0 < count h ∧ ¬ (1 ≤ idx h ∧ idx h ≤ 24))
    let offset (h : Fin 2) : Word := BitVec.ofNat 32 (0x360 + 8 * (sel.toNat - 1) + 4 * h.val)
    let t := transmitted s.vit sel.toNat n
    let run := exec (.vitDecode sel) s
    ((∀ j : Fin 4, s.vit.poly[j] = 0#7) → run = .next (failedWith s 3#8 0x2C0#32)) ∧
    (¬ (∀ j : Fin 4, s.vit.poly[j] = 0#7) →
      (illegal 0 → run = .next (failedWith s 4#8 (offset 0))) ∧
      (¬ illegal 0 → illegal 1 → run = .next (failedWith s 4#8 (offset 1))) ∧
      (¬ illegal 0 → ¬ illegal 1 → count 0 + count 1 = 0 → run = .next (failedWith s 4#8 (offset 0))) ∧
      (¬ illegal 0 → ¬ illegal 1 → count 0 + count 1 ≠ 0 →
        (arg3 s < t → run = .next (failedWith s 5#8 (if t < 2 ^ 32 then BitVec.ofNat 32 t else 0xFFFFFFFF#32))) ∧
        (t ≤ arg3 s → 65536 < arg0 s + t → run = .next (failedWith s 7#8 s.snap.r0)) ∧
        (t ≤ arg3 s → arg0 s + t ≤ 65536 → 65536 < (arg2 s : Int) + 4 * (count 0 + count 1) →
          run = .next (failedWith s 7#8 s.snap.r2))))

/-- VIT_DECODE (R385-R388), its checks passed: the soft values depunctured and decoded, the bits stored first bit in bit 7, the
errors counted against the re-encoded decision, and no other byte changed. -/
def Obligations.VitDecodeCompletes : Prop :=
  ∀ (s : State) (sel : BitVec 4), 1 ≤ sel.toNat → sel.toNat ≤ 4 →
    let n := arg1 s
    let level := sel.toNat
    let t := transmitted s.vit level n
    let total := totalBlocks s.vit level n
    ¬ (∀ j : Fin 4, s.vit.poly[j] = 0#7) →
    segmentBad (segment s.vit level 0) n = false → segmentBad (segment s.vit level 1) n = false → total ≠ 0 →
    t ≤ arg3 s → arg0 s + t ≤ 65536 → arg2 s + 4 * total ≤ 65536 →
    let soft := (bytesAt s.buf (arg0 s) t).map (fun b => b.toInt)
    let mask := punctureMask s.vit level n
    let decoded := viterbi (polysOf s.vit) (depuncture mask soft) (32 * total)
    let sent := puncture mask (motherSequence (polysOf s.vit) decoded.1)
    let errors := (List.zipWith (fun v c => decide ((0 < v ∧ c = false) ∨ (v < 0 ∧ c = true))) soft sent).count true
    ∃ u, exec (.vitDecode sel) s = .next u ∧
      decoded.1.length = 32 * total ∧
      (∀ i, i < 4 * total → ∀ b, b < 8 → (u.buf.read (arg2 s + i)).getMsbD b = decoded.1.getD (8 * i + b) false) ∧
      (∀ a, a < arg2 s ∨ arg2 s + 4 * total ≤ a → u.buf.read a = s.buf.read a) ∧
      u = doneWith { s with buf := u.buf } (BitVec.ofNat 32 (32 * total)) (BitVec.ofNat 32 errors) (BitVec.ofNat 32 t)
        (BitVec.ofInt 32 decoded.2) 0x001#9

/-- The decoder is a maximum-likelihood decoder (R386): its metric is the correlation of the soft values with the mother sequence
of its answer, and no information sequence of that length has a larger one. The mother sequence (R381, R382) has four bits for each
information bit and each of the six tail zeros: bit 4 t + j is the parity of the input bits t, t - 1, ..., t - 6 that polynomial
j takes, its bit 6 the newest. -/
def Obligations.ViterbiOptimal : Prop :=
  ∀ (polys : List Nat) (v : List Int) (info : Nat), polys.length = 4 → v.length = 4 * (info + 6) →
    let answer := viterbi polys v info
    let correlation (u : List Bool) : Int :=
      ((List.range (4 * (info + 6))).map (fun p => v.getD p 0 * if (motherSequence polys u).getD p false then 1 else -1)).sum
    answer.1.length = info ∧
    correlation answer.1 = answer.2 ∧
    (∀ u : List Bool, u.length = info → correlation u ≤ answer.2) ∧
    ∀ u : List Bool, u.length = info →
      (motherSequence polys u).length = 4 * (info + 6) ∧
      ∀ t j, t < info + 6 → j < 4 →
        let taken (i : Nat) : Bool := (polys.getD j 0).testBit (6 - i) && decide (i ≤ t) && u.getD (t - i) false
        (motherSequence polys u).getD (4 * t + j) false = decide (((List.range 7).filter taken).length % 2 = 1)

/-- The puncturing mask (R383-R385), for segments whose block counts L_s, read from the profile registers, are not negative: it
covers the mother sequence; bit q of a block of segment s is bit 31 - (q mod 32) of the PI vector that the segment's index, in
1..24, names, the blocks of segment 0 first, and bit q of the tail is bit 23 - q of VIT_TAIL; it transmits T positions, and
puncturing undoes depuncturing. -/
def Obligations.PunctureMask : Prop :=
  ∀ (v : Vit) (level n : Nat),
    let reg (h : Fin 2) : BitVec 24 := v.prof.toList.getD (2 * (level - 1) + h.val) 0#24
    let idx (h : Fin 2) : Nat := ((reg h).extractLsb' 0 8).toNat
    let count (h : Fin 2) : Int := ((reg h).extractLsb' 8 8).toNat * n + ((reg h).extractLsb' 16 8).toInt
    let pi (h : Fin 2) : Word := v.pi.toList.getD (idx h - 1) 0#32
    0 ≤ count 0 → 0 ≤ count 1 →
    let l0 := (count 0).toNat
    let l1 := (count 1).toNat
    let mask := punctureMask v level n
    totalBlocks v level n = l0 + l1 ∧
    mask.length = 4 * (32 * (l0 + l1) + 6) ∧
    (1 ≤ idx 0 → idx 0 ≤ 24 → ∀ b q, b < l0 → q < 128 →
      mask.getD (128 * b + q) false = (pi 0).getLsbD (31 - q % 32)) ∧
    (1 ≤ idx 1 → idx 1 ≤ 24 → ∀ b q, b < l1 → q < 128 →
      mask.getD (128 * (l0 + b) + q) false = (pi 1).getLsbD (31 - q % 32)) ∧
    (∀ q, q < 24 → mask.getD (128 * (l0 + l1) + q) false = v.tail.getLsbD (23 - q)) ∧
    mask.count true = transmitted v level n ∧
    ∀ xs : List Int, xs.length = transmitted v level n →
      (depuncture mask xs).length = mask.length ∧ puncture mask (depuncture mask xs) = xs

/-! ## Diagnostics -/

/-- PWR_CALC (R411, R412): PWR_WIN, then PWR_MAX, then the region; else the power of the first W = min(PWR_WIN, count) pairs, a
percentage 0..100, in RES0 and PWR_LAST, with PWR_UPD. The percentage: 0 for W = 0; else, with every step in binary64, the sum from
left to right, beginning with 0.0, of 10.0 * LOG10(I*I + Q*Q), or 0.0 where I and Q are 0, I and Q the raw bytes less 127; the sum
divided by W; 100.0 times this, divided by PWR_MAX, rounded down and held to 0..100. It is what `powerPercent` computes of any pairs,
FM_PROCESS's among them. -/
def Obligations.PwrCalcCompletes : Prop :=
  let db (pair : Byte × Byte) : F64 :=
    let i : Int := (pair.1.toNat : Int) - 127
    let q : Int := (pair.2.toNat : Int) - 127
    if i * i + q * q = 0 then 0#64 else fmul 0x4024000000000000#64 (numerics.log10 (fofInt (i * i + q * q)))
  let percent (pwrMax : Nat) (pairs : List (Byte × Byte)) : Nat :=
    let sum := (pairs.map db).foldl fadd 0#64
    let mean := fdiv sum (fofInt pairs.length)
    if pairs = [] then 0
    else (min 100 (max 0 (ffloor (fdiv (fmul 0x4059000000000000#64 mean) (fofInt pwrMax))))).toNat
  (∀ (pwrMax : Nat) (pairs : List (Byte × Byte)), powerPercent numerics pwrMax pairs = percent pwrMax pairs) ∧
  (∀ s : State,
    let win := s.diag.pwrWin.toNat
    let p := percent s.diag.pwrMax.toNat (pairsAt s.buf (arg0 s) (min win (arg1 s)))
    let run := exec (.pwrCalc 0#4) s
    (¬ (1 ≤ win ∧ win ≤ 65535) → run = .next (failedWith s 4#8 0x380#32)) ∧
    (1 ≤ win → win ≤ 65535 → s.diag.pwrMax = 0#32 → run = .next (failedWith s 4#8 0x384#32)) ∧
    (1 ≤ win → win ≤ 65535 → s.diag.pwrMax ≠ 0#32 → 65536 < arg0 s + 2 * arg1 s →
      run = .next (failedWith s 7#8 s.snap.r0)) ∧
    (1 ≤ win → win ≤ 65535 → s.diag.pwrMax ≠ 0#32 → arg0 s + 2 * arg1 s ≤ 65536 →
      p ≤ 100 ∧ run = .next (doneWith { s with diag := { s.diag with pwrLast := BitVec.ofNat 32 p } }
        (BitVec.ofNat 32 p) 0#32 0#32 0#32 0x081#9)))

/-- BR_ADD (R414): the bytes added to the open window, saturating; a window a second old or more is closed, its rate computed
exactly and saturated, and a new one opened. -/
def Obligations.BrAddCompletes : Prop :=
  ∀ s : State,
    let bytes := min (2 ^ 64 - 1) (s.diag.brBytes.toNat + arg0 s)
    let elapsed := (s.time - s.diag.brT0).toNat
    let rate : Word := BitVec.ofNat 32 (min (2 ^ 32 - 1) (bytes * 8 * 1000000 / elapsed))
    (1000000 ≤ elapsed → exec (.brAdd 0#4) s =
      .next (doneWith { s with diag := { s.diag with bitrate := rate, brBytes := 0#64, brT0 := s.time } }
        rate 1#32 0#32 0#32 0x101#9)) ∧
    (elapsed < 1000000 → exec (.brAdd 0#4) s =
      .next (doneWith { s with diag := { s.diag with brBytes := BitVec.ofNat 64 bytes } }
        s.diag.bitrate 0#32 0#32 0#32 0x001#9))

/-- STN_SCORE (R415, R416): its checks in order; else the sign changes counted, the variance of the 10 ms window RMS values in two
halves, and the score of the OPEN function, which is at most 100; no state but the success record changes. -/
def Obligations.StnScoreCompletes : Prop :=
  ∀ s : State,
    let rate := arg2 s
    let n := arg1 s / 2
    let xs := pcmsAt s.buf (arg0 s) n
    let crossings := ((List.range (n - 1)).filter
      (fun i => decide (xs.getD i 0 < 0) != decide (xs.getD (i + 1) 0 < 0))).length
    let w := rate / 100
    let rms := (List.range (n / w)).map (fun k =>
      fsqrt (fdiv (fofInt (((List.range w).map (fun i => xs.getD (k * w + i) 0 * xs.getD (k * w + i) 0)).sum)) (fofNat w)))
    let total (ys : List F64) : F64 := ys.tail.foldl fadd (ys.headD 0#64)
    let mean := fdiv (total rms) (fofNat (n / w))
    let var := fdiv (total (rms.map (fun r => fmul (fsub r mean) (fsub r mean)))) (fofNat (n / w))
    let score := (Config.stationScore crossings n rms var).val
    let run := exec (.stnScore 0#4) s
    (¬ (100 ≤ rate ∧ rate ≤ 204899) → run = .next (failedWith s 4#8 2#32)) ∧
    (100 ≤ rate → rate ≤ 204899 →
      (arg1 s < 4096 ∨ arg1 s % 2 = 1 → run = .next (failedWith s 5#8 s.snap.r1)) ∧
      (4096 ≤ arg1 s → arg1 s % 2 = 0 → arg0 s % 2 = 1 → run = .next (failedWith s 6#8 s.snap.r0)) ∧
      (4096 ≤ arg1 s → arg1 s % 2 = 0 → arg0 s % 2 = 0 → 65536 < arg0 s + arg1 s →
        run = .next (failedWith s 7#8 s.snap.r0)) ∧
      (4096 ≤ arg1 s → arg1 s % 2 = 0 → arg0 s % 2 = 0 → arg0 s + arg1 s ≤ 65536 →
        score ≤ 100 ∧ run = .next (doneWith s (BitVec.ofNat 32 crossings) (var.extractLsb' 0 32) (var.extractLsb' 32 32)
          (BitVec.ofNat 32 score) 0x001#9)))
end

