-- ==== Sys2Proof/Laws/Bits.lean ====
section
/-! SUPPORT. What bit reversal does (R9, R361). -/

namespace Sys2Proof.Machine

theorem reflect_lt (n : Nat) : ∀ v, reflect n v < 2 ^ n := by
  induction n with
  | zero => intro v; exact Nat.one_pos
  | succ n ih =>
    intro v
    have h1 := ih (v / 2)
    have h2 : v % 2 * 2 ^ n ≤ 1 * 2 ^ n := Nat.mul_le_mul_right _ (by omega)
    simp only [reflect]
    rw [pow_succ]; omega

/-- Bit i of the reversal is bit n - 1 - i. -/
theorem testBit_reflect (n : Nat) : ∀ v i, i < n → (reflect n v).testBit i = v.testBit (n - 1 - i) := by
  induction n with
  | zero => intro v i h; omega
  | succ n ih =>
    intro v i h
    simp only [reflect]
    rw [Nat.mul_comm, Nat.testBit_two_pow_mul_add _ (reflect_lt n (v / 2))]
    split
    · rename_i hi
      rw [ih _ _ hi, Nat.testBit_div_two]; congr 1; omega
    · have : i = n := by omega
      subst this
      simp [Nat.testBit_zero]

/-- The reversal of a bit vector's number is the number of its reversal. -/
theorem reflect_toNat (n : Nat) (b : BitVec n) : reflect n b.toNat = b.reverse.toNat := by
  refine Nat.eq_of_testBit_eq (fun i => ?_)
  by_cases hi : i < n
  · rw [testBit_reflect n _ i hi]
    have h : b.reverse.getLsbD i = b.getMsbD i := BitVec.getLsbD_reverse
    rw [← BitVec.testBit_toNat, BitVec.getMsbD, decide_eq_true hi, Bool.true_and] at h
    exact h.symm
  · rw [Nat.testBit_lt_two_pow (lt_of_lt_of_le (reflect_lt n _) (Nat.pow_le_pow_right (by norm_num) (by omega))),
      Nat.testBit_lt_two_pow (lt_of_lt_of_le b.reverse.isLt (Nat.pow_le_pow_right (by norm_num) (by omega)))]

end Sys2Proof.Machine
end

