-- ==== Sys2Proof/Laws/State.lean ====
section
/-! SUPPORT. One lemma per field per update of the state, each true by definition: no later proof unfolds a record update. -/

namespace Sys2Proof.Machine

@[simp] theorem raiseError_busy (e : CmdError) (s : State) : (raiseError e s).busy = false := rfl
@[simp] theorem raiseError_err (e : CmdError) (s : State) : (raiseError e s).err = true := rfl
@[simp] theorem raiseError_crcPass (e : CmdError) (s : State) : (raiseError e s).crcPass = s.crcPass := rfl
@[simp] theorem raiseError_errcode (e : CmdError) (s : State) : (raiseError e s).errcode = errNumber e.code := rfl
@[simp] theorem raiseError_overrun (e : CmdError) (s : State) : (raiseError e s).overrun = s.overrun := rfl
@[simp] theorem raiseError_wrIgnored (e : CmdError) (s : State) : (raiseError e s).wrIgnored = s.wrIgnored := rfl
@[simp] theorem raiseError_bufHaz (e : CmdError) (s : State) : (raiseError e s).bufHaz = s.bufHaz := rfl
@[simp] theorem raiseError_cmd (e : CmdError) (s : State) : (raiseError e s).cmd = s.cmd := rfl
@[simp] theorem raiseError_snap (e : CmdError) (s : State) : (raiseError e s).snap = s.snap := rfl
@[simp] theorem raiseError_args (e : CmdError) (s : State) : (raiseError e s).args = s.args := rfl
@[simp] theorem raiseError_res (e : CmdError) (s : State) : (raiseError e s).res = s.res := rfl
@[simp] theorem raiseError_errInfo (e : CmdError) (s : State) : (raiseError e s).errInfo = e.info := rfl
@[simp] theorem raiseError_irqStatus (e : CmdError) (s : State) : (raiseError e s).irqStatus = s.irqStatus ||| irqErr := rfl
@[simp] theorem raiseError_irqEnable (e : CmdError) (s : State) : (raiseError e s).irqEnable = s.irqEnable := rfl
@[simp] theorem raiseError_time (e : CmdError) (s : State) : (raiseError e s).time = s.time := rfl
@[simp] theorem raiseError_timeHiLatch (e : CmdError) (s : State) : (raiseError e s).timeHiLatch = s.timeHiLatch := rfl
@[simp] theorem raiseError_fm (e : CmdError) (s : State) : (raiseError e s).fm = s.fm := rfl
@[simp] theorem raiseError_pll (e : CmdError) (s : State) : (raiseError e s).pll = s.pll := rfl
@[simp] theorem raiseError_dab (e : CmdError) (s : State) : (raiseError e s).dab = s.dab := rfl
@[simp] theorem raiseError_rs (e : CmdError) (s : State) : (raiseError e s).rs = s.rs := rfl
@[simp] theorem raiseError_crc0 (e : CmdError) (s : State) : (raiseError e s).crc0 = s.crc0 := rfl
@[simp] theorem raiseError_crc1 (e : CmdError) (s : State) : (raiseError e s).crc1 = s.crc1 := rfl
@[simp] theorem raiseError_vit (e : CmdError) (s : State) : (raiseError e s).vit = s.vit := rfl
@[simp] theorem raiseError_diag (e : CmdError) (s : State) : (raiseError e s).diag = s.diag := rfl
@[simp] theorem raiseError_bq (e : CmdError) (s : State) : (raiseError e s).bq = s.bq := rfl
@[simp] theorem raiseError_buf (e : CmdError) (s : State) : (raiseError e s).buf = s.buf := rfl
@[simp] theorem raiseError_env (e : CmdError) (s : State) : (raiseError e s).env = s.env := rfl
@[simp] theorem raiseError_hostData (e : CmdError) (s : State) : (raiseError e s).hostData = s.hostData := rfl

@[simp] theorem succeed_busy (d : Effect) : (succeed d).busy = false := rfl
@[simp] theorem succeed_err (d : Effect) : (succeed d).err = false := rfl
@[simp] theorem succeed_crcPass (d : Effect) : (succeed d).crcPass = d.state.crcPass := rfl
@[simp] theorem succeed_errcode (d : Effect) : (succeed d).errcode = 0#8 := rfl
@[simp] theorem succeed_overrun (d : Effect) : (succeed d).overrun = d.state.overrun := rfl
@[simp] theorem succeed_wrIgnored (d : Effect) : (succeed d).wrIgnored = d.state.wrIgnored := rfl
@[simp] theorem succeed_bufHaz (d : Effect) : (succeed d).bufHaz = d.state.bufHaz := rfl
@[simp] theorem succeed_cmd (d : Effect) : (succeed d).cmd = d.state.cmd := rfl
@[simp] theorem succeed_snap (d : Effect) : (succeed d).snap = d.state.snap := rfl
@[simp] theorem succeed_args (d : Effect) : (succeed d).args = d.state.args := rfl
@[simp] theorem succeed_res (d : Effect) : (succeed d).res = d.res := rfl
@[simp] theorem succeed_errInfo (d : Effect) : (succeed d).errInfo = d.state.errInfo := rfl
@[simp] theorem succeed_irqStatus (d : Effect) : (succeed d).irqStatus = d.state.irqStatus ||| d.irqs ||| irqDone := rfl
@[simp] theorem succeed_irqEnable (d : Effect) : (succeed d).irqEnable = d.state.irqEnable := rfl
@[simp] theorem succeed_time (d : Effect) : (succeed d).time = d.state.time := rfl
@[simp] theorem succeed_timeHiLatch (d : Effect) : (succeed d).timeHiLatch = d.state.timeHiLatch := rfl
@[simp] theorem succeed_fm (d : Effect) : (succeed d).fm = d.state.fm := rfl
@[simp] theorem succeed_pll (d : Effect) : (succeed d).pll = d.state.pll := rfl
@[simp] theorem succeed_dab (d : Effect) : (succeed d).dab = d.state.dab := rfl
@[simp] theorem succeed_rs (d : Effect) : (succeed d).rs = d.state.rs := rfl
@[simp] theorem succeed_crc0 (d : Effect) : (succeed d).crc0 = d.state.crc0 := rfl
@[simp] theorem succeed_crc1 (d : Effect) : (succeed d).crc1 = d.state.crc1 := rfl
@[simp] theorem succeed_vit (d : Effect) : (succeed d).vit = d.state.vit := rfl
@[simp] theorem succeed_diag (d : Effect) : (succeed d).diag = d.state.diag := rfl
@[simp] theorem succeed_bq (d : Effect) : (succeed d).bq = d.state.bq := rfl
@[simp] theorem succeed_buf (d : Effect) : (succeed d).buf = d.state.buf := rfl
@[simp] theorem succeed_env (d : Effect) : (succeed d).env = d.state.env := rfl
@[simp] theorem succeed_hostData (d : Effect) : (succeed d).hostData = d.state.hostData := rfl

@[simp] theorem doneWith_busy (s : State) (r0 r1 r2 r3 : Word) (irqs : BitVec 9) : (doneWith s r0 r1 r2 r3 irqs).busy = false := rfl
@[simp] theorem doneWith_err (s : State) (r0 r1 r2 r3 : Word) (irqs : BitVec 9) : (doneWith s r0 r1 r2 r3 irqs).err = false := rfl
@[simp] theorem doneWith_crcPass (s : State) (r0 r1 r2 r3 : Word) (irqs : BitVec 9) : (doneWith s r0 r1 r2 r3 irqs).crcPass = s.crcPass := rfl
@[simp] theorem doneWith_errcode (s : State) (r0 r1 r2 r3 : Word) (irqs : BitVec 9) : (doneWith s r0 r1 r2 r3 irqs).errcode = 0#8 := rfl
@[simp] theorem doneWith_overrun (s : State) (r0 r1 r2 r3 : Word) (irqs : BitVec 9) : (doneWith s r0 r1 r2 r3 irqs).overrun = s.overrun := rfl
@[simp] theorem doneWith_wrIgnored (s : State) (r0 r1 r2 r3 : Word) (irqs : BitVec 9) : (doneWith s r0 r1 r2 r3 irqs).wrIgnored = s.wrIgnored := rfl
@[simp] theorem doneWith_bufHaz (s : State) (r0 r1 r2 r3 : Word) (irqs : BitVec 9) : (doneWith s r0 r1 r2 r3 irqs).bufHaz = s.bufHaz := rfl
@[simp] theorem doneWith_cmd (s : State) (r0 r1 r2 r3 : Word) (irqs : BitVec 9) : (doneWith s r0 r1 r2 r3 irqs).cmd = s.cmd := rfl
@[simp] theorem doneWith_snap (s : State) (r0 r1 r2 r3 : Word) (irqs : BitVec 9) : (doneWith s r0 r1 r2 r3 irqs).snap = s.snap := rfl
@[simp] theorem doneWith_args (s : State) (r0 r1 r2 r3 : Word) (irqs : BitVec 9) : (doneWith s r0 r1 r2 r3 irqs).args = s.args := rfl
@[simp] theorem doneWith_res (s : State) (r0 r1 r2 r3 : Word) (irqs : BitVec 9) : (doneWith s r0 r1 r2 r3 irqs).res = ⟨r0, r1, r2, r3⟩ := rfl
@[simp] theorem doneWith_errInfo (s : State) (r0 r1 r2 r3 : Word) (irqs : BitVec 9) : (doneWith s r0 r1 r2 r3 irqs).errInfo = s.errInfo := rfl
@[simp] theorem doneWith_irqStatus (s : State) (r0 r1 r2 r3 : Word) (irqs : BitVec 9) : (doneWith s r0 r1 r2 r3 irqs).irqStatus = s.irqStatus ||| irqs := rfl
@[simp] theorem doneWith_irqEnable (s : State) (r0 r1 r2 r3 : Word) (irqs : BitVec 9) : (doneWith s r0 r1 r2 r3 irqs).irqEnable = s.irqEnable := rfl
@[simp] theorem doneWith_time (s : State) (r0 r1 r2 r3 : Word) (irqs : BitVec 9) : (doneWith s r0 r1 r2 r3 irqs).time = s.time := rfl
@[simp] theorem doneWith_timeHiLatch (s : State) (r0 r1 r2 r3 : Word) (irqs : BitVec 9) : (doneWith s r0 r1 r2 r3 irqs).timeHiLatch = s.timeHiLatch := rfl
@[simp] theorem doneWith_fm (s : State) (r0 r1 r2 r3 : Word) (irqs : BitVec 9) : (doneWith s r0 r1 r2 r3 irqs).fm = s.fm := rfl
@[simp] theorem doneWith_pll (s : State) (r0 r1 r2 r3 : Word) (irqs : BitVec 9) : (doneWith s r0 r1 r2 r3 irqs).pll = s.pll := rfl
@[simp] theorem doneWith_dab (s : State) (r0 r1 r2 r3 : Word) (irqs : BitVec 9) : (doneWith s r0 r1 r2 r3 irqs).dab = s.dab := rfl
@[simp] theorem doneWith_rs (s : State) (r0 r1 r2 r3 : Word) (irqs : BitVec 9) : (doneWith s r0 r1 r2 r3 irqs).rs = s.rs := rfl
@[simp] theorem doneWith_crc0 (s : State) (r0 r1 r2 r3 : Word) (irqs : BitVec 9) : (doneWith s r0 r1 r2 r3 irqs).crc0 = s.crc0 := rfl
@[simp] theorem doneWith_crc1 (s : State) (r0 r1 r2 r3 : Word) (irqs : BitVec 9) : (doneWith s r0 r1 r2 r3 irqs).crc1 = s.crc1 := rfl
@[simp] theorem doneWith_vit (s : State) (r0 r1 r2 r3 : Word) (irqs : BitVec 9) : (doneWith s r0 r1 r2 r3 irqs).vit = s.vit := rfl
@[simp] theorem doneWith_diag (s : State) (r0 r1 r2 r3 : Word) (irqs : BitVec 9) : (doneWith s r0 r1 r2 r3 irqs).diag = s.diag := rfl
@[simp] theorem doneWith_bq (s : State) (r0 r1 r2 r3 : Word) (irqs : BitVec 9) : (doneWith s r0 r1 r2 r3 irqs).bq = s.bq := rfl
@[simp] theorem doneWith_buf (s : State) (r0 r1 r2 r3 : Word) (irqs : BitVec 9) : (doneWith s r0 r1 r2 r3 irqs).buf = s.buf := rfl
@[simp] theorem doneWith_env (s : State) (r0 r1 r2 r3 : Word) (irqs : BitVec 9) : (doneWith s r0 r1 r2 r3 irqs).env = s.env := rfl
@[simp] theorem doneWith_hostData (s : State) (r0 r1 r2 r3 : Word) (irqs : BitVec 9) : (doneWith s r0 r1 r2 r3 irqs).hostData = s.hostData := rfl

@[simp] theorem failedWith_busy (s : State) (code : BitVec 8) (info : Word) : (failedWith s code info).busy = false := rfl
@[simp] theorem failedWith_err (s : State) (code : BitVec 8) (info : Word) : (failedWith s code info).err = true := rfl
@[simp] theorem failedWith_crcPass (s : State) (code : BitVec 8) (info : Word) : (failedWith s code info).crcPass = s.crcPass := rfl
@[simp] theorem failedWith_errcode (s : State) (code : BitVec 8) (info : Word) : (failedWith s code info).errcode = code := rfl
@[simp] theorem failedWith_overrun (s : State) (code : BitVec 8) (info : Word) : (failedWith s code info).overrun = s.overrun := rfl
@[simp] theorem failedWith_wrIgnored (s : State) (code : BitVec 8) (info : Word) : (failedWith s code info).wrIgnored = s.wrIgnored := rfl
@[simp] theorem failedWith_bufHaz (s : State) (code : BitVec 8) (info : Word) : (failedWith s code info).bufHaz = s.bufHaz := rfl
@[simp] theorem failedWith_cmd (s : State) (code : BitVec 8) (info : Word) : (failedWith s code info).cmd = s.cmd := rfl
@[simp] theorem failedWith_snap (s : State) (code : BitVec 8) (info : Word) : (failedWith s code info).snap = s.snap := rfl
@[simp] theorem failedWith_args (s : State) (code : BitVec 8) (info : Word) : (failedWith s code info).args = s.args := rfl
@[simp] theorem failedWith_res (s : State) (code : BitVec 8) (info : Word) : (failedWith s code info).res = s.res := rfl
@[simp] theorem failedWith_errInfo (s : State) (code : BitVec 8) (info : Word) : (failedWith s code info).errInfo = info := rfl
@[simp] theorem failedWith_irqStatus (s : State) (code : BitVec 8) (info : Word) : (failedWith s code info).irqStatus = s.irqStatus ||| 0x002#9 := rfl
@[simp] theorem failedWith_irqEnable (s : State) (code : BitVec 8) (info : Word) : (failedWith s code info).irqEnable = s.irqEnable := rfl
@[simp] theorem failedWith_time (s : State) (code : BitVec 8) (info : Word) : (failedWith s code info).time = s.time := rfl
@[simp] theorem failedWith_timeHiLatch (s : State) (code : BitVec 8) (info : Word) : (failedWith s code info).timeHiLatch = s.timeHiLatch := rfl
@[simp] theorem failedWith_fm (s : State) (code : BitVec 8) (info : Word) : (failedWith s code info).fm = s.fm := rfl
@[simp] theorem failedWith_pll (s : State) (code : BitVec 8) (info : Word) : (failedWith s code info).pll = s.pll := rfl
@[simp] theorem failedWith_dab (s : State) (code : BitVec 8) (info : Word) : (failedWith s code info).dab = s.dab := rfl
@[simp] theorem failedWith_rs (s : State) (code : BitVec 8) (info : Word) : (failedWith s code info).rs = s.rs := rfl
@[simp] theorem failedWith_crc0 (s : State) (code : BitVec 8) (info : Word) : (failedWith s code info).crc0 = s.crc0 := rfl
@[simp] theorem failedWith_crc1 (s : State) (code : BitVec 8) (info : Word) : (failedWith s code info).crc1 = s.crc1 := rfl
@[simp] theorem failedWith_vit (s : State) (code : BitVec 8) (info : Word) : (failedWith s code info).vit = s.vit := rfl
@[simp] theorem failedWith_diag (s : State) (code : BitVec 8) (info : Word) : (failedWith s code info).diag = s.diag := rfl
@[simp] theorem failedWith_bq (s : State) (code : BitVec 8) (info : Word) : (failedWith s code info).bq = s.bq := rfl
@[simp] theorem failedWith_buf (s : State) (code : BitVec 8) (info : Word) : (failedWith s code info).buf = s.buf := rfl
@[simp] theorem failedWith_env (s : State) (code : BitVec 8) (info : Word) : (failedWith s code info).env = s.env := rfl
@[simp] theorem failedWith_hostData (s : State) (code : BitVec 8) (info : Word) : (failedWith s code info).hostData = s.hostData := rfl

@[simp] theorem acceptCommand_busy (w : Word) (s : State) : (acceptCommand w s).busy = true := rfl
@[simp] theorem acceptCommand_err (w : Word) (s : State) : (acceptCommand w s).err = s.err := rfl
@[simp] theorem acceptCommand_crcPass (w : Word) (s : State) : (acceptCommand w s).crcPass = s.crcPass := rfl
@[simp] theorem acceptCommand_errcode (w : Word) (s : State) : (acceptCommand w s).errcode = s.errcode := rfl
@[simp] theorem acceptCommand_overrun (w : Word) (s : State) : (acceptCommand w s).overrun = s.overrun := rfl
@[simp] theorem acceptCommand_wrIgnored (w : Word) (s : State) : (acceptCommand w s).wrIgnored = s.wrIgnored := rfl
@[simp] theorem acceptCommand_bufHaz (w : Word) (s : State) : (acceptCommand w s).bufHaz = s.bufHaz := rfl
@[simp] theorem acceptCommand_cmd (w : Word) (s : State) : (acceptCommand w s).cmd = w := rfl
@[simp] theorem acceptCommand_snap (w : Word) (s : State) : (acceptCommand w s).snap = s.args := rfl
@[simp] theorem acceptCommand_args (w : Word) (s : State) : (acceptCommand w s).args = s.args := rfl
@[simp] theorem acceptCommand_res (w : Word) (s : State) : (acceptCommand w s).res = s.res := rfl
@[simp] theorem acceptCommand_errInfo (w : Word) (s : State) : (acceptCommand w s).errInfo = s.errInfo := rfl
@[simp] theorem acceptCommand_irqStatus (w : Word) (s : State) : (acceptCommand w s).irqStatus = s.irqStatus := rfl
@[simp] theorem acceptCommand_irqEnable (w : Word) (s : State) : (acceptCommand w s).irqEnable = s.irqEnable := rfl
@[simp] theorem acceptCommand_time (w : Word) (s : State) : (acceptCommand w s).time = s.time := rfl
@[simp] theorem acceptCommand_timeHiLatch (w : Word) (s : State) : (acceptCommand w s).timeHiLatch = s.timeHiLatch := rfl
@[simp] theorem acceptCommand_fm (w : Word) (s : State) : (acceptCommand w s).fm = s.fm := rfl
@[simp] theorem acceptCommand_pll (w : Word) (s : State) : (acceptCommand w s).pll = s.pll := rfl
@[simp] theorem acceptCommand_dab (w : Word) (s : State) : (acceptCommand w s).dab = s.dab := rfl
@[simp] theorem acceptCommand_rs (w : Word) (s : State) : (acceptCommand w s).rs = s.rs := rfl
@[simp] theorem acceptCommand_crc0 (w : Word) (s : State) : (acceptCommand w s).crc0 = s.crc0 := rfl
@[simp] theorem acceptCommand_crc1 (w : Word) (s : State) : (acceptCommand w s).crc1 = s.crc1 := rfl
@[simp] theorem acceptCommand_vit (w : Word) (s : State) : (acceptCommand w s).vit = s.vit := rfl
@[simp] theorem acceptCommand_diag (w : Word) (s : State) : (acceptCommand w s).diag = s.diag := rfl
@[simp] theorem acceptCommand_bq (w : Word) (s : State) : (acceptCommand w s).bq = s.bq := rfl
@[simp] theorem acceptCommand_buf (w : Word) (s : State) : (acceptCommand w s).buf = s.buf := rfl
@[simp] theorem acceptCommand_env (w : Word) (s : State) : (acceptCommand w s).env = s.env := rfl
@[simp] theorem acceptCommand_hostData (w : Word) (s : State) : (acceptCommand w s).hostData = s.hostData := rfl

@[simp] theorem elapseTime_busy (us : Nat) (s : State) : (elapseTime us s).busy = s.busy := rfl
@[simp] theorem elapseTime_err (us : Nat) (s : State) : (elapseTime us s).err = s.err := rfl
@[simp] theorem elapseTime_crcPass (us : Nat) (s : State) : (elapseTime us s).crcPass = s.crcPass := rfl
@[simp] theorem elapseTime_errcode (us : Nat) (s : State) : (elapseTime us s).errcode = s.errcode := rfl
@[simp] theorem elapseTime_overrun (us : Nat) (s : State) : (elapseTime us s).overrun = s.overrun := rfl
@[simp] theorem elapseTime_wrIgnored (us : Nat) (s : State) : (elapseTime us s).wrIgnored = s.wrIgnored := rfl
@[simp] theorem elapseTime_bufHaz (us : Nat) (s : State) : (elapseTime us s).bufHaz = s.bufHaz := rfl
@[simp] theorem elapseTime_cmd (us : Nat) (s : State) : (elapseTime us s).cmd = s.cmd := rfl
@[simp] theorem elapseTime_snap (us : Nat) (s : State) : (elapseTime us s).snap = s.snap := rfl
@[simp] theorem elapseTime_args (us : Nat) (s : State) : (elapseTime us s).args = s.args := rfl
@[simp] theorem elapseTime_res (us : Nat) (s : State) : (elapseTime us s).res = s.res := rfl
@[simp] theorem elapseTime_errInfo (us : Nat) (s : State) : (elapseTime us s).errInfo = s.errInfo := rfl
@[simp] theorem elapseTime_irqStatus (us : Nat) (s : State) : (elapseTime us s).irqStatus = s.irqStatus := rfl
@[simp] theorem elapseTime_irqEnable (us : Nat) (s : State) : (elapseTime us s).irqEnable = s.irqEnable := rfl
@[simp] theorem elapseTime_time (us : Nat) (s : State) : (elapseTime us s).time = s.time + BitVec.ofNat 64 us := rfl
@[simp] theorem elapseTime_timeHiLatch (us : Nat) (s : State) : (elapseTime us s).timeHiLatch = s.timeHiLatch := rfl
@[simp] theorem elapseTime_fm (us : Nat) (s : State) : (elapseTime us s).fm = s.fm := rfl
@[simp] theorem elapseTime_pll (us : Nat) (s : State) : (elapseTime us s).pll = s.pll := rfl
@[simp] theorem elapseTime_dab (us : Nat) (s : State) : (elapseTime us s).dab = s.dab := rfl
@[simp] theorem elapseTime_rs (us : Nat) (s : State) : (elapseTime us s).rs = s.rs := rfl
@[simp] theorem elapseTime_crc0 (us : Nat) (s : State) : (elapseTime us s).crc0 = s.crc0 := rfl
@[simp] theorem elapseTime_crc1 (us : Nat) (s : State) : (elapseTime us s).crc1 = s.crc1 := rfl
@[simp] theorem elapseTime_vit (us : Nat) (s : State) : (elapseTime us s).vit = s.vit := rfl
@[simp] theorem elapseTime_diag (us : Nat) (s : State) : (elapseTime us s).diag = s.diag := rfl
@[simp] theorem elapseTime_bq (us : Nat) (s : State) : (elapseTime us s).bq = s.bq := rfl
@[simp] theorem elapseTime_buf (us : Nat) (s : State) : (elapseTime us s).buf = s.buf := rfl
@[simp] theorem elapseTime_env (us : Nat) (s : State) : (elapseTime us s).env = s.env := rfl
@[simp] theorem elapseTime_hostData (us : Nat) (s : State) : (elapseTime us s).hostData = s.hostData := rfl

@[simp] theorem clearSticky_busy (s : State) (v : Word) : (clearSticky s v).busy = s.busy := rfl
@[simp] theorem clearSticky_err (s : State) (v : Word) : (clearSticky s v).err = s.err := rfl
@[simp] theorem clearSticky_crcPass (s : State) (v : Word) : (clearSticky s v).crcPass = s.crcPass := rfl
@[simp] theorem clearSticky_errcode (s : State) (v : Word) : (clearSticky s v).errcode = s.errcode := rfl
@[simp] theorem clearSticky_overrun (s : State) (v : Word) : (clearSticky s v).overrun = (s.overrun && !v.getLsbD 16) := rfl
@[simp] theorem clearSticky_wrIgnored (s : State) (v : Word) : (clearSticky s v).wrIgnored = (s.wrIgnored && !v.getLsbD 17) := rfl
@[simp] theorem clearSticky_bufHaz (s : State) (v : Word) : (clearSticky s v).bufHaz = (s.bufHaz && !v.getLsbD 18) := rfl
@[simp] theorem clearSticky_cmd (s : State) (v : Word) : (clearSticky s v).cmd = s.cmd := rfl
@[simp] theorem clearSticky_snap (s : State) (v : Word) : (clearSticky s v).snap = s.snap := rfl
@[simp] theorem clearSticky_args (s : State) (v : Word) : (clearSticky s v).args = s.args := rfl
@[simp] theorem clearSticky_res (s : State) (v : Word) : (clearSticky s v).res = s.res := rfl
@[simp] theorem clearSticky_errInfo (s : State) (v : Word) : (clearSticky s v).errInfo = s.errInfo := rfl
@[simp] theorem clearSticky_irqStatus (s : State) (v : Word) : (clearSticky s v).irqStatus = s.irqStatus := rfl
@[simp] theorem clearSticky_irqEnable (s : State) (v : Word) : (clearSticky s v).irqEnable = s.irqEnable := rfl
@[simp] theorem clearSticky_time (s : State) (v : Word) : (clearSticky s v).time = s.time := rfl
@[simp] theorem clearSticky_timeHiLatch (s : State) (v : Word) : (clearSticky s v).timeHiLatch = s.timeHiLatch := rfl
@[simp] theorem clearSticky_fm (s : State) (v : Word) : (clearSticky s v).fm = s.fm := rfl
@[simp] theorem clearSticky_pll (s : State) (v : Word) : (clearSticky s v).pll = s.pll := rfl
@[simp] theorem clearSticky_dab (s : State) (v : Word) : (clearSticky s v).dab = s.dab := rfl
@[simp] theorem clearSticky_rs (s : State) (v : Word) : (clearSticky s v).rs = s.rs := rfl
@[simp] theorem clearSticky_crc0 (s : State) (v : Word) : (clearSticky s v).crc0 = s.crc0 := rfl
@[simp] theorem clearSticky_crc1 (s : State) (v : Word) : (clearSticky s v).crc1 = s.crc1 := rfl
@[simp] theorem clearSticky_vit (s : State) (v : Word) : (clearSticky s v).vit = s.vit := rfl
@[simp] theorem clearSticky_diag (s : State) (v : Word) : (clearSticky s v).diag = s.diag := rfl
@[simp] theorem clearSticky_bq (s : State) (v : Word) : (clearSticky s v).bq = s.bq := rfl
@[simp] theorem clearSticky_buf (s : State) (v : Word) : (clearSticky s v).buf = s.buf := rfl
@[simp] theorem clearSticky_env (s : State) (v : Word) : (clearSticky s v).env = s.env := rfl
@[simp] theorem clearSticky_hostData (s : State) (v : Word) : (clearSticky s v).hostData = s.hostData := rfl

@[simp] theorem softReset_busy (s : State) : (softReset s).busy = State.reset.busy := rfl
@[simp] theorem softReset_err (s : State) : (softReset s).err = State.reset.err := rfl
@[simp] theorem softReset_crcPass (s : State) : (softReset s).crcPass = State.reset.crcPass := rfl
@[simp] theorem softReset_errcode (s : State) : (softReset s).errcode = State.reset.errcode := rfl
@[simp] theorem softReset_overrun (s : State) : (softReset s).overrun = State.reset.overrun := rfl
@[simp] theorem softReset_wrIgnored (s : State) : (softReset s).wrIgnored = State.reset.wrIgnored := rfl
@[simp] theorem softReset_bufHaz (s : State) : (softReset s).bufHaz = State.reset.bufHaz := rfl
@[simp] theorem softReset_cmd (s : State) : (softReset s).cmd = State.reset.cmd := rfl
@[simp] theorem softReset_snap (s : State) : (softReset s).snap = State.reset.snap := rfl
@[simp] theorem softReset_args (s : State) : (softReset s).args = State.reset.args := rfl
@[simp] theorem softReset_res (s : State) : (softReset s).res = State.reset.res := rfl
@[simp] theorem softReset_errInfo (s : State) : (softReset s).errInfo = State.reset.errInfo := rfl
@[simp] theorem softReset_irqStatus (s : State) : (softReset s).irqStatus = State.reset.irqStatus := rfl
@[simp] theorem softReset_irqEnable (s : State) : (softReset s).irqEnable = State.reset.irqEnable := rfl
@[simp] theorem softReset_time (s : State) : (softReset s).time = State.reset.time := rfl
@[simp] theorem softReset_timeHiLatch (s : State) : (softReset s).timeHiLatch = State.reset.timeHiLatch := rfl
@[simp] theorem softReset_fm (s : State) : (softReset s).fm = State.reset.fm := rfl
@[simp] theorem softReset_pll (s : State) : (softReset s).pll = State.reset.pll := rfl
@[simp] theorem softReset_dab (s : State) : (softReset s).dab = State.reset.dab := rfl
@[simp] theorem softReset_rs (s : State) : (softReset s).rs = State.reset.rs := rfl
@[simp] theorem softReset_crc0 (s : State) : (softReset s).crc0 = State.reset.crc0 := rfl
@[simp] theorem softReset_crc1 (s : State) : (softReset s).crc1 = State.reset.crc1 := rfl
@[simp] theorem softReset_vit (s : State) : (softReset s).vit = State.reset.vit := rfl
@[simp] theorem softReset_diag (s : State) : (softReset s).diag = State.reset.diag := rfl
@[simp] theorem softReset_bq (s : State) : (softReset s).bq = State.reset.bq := rfl
@[simp] theorem softReset_buf (s : State) : (softReset s).buf = s.buf := rfl
@[simp] theorem softReset_env (s : State) : (softReset s).env = s.env := rfl
@[simp] theorem softReset_hostData (s : State) : (softReset s).hostData = s.hostData := rfl

@[simp] theorem placeCommand_busy (w : Word) (s : State) : (placeCommand w s).busy = true := rfl
@[simp] theorem placeCommand_err (w : Word) (s : State) : (placeCommand w s).err = s.err := rfl
@[simp] theorem placeCommand_crcPass (w : Word) (s : State) : (placeCommand w s).crcPass = s.crcPass := rfl
@[simp] theorem placeCommand_errcode (w : Word) (s : State) : (placeCommand w s).errcode = s.errcode := rfl
@[simp] theorem placeCommand_overrun (w : Word) (s : State) : (placeCommand w s).overrun = s.overrun := rfl
@[simp] theorem placeCommand_wrIgnored (w : Word) (s : State) : (placeCommand w s).wrIgnored = s.wrIgnored := rfl
@[simp] theorem placeCommand_bufHaz (w : Word) (s : State) : (placeCommand w s).bufHaz = s.bufHaz := rfl
@[simp] theorem placeCommand_cmd (w : Word) (s : State) : (placeCommand w s).cmd = w := rfl
@[simp] theorem placeCommand_snap (w : Word) (s : State) : (placeCommand w s).snap = s.args := rfl
@[simp] theorem placeCommand_args (w : Word) (s : State) : (placeCommand w s).args = s.args := rfl
@[simp] theorem placeCommand_res (w : Word) (s : State) : (placeCommand w s).res = s.res := rfl
@[simp] theorem placeCommand_errInfo (w : Word) (s : State) : (placeCommand w s).errInfo = s.errInfo := rfl
@[simp] theorem placeCommand_irqStatus (w : Word) (s : State) : (placeCommand w s).irqStatus = s.irqStatus := rfl
@[simp] theorem placeCommand_irqEnable (w : Word) (s : State) : (placeCommand w s).irqEnable = s.irqEnable := rfl
@[simp] theorem placeCommand_time (w : Word) (s : State) : (placeCommand w s).time = s.time := rfl
@[simp] theorem placeCommand_timeHiLatch (w : Word) (s : State) : (placeCommand w s).timeHiLatch = s.timeHiLatch := rfl
@[simp] theorem placeCommand_fm (w : Word) (s : State) : (placeCommand w s).fm = s.fm := rfl
@[simp] theorem placeCommand_pll (w : Word) (s : State) : (placeCommand w s).pll = s.pll := rfl
@[simp] theorem placeCommand_dab (w : Word) (s : State) : (placeCommand w s).dab = s.dab := rfl
@[simp] theorem placeCommand_rs (w : Word) (s : State) : (placeCommand w s).rs = s.rs := rfl
@[simp] theorem placeCommand_crc0 (w : Word) (s : State) : (placeCommand w s).crc0 = s.crc0 := rfl
@[simp] theorem placeCommand_crc1 (w : Word) (s : State) : (placeCommand w s).crc1 = s.crc1 := rfl
@[simp] theorem placeCommand_vit (w : Word) (s : State) : (placeCommand w s).vit = s.vit := rfl
@[simp] theorem placeCommand_diag (w : Word) (s : State) : (placeCommand w s).diag = s.diag := rfl
@[simp] theorem placeCommand_bq (w : Word) (s : State) : (placeCommand w s).bq = s.bq := rfl
@[simp] theorem placeCommand_buf (w : Word) (s : State) : (placeCommand w s).buf = s.buf := rfl
@[simp] theorem placeCommand_env (w : Word) (s : State) : (placeCommand w s).env = completionNext s.env := rfl
@[simp] theorem placeCommand_hostData (w : Word) (s : State) : (placeCommand w s).hostData = s.hostData := rfl

@[simp] theorem clearSync_fragLen (d : Dab) : (clearSync d).fragLen = d.fragLen := rfl
@[simp] theorem clearSync_fireEn (d : Dab) : (clearSync d).fireEn = d.fireEn := rfl
@[simp] theorem clearSync_lossThr (d : Dab) : (clearSync d).lossThr = d.lossThr := rfl
@[simp] theorem clearSync_synced (d : Dab) : (clearSync d).synced = false := rfl
@[simp] theorem clearSync_fails (d : Dab) : (clearSync d).fails = 0#8 := rfl
@[simp] theorem clearSync_sfCount (d : Dab) : (clearSync d).sfCount = d.sfCount := rfl
@[simp] theorem clearSync_rejCount (d : Dab) : (clearSync d).rejCount = d.rejCount := rfl
@[simp] theorem clearSync_win (d : Dab) : (clearSync d).win = [] := rfl
@[simp] theorem clearSync_winF (d : Dab) : (clearSync d).winF = d.winF := rfl

@[simp] theorem appendFragment_fragLen (d : Dab) (frag : List Byte) : (appendFragment d frag).fragLen = d.fragLen := rfl
@[simp] theorem appendFragment_fireEn (d : Dab) (frag : List Byte) : (appendFragment d frag).fireEn = d.fireEn := rfl
@[simp] theorem appendFragment_lossThr (d : Dab) (frag : List Byte) : (appendFragment d frag).lossThr = d.lossThr := rfl
@[simp] theorem appendFragment_synced (d : Dab) (frag : List Byte) : (appendFragment d frag).synced = d.synced := rfl
@[simp] theorem appendFragment_fails (d : Dab) (frag : List Byte) : (appendFragment d frag).fails = d.fails := rfl
@[simp] theorem appendFragment_sfCount (d : Dab) (frag : List Byte) : (appendFragment d frag).sfCount = d.sfCount := rfl
@[simp] theorem appendFragment_rejCount (d : Dab) (frag : List Byte) : (appendFragment d frag).rejCount = d.rejCount := rfl
@[simp] theorem appendFragment_win (d : Dab) (frag : List Byte) : (appendFragment d frag).win = d.win ++ [frag] := rfl
@[simp] theorem appendFragment_winF (d : Dab) (frag : List Byte) : (appendFragment d frag).winF = d.fragLen := rfl

@[simp] theorem acceptSuperframe_fragLen (d : Dab) : (acceptSuperframe d).fragLen = d.fragLen := rfl
@[simp] theorem acceptSuperframe_fireEn (d : Dab) : (acceptSuperframe d).fireEn = d.fireEn := rfl
@[simp] theorem acceptSuperframe_lossThr (d : Dab) : (acceptSuperframe d).lossThr = d.lossThr := rfl
@[simp] theorem acceptSuperframe_synced (d : Dab) : (acceptSuperframe d).synced = true := rfl
@[simp] theorem acceptSuperframe_fails (d : Dab) : (acceptSuperframe d).fails = 0#8 := rfl
@[simp] theorem acceptSuperframe_sfCount (d : Dab) : (acceptSuperframe d).sfCount = d.sfCount + 1#32 := rfl
@[simp] theorem acceptSuperframe_rejCount (d : Dab) : (acceptSuperframe d).rejCount = d.rejCount := rfl
@[simp] theorem acceptSuperframe_win (d : Dab) : (acceptSuperframe d).win = [] := rfl
@[simp] theorem acceptSuperframe_winF (d : Dab) : (acceptSuperframe d).winF = d.winF := rfl

/-- An error's record is the record of R504 with the code's number. -/
theorem raiseError_eq_failedWith (e : CmdError) (s : State) : raiseError e s = failedWith s (errNumber e.code) e.info := rfl

/-- A success record is the record of R504 with DONE among the interrupts. -/
theorem succeed_eq_doneWith (t : State) (r : Quad) (irqs : BitVec 9) :
    succeed ⟨t, r, irqs⟩ = doneWith t r.r0 r.r1 r.r2 r.r3 (irqs ||| irqDone) := by
  simp [succeed, doneWith, BitVec.or_assoc]

end Sys2Proof.Machine
end

