-- ==== Sys2Proof/Laws/Commands.lean ====
section
/-! SUPPORT. What each shared operation of the engine can do, said once: running a command, the selector check, the region and
alignment checks, a host access, a step. -/

namespace Sys2Proof.Machine

/-- A command that fails a check ends with that error. -/
theorem runCommand_error {check : State → Option CmdError} {effect : State → Effect} {s : State} {e : CmdError}
    (h : check s = some e) : runCommand check effect s = .next (raiseError e s) := by
  simp [runCommand, h]

/-- A command that passes its checks has its effects. -/
theorem runCommand_success {check : State → Option CmdError} {effect : State → Effect} {s : State}
    (h : check s = none) : runCommand check effect s = .next (succeed (effect s)) := by
  simp [runCommand, h]

/-- Everything running a command can do (R504). -/
theorem runCommand_cases {check : State → Option CmdError} {effect : State → Effect} {s t : State}
    (h : runCommand check effect s = .next t) :
    (∃ e, check s = some e ∧ t = raiseError e s) ∨ (check s = none ∧ t = succeed (effect s)) := by
  cases hc : check s with
  | some e => rw [runCommand_error hc] at h; cases h; exact .inl ⟨e, rfl, rfl⟩
  | none => rw [runCommand_success hc] at h; cases h; exact .inr ⟨rfl, rfl⟩

/-- Running a command always answers a next state. -/
theorem runCommand_next (check : State → Option CmdError) (effect : State → Effect) (s : State) :
    ∃ t, runCommand check effect s = .next t := ⟨_, rfl⟩

/-- A selector in the range leaves the command's own checks. -/
theorem withSelector_inside {lo hi : Nat} {sel : BitVec 4} {check : State → Option CmdError} {s : State}
    (h1 : lo ≤ sel.toNat) (h2 : sel.toNat ≤ hi) : withSelector lo hi sel check s = check s := by
  simp [withSelector, h1, h2]

/-- A selector outside the range is BAD_SELECTOR with the command word. -/
theorem withSelector_outside {lo hi : Nat} {sel : BitVec 4} {check : State → Option CmdError} {s : State}
    (h : ¬ (lo ≤ sel.toNat ∧ sel.toNat ≤ hi)) : withSelector lo hi sel check s = some ⟨.badSelector, s.cmd⟩ := by
  simp [withSelector, h]

/-- A command passes all its checks when its selector is in the range and its own checks pass. -/
theorem withSelector_eq_none {lo hi : Nat} {sel : BitVec 4} {check : State → Option CmdError} {s : State} :
    withSelector lo hi sel check s = none ↔ lo ≤ sel.toNat ∧ sel.toNat ≤ hi ∧ check s = none := by
  unfold withSelector
  split
  · rename_i h; simp [h]
  · rename_i h
    constructor
    · intro h'; cases h'
    · intro h'; exact absurd ⟨h'.1, h'.2.1⟩ h

@[simp] theorem noChecks_eq (s : State) : noChecks s = none := rfl

/-- A region is legal when it fits in BUF (R106). -/
theorem regionOk_iff (a n : Nat) : regionOk a n = true ↔ a + n ≤ 65536 := by
  unfold regionOk Config.bufSize; exact decide_eq_true_iff

theorem regionOk_false_iff (a n : Nat) : regionOk a n = false ↔ 65536 < a + n := by
  unfold regionOk Config.bufSize; rw [decide_eq_false_iff_not]; omega

/-- An offset is aligned when it is divisible (R106). -/
theorem aligned_iff (k a : Nat) : aligned k a = true ↔ a % k = 0 := by simp [aligned]

theorem aligned_false_iff (k a : Nat) : aligned k a = false ↔ a % k ≠ 0 := by simp [aligned]

/-- Everything a host access can do: outside the window, answered, or a bus error (R100, R105). -/
theorem hostAccess_cases (off : Nat) (w : Width) (effect : State → State) (s : State) :
    (Config.mmioSize ≤ off ∧ hostAccess off w effect s = .fault .outsideWindow) ∨
    (off < Config.mmioSize ∧ accessOk off w = true ∧ hostAccess off w effect s = .next (effect s)) ∨
    (off < Config.mmioSize ∧ accessOk off w = false ∧ hostAccess off w effect s = .fault .busError) := by
  unfold hostAccess
  by_cases h : Config.mmioSize ≤ off
  · simp [h]
  · have h' : off < Config.mmioSize := Nat.lt_of_not_le h
    by_cases ha : accessOk off w = true
    · simp [h, ha, h']
    · have ha' : accessOk off w = false := by simpa using ha
      simp [h, ha', h']

/-- A host access that is answered has its effect. -/
theorem hostAccess_next {off : Nat} {w : Width} {effect : State → State} {s t : State}
    (h : hostAccess off w effect s = .next t) :
    off < Config.mmioSize ∧ accessOk off w = true ∧ t = effect s := by
  rcases hostAccess_cases off w effect s with ⟨_, h2⟩ | ⟨h1, h2, h3⟩ | ⟨_, _, h3⟩
  · rw [h2] at h; cases h
  · rw [h3] at h; cases h; exact ⟨h1, h2, rfl⟩
  · rw [h3] at h; cases h

/-- A host read of a register (R30, R40). -/
theorem readAt_csr {off : Nat} {c : Csr} (s : State) (h : csrAt off = some c) (h1 : off < Config.csrWindow) (w : Width) :
    readAt off w s = { afterCsrRead s c with hostData := readCsr s c } := by
  unfold readAt csrOf
  rw [if_pos (Nat.lt_trans h1 (by decide)), if_pos h1, h]

/-- A host write of a register (R30). -/
theorem writeAt_csr {off : Nat} {c : Csr} (s : State) (h : csrAt off = some c) (h1 : off < Config.csrWindow) (w : Width)
    (v : BitVec 64) : writeAt off w v s = writeCsr s (lowHalf v) c := by
  unfold writeAt csrOf
  rw [if_pos (Nat.lt_trans h1 (by decide)), if_pos h1, h]

/-- Everything a register read does to the registers: TIME_LO loads the latch (R40, R109). -/
theorem afterCsrRead_eq (s : State) (c : Csr) :
    afterCsrRead s c = { s with timeHiLatch := if c = .timeLo then highHalf s.time else s.timeHiLatch } := by
  cases c <;> rfl

/-- The step with no event left: the pending command completes, or nothing happens. -/
theorem step_of_idle_world {s : State} (h : s.env = []) : step s = completeIfBusy s := by
  simp [step, stepOnce, h]

/-- The step with an event left: that event, taken off the list. -/
theorem step_of_event {s : State} {e : Event} {rest : List Event} (h : s.env = e :: rest) :
    step s = takeEvent e { s with env := rest } := by
  simp [step, stepOnce, h]

@[simp] theorem bufSize_eq : Config.bufSize = 65536 := rfl

@[simp] theorem bufWindow_eq : Config.bufWindow = 65536 := rfl

@[simp] theorem csrWindow_eq : Config.csrWindow = 4096 := rfl

@[simp] theorem mmioSize_eq : Config.mmioSize = 131072 := rfl

@[simp] theorem oneSecond_eq : Config.oneSecond = 1000000 := rfl

/-- A run of samples gives one output for each. -/
@[simp] theorem length_runSamples {σ α β : Type} (f : σ → α → σ × β) (xs : List α) :
    ∀ s, (runSamples f s xs).2.length = xs.length := by
  induction xs with
  | nil => intro s; rfl
  | cons x xs ih => intro s; simp [runSamples, ih]

@[simp] theorem length_pieces {α : Type} (n : Nat) (k : Nat) : ∀ xs : List α, (pieces n k xs).length = k := by
  induction k with
  | zero => intro xs; rfl
  | succ k ih => intro xs; simp [pieces, ih]

@[simp] theorem length_leBytes (n : Nat) : ∀ v, (leBytes n v).length = n := by
  induction n with
  | zero => intro v; rfl
  | succ n ih => intro v; simp [leBytes, ih]

@[simp] theorem length_bitsMsb (n v : Nat) : (bitsMsb n v).length = n := by
  induction n with
  | zero => rfl
  | succ n ih => simp [bitsMsb, ih]

@[simp] theorem length_f64Bytes (xs : List F64) : (f64Bytes xs).length = 8 * xs.length := by
  induction xs with
  | nil => rfl
  | cons x xs ih => simp [f64Bytes] at ih ⊢; omega

@[simp] theorem length_pcmBytes (xs : List Pcm) : (pcmBytes xs).length = 2 * xs.length := by
  induction xs with
  | nil => rfl
  | cons x xs ih => simp [pcmBytes] at ih ⊢; omega

@[simp] theorem length_bytesOf (xs : List Nat) : (bytesOf xs).length = xs.length := by simp [bytesOf]

@[simp] theorem length_symbolsOf (code : RsCode) (bs : List Byte) : (symbolsOf code bs).length = bs.length := by
  simp [symbolsOf]

end Sys2Proof.Machine
end

