-- ==== Sys2Proof/Laws/Field.lean ====
section
/-! SUPPORT. The field of the Reed-Solomon decoder (R330): doubling and multiplication of its numbers, the powers of alpha, and that
they are a field when RS_INIT accepts the polynomial. -/

namespace Sys2Proof.Machine

/-- Sums of elements are elements. -/
theorem xor_lt {m a b : Nat} (ha : a < 2 ^ m) (hb : b < 2 ^ m) : a ^^^ b < 2 ^ m := Nat.xor_lt_two_pow ha hb

/-- A number below 2^(m+1) is at least 2^m when its bit m is set. -/
theorem le_iff_testBit {m x : Nat} (h : x < 2 ^ (m + 1)) : 2 ^ m ≤ x ↔ x.testBit m = true := by
  rw [Nat.testBit_eq_decide_div_mod_eq, decide_eq_true_iff]
  have h2 : x / 2 ^ m < 2 := (Nat.div_lt_iff_lt_mul (Nat.two_pow_pos _)).2 (by rw [pow_succ] at h; omega)
  have h3 : 1 ≤ x / 2 ^ m ↔ 1 * 2 ^ m ≤ x := Nat.le_div_iff_mul_le (Nat.two_pow_pos _)
  rw [one_mul] at h3
  rw [← h3, Nat.mod_eq_of_lt h2]
  omega

theorem two_mul_lt {m a : Nat} (ha : a < 2 ^ m) : 2 * a < 2 ^ (m + 1) := by rw [pow_succ]; omega

theorem two_mul_xor (a b : Nat) : 2 * (a ^^^ b) = 2 * a ^^^ 2 * b := by
  have h : ∀ x : Nat, 2 * x = x <<< 1 := fun x => by rw [Nat.shiftLeft_eq]; ring
  rw [h, h, h, Nat.shiftLeft_xor_distrib]

/-- Doubling reduces when bit m of the double is set. -/
theorem gfDouble_eq {c : RsCode} {a : Nat} (ha : a < 2 ^ c.m) :
    gfDouble c a = if (2 * a).testBit c.m = true then 2 * a ^^^ c.poly else 2 * a := by
  unfold gfDouble
  exact if_congr (le_iff_testBit (two_mul_lt ha)) rfl rfl

/-- The polynomial has degree m (R334 check 2). -/
def HasDegree (c : RsCode) : Prop := 2 ^ c.m ≤ c.poly ∧ c.poly < 2 ^ (c.m + 1)

theorem gfDouble_lt {c : RsCode} (hp : HasDegree c) {a : Nat} (ha : a < 2 ^ c.m) : gfDouble c a < 2 ^ c.m := by
  have h3 := two_mul_lt ha
  unfold gfDouble
  split
  · rename_i h
    have h4 : 2 * a ^^^ c.poly < 2 ^ (c.m + 1) := xor_lt h3 hp.2
    by_contra hn
    have h5 := (le_iff_testBit h4).1 (by omega)
    rw [Nat.testBit_xor, (le_iff_testBit h3).1 h, (le_iff_testBit hp.2).1 hp.1] at h5
    cases h5
  · omega

theorem gfDouble_xor {c : RsCode} {a b : Nat} (ha : a < 2 ^ c.m) (hb : b < 2 ^ c.m) :
    gfDouble c (a ^^^ b) = gfDouble c a ^^^ gfDouble c b := by
  rw [gfDouble_eq (xor_lt ha hb), gfDouble_eq ha, gfDouble_eq hb, two_mul_xor, Nat.testBit_xor]
  generalize 2 * a = x
  generalize 2 * b = y
  cases hx : x.testBit c.m <;> cases hy : y.testBit c.m <;> simp
  · rw [Nat.xor_assoc]
  · rw [Nat.xor_assoc, Nat.xor_comm y, Nat.xor_assoc]
  · rw [Nat.xor_assoc x, Nat.xor_left_comm c.poly, Nat.xor_self, Nat.xor_zero]

@[simp] theorem gfDouble_zero (c : RsCode) : gfDouble c 0 = 0 := by
  unfold gfDouble
  rw [if_neg (by have := Nat.two_pow_pos c.m; omega)]

/-! ### Products -/

theorem gfMulBits_lt {c : RsCode} (hp : HasDegree c) (k : Nat) : ∀ {a : Nat} (b : Nat), a < 2 ^ c.m →
    gfMulBits c k a b < 2 ^ c.m := by
  induction k with
  | zero => intro a b _; exact Nat.two_pow_pos _
  | succ k ih =>
    intro a b ha
    refine xor_lt ?_ (ih _ (gfDouble_lt hp ha))
    split
    · exact ha
    · exact Nat.two_pow_pos _

theorem gfMulBits_zero_left (c : RsCode) (k : Nat) : ∀ b, gfMulBits c k 0 b = 0 := by
  induction k with
  | zero => intro b; rfl
  | succ k ih => intro b; simp [gfMulBits, ih]

theorem gfMulBits_zero_right (c : RsCode) (k : Nat) : ∀ a, gfMulBits c k a 0 = 0 := by
  induction k with
  | zero => intro a; rfl
  | succ k ih => intro a; simp [gfMulBits, ih]

theorem xor_xor_xor_comm (a b x y : Nat) : (a ^^^ b) ^^^ (x ^^^ y) = (a ^^^ x) ^^^ (b ^^^ y) := by
  rw [Nat.xor_assoc, Nat.xor_assoc, Nat.xor_left_comm b]

theorem gfMulBits_xor_left {c : RsCode} (hp : HasDegree c) (k : Nat) : ∀ {x y : Nat} (b : Nat), x < 2 ^ c.m → y < 2 ^ c.m →
    gfMulBits c k (x ^^^ y) b = gfMulBits c k x b ^^^ gfMulBits c k y b := by
  induction k with
  | zero => intro x y b _ _; simp [gfMulBits]
  | succ k ih =>
    intro x y b hx hy
    simp only [gfMulBits]
    rw [gfDouble_xor hx hy, ih _ (gfDouble_lt hp hx) (gfDouble_lt hp hy), xor_xor_xor_comm]
    split <;> simp

theorem gfMulBits_xor_right (c : RsCode) (k : Nat) : ∀ a x y : Nat,
    gfMulBits c k a (x ^^^ y) = gfMulBits c k a x ^^^ gfMulBits c k a y := by
  induction k with
  | zero => intro a x y; simp [gfMulBits]
  | succ k ih =>
    intro a x y
    have h1 : (x ^^^ y) / 2 = x / 2 ^^^ y / 2 := by simpa using Nat.xor_div_two_pow (n := 1) (a := x) (b := y)
    have h2 : (x ^^^ y) % 2 = x % 2 ^^^ y % 2 := by simpa using Nat.xor_mod_two_pow (n := 1) (a := x) (b := y)
    simp only [gfMulBits]
    rw [h1, ih, xor_xor_xor_comm, h2]
    congr 1
    rcases Nat.mod_two_eq_zero_or_one x with hx | hx <;> rcases Nat.mod_two_eq_zero_or_one y with hy | hy <;>
      simp [hx, hy]

theorem gfDouble_gfMulBits {c : RsCode} (hp : HasDegree c) (k : Nat) : ∀ {a : Nat} (b : Nat), a < 2 ^ c.m →
    gfDouble c (gfMulBits c k a b) = gfMulBits c k (gfDouble c a) b := by
  induction k with
  | zero => intro a b _; exact gfDouble_zero c
  | succ k ih =>
    intro a b ha
    simp only [gfMulBits]
    have h0 : (if b % 2 = 1 then a else 0) < 2 ^ c.m := by split; exacts [ha, Nat.two_pow_pos _]
    rw [gfDouble_xor h0 (gfMulBits_lt hp k _ (gfDouble_lt hp ha)), ih _ (gfDouble_lt hp ha)]
    congr 1
    split <;> simp

/-- A power of two times b: the low bits of b, moved up. -/
theorem gfMulBits_two_pow (c : RsCode) (k : Nat) : ∀ j b, j + k = c.m → gfMulBits c k (2 ^ j) b = 2 ^ j * (b % 2 ^ k) := by
  induction k with
  | zero => intro j b _; simp [gfMulBits, Nat.mod_one]
  | succ k ih =>
    intro j b hj
    simp only [gfMulBits]
    have hrest : gfMulBits c k (gfDouble c (2 ^ j)) (b / 2) = 2 ^ j * (2 * (b / 2 % 2 ^ k)) := by
      cases k with
      | zero => simp [gfMulBits, Nat.mod_one]
      | succ k =>
        have hd : gfDouble c (2 ^ j) = 2 ^ (j + 1) := by
          unfold gfDouble
          have : 2 * 2 ^ j < 2 ^ c.m := by
            rw [← pow_succ']; exact Nat.pow_lt_pow_right (by norm_num) (by omega)
          rw [if_neg (by omega), pow_succ']
        rw [hd, ih (j + 1) (b / 2) (by omega), pow_succ]; ring
    have hfirst : (if b % 2 = 1 then 2 ^ j else 0) = 2 ^ j * (b % 2) := by
      rcases Nat.mod_two_eq_zero_or_one b with h | h <;> simp [h]
    have hmod : b % 2 ^ (k + 1) = b % 2 + 2 * (b / 2 % 2 ^ k) := by
      rw [pow_succ', Nat.mod_mul]
    have hx : ∀ x y : Nat, 2 ^ j * x ^^^ 2 ^ j * y = 2 ^ j * (x ^^^ y) := by
      intro x y
      have h : ∀ z : Nat, 2 ^ j * z = z <<< j := fun z => by rw [Nat.shiftLeft_eq, Nat.mul_comm]
      rw [h, h, h, Nat.shiftLeft_xor_distrib]
    have hadd : ∀ q : Nat, b % 2 ^^^ 2 * q = b % 2 + 2 * q := by
      intro q
      rcases Nat.mod_two_eq_zero_or_one b with h | h
      · simp [h]
      · rw [h]
        have e1 : (1 ^^^ 2 * q) / 2 = q := by
          have := Nat.xor_div_two_pow (n := 1) (a := 1) (b := 2 * q)
          simpa using this
        have e2 : (1 ^^^ 2 * q) % 2 = 1 := by
          simp
        omega
    rw [hrest, hfirst, hx, hadd, hmod]

theorem gfMul_one_left {c : RsCode} {b : Nat} (hb : b < 2 ^ c.m) : gfMul c 1 b = b := by
  have := gfMulBits_two_pow c c.m 0 b (by omega)
  rw [pow_zero, one_mul, Nat.mod_eq_of_lt hb] at this
  exact this

/-! ### Powers of alpha -/

theorem iterate_gfDouble_lt {c : RsCode} (hp : HasDegree c) (k : Nat) {a : Nat} (ha : a < 2 ^ c.m) :
    (gfDouble c)^[k] a < 2 ^ c.m := by
  induction k with
  | zero => exact ha
  | succ k ih => rw [Function.iterate_succ_apply']; exact gfDouble_lt hp ih

@[simp] theorem iterate_gfDouble_zero (c : RsCode) (k : Nat) : (gfDouble c)^[k] 0 = 0 :=
  Function.iterate_fixed (gfDouble_zero c) k

theorem gfMul_iterate {c : RsCode} (hp : HasDegree c) (k : Nat) {a : Nat} (b : Nat) (ha : a < 2 ^ c.m) :
    gfMul c ((gfDouble c)^[k] a) b = (gfDouble c)^[k] (gfMul c a b) := by
  induction k with
  | zero => rfl
  | succ k ih =>
    rw [Function.iterate_succ_apply', Function.iterate_succ_apply', ← ih]
    exact (gfDouble_gfMulBits hp c.m b (iterate_gfDouble_lt hp k ha)).symm

theorem orderSearch_zero (c : RsCode) (fuel : Nat) : ∀ a, orderSearch c fuel a = some 0 →
    1 ≤ fuel ∧ (gfDouble c)^[fuel - 1] a = 1 ∧ ∀ k, k < fuel - 1 → (gfDouble c)^[k] a ≠ 1 := by
  induction fuel with
  | zero => intro a h; cases h
  | succ fuel ih =>
    intro a h
    unfold orderSearch at h
    split at h
    · rename_i h1
      cases h
      exact ⟨by omega, h1, fun k hk => by omega⟩
    · rename_i h1
      obtain ⟨h2, h3, h4⟩ := ih _ h
      refine ⟨by omega, ?_, ?_⟩
      · have : fuel + 1 - 1 = (fuel - 1) + 1 := by omega
        rw [this, Function.iterate_succ_apply]; exact h3
      · intro k hk
        cases k with
        | zero => exact h1
        | succ k => rw [Function.iterate_succ_apply]; exact h4 k (by omega)

/-- A code whose field polynomial passes RS_INIT's checks 1 and 2 (R330, R334). -/
def PrimitiveCode (c : RsCode) : Prop := 2 ≤ c.m ∧ isPrimitive c.m c.poly = true

theorem PrimitiveCode.hasDegree {c : RsCode} (h : PrimitiveCode c) : HasDegree c := by
  have := h.2
  unfold isPrimitive at this
  simp only [Bool.and_eq_true, decide_eq_true_eq] at this
  exact ⟨this.1.1, this.1.2⟩

/-- The order of alpha. -/
theorem PrimitiveCode.order {c : RsCode} (h : PrimitiveCode c) :
    (gfDouble c)^[rsOrder c] 1 = 1 ∧ ∀ k, 0 < k → k < rsOrder c → (gfDouble c)^[k] 1 ≠ 1 := by
  have h2 := h.2
  unfold isPrimitive at h2
  simp only [Bool.and_eq_true, decide_eq_true_eq] at h2
  have e : gfDouble ⟨c.m, c.poly, 0, 1, 1⟩ = gfDouble c := rfl
  have hd : gfDouble c 1 = 2 := by
    unfold gfDouble
    have : 2 ^ 2 ≤ 2 ^ c.m := Nat.pow_le_pow_right (by norm_num) h.1
    rw [if_neg (by omega)]
  obtain ⟨h3, h4, h5⟩ := orderSearch_zero _ _ _ h2.2
  rw [e] at h4
  simp only [e] at h5
  have hsucc : ∀ k, (gfDouble c)^[k + 1] 1 = (gfDouble c)^[k] 2 := fun k => by
    rw [Function.iterate_succ_apply, hd]
  unfold rsOrder
  refine ⟨?_, ?_⟩
  · have : 2 ^ c.m - 1 = (2 ^ c.m - 1 - 1) + 1 := by omega
    rw [this, hsucc]; exact h4
  · intro k h0 hk
    have : k = (k - 1) + 1 := by omega
    rw [this, hsucc]; exact h5 _ (by omega)


/-- Only the low bits of the second factor count. -/
theorem gfMulBits_mod (c : RsCode) (k : Nat) : ∀ a b, gfMulBits c k a b = gfMulBits c k a (b % 2 ^ k) := by
  induction k with
  | zero => intro a b; rfl
  | succ k ih =>
    intro a b
    have h1 : b % 2 ^ (k + 1) % 2 = b % 2 := Nat.mod_mod_of_dvd b (Dvd.intro_left _ rfl)
    have h2 : b % 2 ^ (k + 1) / 2 = b / 2 % 2 ^ k := by rw [pow_succ', Nat.mod_mul_right_div_self]
    simp only [gfMulBits]
    rw [h1, h2, ih]

/-! ### The field -/

/-- Doubling loses nothing: its iterate of order NN brings every power of alpha back. -/
theorem PrimitiveCode.iterate_ne_zero {c : RsCode} (h : PrimitiveCode c) {k : Nat} (hk : k ≤ rsOrder c) :
    (gfDouble c)^[k] 1 ≠ 0 := by
  intro h0
  have h1 := h.order.1
  have : rsOrder c = (rsOrder c - k) + k := by omega
  rw [this, Function.iterate_add_apply, h0, iterate_gfDouble_zero] at h1
  cases h1

theorem PrimitiveCode.iterate_mod {c : RsCode} (h : PrimitiveCode c) (k : Nat) :
    (gfDouble c)^[k] 1 = (gfDouble c)^[k % rsOrder c] 1 := by
  have hp : Function.IsPeriodicPt (gfDouble c) (rsOrder c) 1 := h.order.1
  exact (hp.iterate_mod_apply k).symm

theorem PrimitiveCode.rsOrder_pos {c : RsCode} (h : PrimitiveCode c) : 2 < rsOrder c := by
  have : 2 ^ 2 ≤ 2 ^ c.m := Nat.pow_le_pow_right (by norm_num) h.1
  unfold rsOrder; omega

theorem PrimitiveCode.iterate_inj {c : RsCode} (h : PrimitiveCode c) {i j : Nat} (hi : i < rsOrder c) (hj : j < rsOrder c)
    (he : (gfDouble c)^[i] 1 = (gfDouble c)^[j] 1) : i = j := by
  wlog hij : i ≤ j generalizing i j
  · exact (this hj hi he.symm (by omega)).symm
  by_contra hne
  have h1 := h.order.1
  have e1 : rsOrder c = (rsOrder c - i) + i := by omega
  rw [e1, Function.iterate_add_apply, he, ← Function.iterate_add_apply] at h1
  have e2 : rsOrder c - i + j = (j - i) + rsOrder c := by omega
  rw [e2, Function.iterate_add_apply, h.order.1] at h1
  exact h.order.2 (j - i) (by omega) (by omega) h1

/-- Every element but 0 is a power of alpha (R330). -/
theorem PrimitiveCode.exists_log {c : RsCode} (h : PrimitiveCode c) {a : Nat} (ha : a < 2 ^ c.m) (h0 : a ≠ 0) :
    ∃ k, k < rsOrder c ∧ (gfDouble c)^[k] 1 = a := by
  have hone : 1 < 2 ^ c.m := Nat.one_lt_two_pow (by have := h.1; omega)
  have hsub : (Finset.range (rsOrder c)).image (fun k => (gfDouble c)^[k] 1) ⊆ Finset.Ico 1 (2 ^ c.m) := by
    intro x hx
    obtain ⟨k, hk, rfl⟩ := Finset.mem_image.1 hx
    have hk := Finset.mem_range.1 hk
    exact Finset.mem_Ico.2 ⟨Nat.pos_of_ne_zero (h.iterate_ne_zero hk.le), iterate_gfDouble_lt h.hasDegree k hone⟩
  have hcard : ((Finset.range (rsOrder c)).image (fun k => (gfDouble c)^[k] 1)).card = rsOrder c := by
    rw [Finset.card_image_of_injOn, Finset.card_range]
    intro i hi j hj he
    exact h.iterate_inj (Finset.mem_range.1 hi) (Finset.mem_range.1 hj) he
  have heq := Finset.eq_of_subset_of_card_le hsub (by rw [hcard, Nat.card_Ico]; rfl)
  have : a ∈ Finset.Ico 1 (2 ^ c.m) := Finset.mem_Ico.2 ⟨Nat.pos_of_ne_zero h0, ha⟩
  rw [← heq] at this
  obtain ⟨k, hk, he⟩ := Finset.mem_image.1 this
  exact ⟨k, Finset.mem_range.1 hk, he⟩

theorem gfMul_zero_left (c : RsCode) (b : Nat) : gfMul c 0 b = 0 := gfMulBits_zero_left c c.m b

theorem gfMul_zero_right (c : RsCode) (a : Nat) : gfMul c a 0 = 0 := gfMulBits_zero_right c c.m a

theorem gfMul_lt {c : RsCode} (hp : HasDegree c) {a : Nat} (b : Nat) (ha : a < 2 ^ c.m) : gfMul c a b < 2 ^ c.m :=
  gfMulBits_lt hp c.m b ha

theorem gfMul_xor_left {c : RsCode} (hp : HasDegree c) {x y : Nat} (b : Nat) (hx : x < 2 ^ c.m) (hy : y < 2 ^ c.m) :
    gfMul c (x ^^^ y) b = gfMul c x b ^^^ gfMul c y b := gfMulBits_xor_left hp c.m b hx hy

theorem gfMul_xor_right (c : RsCode) (a x y : Nat) : gfMul c a (x ^^^ y) = gfMul c a x ^^^ gfMul c a y :=
  gfMulBits_xor_right c c.m a x y

/-- The product of two powers of alpha. -/
theorem PrimitiveCode.gfMul_powers {c : RsCode} (h : PrimitiveCode c) (i j : Nat) :
    gfMul c ((gfDouble c)^[i] 1) ((gfDouble c)^[j] 1) = (gfDouble c)^[i + j] 1 := by
  have hone : 1 < 2 ^ c.m := Nat.one_lt_two_pow (by have := h.1; omega)
  rw [gfMul_iterate h.hasDegree i _ hone, gfMul_one_left (iterate_gfDouble_lt h.hasDegree j hone), Function.iterate_add_apply]

theorem PrimitiveCode.gfMul_comm {c : RsCode} (h : PrimitiveCode c) {a b : Nat} (ha : a < 2 ^ c.m) (hb : b < 2 ^ c.m) :
    gfMul c a b = gfMul c b a := by
  rcases Nat.eq_zero_or_pos a with rfl | ha0
  · rw [gfMul_zero_left, gfMul_zero_right]
  rcases Nat.eq_zero_or_pos b with rfl | hb0
  · rw [gfMul_zero_left, gfMul_zero_right]
  obtain ⟨i, -, rfl⟩ := h.exists_log ha (by omega)
  obtain ⟨j, -, rfl⟩ := h.exists_log hb (by omega)
  rw [h.gfMul_powers, h.gfMul_powers, Nat.add_comm]

theorem PrimitiveCode.gfMul_assoc {c : RsCode} (h : PrimitiveCode c) {a b d : Nat} (ha : a < 2 ^ c.m) (hb : b < 2 ^ c.m)
    (hd : d < 2 ^ c.m) : gfMul c (gfMul c a b) d = gfMul c a (gfMul c b d) := by
  rcases Nat.eq_zero_or_pos a with rfl | ha0
  · simp only [gfMul_zero_left]
  rcases Nat.eq_zero_or_pos b with rfl | hb0
  · simp only [gfMul_zero_left, gfMul_zero_right]
  rcases Nat.eq_zero_or_pos d with rfl | hd0
  · simp only [gfMul_zero_right]
  obtain ⟨i, -, rfl⟩ := h.exists_log ha (by omega)
  obtain ⟨j, -, rfl⟩ := h.exists_log hb (by omega)
  obtain ⟨k, -, rfl⟩ := h.exists_log hd (by omega)
  simp only [h.gfMul_powers, Nat.add_assoc]

theorem PrimitiveCode.exists_inverse {c : RsCode} (h : PrimitiveCode c) {a : Nat} (ha : a < 2 ^ c.m) (h0 : a ≠ 0) :
    ∃ b, b < 2 ^ c.m ∧ gfMul c a b = 1 := by
  have hone : 1 < 2 ^ c.m := Nat.one_lt_two_pow (by have := h.1; omega)
  obtain ⟨k, hk, rfl⟩ := h.exists_log ha h0
  refine ⟨_, iterate_gfDouble_lt h.hasDegree (rsOrder c - k) hone, ?_⟩
  rw [h.gfMul_powers, show k + (rsOrder c - k) = rsOrder c by omega, h.order.1]

/-- A reading of the decoder's numbers in a field: XOR is the sum, `gfMul` the product, and only 0 reads as 0 among the elements.
Of the first factor of a product the reading asks that it is an element. -/
structure FieldModel (c : RsCode) (F : Type) [Field F] (φ : Nat → F) : Prop where
  zero : φ 0 = 0
  one : φ 1 = 1
  xor : ∀ a b, φ (a ^^^ b) = φ a + φ b
  mul : ∀ a b, a < 2 ^ c.m → φ (gfMul c a b) = φ a * φ b
  eq_zero : ∀ a, a < 2 ^ c.m → φ a = 0 → a = 0

/-- The numbers below 2^m are a field under XOR and `gfMul` when the polynomial is primitive (R330). -/
theorem PrimitiveCode.exists_fieldModel {c : RsCode} (h : PrimitiveCode c) :
    ∃ (F : Type) (inst : Field F) (φ : Nat → F), @FieldModel c F inst φ := by
  classical
  have hp := h.hasDegree
  have hpos : 0 < 2 ^ c.m := Nat.two_pow_pos _
  have hone : 1 < 2 ^ c.m := Nat.one_lt_two_pow (by have := h.1; omega)
  let F := { a : Nat // a < 2 ^ c.m }
  let : Zero F := ⟨⟨0, hpos⟩⟩
  let : One F := ⟨⟨1, hone⟩⟩
  let : Add F := ⟨fun a b => ⟨a.1 ^^^ b.1, xor_lt a.2 b.2⟩⟩
  let : Mul F := ⟨fun a b => ⟨gfMul c a.1 b.1, gfMul_lt hp b.1 a.2⟩⟩
  let : Neg F := ⟨fun a => a⟩
  have hinv : ∀ a : F, ∃ b : F, a ≠ 0 → a * b = 1 := by
    intro a
    by_cases h0 : a = 0
    · exact ⟨0, fun h1 => absurd h0 h1⟩
    · obtain ⟨b, hb, he⟩ := h.exists_inverse a.2 (fun e => h0 (Subtype.ext e))
      exact ⟨⟨b, hb⟩, fun _ => Subtype.ext he⟩
  let : Inv F := ⟨fun a => if a = 0 then 0 else (hinv a).choose⟩
  let inst : Field F := Field.ofMinimalAxioms F
    (fun a b d => Subtype.ext (Nat.xor_assoc a.1 b.1 d.1))
    (fun a => Subtype.ext (Nat.zero_xor a.1))
    (fun a => Subtype.ext (Nat.xor_self a.1))
    (fun a b d => Subtype.ext (h.gfMul_assoc a.2 b.2 d.2))
    (fun a b => Subtype.ext (h.gfMul_comm a.2 b.2))
    (fun a => Subtype.ext (gfMul_one_left a.2))
    (fun a ha => by
      change a * (if a = 0 then 0 else (hinv a).choose) = 1
      rw [if_neg ha]; exact (hinv a).choose_spec ha)
    (by change (if (0 : F) = 0 then (0 : F) else _) = 0; rw [if_pos rfl])
    (fun a b d => Subtype.ext (gfMul_xor_right c a.1 b.1 d.1))
    ⟨0, 1, fun e => by simpa using congrArg Subtype.val e⟩
  refine ⟨F, inst, fun a => ⟨a % 2 ^ c.m, Nat.mod_lt _ hpos⟩, ?_⟩
  refine ⟨Subtype.ext (Nat.zero_mod _), Subtype.ext (Nat.mod_eq_of_lt hone), fun a b => Subtype.ext Nat.xor_mod_two_pow, ?_, ?_⟩
  · intro a b ha
    refine Subtype.ext ?_
    change gfMul c a b % 2 ^ c.m = gfMul c (a % 2 ^ c.m) (b % 2 ^ c.m)
    rw [Nat.mod_eq_of_lt (gfMul_lt hp b ha), Nat.mod_eq_of_lt ha]
    exact gfMulBits_mod c c.m a b
  · intro a ha he
    have := congrArg Subtype.val he
    exact (Nat.mod_eq_of_lt ha).symm.trans this

end Sys2Proof.Machine
end

