-- ==== Sys2Proof/Laws/Decoder.lean ====
section
/-! SUPPORT. What the functions of the Reed-Solomon decoder compute, read in the field (R330, R331, R338): powers and inverses,
the value of a word, sums, products and values of polynomials, and the pairing of a polynomial with a sequence of power sums. -/

namespace Sys2Proof.Machine

open Polynomial

/-- Power sums of distinct elements, as many of them 0 as there are elements: every weight is 0. -/
theorem weights_eq_zero {F ι : Type} [Field F] [DecidableEq ι] (A : Finset ι) (X w : ι → F) (hX : Set.InjOn X A) (t : Nat)
    (ht : A.card ≤ t) (hs : ∀ i, i < t → ∑ l ∈ A, w l * X l ^ i = 0) : ∀ l ∈ A, w l = 0 := by
  intro j hj
  let Q : F[X] := ∏ k ∈ A.erase j, (Polynomial.X - C (X k))
  have hdeg : Q.natDegree < t := by
    have : Q.natDegree = (A.erase j).card := natDegree_prod_of_monic _ _ (fun k _ => monic_X_sub_C _) |>.trans (by simp)
    rw [this, Finset.card_erase_of_mem hj]
    have := Finset.card_pos.2 ⟨j, hj⟩; omega
  have h0 : ∑ l ∈ A, w l * Q.eval (X l) = 0 := by
    have : ∀ l ∈ A, w l * Q.eval (X l) = ∑ i ∈ Finset.range (Q.natDegree + 1), Q.coeff i * (w l * X l ^ i) := by
      intro l _
      rw [eval_eq_sum_range, Finset.mul_sum]
      exact Finset.sum_congr rfl (fun i _ => by ring)
    rw [Finset.sum_congr rfl this, Finset.sum_comm]
    refine Finset.sum_eq_zero (fun i hi => ?_)
    rw [← Finset.mul_sum, hs i (by have := Finset.mem_range.1 hi; omega), mul_zero]
  rw [Finset.sum_eq_single j] at h0
  · refine (mul_eq_zero.1 h0).resolve_right ?_
    simp only [Q, eval_prod, eval_sub, eval_X, eval_C]
    refine Finset.prod_ne_zero_iff.2 (fun k hk h => ?_)
    exact (Finset.mem_erase.1 hk).1 (hX (Finset.mem_erase.1 hk).2 hj (sub_eq_zero.1 h).symm)
  · intro k hk hkj
    have : Q.eval (X k) = 0 := by
      simp only [Q, eval_prod]
      exact Finset.prod_eq_zero (Finset.mem_erase.2 ⟨hkj, hk⟩) (by simp)
    rw [this, mul_zero]
  · exact fun h => absurd hj h

section Model

variable {c : RsCode} {F : Type} [Field F] {φ : Nat → F}

/-- Two elements that read alike are equal. -/
theorem FieldModel.inj (hφ : FieldModel c F φ) {a b : Nat} (ha : a < 2 ^ c.m) (hb : b < 2 ^ c.m) (h : φ a = φ b) : a = b := by
  have hs : φ b + φ b = 0 := by rw [← hφ.xor, Nat.xor_self, hφ.zero]
  have h0 : φ (a ^^^ b) = 0 := by rw [hφ.xor, h, hs]
  exact Nat.xor_eq_zero_iff.1 (hφ.eq_zero _ (xor_lt ha hb) h0)

/-- The field has characteristic 2. -/
theorem FieldModel.add_self (hφ : FieldModel c F φ) (x : F) : x + x = 0 := by
  have h : (1 : F) + 1 = 0 := by rw [← hφ.one, ← hφ.xor, Nat.xor_self, hφ.zero]
  have : x * (1 + 1) = 0 := by rw [h, mul_zero]
  rwa [mul_add, mul_one] at this

theorem FieldModel.charTwo (hφ : FieldModel c F φ) : CharP F 2 := by
  refine CharTwo.of_one_ne_zero_of_two_eq_zero one_ne_zero ?_
  rw [← one_add_one_eq_two]; exact hφ.add_self 1

theorem FieldModel.ne_zero (hφ : FieldModel c F φ) {a : Nat} (ha : a < 2 ^ c.m) (h0 : a ≠ 0) : φ a ≠ 0 :=
  fun h => h0 (hφ.eq_zero a ha h)

/-! ### Powers and inverses -/

theorem gfPowBits_lt (hp : HasDegree c) (k : Nat) : ∀ {a : Nat} (e : Nat), a < 2 ^ c.m → 1 < 2 ^ c.m →
    gfPowBits c k a e < 2 ^ c.m := by
  induction k with
  | zero => intro a e _ h1; exact h1
  | succ k ih =>
    intro a e ha h1
    refine gfMul_lt hp _ ?_
    split
    · exact ha
    · exact h1

theorem PrimitiveCode.one_lt (h : PrimitiveCode c) : 1 < 2 ^ c.m := Nat.one_lt_two_pow (by have := h.1; omega)

theorem PrimitiveCode.two_lt (h : PrimitiveCode c) : 2 < 2 ^ c.m := by have := h.rsOrder_pos; unfold rsOrder at this; omega

theorem gfPow_lt (h : PrimitiveCode c) {a : Nat} (e : Nat) (ha : a < 2 ^ c.m) : gfPow c a e < 2 ^ c.m :=
  gfPowBits_lt h.hasDegree c.m _ ha h.one_lt

theorem FieldModel.powBits (hφ : FieldModel c F φ) (h : PrimitiveCode c) (k : Nat) : ∀ (a e : Nat), a < 2 ^ c.m →
    φ (gfPowBits c k a e) = φ a ^ (e % 2 ^ k) := by
  induction k with
  | zero => intro a e _; simp [gfPowBits, hφ.one, Nat.mod_one]
  | succ k ih =>
    intro a e ha
    have hmod : e % 2 ^ (k + 1) = e % 2 + 2 * (e / 2 % 2 ^ k) := by rw [pow_succ', Nat.mod_mul]
    have hs : (if e % 2 = 1 then a else 1) < 2 ^ c.m := by split; exacts [ha, h.one_lt]
    simp only [gfPowBits]
    rw [hφ.mul _ _ hs, ih _ _ (gfMul_lt h.hasDegree a ha), hφ.mul _ _ ha, hmod, pow_add, pow_mul, ← pow_two]
    rcases Nat.mod_two_eq_zero_or_one e with he | he <;> simp [he, hφ.one]

/-- Multiplying by alpha is doubling. -/
theorem FieldModel.double (hφ : FieldModel c F φ) (h : PrimitiveCode c) {a : Nat} (ha : a < 2 ^ c.m) :
    φ (gfDouble c a) = φ 2 * φ a := by
  have hd : gfDouble c 1 = 2 := by
    unfold gfDouble
    have := h.two_lt
    have h4 : 2 ^ 2 ≤ 2 ^ c.m := Nat.pow_le_pow_right (by norm_num) h.1
    rw [if_neg (by omega)]
  have h1 := gfMul_iterate h.hasDegree 1 a h.one_lt
  rw [Function.iterate_one, hd, gfMul_one_left ha] at h1
  rw [← h1, hφ.mul _ _ h.two_lt]

theorem FieldModel.iterate (hφ : FieldModel c F φ) (h : PrimitiveCode c) (k : Nat) :
    φ ((gfDouble c)^[k] 1) = φ 2 ^ k := by
  induction k with
  | zero => simp [hφ.one]
  | succ k ih =>
    rw [Function.iterate_succ_apply', hφ.double h (iterate_gfDouble_lt h.hasDegree k h.one_lt), ih, pow_succ']

/-- alpha has order NN (R330). -/
theorem FieldModel.orderOf_alpha (hφ : FieldModel c F φ) (h : PrimitiveCode c) : orderOf (φ 2) = rsOrder c := by
  have hpos := h.rsOrder_pos
  rw [orderOf_eq_iff (by omega)]
  refine ⟨by rw [← hφ.iterate h, h.order.1, hφ.one], fun k hk h0 he => h.order.2 k h0 hk ?_⟩
  rw [← hφ.iterate h, ← hφ.one] at he
  exact hφ.inj (iterate_gfDouble_lt h.hasDegree k h.one_lt) h.one_lt he

/-- Every element but 0 has order dividing NN. -/
theorem FieldModel.pow_rsOrder (hφ : FieldModel c F φ) (h : PrimitiveCode c) {a : Nat} (ha : a < 2 ^ c.m) (h0 : a ≠ 0) :
    φ a ^ rsOrder c = 1 := by
  obtain ⟨k, -, rfl⟩ := h.exists_log ha h0
  rw [hφ.iterate h, ← pow_mul, Nat.mul_comm, pow_mul, ← hφ.orderOf_alpha h, pow_orderOf_eq_one, one_pow]

/-- `gfPow` is the power. -/
theorem FieldModel.gfPow_eq (hφ : FieldModel c F φ) (h : PrimitiveCode c) {a : Nat} (e : Nat) (ha : a < 2 ^ c.m) (h0 : a ≠ 0) :
    φ (gfPow c a e) = φ a ^ e := by
  have hpos := h.rsOrder_pos
  have hlt : e % rsOrder c < 2 ^ c.m := by
    have := Nat.mod_lt e (show 0 < rsOrder c by omega); unfold rsOrder at this ⊢; omega
  unfold gfPow
  rw [hφ.powBits h _ _ _ ha, Nat.mod_eq_of_lt hlt]
  conv_rhs => rw [← Nat.div_add_mod e (rsOrder c), pow_add, pow_mul, hφ.pow_rsOrder h ha h0, one_pow, one_mul]

theorem gfInv_lt (h : PrimitiveCode c) {a : Nat} (ha : a < 2 ^ c.m) : gfInv c a < 2 ^ c.m := by
  unfold gfInv
  split
  · exact Nat.two_pow_pos _
  · exact gfPow_lt h _ ha

/-- `gfInv` is the inverse, 0 for 0. -/
theorem FieldModel.gfInv_eq (hφ : FieldModel c F φ) (h : PrimitiveCode c) {a : Nat} (ha : a < 2 ^ c.m) : φ (gfInv c a) = (φ a)⁻¹ := by
  unfold gfInv
  split
  · rename_i h0; rw [h0, hφ.zero, inv_zero]
  · rename_i h0
    have hpos := h.rsOrder_pos
    rw [hφ.gfPow_eq h _ ha h0]
    refine eq_inv_of_mul_eq_one_left ?_
    rw [← pow_succ, show rsOrder c - 1 + 1 = rsOrder c by omega, hφ.pow_rsOrder h ha h0]

/-- `alphaPow` is the power of alpha. -/
theorem FieldModel.alphaPow_eq (hφ : FieldModel c F φ) (h : PrimitiveCode c) (e : Nat) : φ (alphaPow c e) = φ 2 ^ e :=
  hφ.gfPow_eq h e h.two_lt (by norm_num)

theorem alphaPow_lt (h : PrimitiveCode c) (e : Nat) : alphaPow c e < 2 ^ c.m := gfPow_lt h e h.two_lt

theorem FieldModel.alpha_ne_zero (hφ : FieldModel c F φ) (h : PrimitiveCode c) : φ 2 ≠ 0 := hφ.ne_zero h.two_lt (by norm_num)

/-- The locators of two positions of a code whose PRIM is prime to NN differ (R331). -/
theorem FieldModel.locator_inj (hφ : FieldModel c F φ) (h : PrimitiveCode c) (hg : Nat.gcd c.prim (rsOrder c) = 1) {n i j : Nat}
    (hn : n ≤ rsOrder c) (hi : i < n) (hj : j < n) (he : φ (locator c n i) = φ (locator c n j)) : i = j := by
  unfold locator at he
  rw [hφ.alphaPow_eq h, hφ.alphaPow_eq h, pow_mul, pow_mul] at he
  have ho : orderOf (φ 2 ^ c.prim) = rsOrder c := by
    have hc : (orderOf (φ 2)).Coprime c.prim := by rw [hφ.orderOf_alpha h, Nat.coprime_comm]; exact hg
    rw [hc.orderOf_pow, hφ.orderOf_alpha h]
  have := pow_injOn_Iio_orderOf (x := φ 2 ^ c.prim) (by rw [ho, Set.mem_Iio]; omega) (by rw [ho, Set.mem_Iio]; omega) he
  omega

/-! ### Words and polynomials -/

/-- All entries are elements of the field. -/
def Elements (c : RsCode) (p : List Nat) : Prop := ∀ x, x ∈ p → x < 2 ^ c.m

theorem Elements.getD {p : List Nat} (hp : Elements c p) (j : Nat) : p.getD j 0 < 2 ^ c.m := by
  rw [List.getD_eq_getElem?_getD]
  by_cases hj : j < p.length
  · rw [List.getElem?_eq_getElem hj]; exact hp _ (List.getElem_mem hj)
  · rw [List.getElem?_eq_none (by omega)]; exact Nat.two_pow_pos _

/-- The polynomial a list of coefficients stands for, lowest degree first. -/
noncomputable def toPoly (φ : Nat → F) (p : List Nat) : F[X] := p.foldr (fun a q => C (φ a) + X * q) 0

@[simp] theorem toPoly_nil : toPoly φ [] = 0 := rfl

@[simp] theorem toPoly_cons (a : Nat) (p : List Nat) : toPoly φ (a :: p) = C (φ a) + X * toPoly φ p := rfl

theorem Elements.add : ∀ {p q : List Nat}, Elements c p → Elements c q → Elements c (polyAdd p q)
  | [], q, _, hq => by simpa [polyAdd] using hq
  | a :: p, [], hp, _ => by simpa [polyAdd] using hp
  | a :: p, b :: q, hp, hq => by
    intro x hx
    simp only [polyAdd, List.mem_cons] at hx
    rcases hx with rfl | hx
    · exact xor_lt (hp a (by simp)) (hq b (by simp))
    · exact Elements.add (p := p) (q := q) (fun y hy => hp y (by simp [hy])) (fun y hy => hq y (by simp [hy])) x hx

theorem Elements.scale (h : HasDegree c) {k : Nat} {p : List Nat} (hk : k < 2 ^ c.m) : Elements c (polyScale c k p) := by
  intro x hx
  obtain ⟨a, -, rfl⟩ := List.mem_map.1 hx
  exact gfMul_lt h a hk

theorem FieldModel.toPoly_add (hφ : FieldModel c F φ) : ∀ p q : List Nat, toPoly φ (polyAdd p q) = toPoly φ p + toPoly φ q
  | [], q => by simp [polyAdd]
  | a :: p, [] => by simp [polyAdd]
  | a :: p, b :: q => by simp only [polyAdd, toPoly_cons, hφ.toPoly_add p q, hφ.xor, map_add]; ring

theorem FieldModel.toPoly_scale (hφ : FieldModel c F φ) {k : Nat} (hk : k < 2 ^ c.m) (p : List Nat) :
    toPoly φ (polyScale c k p) = C (φ k) * toPoly φ p := by
  induction p with
  | nil => simp [polyScale]
  | cons a p ih =>
    have e : polyScale c k (a :: p) = gfMul c k a :: polyScale c k p := rfl
    rw [e, toPoly_cons, ih, hφ.mul _ _ hk, toPoly_cons, map_mul]; ring

theorem polyAt_lt (h : HasDegree c) {p : List Nat} (x : Nat) (hp : Elements c p) : polyAt c p x < 2 ^ c.m := by
  induction p with
  | nil => exact Nat.two_pow_pos _
  | cons a p ih => exact xor_lt (hp a (by simp)) (gfMul_lt h x (ih (fun y hy => hp y (by simp [hy]))))

/-- `polyAt` is the polynomial's value. -/
theorem FieldModel.polyAt_eq (hφ : FieldModel c F φ) (h : HasDegree c) {p : List Nat} (x : Nat) (hp : Elements c p) :
    φ (polyAt c p x) = (toPoly φ p).eval (φ x) := by
  induction p with
  | nil => simp [polyAt, hφ.zero]
  | cons a p ih =>
    have hq : Elements c p := fun y hy => hp y (by simp [hy])
    have e : polyAt c (a :: p) x = a ^^^ gfMul c (polyAt c p x) x := rfl
    rw [e, hφ.xor, hφ.mul _ _ (polyAt_lt h x hq), ih hq]
    simp [mul_comm]

theorem Elements.roots (h : PrimitiveCode c) {xs : List Nat} (hxs : Elements c xs) : Elements c (rootsPoly c xs) := by
  induction xs with
  | nil => intro x hx; rw [List.mem_singleton.1 hx]; exact h.one_lt
  | cons a xs ih =>
    refine Elements.add (Elements.scale h.hasDegree (hxs a (by simp))) ?_
    intro x hx
    rcases List.mem_cons.1 hx with rfl | hx
    · exact Nat.two_pow_pos _
    · exact ih (fun y hy => hxs y (by simp [hy])) x hx

/-- `rootsPoly` is the product of the X + x. -/
theorem FieldModel.toPoly_roots (hφ : FieldModel c F φ) {xs : List Nat} (hxs : Elements c xs) :
    toPoly φ (rootsPoly c xs) = (xs.map (fun x => X + C (φ x))).prod := by
  induction xs with
  | nil => simp [rootsPoly, hφ.one]
  | cons a xs ih =>
    have e : rootsPoly c (a :: xs) = polyAdd (polyScale c a (rootsPoly c xs)) (0 :: rootsPoly c xs) := rfl
    rw [e, hφ.toPoly_add, hφ.toPoly_scale (hxs a (by simp)), toPoly_cons, ih (fun y hy => hxs y (by simp [hy])), hφ.zero,
      List.map_cons, List.prod_cons]
    simp only [map_zero, zero_add]; ring

theorem length_polyAdd : ∀ p q : List Nat, (polyAdd p q).length = max p.length q.length
  | [], q => by simp [polyAdd]
  | a :: p, [] => by simp [polyAdd]
  | a :: p, b :: q => by simp only [polyAdd, List.length_cons, length_polyAdd p q]; omega

theorem length_rootsPoly (xs : List Nat) : (rootsPoly c xs).length = xs.length + 1 := by
  induction xs with
  | nil => rfl
  | cons a xs ih =>
    have e : rootsPoly c (a :: xs) = polyAdd (polyScale c a (rootsPoly c xs)) (0 :: rootsPoly c xs) := rfl
    rw [e, length_polyAdd]
    simp [polyScale, ih]

theorem natDegree_toPoly : ∀ p : List Nat, (toPoly φ p).natDegree ≤ p.length - 1
  | [] => by simp
  | [a] => by simp
  | a :: b :: p => by
    have ih := natDegree_toPoly (b :: p)
    rw [toPoly_cons]
    refine (natDegree_add_le _ _).trans (max_le (by simp) (natDegree_mul_le.trans ?_))
    simp at ih ⊢; omega

/-- A list of coefficients that ends with 1 is not the polynomial 0. -/
theorem FieldModel.toPoly_ne_zero (hφ : FieldModel c F φ) : ∀ p : List Nat, p.getLast? = some 1 → toPoly φ p ≠ 0
  | [], h => by simp at h
  | [a], h => by
    have : a = 1 := by simpa using h
    rw [this]; simp [hφ.one]
  | a :: b :: p, h => by
    rw [List.getLast?_cons_cons] at h
    intro h0
    refine hφ.toPoly_ne_zero (b :: p) h ?_
    ext k
    have := congrArg (fun q => coeff q (k + 1)) h0
    simpa [coeff_C] using this

/-! ### Pairing -/

theorem pairing_cons (a s : Nat) (p seq : List Nat) : pairing c (a :: p) (s :: seq) = gfMul c a s ^^^ pairing c p seq := rfl

theorem pairing_lt (h : HasDegree c) : ∀ {p : List Nat} (seq : List Nat), Elements c p → pairing c p seq < 2 ^ c.m
  | [], seq, _ => Nat.two_pow_pos _
  | _ :: _, [], _ => Nat.two_pow_pos _
  | a :: p, s :: seq, hp => by
    rw [pairing_cons]
    exact xor_lt (gfMul_lt h s (hp a (by simp))) (pairing_lt h seq (fun y hy => hp y (by simp [hy])))

/-- A polynomial paired with a sequence of power sums of the X l with weights w l is the sum of its weighted values. -/
theorem FieldModel.pairing_sums (hφ : FieldModel c F φ) {ι : Type} (L : Finset ι) (X : ι → F) :
    ∀ (p seq : List Nat) (w : ι → F), Elements c p → p.length ≤ seq.length →
      (∀ i, i < seq.length → φ (seq.getD i 0) = ∑ l ∈ L, w l * X l ^ i) →
      φ (pairing c p seq) = ∑ l ∈ L, w l * (toPoly φ p).eval (X l)
  | [], seq, w, _, _, _ => by simp [pairing, hφ.zero]
  | a :: p, [], w, _, hlen, _ => by simp at hlen
  | a :: p, s :: seq, w, hp, hlen, hs => by
    have ih := hφ.pairing_sums L X p seq (fun l => w l * X l) (fun y hy => hp y (by simp [hy])) (by simpa using hlen)
      (fun i hi => by
        have := hs (i + 1) (by simpa using hi)
        rw [List.getD_cons_succ] at this
        rw [this]
        exact Finset.sum_congr rfl (fun l _ => by ring))
    have h0 := hs 0 (by simp)
    rw [List.getD_cons_zero] at h0
    rw [pairing_cons, hφ.xor, hφ.mul _ _ (hp a (by simp)), h0, ih, Finset.mul_sum, ← Finset.sum_add_distrib]
    refine Finset.sum_congr rfl (fun l _ => ?_)
    simp only [toPoly_cons, eval_add, eval_C, eval_mul, eval_X, pow_zero]; ring

/-- Pairing is additive in the polynomial. -/
theorem FieldModel.pairing_add (hφ : FieldModel c F φ) : ∀ (p q seq : List Nat), Elements c p → Elements c q →
    φ (pairing c (polyAdd p q) seq) = φ (pairing c p seq) + φ (pairing c q seq)
  | [], q, seq, _, _ => by simp [polyAdd, pairing, hφ.zero]
  | a :: p, [], seq, _, _ => by simp [polyAdd, pairing, hφ.zero]
  | a :: p, b :: q, [], _, _ => by simp [polyAdd, pairing, hφ.zero]
  | a :: p, b :: q, s :: seq, hp, hq => by
    have ih := hφ.pairing_add p q seq (fun y hy => hp y (by simp [hy])) (fun y hy => hq y (by simp [hy]))
    have ha := hp a (by simp)
    have hb := hq b (by simp)
    simp only [polyAdd, pairing_cons, hφ.xor, ih, hφ.mul _ _ ha, hφ.mul _ _ hb, hφ.mul _ _ (xor_lt ha hb)]
    ring

theorem FieldModel.pairing_scale (hφ : FieldModel c F φ) (h : HasDegree c) {k : Nat} (hk : k < 2 ^ c.m) :
    ∀ (p seq : List Nat), Elements c p → φ (pairing c (polyScale c k p) seq) = φ k * φ (pairing c p seq)
  | [], seq, _ => by simp [polyScale, pairing, hφ.zero]
  | a :: p, [], _ => by simp [polyScale, pairing, hφ.zero]
  | a :: p, s :: seq, hp => by
    have ih := hφ.pairing_scale h hk p seq (fun y hy => hp y (by simp [hy]))
    have e : polyScale c k (a :: p) = gfMul c k a :: polyScale c k p := rfl
    rw [e, pairing_cons, pairing_cons, hφ.xor, hφ.xor, ih, hφ.mul _ _ (gfMul_lt h a hk), hφ.mul _ _ hk,
      hφ.mul _ _ (hp a (by simp))]
    ring

/-! ### Elimination -/

/-- A list of polynomials of strictly growing length, each with last coefficient 1: none is 0, and no two have the same degree. -/
def Staircase (c : RsCode) (ps : List (List Nat)) : Prop :=
  (∀ p, p ∈ ps → Elements c p ∧ p.getLast? = some 1) ∧ ps.Pairwise (fun p q => p.length < q.length)

theorem getLast?_polyAdd : ∀ (q p : List Nat), p.length < q.length → (polyAdd q p).getLast? = q.getLast?
  | [], p, h => by simp at h
  | b :: q, [], _ => by simp [polyAdd]
  | [b], a :: p, h => by simp at h
  | b :: b' :: q, a :: p, h => by
    have ih := getLast?_polyAdd (b' :: q) p (by simpa using h)
    have hne : polyAdd (b' :: q) p ≠ [] := by
      intro h0; have := length_polyAdd (b' :: q) p; rw [h0] at this; simp at this; omega
    have e : polyAdd (b :: b' :: q) (a :: p) = (b ^^^ a) :: polyAdd (b' :: q) p := rfl
    obtain ⟨x, xs, hx⟩ := List.exists_cons_of_ne_nil hne
    rw [e, hx, List.getLast?_cons_cons, ← hx, ih, List.getLast?_cons_cons]

/-- What one elimination step answers: polynomials of a staircase again, at most one fewer, in degrees that were there, each
vanishing on the sequence and on every other on which all the given ones vanish. -/
theorem FieldModel.eliminate_step (hφ : FieldModel c F φ) (h : PrimitiveCode c) (seq : List Nat) :
    ∀ ps : List (List Nat), Staircase c ps →
      Staircase c (eliminate c seq ps) ∧
      ps.length ≤ (eliminate c seq ps).length + 1 ∧
      (∀ p, p ∈ eliminate c seq ps → (∃ q, q ∈ ps ∧ p.length = q.length) ∧ pairing c p seq = 0 ∧
        ∀ other, (∀ q, q ∈ ps → pairing c q other = 0) → pairing c p other = 0)
  | [], hs => ⟨hs, by simp [eliminate], by simp [eliminate]⟩
  | p :: ps, hs => by
    have hp := hs.1 p (by simp)
    have hrest : Staircase c ps := ⟨fun q hq => hs.1 q (by simp [hq]), (List.pairwise_cons.1 hs.2).2⟩
    have hlt : ∀ q, q ∈ ps → p.length < q.length := (List.pairwise_cons.1 hs.2).1
    simp only [eliminate]
    by_cases h0 : pairing c p seq = 0
    · rw [if_pos h0]
      obtain ⟨i1, i2, i3⟩ := hφ.eliminate_step h seq ps hrest
      refine ⟨⟨?_, List.pairwise_cons.2 ⟨?_, i1.2⟩⟩, by simpa using i2, ?_⟩
      · intro q hq
        rcases List.mem_cons.1 hq with rfl | hq
        · exact hp
        · exact i1.1 q hq
      · intro q hq
        obtain ⟨⟨q', hq', he⟩, -⟩ := i3 q hq
        rw [he]; exact hlt q' hq'
      · intro q hq
        rcases List.mem_cons.1 hq with rfl | hq
        · exact ⟨⟨q, by simp, rfl⟩, h0, fun o ho => ho q (by simp)⟩
        · obtain ⟨⟨q', hq', he⟩, h1, h2⟩ := i3 q hq
          exact ⟨⟨q', by simp [hq'], he⟩, h1, fun o ho => h2 o (fun x hx => ho x (by simp [hx]))⟩
    · rw [if_neg h0]
      have hd : pairing c p seq < 2 ^ c.m := pairing_lt h.hasDegree seq hp.1
      have key : ∀ q, q ∈ ps → let k := gfMul c (pairing c q seq) (gfInv c (pairing c p seq))
          k < 2 ^ c.m ∧ Elements c (polyAdd q (polyScale c k p)) ∧
          (polyAdd q (polyScale c k p)).length = q.length ∧
          ∀ o, φ (pairing c (polyAdd q (polyScale c k p)) o) =
            φ (pairing c q o) + φ k * φ (pairing c p o) := by
        intro q hq k
        have hqe := (hs.1 q (by simp [hq])).1
        have hk : k < 2 ^ c.m := gfMul_lt h.hasDegree _ (pairing_lt h.hasDegree seq hqe)
        have hsc : Elements c (polyScale c k p) := Elements.scale h.hasDegree hk
        refine ⟨hk, Elements.add hqe hsc, ?_, fun o => ?_⟩
        · have := hlt q hq
          rw [length_polyAdd]; simp [polyScale]; omega
        · rw [hφ.pairing_add _ _ _ hqe hsc, hφ.pairing_scale h.hasDegree hk _ _ hp.1]
      have zero : ∀ q, q ∈ ps → ∀ o, let k := gfMul c (pairing c q seq) (gfInv c (pairing c p seq))
          φ (pairing c q o) + φ k * φ (pairing c p o) = 0 →
          pairing c (polyAdd q (polyScale c k p)) o = 0 := by
        intro q hq o k hz
        obtain ⟨-, k2, -, k4⟩ := key q hq
        refine hφ.eq_zero _ (pairing_lt h.hasDegree o k2) ?_
        rw [k4, hz]
      refine ⟨⟨?_, ?_⟩, by simp, ?_⟩
      · intro q' hq'
        obtain ⟨q, hq, rfl⟩ := List.mem_map.1 hq'
        refine ⟨(key q hq).2.1, ?_⟩
        rw [getLast?_polyAdd _ _ (by simpa [polyScale] using hlt q hq)]
        exact (hs.1 q (by simp [hq])).2
      · rw [List.pairwise_map]
        refine hrest.2.imp_of_mem (fun {a b} ha hb hab => ?_)
        rw [(key a ha).2.2.1, (key b hb).2.2.1]; exact hab
      · intro q' hq'
        obtain ⟨q, hq, rfl⟩ := List.mem_map.1 hq'
        refine ⟨⟨q, by simp [hq], (key q hq).2.2.1⟩, zero q hq seq ?_, fun o ho => zero q hq o ?_⟩
        · rw [hφ.mul _ _ (pairing_lt h.hasDegree seq (hs.1 q (by simp [hq])).1), hφ.gfInv_eq h hd, mul_assoc,
            inv_mul_cancel₀ (hφ.ne_zero hd h0), mul_one, hφ.add_self]
        · rw [ho q (by simp [hq]), ho p (by simp), hφ.zero, mul_zero, add_zero]

/-- Elimination by a list of sequences. -/
theorem FieldModel.eliminate_all (hφ : FieldModel c F φ) (h : PrimitiveCode c) :
    ∀ (seqs ps : List (List Nat)), Staircase c ps →
      let out := seqs.foldl (fun ps s => eliminate c s ps) ps
      Staircase c out ∧ ps.length ≤ out.length + seqs.length ∧
      ∀ p, p ∈ out → (∃ q, q ∈ ps ∧ p.length = q.length) ∧ (∀ s, s ∈ seqs → pairing c p s = 0) ∧
        ∀ o, (∀ q, q ∈ ps → pairing c q o = 0) → pairing c p o = 0
  | [], ps, hs => ⟨hs, by simp, fun p hp => ⟨⟨p, hp, rfl⟩, by simp, fun o ho => ho p hp⟩⟩
  | s :: seqs, ps, hs => by
    obtain ⟨a1, a2, a3⟩ := hφ.eliminate_step h s ps hs
    obtain ⟨b1, b2, b3⟩ := hφ.eliminate_all h seqs _ a1
    refine ⟨b1, by simp only [List.length_cons, List.foldl_cons] at b2 ⊢; omega, fun p hp => ?_⟩
    obtain ⟨⟨q, hq, he⟩, h2, h3⟩ := b3 p hp
    obtain ⟨⟨q', hq', he'⟩, -, -⟩ := a3 q hq
    refine ⟨⟨q', hq', he.trans he'⟩, ?_, fun o ho => h3 o (fun r hr => (a3 r hr).2.2 o ho)⟩
    intro s' hs'
    rcases List.mem_cons.1 hs' with rfl | hs'
    · exact h3 s' (fun r hr => (a3 r hr).2.1)
    · exact h2 s' hs'

/-- The annihilator is not 0, has degree at most t, and vanishes on the first t shifts of the sequence. -/
theorem FieldModel.annihilator_spec (hφ : FieldModel c F φ) (h : PrimitiveCode c) (t : Nat) (seq : List Nat) :
    let p := annihilator c t seq
    Elements c p ∧ p.getLast? = some 1 ∧ p.length ≤ t + 1 ∧ ∀ i, i < t → pairing c p (seq.drop i) = 0 := by
  have hs : Staircase c ((List.range (t + 1)).map (fun k => List.replicate k 0 ++ [1])) := by
    refine ⟨?_, ?_⟩
    · intro p hp
      obtain ⟨k, -, rfl⟩ := List.mem_map.1 hp
      refine ⟨?_, by simp⟩
      intro x hx
      rcases List.mem_append.1 hx with hx | hx
      · rw [(List.mem_replicate.1 hx).2]; exact Nat.two_pow_pos _
      · rw [List.mem_singleton.1 hx]; exact h.one_lt
    · rw [List.pairwise_map]
      exact List.pairwise_lt_range.imp (fun {a b} hab => by simpa using hab)
  obtain ⟨h1, h2, h3⟩ := hφ.eliminate_all h ((List.range t).map seq.drop) _ hs
  have e : annihilator c t seq = (((List.range t).map seq.drop).foldl (fun ps s => eliminate c s ps)
      ((List.range (t + 1)).map (fun k => List.replicate k 0 ++ [1]))).headD [] := by
    unfold annihilator; rw [List.foldl_map]
  intro p
  have hp : p ∈ ((List.range t).map seq.drop).foldl (fun ps s => eliminate c s ps)
      ((List.range (t + 1)).map (fun k => List.replicate k 0 ++ [1])) := by
    simp only [p, e]
    revert h2
    generalize ((List.range t).map seq.drop).foldl (fun ps s => eliminate c s ps)
      ((List.range (t + 1)).map (fun k => List.replicate k 0 ++ [1])) = out
    intro h2
    cases out with
    | nil => simp at h2
    | cons a l => simp
  obtain ⟨⟨q, hq, he⟩, h4, -⟩ := h3 p hp
  obtain ⟨k, hk, rfl⟩ := List.mem_map.1 hq
  refine ⟨(h1.1 p hp).1, (h1.1 p hp).2, ?_, fun i hi => h4 _ (List.mem_map.2 ⟨i, List.mem_range.2 hi, rfl⟩)⟩
  rw [he]; simp; have := List.mem_range.1 hk; omega

/-! ### Values of words -/

/-- `wordAt` is the value of the polynomial whose highest coefficient is the first symbol (R331). -/
theorem FieldModel.wordAt_eq (hφ : FieldModel c F φ) (h : HasDegree c) (x : Nat) {r : List Nat} (hr : Elements c r) :
    wordAt c x r < 2 ^ c.m ∧ φ (wordAt c x r) = ∑ j ∈ Finset.range r.length, φ (r.getD j 0) * φ x ^ (r.length - 1 - j) := by
  induction r using List.reverseRecOn with
  | nil => exact ⟨Nat.two_pow_pos _, by simp [wordAt, hφ.zero]⟩
  | append_singleton r a ih =>
    obtain ⟨h1, h2⟩ := ih (fun y hy => hr y (by simp [hy]))
    have e : wordAt c x (r ++ [a]) = gfMul c (wordAt c x r) x ^^^ a := by
      unfold wordAt; rw [List.foldl_append]; rfl
    refine ⟨by rw [e]; exact xor_lt (gfMul_lt h x h1) (hr a (by simp)), ?_⟩
    rw [e, hφ.xor, hφ.mul _ _ h1, h2, List.length_append, List.length_singleton, Finset.sum_range_succ, Finset.sum_mul]
    congr 1
    · refine Finset.sum_congr rfl (fun j hj => ?_)
      have hj := Finset.mem_range.1 hj
      rw [List.getD_append _ _ _ _ hj, show r.length + 1 - 1 - j = (r.length - 1 - j) + 1 by omega, pow_succ, mul_assoc]
    · simp

end Model

end Sys2Proof.Machine
end

