-- ==== Sys2Proof/Laws/Float64.lean ====
section
/-! SUPPORT. What binary64 arithmetic does on values: the value of a finite pattern as an integer, how far a rounding and a sum are
from exact, what the comparisons decide, and the bound of SIN. -/

namespace Sys2Proof.Machine

/-- A finite number as an integer count of the least subnormal, 2^-1074; 0 for a NaN or an infinity. -/
def fixed (x : F64) : Int :=
  match unpack x with
  | .fin neg m e => scaled neg m e (-1074)
  | _ => 0

/-- The pattern is neither a NaN nor an infinity. -/
def isFinite (x : F64) : Bool :=
  match unpack x with
  | .fin _ _ _ => true
  | _ => false

/-- The magnitude that the 63 bits below the sign stand for, counted in least subnormals. -/
def magnitudeOf (bits : Nat) : Nat :=
  if bits < 2 ^ 52 then bits else (2 ^ 52 + bits % 2 ^ 52) * 2 ^ (bits / 2 ^ 52 - 1)

/-- A larger pattern of those bits is a larger magnitude. -/
theorem magnitudeOf_strictMono : StrictMono magnitudeOf := by
  apply strictMono_nat_of_lt_succ
  intro n
  unfold magnitudeOf
  have hn : 2 ^ 52 * (n / 2 ^ 52) + n % 2 ^ 52 = n := Nat.div_add_mod n (2 ^ 52)
  have hr : n % 2 ^ 52 < 2 ^ 52 := Nat.mod_lt _ (by norm_num)
  by_cases h1 : n + 1 < 2 ^ 52
  · rw [if_pos h1, if_pos (by omega)]; omega
  · rw [if_neg h1]
    by_cases h2 : n < 2 ^ 52
    · have : n + 1 = 2 ^ 52 := by omega
      rw [if_pos h2, this]; norm_num; omega
    · rw [if_neg h2]
      have hpos : 0 < 2 ^ (n / 2 ^ 52 - 1) := Nat.two_pow_pos _
      by_cases h3 : n % 2 ^ 52 + 1 < 2 ^ 52
      · have e1 : (n + 1) / 2 ^ 52 = n / 2 ^ 52 := by omega
        have e2 : (n + 1) % 2 ^ 52 = n % 2 ^ 52 + 1 := by omega
        rw [e1, e2]
        exact Nat.mul_lt_mul_of_pos_right (by omega) hpos
      · have e1 : (n + 1) / 2 ^ 52 = n / 2 ^ 52 + 1 := by omega
        have e2 : (n + 1) % 2 ^ 52 = 0 := by omega
        obtain ⟨j, hj⟩ : ∃ j, n / 2 ^ 52 = j + 1 := ⟨n / 2 ^ 52 - 1, by omega⟩
        rw [e1, e2, hj, Nat.add_sub_cancel, Nat.add_sub_cancel, Nat.add_zero, pow_succ 2 j, Nat.mul_comm (2 ^ j) 2,
          ← Nat.mul_assoc]
        exact Nat.mul_lt_mul_of_pos_right (by omega) (Nat.two_pow_pos _)

/-- The value of a pattern whose exponent field is below 2047, from its sign and the bits below it. -/
theorem fixed_of_bits (x : F64) (h : x.toNat % 2 ^ 63 < 2047 * 2 ^ 52) :
    fixed x = (if 2 ^ 63 ≤ x.toNat then -(magnitudeOf (x.toNat % 2 ^ 63) : Int) else magnitudeOf (x.toNat % 2 ^ 63)) ∧
    isFinite x = true := by
  have hlt := x.isLt
  have e1 : x.toNat / 2 ^ 52 % 2048 = x.toNat % 2 ^ 63 / 2 ^ 52 := by omega
  have e2 : x.toNat % 2 ^ 52 = x.toNat % 2 ^ 63 % 2 ^ 52 := by omega
  unfold fixed isFinite unpack
  simp only [e1, e2]
  generalize hb : x.toNat % 2 ^ 63 = b at *
  have h0 : ¬ (b / 2 ^ 52 = 2047) := by omega
  rw [if_neg h0]
  unfold magnitudeOf
  by_cases h1 : b / 2 ^ 52 = 0
  · rw [if_pos h1]
    have h2 : b < 2 ^ 52 := by omega
    rw [if_pos h2]
    have h3 : b % 2 ^ 52 = b := by omega
    rw [h3]; simp [scaled]
  · rw [if_neg h1]
    have h2 : ¬ b < 2 ^ 52 := by omega
    rw [if_neg h2]
    have h3 : (((b / 2 ^ 52 : Nat) : Int) - 1075 - (-1074)).toNat = b / 2 ^ 52 - 1 := by omega
    simp only [scaled]
    rw [h3]
    simp


/-- A packed number below infinity stands for t * 2^q. -/
theorem fixed_packExact (neg : Bool) (t : Nat) (q : Int) (ht : t ≤ 2 ^ 53)
    (hn : q = -1074 ∨ 2 ^ 52 ≤ t) (hi : (q + 1074).toNat * 2 ^ 52 + t < 2047 * 2 ^ 52) :
    fixed (packExact neg t q) = (if neg then -((t * 2 ^ (q + 1074).toNat : Nat) : Int) else (t * 2 ^ (q + 1074).toNat : Nat)) ∧
    isFinite (packExact neg t q) = true := by
  unfold packExact
  generalize hk : (q + 1074).toNat = k at *
  simp only
  rw [if_neg (by omega)]
  have hmag : magnitudeOf (k * 2 ^ 52 + t) = t * 2 ^ k := by
    unfold magnitudeOf
    by_cases h1 : k * 2 ^ 52 + t < 2 ^ 52
    · rw [if_pos h1]
      have : k = 0 := by omega
      subst this; simp
    · rw [if_neg h1]
      by_cases h2 : t = 2 ^ 53
      · have e1 : (k * 2 ^ 52 + t) / 2 ^ 52 = k + 2 := by omega
        have e2 : (k * 2 ^ 52 + t) % 2 ^ 52 = 0 := by omega
        rw [e1, e2, h2, show k + 2 - 1 = k + 1 by omega, pow_succ 2 k]
        rw [Nat.add_zero, Nat.mul_comm (2 ^ k) 2, ← Nat.mul_assoc]; norm_num
      · have h3 : 2 ^ 52 ≤ t := by
          rcases hn with h | h
          · have : k = 0 := by omega
            omega
          · exact h
        have e1 : (k * 2 ^ 52 + t) / 2 ^ 52 = k + 1 := by omega
        have e2 : (k * 2 ^ 52 + t) % 2 ^ 52 = t - 2 ^ 52 := by omega
        rw [e1, e2, Nat.add_sub_cancel, show 2 ^ 52 + (t - 2 ^ 52) = t by omega]
  generalize hb : k * 2 ^ 52 + t = b at *
  cases neg
  · show fixed (BitVec.ofNat 64 (0 + b)) = ((t * 2 ^ k : Nat) : Int) ∧ isFinite (BitVec.ofNat 64 (0 + b)) = true
    rw [Nat.zero_add]
    have hx : (BitVec.ofNat 64 b).toNat = b := by rw [BitVec.toNat_ofNat]; omega
    have := fixed_of_bits (BitVec.ofNat 64 b) (by rw [hx]; omega)
    rw [hx, if_neg (by omega), Nat.mod_eq_of_lt (by omega : b < 2 ^ 63), hmag] at this
    exact this
  · show fixed (BitVec.ofNat 64 (2 ^ 63 + b)) = -((t * 2 ^ k : Nat) : Int) ∧ isFinite (BitVec.ofNat 64 (2 ^ 63 + b)) = true
    have hx : (BitVec.ofNat 64 (2 ^ 63 + b)).toNat = 2 ^ 63 + b := by rw [BitVec.toNat_ofNat]; omega
    have := fixed_of_bits (BitVec.ofNat 64 (2 ^ 63 + b)) (by rw [hx]; omega)
    rw [hx, if_pos (by omega), show (2 ^ 63 + b) % 2 ^ 63 = b by omega, hmag] at this
    exact this

/-- Rounding a quotient to nearest is off by at most half a unit. -/
theorem shiftRne_error (m sh : Nat) :
    2 * (shiftRne m sh * 2 ^ sh) ≤ 2 * m + 2 ^ sh ∧ 2 * m ≤ 2 * (shiftRne m sh * 2 ^ sh) + 2 ^ sh := by
  have h := Nat.div_add_mod m (2 ^ sh)
  have hr : m % 2 ^ sh < 2 ^ sh := Nat.mod_lt _ (Nat.two_pow_pos _)
  unfold shiftRne
  simp only
  generalize m / 2 ^ sh = t at *
  generalize m % 2 ^ sh = r at *
  generalize 2 ^ sh = d at *
  split
  · rename_i hc
    have : (t + 1) * d = d * t + d := by ring
    rw [this]; omega
  · rename_i hc
    have : t * d = d * t := by ring
    rw [this]; omega

/-- Rounding keeps a quotient between the powers of two it lies between. -/
theorem shiftRne_bounds (m sh lo hi : Nat) (h1 : lo * 2 ^ sh ≤ m) (h2 : m < hi * 2 ^ sh) :
    lo ≤ shiftRne m sh ∧ shiftRne m sh ≤ hi := by
  have a : lo ≤ m / 2 ^ sh := (Nat.le_div_iff_mul_le (Nat.two_pow_pos _)).2 h1
  have b : m / 2 ^ sh < hi := (Nat.div_lt_iff_lt_mul (Nat.two_pow_pos _)).2 h2
  unfold shiftRne
  simp only
  split <;> omega

/-- What rounding to binary64 gives, for a number m * 2^e below 2^1023: it is finite, its sign is the given one, and it is off by
at most one part in 2^53. -/
theorem fixed_roundPack (neg : Bool) (m : Nat) (e : Int) (he : -1074 ≤ e) (hm : m * 2 ^ (e + 1074).toNat < 2 ^ 2097) :
    ∃ r : Nat, fixed (roundPack neg m e) = (if neg then -(r : Int) else r) ∧ isFinite (roundPack neg m e) = true ∧
      2 ^ 53 * r ≤ 2 ^ 53 * (m * 2 ^ (e + 1074).toNat) + m * 2 ^ (e + 1074).toNat ∧
      2 ^ 53 * (m * 2 ^ (e + 1074).toNat) ≤ 2 ^ 53 * r + m * 2 ^ (e + 1074).toNat := by
  by_cases h0 : m = 0
  · subst h0
    refine ⟨0, ?_⟩
    cases neg <;> simp [roundPack, signedZero] <;> decide
  · obtain ⟨a, ha⟩ : ∃ a : Nat, e = (a : Int) - 1074 := ⟨(e + 1074).toNat, by omega⟩
    have hea : (e + 1074).toNat = a := by omega
    rw [hea] at hm ⊢
    have hl1 : 2 ^ Nat.log2 m ≤ m := Nat.log2_self_le h0
    have hl2 : m < 2 ^ (Nat.log2 m + 1) := Nat.lt_log2_self
    unfold roundPack
    rw [if_neg h0]
    simp only
    generalize Nat.log2 m = l at *
    have below : ∀ n, m * 2 ^ a < 2 ^ n → l + a < n := by
      intro n hn
      have h2 : 2 ^ l * 2 ^ a ≤ m * 2 ^ a := Nat.mul_le_mul_right _ hl1
      rw [← pow_add] at h2
      exact (Nat.pow_lt_pow_iff_right Nat.one_lt_two).1 (Nat.lt_of_le_of_lt h2 hn)
    have hla := below 2097 hm
    by_cases hq : max (e + (l : Int) - 52) (-1074) ≤ e
    · rw [if_pos hq]
      generalize hqd : max (e + (l : Int) - 52) (-1074) = q at *
      obtain ⟨d, k, hd, hk, hdk⟩ : ∃ d k : Nat, (e - q).toNat = d ∧ (q + 1074).toNat = k ∧ d + k = a :=
        ⟨_, _, rfl, rfl, by omega⟩
      have hd52 : d + l ≤ 52 := by omega
      have ht : m * 2 ^ d < 2 ^ 53 := by
        calc m * 2 ^ d < 2 ^ (l + 1) * 2 ^ d := Nat.mul_lt_mul_of_pos_right hl2 (Nat.two_pow_pos _)
          _ = 2 ^ (l + 1 + d) := (pow_add _ _ _).symm
          _ ≤ 2 ^ 53 := Nat.pow_le_pow_right (by norm_num) (by omega)
      have ht2 : q = -1074 ∨ 2 ^ 52 ≤ m * 2 ^ d := by
        by_cases h1 : q = -1074
        · exact .inl h1
        · right
          have : l + d = 52 := by omega
          calc 2 ^ 52 = 2 ^ l * 2 ^ d := by rw [← pow_add, this]
            _ ≤ m * 2 ^ d := Nat.mul_le_mul_right _ hl1
      have hval : m * 2 ^ d * 2 ^ k = m * 2 ^ a := by rw [Nat.mul_assoc, ← pow_add, hdk]
      rw [hd]
      have h := fixed_packExact neg (m * 2 ^ d) q (by omega) ht2 (by rw [hk]; omega)
      rw [hk, hval] at h
      exact ⟨m * 2 ^ a, h.1, h.2, Nat.le_add_right _ _, Nat.le_add_right _ _⟩
    · rw [if_neg hq]
      generalize hqd : max (e + (l : Int) - 52) (-1074) = q at *
      obtain ⟨sh, k, hs, hk, hsk, hsl⟩ :
          ∃ sh k : Nat, (q - e).toNat = sh ∧ (q + 1074).toNat = k ∧ sh + a = k ∧ 52 + sh = l :=
        ⟨_, _, rfl, rfl, by omega, by omega⟩
      have hs2 : 2 ^ 52 * 2 ^ sh ≤ m := by rw [← pow_add, hsl]; exact hl1
      have hb := shiftRne_bounds m sh (2 ^ 52) (2 ^ 53) hs2
        (by rw [← pow_add]; exact lt_of_lt_of_le hl2 (Nat.pow_le_pow_right (by norm_num) (by omega)))
      have he2 := shiftRne_error m sh
      rw [hs]
      generalize shiftRne m sh = t at *
      have h := fixed_packExact neg t q hb.2 (.inr hb.1) (by rw [hk]; omega)
      rw [hk] at h
      have hk2 : t * 2 ^ k = t * 2 ^ sh * 2 ^ a := by rw [← hsk, pow_add, Nat.mul_assoc]
      rw [hk2] at h
      generalize t * 2 ^ sh = r at *
      refine ⟨r * 2 ^ a, h.1, h.2, ?_, ?_⟩
      · calc 2 ^ 53 * (r * 2 ^ a) = 2 ^ 53 * r * 2 ^ a := by rw [Nat.mul_assoc]
          _ ≤ (2 ^ 53 * m + m) * 2 ^ a := Nat.mul_le_mul_right _ (by omega)
          _ = 2 ^ 53 * (m * 2 ^ a) + m * 2 ^ a := by rw [Nat.add_mul, Nat.mul_assoc]
      · calc 2 ^ 53 * (m * 2 ^ a) = 2 ^ 53 * m * 2 ^ a := by rw [Nat.mul_assoc]
          _ ≤ (2 ^ 53 * r + m) * 2 ^ a := Nat.mul_le_mul_right _ (by omega)
          _ = 2 ^ 53 * (r * 2 ^ a) + m * 2 ^ a := by rw [Nat.add_mul, Nat.mul_assoc]

/-- The exponent of an unpacked number is at least -1074. -/
theorem unpack_exponent {x : F64} {neg : Bool} {m : Nat} {e : Int} (h : unpack x = .fin neg m e) : -1074 ≤ e := by
  unfold unpack at h
  simp only at h
  split at h
  · split at h <;> cases h
  · split at h
    · cases h; omega
    · cases h; omega

/-- A number scaled twice. -/
theorem scaled_shift (neg : Bool) (m : Nat) (e lo : Int) (h1 : lo ≤ e) (h2 : -1074 ≤ lo) :
    scaled neg m e (-1074) = scaled neg m e lo * 2 ^ (lo + 1074).toNat := by
  have : (e - -1074).toNat = (e - lo).toNat + (lo + 1074).toNat := by omega
  unfold scaled
  simp only
  rw [this, pow_add, ← Nat.mul_assoc]
  split <;> push_cast <;> ring

/-- What a sum of two finite numbers is, while it stays below 2^1023 in magnitude: finite, of the exact sum's sign, and off by at
most one part in 2^53 of it. -/
theorem fixed_fadd (x y : F64) (hx : isFinite x = true) (hy : isFinite y = true)
    (h : (fixed x + fixed y).natAbs < 2 ^ 2097) :
    isFinite (fadd x y) = true ∧
    2 ^ 53 * (fixed (fadd x y) - (fixed x + fixed y)).natAbs ≤ (fixed x + fixed y).natAbs := by
  unfold isFinite fixed fadd at *
  cases hux : unpack x with
  | nan => simp [hux] at hx
  | inf a => simp [hux] at hx
  | fin a m e =>
    cases huy : unpack y with
    | nan => simp [huy] at hy
    | inf b => simp [huy] at hy
    | fin b n f =>
      have he := unpack_exponent hux
      have hf := unpack_exponent huy
      simp only [hux, huy] at h ⊢
      rw [scaled_shift a m e (min e f) (by omega) (by omega), scaled_shift b n f (min e f) (by omega) (by omega),
        ← Int.add_mul] at h ⊢
      generalize scaled a m e (min e f) + scaled b n f (min e f) = sum at *
      generalize hlo : min e f = lo at *
      by_cases h0 : sum = 0
      · subst h0
        rw [if_pos rfl]
        rw [Int.zero_mul]
        cases a <;> cases b <;> decide
      · rw [if_neg h0]
        rw [Int.natAbs_mul, Int.natAbs_pow, show (2 : Int).natAbs = 2 from rfl] at h ⊢
        obtain ⟨r, h1, h2, h3, h4⟩ := fixed_roundPack (decide (sum < 0)) sum.natAbs lo (by omega) h
        refine ⟨h2, ?_⟩
        change 2 ^ 53 * (fixed _ - _).natAbs ≤ _
        rw [h1]
        have hs : sum * 2 ^ (lo + 1074).toNat =
            if sum < 0 then -((sum.natAbs * 2 ^ (lo + 1074).toNat : Nat) : Int)
            else (sum.natAbs * 2 ^ (lo + 1074).toNat : Nat) := by
          push_cast
          split
          · rw [abs_of_neg (by assumption)]; ring
          · rw [abs_of_nonneg (by omega)]
        rw [hs]
        generalize sum.natAbs * 2 ^ (lo + 1074).toNat = x at *
        by_cases hneg : sum < 0
        · simp only [hneg, decide_true, if_true]; omega
        · simp only [hneg, decide_false, if_false, Bool.false_eq_true]; omega

/-- A finite pattern has an exponent field below 2047. -/
theorem bits_of_isFinite {x : F64} (h : isFinite x = true) : x.toNat % 2 ^ 63 < 2047 * 2 ^ 52 := by
  have hlt := x.isLt
  unfold isFinite unpack at h
  simp only at h
  by_cases h0 : x.toNat / 2 ^ 52 % 2048 = 2047
  · rw [if_pos h0] at h
    split at h
    · rename_i heq; split at heq <;> cases heq
    · cases h
  · omega

/-- The order of finite numbers is that of their values. -/
theorem orderKey_lt_iff {x y : F64} (hx : isFinite x = true) (hy : isFinite y = true) :
    orderKey x < orderKey y ↔ fixed x < fixed y := by
  have bx := bits_of_isFinite hx
  have bY := bits_of_isFinite hy
  have lx := x.isLt
  have ly := y.isLt
  rw [(fixed_of_bits x bx).1, (fixed_of_bits y bY).1]
  unfold orderKey
  have m := magnitudeOf_strictMono.lt_iff_lt (a := x.toNat % 2 ^ 63) (b := y.toNat % 2 ^ 63)
  have m' := magnitudeOf_strictMono.lt_iff_lt (a := y.toNat % 2 ^ 63) (b := x.toNat % 2 ^ 63)
  have zx : magnitudeOf (x.toNat % 2 ^ 63) = 0 ↔ x.toNat % 2 ^ 63 = 0 := magnitudeOf_strictMono.injective.eq_iff' rfl
  have zy : magnitudeOf (y.toNat % 2 ^ 63) = 0 ↔ y.toNat % 2 ^ 63 = 0 := magnitudeOf_strictMono.injective.eq_iff' rfl
  generalize magnitudeOf (x.toNat % 2 ^ 63) = p at *
  generalize magnitudeOf (y.toNat % 2 ^ 63) = q at *
  split <;> split <;> omega

/-- What `<` decides of finite numbers. -/
theorem flt_iff {x y : F64} (hx : isFinite x = true) (hy : isFinite y = true) : flt x y = true ↔ fixed x < fixed y := by
  rw [← orderKey_lt_iff hx hy]
  unfold isFinite at hx hy
  unfold flt
  cases hux : unpack x <;> cases huy : unpack y <;> simp [hux, huy] at hx hy ⊢

/-- What `<=` decides of finite numbers. -/
theorem fle_iff {x y : F64} (hx : isFinite x = true) (hy : isFinite y = true) : fle x y = true ↔ fixed x ≤ fixed y := by
  rw [← not_lt, ← orderKey_lt_iff hy hx, not_lt]
  unfold isFinite at hx hy
  unfold fle
  cases hux : unpack x <;> cases huy : unpack y <;> simp [hux, huy] at hx hy ⊢

/-- Two finite numbers with the same value are the same pattern, but for the two zeros. -/
theorem eq_of_fixed_eq {x y : F64} (hx : isFinite x = true) (hy : isFinite y = true) (h : fixed x = fixed y)
    (h0 : fixed x ≠ 0) : x = y := by
  have bx := bits_of_isFinite hx
  have bY := bits_of_isFinite hy
  have lx := x.isLt
  have ly := y.isLt
  rw [(fixed_of_bits x bx).1] at h h0
  rw [(fixed_of_bits y bY).1] at h
  have m : magnitudeOf (x.toNat % 2 ^ 63) = magnitudeOf (y.toNat % 2 ^ 63) ↔ _ := magnitudeOf_strictMono.injective.eq_iff
  generalize magnitudeOf (x.toNat % 2 ^ 63) = p at *
  generalize magnitudeOf (y.toNat % 2 ^ 63) = q at *
  apply BitVec.eq_of_toNat_eq
  split at h <;> split at h <;> omega

/-- The two patterns whose value is 0. -/
theorem eq_zero_of_fixed {x : F64} (hx : isFinite x = true) (h : fixed x = 0) :
    x = 0#64 ∨ x = 0x8000000000000000#64 := by
  have bx := bits_of_isFinite hx
  have lx := x.isLt
  rw [(fixed_of_bits x bx).1] at h
  have zx : magnitudeOf (x.toNat % 2 ^ 63) = 0 ↔ x.toNat % 2 ^ 63 = 0 := magnitudeOf_strictMono.injective.eq_iff' rfl
  by_cases hs : 2 ^ 63 ≤ x.toNat
  · right; apply BitVec.eq_of_toNat_eq; rw [if_pos hs] at h; simp only [BitVec.toNat_ofNat]; omega
  · left; apply BitVec.eq_of_toNat_eq; rw [if_neg hs] at h; simp only [BitVec.toNat_ofNat]; omega

/-- The negation of a finite number has the opposite value. -/
theorem fixed_fneg {x : F64} (hx : isFinite x = true) : isFinite (fneg x) = true ∧ fixed (fneg x) = -fixed x := by
  have bx := bits_of_isFinite hx
  have lx := x.isLt
  have hf : fneg x = x ^^^ 0x8000000000000000#64 := by
    unfold isFinite at hx
    unfold fneg
    cases hux : unpack x <;> simp [hux] at hx ⊢
  have hn : (x ^^^ 0x8000000000000000#64).toNat = if 2 ^ 63 ≤ x.toNat then x.toNat - 2 ^ 63 else x.toNat + 2 ^ 63 := by
    have h0 : (x ^^^ 0x8000000000000000#64).toNat = x.toNat ^^^ 2 ^ 63 := by rw [BitVec.toNat_xor]; rfl
    have h1 : (x.toNat ^^^ 2 ^ 63) % 2 ^ 63 = x.toNat % 2 ^ 63 := by rw [Nat.xor_mod_two_pow]; simp
    have h2 : (x.toNat ^^^ 2 ^ 63) / 2 ^ 63 = x.toNat / 2 ^ 63 ^^^ 1 := by rw [Nat.xor_div_two_pow]; simp
    rw [h0]
    split
    · have h3 : x.toNat / 2 ^ 63 = 1 := by omega
      rw [h3] at h2; simp only [Nat.xor_self] at h2; omega
    · have h3 : x.toNat / 2 ^ 63 = 0 := by omega
      rw [h3] at h2; simp only [Nat.zero_xor] at h2; omega
  rw [hf]
  have hm : (x ^^^ 0x8000000000000000#64).toNat % 2 ^ 63 = x.toNat % 2 ^ 63 := by rw [hn]; split <;> omega
  have h := fixed_of_bits (x ^^^ 0x8000000000000000#64) (by rw [hm]; exact bx)
  refine ⟨h.2, ?_⟩
  rw [h.1, (fixed_of_bits x bx).1, hm, hn]
  split <;> split <;> omega

/-! ## SIN -/

/-- A sine or cosine, chosen or nearest, lies in [-1.0, 1.0]. -/
theorem unitBounded_chooseUnit (a : Approx) (limited : Bool) (choice : F64) :
    unitBounded (a.chooseUnit limited choice) = true := by
  unfold Approx.chooseUnit Approx.nearestUnit
  split
  · rename_i h
    exact (Bool.and_eq_true _ _ ▸ h).1
  · split
    · assumption
    · split <;> decide +kernel

/-- SIN of a finite number lies in [-1.0, 1.0], whatever the implementation's choice (R260, R271). -/
theorem unitBounded_conformSin (choice : F64 → F64) {x : F64} (hx : isFinite x = true) :
    unitBounded (conformSin choice x) = true := by
  unfold isFinite at hx
  unfold conformSin
  cases hux : unpack x with
  | nan => simp [hux] at hx
  | inf a => simp [hux] at hx
  | fin neg m e =>
    simp only
    split
    · rename_i hm
      have hz : fixed x = 0 := by unfold fixed; simp [hux, hm, scaled]
      rcases eq_zero_of_fixed (by unfold isFinite; rw [hux]) hz with h | h <;> rw [h] <;> decide
    · exact unitBounded_chooseUnit _ _ _

end Sys2Proof.Machine
end

