-- ==== Sys2Proof/Laws/Memory.lean ====
section
/-! SUPPORT. The laws of BUF: read after write, what a write leaves alone, the canonical form kept, and the reads of many bytes in
terms of the read of one. -/

namespace Sys2Proof.Machine

theorem written_append (m n : Memory) (a : Nat) : Memory.written (m ++ n) a = (m.written a).or (n.written a) := by
  simp only [Memory.written, List.find?_append]
  cases List.find? (fun c => c.1 == a) m <;> simp

/-- Restricting BUF to offsets with a property keeps what is read at such an offset. -/
theorem written_filter_of (p : Nat → Bool) (m : Memory) (a : Nat) (h : p a = true) :
    Memory.written (m.filter (fun c => p c.1)) a = m.written a := by
  simp only [Memory.written, List.find?_filter]
  congr 1
  congr 1
  funext c
  by_cases hc : c.1 = a
  · subst hc; simp [h]
  · simp [hc]

/-- Restricting BUF to offsets with a property leaves nothing at any other offset. -/
theorem written_filter_none (p : Nat → Bool) (m : Memory) (a : Nat) (h : p a = false) :
    Memory.written (m.filter (fun c => p c.1)) a = none := by
  simp only [Memory.written, Option.map_eq_none_iff, List.find?_eq_none]
  intro c hc
  simp only [List.mem_filter] at hc
  simp only [beq_iff_eq]
  intro heq
  rw [heq] at hc
  simp [h] at hc

theorem written_cellsFrom (bs : List Byte) : ∀ (a b : Nat),
    Memory.written (cellsFrom a bs) b = if a ≤ b then bs[b - a]? else none := by
  induction bs with
  | nil => intro a b; simp [cellsFrom, Memory.written]
  | cons x xs ih =>
    intro a b
    by_cases hab : a = b
    · subst hab; simp [cellsFrom, Memory.written]
    · have h1 : Memory.written (cellsFrom a (x :: xs)) b = Memory.written (cellsFrom (a + 1) xs) b := by
        simp [cellsFrom, Memory.written, hab]
      rw [h1, ih]
      by_cases hle : a ≤ b
      · have h2 : a + 1 ≤ b := by omega
        have h3 : b - a = (b - (a + 1)) + 1 := by omega
        simp [hle, h2, h3]
      · have h2 : ¬ a + 1 ≤ b := by omega
        simp [hle, h2]

/-- What a write does to every offset, said once: the stored bytes in the region, the old contents outside it. -/
theorem written_write (m : Memory) (a : Nat) (bs : List Byte) (b : Nat) :
    (m.write a bs).written b = if a ≤ b ∧ b < a + bs.length then bs[b - a]? else m.written b := by
  unfold Memory.write
  rw [written_append, written_append, written_cellsFrom]
  by_cases h1 : b < a
  · rw [written_filter_of (fun x => decide (x < a)) m b (by simpa using h1),
      written_filter_none (fun x => decide (a + bs.length ≤ x)) m b (by simp; omega)]
    have h2 : ¬ a ≤ b := by omega
    simp [h2]
  · rw [written_filter_none (fun x => decide (x < a)) m b (by simpa using h1)]
    have hle : a ≤ b := by omega
    by_cases h3 : b < a + bs.length
    · rw [written_filter_none (fun x => decide (a + bs.length ≤ x)) m b (by simp; omega)]
      have h4 : b - a < bs.length := by omega
      simp [hle, h3, h4]
    · rw [written_filter_of (fun x => decide (a + bs.length ≤ x)) m b (by simp; omega)]
      have h4 : bs.length ≤ b - a := by omega
      simp [h3, h4]

/-- A stored byte is read back. -/
theorem read_write_inside (m : Memory) (a : Nat) (bs : List Byte) (i : Nat) (h : i < bs.length) :
    (m.write a bs).read (a + i) = bs[i] := by
  simp [Memory.read, written_write, h]

/-- A byte outside the stored region reads as before. -/
theorem read_write_outside (m : Memory) (a : Nat) (bs : List Byte) (b : Nat) (h : b < a ∨ a + bs.length ≤ b) :
    (m.write a bs).read b = m.read b := by
  have : ¬ (a ≤ b ∧ b < a + bs.length) := by omega
  simp [Memory.read, written_write, this]

/-- A write in the words the claims use. -/
theorem stored_write (m : Memory) (a : Nat) (bs : List Byte) : Stored m (m.write a bs) a bs :=
  ⟨fun i h => read_write_inside m a bs i h, fun b h => read_write_outside m a bs b h⟩

/-- Writing nothing changes no byte. -/
theorem read_write_nil (m : Memory) (a b : Nat) : (m.write a []).read b = m.read b :=
  read_write_outside m a [] b (by simp; omega)

@[simp] theorem read_nil (a : Nat) : Memory.read [] a = Config.bufInit a := rfl

/-- The bytes of a region, looked up in the region only, are the bytes read one by one. -/
theorem bytes_eq_bytesAt (m : Memory) (a n : Nat) : m.bytes a n = bytesAt m a n := by
  unfold Memory.bytes bytesAt
  apply List.map_congr_left
  intro i hi
  have hi' : i < n := by simpa using hi
  unfold Memory.read
  congr 1
  exact written_filter_of (fun x => decide (a ≤ x) && decide (x < a + n)) m (a + i) (by simp; omega)

@[simp] theorem length_bytesAt (m : Memory) (a n : Nat) : (bytesAt m a n).length = n := by simp [bytesAt]

@[simp] theorem length_bytes (m : Memory) (a n : Nat) : (m.bytes a n).length = n := by simp [Memory.bytes]

/-- The bytes of a region end where it ends. -/
theorem bytesAt_succ (m : Memory) (a n : Nat) : bytesAt m a (n + 1) = m.read a :: bytesAt m (a + 1) n := by
  simp only [bytesAt, List.range_succ_eq_map, List.map_cons, List.map_map, Nat.add_zero]
  congr 1
  apply List.map_congr_left
  intro i _
  simp [Nat.add_assoc, Nat.add_comm 1 i]

@[simp] theorem bytesAt_zero (m : Memory) (a : Nat) : bytesAt m a 0 = [] := rfl

/-- A region cut in two. -/
theorem bytesAt_add (m : Memory) (a k n : Nat) : bytesAt m a (k + n) = bytesAt m a k ++ bytesAt m (a + k) n := by
  induction k generalizing a with
  | zero => simp
  | succ k ih =>
    have : k + 1 + n = (k + n) + 1 := by omega
    rw [this, bytesAt_succ, bytesAt_succ, ih]
    have h2 : a + 1 + k = a + (k + 1) := by omega
    simp [h2]

/-- A table over 0 .. n, its first entry taken apart. -/
theorem map_range_succ {α : Type} (f : Nat → α) (n : Nat) :
    (List.range (n + 1)).map f = f 0 :: (List.range n).map (fun i => f (i + 1)) := by
  simp [List.range_succ_eq_map, Function.comp_def]

theorem pairsOf_bytesAt (m : Memory) (n : Nat) : ∀ a, pairsOf (bytesAt m a (2 * n)) = pairsAt m a n := by
  induction n with
  | zero => intro a; rfl
  | succ n ih =>
    intro a
    have h : 2 * (n + 1) = 2 * n + 1 + 1 := by omega
    rw [h, bytesAt_succ, bytesAt_succ]
    simp only [pairsOf]
    rw [ih, pairsAt, pairsAt, map_range_succ]
    simp only [Nat.mul_zero, Nat.add_zero]
    congr 1
    apply List.map_congr_left
    intro i _
    have : a + 1 + 1 + 2 * i = a + 2 * (i + 1) := by omega
    simp [this]

/-- The IQ pairs of a region, each by the read of its two bytes. -/
theorem iqPairs_eq (m : Memory) (a n : Nat) : m.iqPairs a n = pairsAt m a n := by
  rw [Memory.iqPairs, bytes_eq_bytesAt, pairsOf_bytesAt]

/-- Cutting a region into pieces gives the regions of its parts. -/
theorem pieces_bytesAt (m : Memory) (k n : Nat) : ∀ a,
    pieces k n (bytesAt m a (k * n)) = (List.range n).map (fun i => bytesAt m (a + k * i) k) := by
  induction n with
  | zero => intro a; rfl
  | succ n ih =>
    intro a
    have h : k * (n + 1) = k + k * n := by ring
    rw [h, bytesAt_add, pieces, map_range_succ]
    congr 1
    · simp
    · rw [List.drop_left' (by simp), ih]
      apply List.map_congr_left
      intro i _
      congr 1
      ring

/-- A little-endian sequence of bytes as one bit vector, a byte at a time. -/
theorem ofNat_leValue_cons (w : Nat) (b : Byte) (bs : List Byte) :
    BitVec.ofNat (w + 8) (leValue (b :: bs)) = BitVec.ofNat w (leValue bs) ++ b := by
  apply BitVec.eq_of_toNat_eq
  simp only [leValue, BitVec.toNat_ofNat, BitVec.toNat_append]
  have hb := b.isLt
  have h1 : 2 ^ (w + 8) = 256 * 2 ^ w := by rw [pow_add]; ring
  rw [h1, Nat.shiftLeft_eq, Nat.mod_mul]
  have h2 : (b.toNat + 256 * leValue bs) % 256 = b.toNat := by omega
  have h3 : (b.toNat + 256 * leValue bs) / 256 = leValue bs := by omega
  rw [h2, h3]
  have h4 := Nat.two_pow_add_eq_or_of_lt (i := 8) hb (leValue bs % 2 ^ w)
  rw [show (2 : Nat) ^ 8 = 256 from rfl] at *
  rw [Nat.mul_comm (leValue bs % 2 ^ w) 256, ← h4]
  omega

theorem ofNat_leValue_one (b : Byte) : BitVec.ofNat 8 (leValue [b]) = b := by simp [leValue]

/-- The binary64 samples of a region, each by the reads of its eight bytes. -/
theorem f64s_eq (m : Memory) (a n : Nat) : m.f64s a n = f64sAt m a n := by
  rw [Memory.f64s, bytes_eq_bytesAt, pieces_bytesAt, List.map_map, f64sAt]
  apply List.map_congr_left
  intro i _
  simp only [Function.comp, f64At]
  rw [show bytesAt m (a + 8 * i) 8 = [m.read (a + 8 * i), m.read (a + 8 * i + 1), m.read (a + 8 * i + 2),
    m.read (a + 8 * i + 3), m.read (a + 8 * i + 4), m.read (a + 8 * i + 5), m.read (a + 8 * i + 6),
    m.read (a + 8 * i + 7)] from rfl]
  rw [ofNat_leValue_cons 56, ofNat_leValue_cons 48, ofNat_leValue_cons 40, ofNat_leValue_cons 32, ofNat_leValue_cons 24,
    ofNat_leValue_cons 16, ofNat_leValue_cons 8, ofNat_leValue_one]

/-- The PCM samples of a region, each by the reads of its two bytes. -/
theorem pcms_eq (m : Memory) (a n : Nat) : m.pcms a n = pcmsAt m a n := by
  rw [Memory.pcms, bytes_eq_bytesAt, pieces_bytesAt, List.map_map, pcmsAt]
  apply List.map_congr_left
  intro i _
  simp only [Function.comp]
  rw [show bytesAt m (a + 2 * i) 2 = [m.read (a + 2 * i), m.read (a + 2 * i + 1)] from rfl]
  rw [ofNat_leValue_cons 8, ofNat_leValue_one]

/-- The canonical form, as the two facts it says. -/
theorem wf_iff (m : Memory) :
    m.wf = true ↔ m.Pairwise (fun c d => c.1 < d.1) ∧ ∀ c, c ∈ m → c.1 < Config.bufSize := by
  simp only [Memory.wf, Bool.and_eq_true, decide_eq_true_eq, List.all_eq_true]

theorem wf_nil : Memory.wf [] = true := by decide

theorem cellsFrom_mem (bs : List Byte) : ∀ (a : Nat) (c : Host.Cell),
    c ∈ cellsFrom a bs → a ≤ c.1 ∧ c.1 < a + bs.length := by
  induction bs with
  | nil => intro a c h; simp [cellsFrom] at h
  | cons x xs ih =>
    intro a c h
    simp only [cellsFrom, List.mem_cons] at h
    rcases h with h | h
    · subst h; simp
    · have := ih (a + 1) c h
      simp only [List.length_cons]
      omega

theorem cellsFrom_pairwise (bs : List Byte) : ∀ a : Nat, (cellsFrom a bs).Pairwise (fun c d => c.1 < d.1) := by
  induction bs with
  | nil => intro a; simp [cellsFrom]
  | cons x xs ih =>
    intro a
    simp only [cellsFrom, List.pairwise_cons]
    exact ⟨fun c hc => by have := cellsFrom_mem xs (a + 1) c hc; omega, ih (a + 1)⟩

/-- A write that stays in BUF keeps the canonical form. -/
theorem wf_write (m : Memory) (a : Nat) (bs : List Byte) (hm : m.wf = true) (h : a + bs.length ≤ Config.bufSize) :
    (m.write a bs).wf = true := by
  rw [wf_iff] at hm ⊢
  obtain ⟨hp, hb⟩ := hm
  constructor
  · unfold Memory.write
    rw [List.pairwise_append, List.pairwise_append]
    refine ⟨⟨hp.filter _, cellsFrom_pairwise bs a, ?_⟩, hp.filter _, ?_⟩
    · intro c hc d hd
      have h1 := cellsFrom_mem bs a d hd
      simp only [List.mem_filter, decide_eq_true_eq] at hc
      omega
    · intro c hc d hd
      simp only [List.mem_append, List.mem_filter, decide_eq_true_eq] at hc hd
      rcases hc with hc | hc
      · omega
      · have := cellsFrom_mem bs a c hc; omega
  · intro c hc
    simp only [Memory.write, List.mem_append, List.mem_filter, decide_eq_true_eq] at hc
    rcases hc with (hc | hc) | hc
    · exact hb c hc.1
    · have := cellsFrom_mem bs a c hc; omega
    · exact hb c hc.1

/-- The memory of the reset state has the canonical form. -/
theorem wf_reset : State.reset.buf.wf = true := wf_nil

theorem written_of_lt {m : Memory} {a : Nat} (h : ∀ c, c ∈ m → a < c.1) : m.written a = none := by
  simp only [Memory.written, Option.map_eq_none_iff, List.find?_eq_none, beq_iff_eq]
  intro c hc
  have := h c hc
  omega

/-- Two canonical memories in which every offset holds the same written byte are the same data. -/
theorem wf_ext : ∀ (m n : Memory), m.wf = true → n.wf = true → (∀ a, m.written a = n.written a) → m = n := by
  have key : ∀ m n : Memory, m.Pairwise (fun c d => c.1 < d.1) → n.Pairwise (fun c d => c.1 < d.1) →
      (∀ a, m.written a = n.written a) → m = n := by
    intro m
    induction m with
    | nil =>
      intro n _ _ h
      cases n with
      | nil => rfl
      | cons c n => have := h c.1; simp [Memory.written] at this
    | cons c m ih =>
      intro n hm hn h
      cases n with
      | nil => have := h c.1; simp [Memory.written] at this
      | cons d n =>
        rw [List.pairwise_cons] at hm hn
        have hcd : c.1 = d.1 := by
          rcases Nat.lt_trichotomy c.1 d.1 with hlt | heq | hgt
          · have h1 := h c.1
            rw [written_of_lt (m := d :: n) (by
              intro x hx
              rcases List.mem_cons.mp hx with rfl | hx
              · exact hlt
              · exact Nat.lt_trans hlt (hn.1 x hx))] at h1
            simp [Memory.written] at h1
          · exact heq
          · have h1 := h d.1
            rw [written_of_lt (m := c :: m) (by
              intro x hx
              rcases List.mem_cons.mp hx with rfl | hx
              · exact hgt
              · exact Nat.lt_trans hgt (hm.1 x hx))] at h1
            simp [Memory.written] at h1
        have hb : c.2 = d.2 := by
          have h1 := h c.1
          simp [Memory.written, hcd] at h1
          exact h1
        have hrest : m = n := by
          apply ih n hm.2 hn.2
          intro a
          by_cases ha : a = c.1
          · rw [written_of_lt (m := m) (by intro x hx; rw [ha]; exact hm.1 x hx),
              written_of_lt (m := n) (by intro x hx; rw [ha, hcd]; exact hn.1 x hx)]
          · have h1 := h a
            have h2 : ¬ c.1 = a := fun e => ha e.symm
            have h3 : ¬ d.1 = a := fun e => ha (e.symm.trans hcd.symm)
            simpa [Memory.written, h2, h3] using h1
        rw [hrest]
        congr 1
        exact Prod.ext hcd hb
  intro m n hm hn h
  exact key m n ((wf_iff m).mp hm).1 ((wf_iff n).mp hn).1 h

end Sys2Proof.Machine
end

