-- ==== Sys2Proof/Laws/PerInstr.lean ====
section
/-! SUPPORT. Statements about every command, one lemma per constructor. -/

namespace Sys2Proof.Laws.RoundTrip

/-- Decoding the word of a command gives the command back, whatever its selector (R130-R133). -/
def Statement (i : Instr) : Prop := decode (encode i) = .command i

theorem nop (sel : BitVec 4) : Statement (.nop sel) := by revert sel; unfold Statement; decide

theorem fmStart (sel : BitVec 4) : Statement (.fmStart sel) := by revert sel; unfold Statement; decide

theorem fmProcess (sel : BitVec 4) : Statement (.fmProcess sel) := by revert sel; unfold Statement; decide

theorem fmFinish (sel : BitVec 4) : Statement (.fmFinish sel) := by revert sel; unfold Statement; decide

theorem iqPolar (sel : BitVec 4) : Statement (.iqPolar sel) := by revert sel; unfold Statement; decide

theorem bqDesign (sel : BitVec 4) : Statement (.bqDesign sel) := by revert sel; unfold Statement; decide

theorem bqRun (sel : BitVec 4) : Statement (.bqRun sel) := by revert sel; unfold Statement; decide

theorem bqClear (sel : BitVec 4) : Statement (.bqClear sel) := by revert sel; unfold Statement; decide

theorem pllRun (sel : BitVec 4) : Statement (.pllRun sel) := by revert sel; unfold Statement; decide

theorem pllClear (sel : BitVec 4) : Statement (.pllClear sel) := by revert sel; unfold Statement; decide

theorem dabReset (sel : BitVec 4) : Statement (.dabReset sel) := by revert sel; unfold Statement; decide

theorem dabFeed (sel : BitVec 4) : Statement (.dabFeed sel) := by revert sel; unfold Statement; decide

theorem rsInit (sel : BitVec 4) : Statement (.rsInit sel) := by revert sel; unfold Statement; decide

theorem rsDecode (sel : BitVec 4) : Statement (.rsDecode sel) := by revert sel; unfold Statement; decide

theorem crcCalc (sel : BitVec 4) : Statement (.crcCalc sel) := by revert sel; unfold Statement; decide

theorem crcCheck (sel : BitVec 4) : Statement (.crcCheck sel) := by revert sel; unfold Statement; decide

theorem vitDecode (sel : BitVec 4) : Statement (.vitDecode sel) := by revert sel; unfold Statement; decide

theorem pwrCalc (sel : BitVec 4) : Statement (.pwrCalc sel) := by revert sel; unfold Statement; decide

theorem brAdd (sel : BitVec 4) : Statement (.brAdd sel) := by revert sel; unfold Statement; decide

theorem stnScore (sel : BitVec 4) : Statement (.stnScore sel) := by revert sel; unfold Statement; decide

end Sys2Proof.Laws.RoundTrip
end

