-- ==== Sys2Proof/Machine/HostProgram.lean ====
section
/-! DEFINITION. What a line of a host program expands to (R135, R136), as events of the outside world: a program is the events
of its lines, one line after the other, placed in `State.env`. -/

namespace Sys2Proof.Machine

/-- `W name, value`: one 32-bit write to the register at an offset (R135). -/
def writeRegister (off : Nat) (v : Word) : Event := .write off .w32 (v.setWidth 64)

/-- `R name`: one 32-bit read of the register at an offset (R135). -/
def readRegister (off : Nat) : Event := .read off .w32

/-- `LOAD a: b0 b1 ...`: byte writes to BUF offsets a, a + 1, ... (R135). -/
def loadBytes : Nat → List Byte → List Event
  | _, [] => []
  | a, b :: bs => .write (0x10000 + a) .w8 (b.setWidth 64) :: loadBytes (a + 1) bs

/-- The writes of the given arguments to ARG0, ARG1, ... in order, from the register at `off` on (R135). -/
def argWrites : Nat → List Word → List Event
  | _, [] => []
  | off, v :: vs => writeRegister off v :: argWrites (off + 4) vs

/-- `WAIT`: STATUS is read until BUSY = 0 (R136, R532). So many reads still see BUSY; then the command completes, after a latency
that is OPEN (log 2), and one more read sees it. -/
def waitEvents (polls : Nat) : List Event :=
  List.replicate polls (readRegister 0x00C) ++ [.complete, readRegister 0x00C]

/-- A command line: the given arguments, the command word, and WAIT (R135). An argument not given leaves its register as it is. -/
def commandLine (i : Instr) (args : List Word) (polls : Nat) : List Event :=
  argWrites 0x014 args ++ [writeRegister 0x010 (encode i)] ++ waitEvents polls

/-- `SRST` (R136). -/
def srstLine : List Event := [writeRegister 0x008 1#32]

/-- `CLRIRQ` (R136). -/
def clrIrqLine : List Event := [writeRegister 0x038 0x1FF#32]

/-- `FIRECHECK a`: a 2-byte stored Fire code, then 9 protected bytes (R136); a + 2 is taken modulo 2^32 (DESIGN CHOICE, log 26). -/
def fireCheckLine (a : Word) (polls : Nat) : List Event := commandLine (.crcCheck 1#4) [a + 2#32, 9#32, a] polls

/-- `FIBCHECK a`: 30 data bytes, then 2 CRC bytes (R136); a + 30 is taken modulo 2^32 (DESIGN CHOICE, log 26). -/
def fibCheckLine (a : Word) (polls : Nat) : List Event := commandLine (.crcCheck 0#4) [a, 30#32, a + 30#32] polls

/-- `RSDEC a, p`: the codeword at a with no erasures, the positions to p (R136). -/
def rsDecLine (a p : Word) (polls : Nat) : List Event := commandLine (.rsDecode 0#4) [a, 0#32, 0#32, p] polls

/-- `FEED a`: the fragment at a, of the current DAB_FRAG_LEN, the superframe to be written after it (R136); a + F is
taken modulo 2^32 (DESIGN CHOICE, log 26). -/
def feedLine (s : State) (a : Word) (polls : Nat) : List Event :=
  commandLine (.dabFeed 0#4) [a, s.dab.fragLen, a + s.dab.fragLen] polls

end Sys2Proof.Machine
end

