-- ==== Sys2Proof/Tests/Slice0.lean ====
section
/-! SUPPORT. Tests: the words of every command, ill-formed commands, small vectors of spec file 95, and a state that meets the
premises of each statement. -/

namespace Sys2Proof.Tests

set_option Elab.async false

open Sys2Proof Sys2Proof.Machine

/-- The state a step or a command ends in, if it goes on. -/
def after (o : Host.Outcome State Fault Refusal) : Option State :=
  match o with
  | .next t => some t
  | .fault _ => none
  | .refused _ => none

/-- The fault a step ends with, if it faults. -/
def faultOf (o : Host.Outcome State Fault Refusal) : Option Fault :=
  match o with
  | .next _ => none
  | .fault f => some f
  | .refused _ => none

/-- The completion record a command leaves: RES0..RES3, ERRCODE, ERR_INFO, IRQ_STATUS. -/
def record (o : Host.Outcome State Fault Refusal) : Option (Quad × BitVec 8 × Word × BitVec 9) :=
  (after o).map (fun t => (t.res, t.errcode, t.errInfo, t.irqStatus))

/-- The reset state with operands in the snapshot. -/
def withArgs (r0 r1 r2 r3 : Word) : State := { State.reset with snap := ⟨r0, r1, r2, r3⟩ }

/-- The reset state with a pending command word. -/
def pending (w : Word) : State := { State.reset with busy := true, cmd := w }

/-- A state with one host event to come. -/
def facing (s : State) (e : Event) : State := { s with env := [e] }

/-- The FM registers after FM_START at 500000 samples a second, mono, exact (FM-1). -/
def monoStream : Fm :=
  { Fm.reset with
    samplerate := 500000#32, lSr := 500000#32, downsample := 3#32, outRateDesc := 500000#32, outFmt := 0x00100001#32,
    running := true }

/-- Six IQ pairs: I = 227 three times, then Q = 227 three times (FM-1). -/
def rotation : List Byte :=
  [227#8, 127#8, 227#8, 127#8, 227#8, 127#8, 127#8, 227#8, 127#8, 227#8, 127#8, 227#8]

/-- The state of FM-1 before FM_PROCESS: src 0, len 12, dst 0x100, cap as given. -/
def fmState (len dst cap : Word) : State :=
  { withArgs 0#32 len dst cap with fm := monoStream, buf := cellsFrom 0 rotation }

/-! ## Encoding -/

theorem test_wf_refuses_sel_of_one_form : (Instr.nop 1#4).wf = false ∧ (Instr.fmStart 15#4).wf = false ∧
    (Instr.pllRun 1#4).wf = false ∧ (Instr.stnScore 1#4).wf = false := by decide

theorem test_wf_refuses_sel_above_1 : (Instr.iqPolar 2#4).wf = false ∧ (Instr.crcCalc 2#4).wf = false ∧
    (Instr.crcCheck 2#4).wf = false := by decide

theorem test_wf_refuses_slot_8 : (Instr.bqDesign 8#4).wf = false ∧ (Instr.bqRun 8#4).wf = false ∧
    (Instr.bqClear 8#4).wf = false := by decide

theorem test_wf_refuses_levels_0_and_5 : (Instr.vitDecode 0#4).wf = false ∧ (Instr.vitDecode 5#4).wf = false := by decide

theorem test_wf_admits : (Instr.nop 0#4).wf = true ∧ (Instr.iqPolar 1#4).wf = true ∧ (Instr.bqRun 7#4).wf = true ∧
    (Instr.vitDecode 1#4).wf = true ∧ (Instr.vitDecode 4#4).wf = true := by decide

/-- The FM words, bit by bit: OPC, SEL, RSV (R130, R133). -/
theorem test_decode_fm :
    decode 0b00010000_0000_00000000000000000000#32 = .command (.fmStart 0#4) ∧
    decode 0b00010001_0000_00000000000000000000#32 = .command (.fmProcess 0#4) ∧
    decode 0b00010010_0000_00000000000000000000#32 = .command (.fmFinish 0#4) ∧
    decode 0b00010011_0001_00000000000000000000#32 = .command (.iqPolar 1#4) := by decide

theorem test_decode_filters :
    decode 0b00100000_0110_00000000000000000000#32 = .command (.bqDesign 6#4) ∧
    decode 0b00100001_0011_00000000000000000000#32 = .command (.bqRun 3#4) ∧
    decode 0b00100010_0111_00000000000000000000#32 = .command (.bqClear 7#4) ∧
    decode 0b00100011_0000_00000000000000000000#32 = .command (.pllRun 0#4) ∧
    decode 0b00100100_0000_00000000000000000000#32 = .command (.pllClear 0#4) := by decide

theorem test_decode_dab :
    decode 0b00110000_0000_00000000000000000000#32 = .command (.dabReset 0#4) ∧
    decode 0b00110001_0000_00000000000000000000#32 = .command (.dabFeed 0#4) := by decide

theorem test_decode_rs :
    decode 0b01000000_0000_00000000000000000000#32 = .command (.rsInit 0#4) ∧
    decode 0b01000001_0000_00000000000000000000#32 = .command (.rsDecode 0#4) := by decide

theorem test_decode_crc :
    decode 0b01010000_0001_00000000000000000000#32 = .command (.crcCalc 1#4) ∧
    decode 0b01010001_0001_00000000000000000000#32 = .command (.crcCheck 1#4) := by decide

theorem test_decode_viterbi :
    decode 0b01100000_0011_00000000000000000000#32 = .command (.vitDecode 3#4) := by decide

theorem test_decode_diagnostics :
    decode 0b00000000_0000_00000000000000000000#32 = .command (.nop 0#4) ∧
    decode 0b01110000_0000_00000000000000000000#32 = .command (.pwrCalc 0#4) ∧
    decode 0b01110001_0000_00000000000000000000#32 = .command (.brAdd 0#4) ∧
    decode 0b01110010_0000_00000000000000000000#32 = .command (.stnScore 0#4) := by decide

/-- ENC-2, ENC-3, ENC-10. -/
theorem test_decode_refuses :
    decode 0x01000000#32 = .illegalCommand ∧ decode 0x50100001#32 = .illegalCommand ∧
    decode 0xFF000000#32 = .illegalCommand ∧ decodeTableWord 32 0x01000000 = none := by decide

/-! ## One step on small states (spec file 95) -/

/-- ENC-1. -/
theorem test_nop : record (step (pending 0x00000000#32)) = some (⟨0#32, 0#32, 0#32, 0#32⟩, 0#8, 0#32, 0x001#9) := by
  decide +kernel

/-- ENC-5. -/
theorem test_nop_sel_1 : record (step (pending 0x00100000#32)) = some (Quad.zero, 2#8, 0x00100000#32, 0x002#9) := by
  decide +kernel

/-- FM-S1. -/
theorem test_fmStart : record (exec (.fmStart 0#4) State.reset) = some (⟨6#32, 0#32, 0#32, 0#32⟩, 0#8, 0#32, 0x001#9) := by
  decide +kernel

/-- FM-S4. -/
theorem test_fmStart_both_paths : record (exec (.fmStart 0#4) { State.reset with fm := { Fm.reset with ctrl := 3#3 } }) =
    some (Quad.zero, 4#8, 0x100#32, 0x002#9) := by decide +kernel

/-- FM-1: the results, and the four bytes at dst. -/
theorem test_fmProcess : (after (exec (.fmProcess 0#4) (fmState 12#32 0x100#32 4#32))).map
      (fun t => (t.res, t.irqStatus, (List.range 5).map (fun i => t.buf.written (0x100 + i)))) =
    some (⟨4#32, 2#32, 1#32, 500000#32⟩, 0x085#9, [some 0#8, some 0#8, some 0#8, some 0x20#8, none]) := by decide +kernel

/-- FM-11. -/
theorem test_fmProcess_short : record (exec (.fmProcess 0#4) (fmState 12#32 0x100#32 2#32)) =
    some (Quad.zero, 5#8, 4#32, 0x002#9) := by decide +kernel

/-- FM-8. -/
theorem test_fmFinish : (after (exec (.fmFinish 0#4) (fmState 0#32 0#32 0#32))).map (fun t => (fmStateWord t.fm, t.irqStatus)) =
    some (0x2#32, 0x009#9) := by decide +kernel

/-- FM-P2. -/
theorem test_iqPolar_exact : record (exec (.iqPolar 0#4) (withArgs 3#32 4#32 0#32 0#32)) =
    some (⟨4836#32, 5#32, 0#32, 0#32⟩, 0#8, 0#32, 0x001#9) := by decide +kernel

/-- FM-P10, fast. -/
theorem test_iqPolar_fast : record (exec (.iqPolar 1#4) (withArgs 100#32 0xFFFFFFFD#32 0#32 0#32)) =
    some (⟨0xFFFFFF11#32, 100#32, 0#32, 0#32⟩, 0#8, 0#32, 0x001#9) := by decide +kernel

/-- The design errors of file 95: t = 2 with Fs = 0 reports operand 0, and QM = 0 operand 3. -/
theorem test_bqDesign_errors :
    record (exec (.bqDesign 0#4) (withArgs 2#32 1000#32 0#32 707#32)) = some (Quad.zero, 4#8, 0#32, 0x002#9) ∧
    record (exec (.bqDesign 0#4) (withArgs 0#32 1000#32 48000#32 0#32)) = some (Quad.zero, 4#8, 3#32, 0x002#9) := by
  decide +kernel

/-- BQ-R3's first output, from BQ-5's coefficients. -/
theorem test_bqRun : (after (exec (.bqRun 5#4) { withArgs 0#32 1#32 8#32 0#32 with
      bq := State.reset.bq.set 5 ⟨0x3FAF5E187B3C68CE#64, 0#64, 0xBFAF5E187B3C68CE#64, 0xBFFDC854389C37D9#64,
        0x3FEC143CF09872E6#64, 0#64, 0#64, 0#64, 0#64⟩,
      buf := cellsFrom 0 (leBytes 8 0x3FF0000000000000) })).map
      (fun t => (t.res.r0, leValue (t.buf.bytes 8 8))) = some (1#32, 0x3FAF5E187B3C68CE) := by decide +kernel

/-- BQ-R7. -/
theorem test_bqRun_range : record (exec (.bqRun 4#4) (withArgs 0xFFF8#32 2#32 0#32 0#32)) =
    some (Quad.zero, 7#8, 0xFFF8#32, 0x002#9) := by decide +kernel

/-- BQ-R9: the state is cleared, the coefficients stay. -/
theorem test_bqClear : (after (exec (.bqClear 4#4) { State.reset with
      bq := State.reset.bq.set 4 ⟨1#64, 2#64, 3#64, 4#64, 5#64, 6#64, 7#64, 8#64, 9#64⟩ })).map (fun t => t.bq[4]) =
    some ⟨1#64, 2#64, 3#64, 4#64, 5#64, 0#64, 0#64, 0#64, 0#64⟩ := by decide +kernel

/-- R272's examples: WRAP of 7.0, -0.5 and -1e-20. -/
theorem test_wrap : wrapPhase 0x401C000000000000#64 = 0x3FE6F0255DDE9740#64 ∧
    wrapPhase 0xBFE0000000000000#64 = 0x401721FB54442D18#64 ∧ wrapPhase 0xBBC79CA10C924223#64 = 0#64 := by decide +kernel

/-- R271: far beyond 2^20 too a choice of SIN is used only within [-1.0, 1.0]; else the nearest number to sin of the largest
binary64 number, 0.004961954789184062 (computed outside the model). -/
theorem test_sin_bounded : conformSin (fun _ => fone) 0x7FEFFFFFFFFFFFFF#64 = fone ∧
    conformSin (fun _ => ftwo) 0x7FEFFFFFFFFFFFFF#64 = 0x3F7452FC98B34E97#64 := by decide +kernel

/-- A narrow write to BUF lands at its own bytes, low byte first (R102). -/
theorem test_write16 : (after (step (facing State.reset (.write 0x1FFFE .w16 0x99BEEF#64)))).map (fun t => t.buf) =
    some [(0xFFFE, 0xEF#8), (0xFFFF, 0xBE#8)] := by decide +kernel

/-- The misalignment of dst is reported when src is aligned (R273). -/
theorem test_pllRun_misaligned : record (exec (.pllRun 0#4) (withArgs 8#32 1#32 4#32 0#32)) =
    some (Quad.zero, 6#8, 4#32, 0x002#9) := by decide +kernel

/-- PLL-3. -/
theorem test_pllClear : (after (exec (.pllClear 0#4) { State.reset with pll := ⟨1#64, 2#64, 3#64, 4#64, 5#64⟩ })).map
      (fun t => t.pll) = some ⟨1#64, 2#64, 3#64, 0#64, 0#64⟩ := by decide +kernel

/-- DAB-E7: SF_COUNT stays, SYNCED and the window are cleared. -/
theorem test_dabReset : (after (exec (.dabReset 0#4) { State.reset with
      dab := { Dab.reset with win := [[0#8]], synced := true, sfCount := 1#32 } })).map (fun t => (t.dab, t.irqStatus)) =
    some ({ Dab.reset with sfCount := 1#32 }, 0x001#9) := by decide +kernel

/-- DAB-E1. -/
theorem test_dabFeed_length : record (exec (.dabFeed 0#4) (withArgs 0#32 287#32 0#32 0#32)) =
    some (Quad.zero, 5#8, 287#32, 0x002#9) := by decide +kernel

/-- The code over GF(16) of file 95: FCR 1, four roots, no padding. -/
def smallCode : RsConfig := ⟨4#32, 0x13#32, 1#32, 1#32, 4#32, 0#32⟩

/-- The unit with that code latched. -/
def smallRs : Rs := ⟨smallCode, true, 15#32, 11#32, smallCode⟩

/-- The synchronizer with four zero fragments of 24 bytes held (DAB-E3). -/
def fourHeld : Dab :=
  { Dab.reset with fragLen := 24#32, winF := 24#32, win := List.replicate 4 (List.replicate 24 0#8) }

/-- A fifth zero fragment at 0, dst at 0x1000, with the code over GF(16): eight codewords of 15 symbols. -/
def fifthZero : State :=
  { withArgs 0#32 24#32 0x1000#32 0#32 with
    dab := fourHeld, rs := smallRs, buf := cellsFrom 0 (List.replicate 24 0#8) }

/-- As DAB-10, at F = 24: the all-zero superframe is valid. -/
theorem test_dabFeed_accepts : record (exec (.dabFeed 0#4) fifthZero) =
    some (⟨1#32, 0#32, 0#32, 1#32⟩, 0#8, 0#32, 0x031#9) := by decide +kernel

/-- RS-C1. -/
theorem test_rsInit : record (exec (.rsInit 0#4) State.reset) =
    some (⟨120#32, 110#32, 0#32, 0#32⟩, 0#8, 0#32, 0x001#9) := by decide +kernel

/-- RS-C3: alpha has order 51 modulo 0x11B. -/
theorem test_rsInit_not_primitive : record (exec (.rsInit 0#4) { State.reset with
      rs := { Rs.reset with config := { RsConfig.reset with gfpoly := 0x11B#32 }, ready := false } }) =
    some (Quad.zero, 4#8, 0x244#32, 0x002#9) := by decide +kernel

/-- RS-G1's word at 0, the positions to go to 0x100. -/
def wordG1 : List Byte :=
  [0x0E#8, 0x02#8, 0x03#8, 0x04#8, 0x05#8, 0x06#8, 0x07#8, 0x08#8, 0x09#8, 0x09#8, 0x0B#8, 0x0B#8, 0x0A#8, 0x0E#8, 0x06#8]

/-- A received word at 0 and no erasures. -/
def receivedG (bs : List Byte) : State :=
  { withArgs 0#32 0x200#32 0#32 0x100#32 with rs := smallRs, buf := cellsFrom 0 bs }

/-- RS-G1: two errors corrected, at 0 and 9. -/
theorem test_rsDecode : (after (exec (.rsDecode 0#4) (receivedG wordG1))).map
      (fun t => (t.res, [0, 9, 0x100, 0x101, 0x102].map t.buf.written)) =
    some (⟨2#32, 0#32, 0#32, 0#32⟩, [some 1#8, some 0x0A#8, some 0#8, some 9#8, none]) := by decide +kernel

/-- RS-G2: three errors are too many. -/
theorem test_rsDecode_uncorrectable : record (exec (.rsDecode 0#4) (receivedG (wordG1.set 14 7#8))) =
    some (⟨0xFFFFFFFF#32, 0#32, 0#32, 0#32⟩, 0#8, 0#32, 0x001#9) := by decide +kernel

/-- CRC-7 and CRC-8, on the letter A. -/
theorem test_crcCalc :
    record (exec (.crcCalc 0#4) { withArgs 0#32 1#32 0#32 0#32 with buf := [(0, 0x41#8)] }) =
      some (⟨0xA3F5#32, 0#32, 0#32, 0#32⟩, 0#8, 0#32, 0x001#9) ∧
    record (exec (.crcCalc 1#4) { withArgs 0#32 1#32 0#32 0#32 with buf := [(0, 0x41#8)] }) =
      some (⟨0xC039#32, 0#32, 0#32, 0#32⟩, 0#8, 0#32, 0x001#9) := by decide +kernel

/-- CRC-K7. -/
theorem test_crcCalc_no_wrap : record (exec (.crcCalc 0#4) (withArgs 0xFFFFFFFF#32 1#32 0#32 0#32)) =
    some (Quad.zero, 7#8, 0xFFFFFFFF#32, 0x002#9) := by decide +kernel

/-- CRC-K1 and CRC-K2 on CRC-8's byte: the stored bytes C0 39 pass, 39 C0 do not. -/
theorem test_crcCheck :
    (after (exec (.crcCheck 1#4) { withArgs 0#32 1#32 1#32 0#32 with
      buf := [(0, 0x41#8), (1, 0xC0#8), (2, 0x39#8)] })).map (fun t => (t.res, t.crcPass)) =
      some (⟨0xC039#32, 0xC039#32, 1#32, 0#32⟩, true) ∧
    (after (exec (.crcCheck 1#4) { withArgs 0#32 1#32 1#32 0#32 with
      buf := [(0, 0x41#8), (1, 0x39#8), (2, 0xC0#8)] })).map (fun t => (t.res, t.crcPass)) =
      some (⟨0xC039#32, 0x39C0#32, 0#32, 0#32⟩, false) := by decide +kernel

/-- CRC-K8. -/
theorem test_crcCheck_range : record (exec (.crcCheck 0#4) (withArgs 0#32 0#32 0xFFFF#32 0#32)) =
    some (Quad.zero, 7#8, 0xFFFF#32, 0x002#9) := by decide +kernel

/-- The tables of file 95 for VIT-1: one block of PI_8, the tail, the four polynomials. -/
def vitTables : Vit :=
  { poly := #v[0x5B#7, 0x79#7, 0x65#7, 0x5B#7]
    tail := 0xCCCCCC#24
    pi := (Vector.replicate 24 0#32).set 7 0xCCCCCCCC#32
    prof := (Vector.replicate 8 0#24).set 0 0x010008#24 }

/-- The encoder check of file 95: the bit 1 and the six tail zeros give 1111 0110 1101 1101 0010 1001 1111; and the decoder finds
the bit in that sequence at plus and minus 100, with the metric 28 * 100. -/
theorem test_viterbi :
    let sent := bitsMsb 28 0b1111_0110_1101_1101_0010_1001_1111
    motherSequence (polysOf vitTables) [true] = sent ∧
    viterbi (polysOf vitTables) (sent.map (fun b => if b then 100 else -100)) 1 = ([true], 2800) := by decide +kernel

/-- VIT-1's T. -/
theorem test_vit_transmitted : transmitted vitTables 1 1 = 76 ∧ totalBlocks vitTables 1 1 = 1 := by decide +kernel

/-- VIT-E1. -/
theorem test_vitDecode_not_ready : record (exec (.vitDecode 1#4) State.reset) =
    some (Quad.zero, 3#8, 0x2C0#32, 0x002#9) := by decide +kernel

/-- PWR-2: pairs at the centre have no power. -/
theorem test_pwrCalc : record (exec (.pwrCalc 0#4) { withArgs 0#32 4#32 0#32 0#32 with
      buf := cellsFrom 0 (List.replicate 8 127#8) }) = some (Quad.zero, 0#8, 0#32, 0x081#9) := by decide +kernel

/-- PWR-8. -/
theorem test_pwrCalc_window : record (exec (.pwrCalc 0#4) { State.reset with diag := { Diag.reset with pwrWin := 0#32 } }) =
    some (Quad.zero, 4#8, 0x380#32, 0x002#9) := by decide +kernel

/-- BR-1. -/
theorem test_brAdd_open : (after (exec (.brAdd 0#4) { withArgs 1000#32 0#32 0#32 0#32 with time := 500000#64 })).map
      (fun t => (t.res, t.diag.brBytes, t.irqStatus)) = some (Quad.zero, 1000#64, 0x001#9) := by decide +kernel

/-- BR-2. -/
theorem test_brAdd_closed : (after (exec (.brAdd 0#4) { withArgs 11000#32 0#32 0#32 0#32 with
      time := 1200000#64, diag := { Diag.reset with brBytes := 1000#64 } })).map (fun t => (t.res, t.diag.brT0, t.irqStatus)) =
    some (⟨80000#32, 1#32, 0#32, 0#32⟩, 1200000#64, 0x101#9) := by decide +kernel

/-- STN-5 and STN-7. -/
theorem test_stnScore_errors :
    record (exec (.stnScore 0#4) (withArgs 0#32 4096#32 99#32 0#32)) = some (Quad.zero, 4#8, 2#32, 0x002#9) ∧
    record (exec (.stnScore 0#4) (withArgs 1#32 4096#32 48000#32 0#32)) = some (Quad.zero, 6#8, 1#32, 0x002#9) := by
  decide +kernel

/-- The score's sample statistics on short inputs (R416): sign changes with 0 as positive, and STN-3's variance 12500. -/
theorem test_stnScore_statistics :
    zeroCrossings [5, -1, 0, -3, 2] = 4 ∧
    fvariance [fofNat 100, fofNat 200, fofNat 300, fofNat 400] = 0x40C86A0000000000#64 := by decide +kernel

/-! ## The port and the protocol (PRO-1 .. PRO-11) -/

/-- PRO-3: a CMD write while BUSY is dropped. -/
theorem test_cmd_while_busy : (after (step (facing (pending 0#32) (.write 0x10 .w32 0x01000000#64)))).map
      (fun t => (t.cmd, t.overrun, t.busy)) = some (0#32, true, true) := by decide +kernel

/-- PRO-4: an ARG write while BUSY is ignored. -/
theorem test_arg_while_busy : (after (step (facing (pending 0x71000000#32) (.write 0x14 .w32 7#64)))).map
      (fun t => (t.args, t.wrIgnored)) = some (Quad.zero, true) := by decide +kernel

/-- As PRO-6: a write to STATUS of an idle block clears the sticky bits it carries. -/
theorem test_status_w1c :
    (after (step (facing { State.reset with overrun := true, wrIgnored := true, bufHaz := true } (.write 0xC .w32 0x10000#64)))).map
      (fun t => (t.overrun, t.wrIgnored, t.bufHaz)) = some (false, true, true) := by decide +kernel

/-- PRO-9: TIME_HI returns the latched half. -/
theorem test_time_latch : (after (step (facing { State.reset with time := 0x1FFFFFFF0#64 } (.read 0x40 .w32)))).map
      (fun t => (t.hostData, t.timeHiLatch)) = some (0xFFFFFFF0#32, 1#32) := by decide +kernel

/-- PRO-8: a soft reset while BUSY discards the command and raises nothing. -/
theorem test_soft_reset_while_busy : (after (step (facing (pending 0x40000000#32) (.write 0x8 .w32 1#64)))).map
      (fun t => (t.busy, t.irqStatus, t.err)) = some (false, 0#9, false) := by decide +kernel

/-- PRO-11: reserved offsets read 0, ID reads RSRD. -/
theorem test_reads :
    (after (step (facing State.reset (.read 0x0 .w32)))).map (fun t => t.hostData) = some 0x52535244#32 ∧
    (after (step (facing { State.reset with hostData := 5#32 } (.read 0x8000 .w32)))).map (fun t => t.hostData) =
      some 0#32 := by decide +kernel

/-- FIRECHECK 0x40 with one poll: the accesses of R136's row, the word of R137. -/
theorem test_fireCheck_line : fireCheckLine 0x40#32 1 =
    [.write 0x14 .w32 0x42#64, .write 0x18 .w32 9#64, .write 0x1C .w32 0x40#64, .write 0x10 .w32 0x51100000#64,
      .read 0xC .w32, .complete, .read 0xC .w32] := by decide +kernel

/-- withFetchWord places the word where the next step runs it. -/
theorem test_withFetchWord : record (step (State.reset.withFetchWord 32 0x13000000)) =
    some (Quad.zero, 0#8, 0#32, 0x001#9) := by decide +kernel

/-! ## States that meet the premises of the statements

Each theorem names its statement; the clauses are witnessed at the edges of their ranges. -/

/-- A pending word at an engine with no event left, for LegalWords: an opcode that is not listed, RSV at its least and its
greatest, SEL just outside and just inside each range, and one listed row. -/
theorem witness_LegalWords :
    (pending 0x01000000#32).env = [] ∧ (pending 0x01000000#32).busy = true ∧
    (∀ row, row ∈ commandTable → row.1 ≠ 0x01) ∧ (∀ row, row ∈ commandTable → row.1 ≠ 0xFF) ∧
    (pending 0x00000001#32).cmd.extractLsb' 0 20 ≠ 0#20 ∧ (pending 0x000FFFFF#32).cmd.extractLsb' 0 20 ≠ 0#20 ∧
    ((0x60, 1, 4) ∈ commandTable ∧ ¬ (1 ≤ 0 ∧ 0 ≤ 4) ∧ ¬ (1 ≤ 5 ∧ 5 ≤ 4) ∧ (1 ≤ 1 ∧ 1 ≤ 4) ∧ (1 ≤ 4 ∧ 4 ≤ 4)) ∧
    ((0x20, 0, 7) ∈ commandTable ∧ ¬ (0 ≤ 8 ∧ 8 ≤ 7) ∧ (0 ≤ 7 ∧ 7 ≤ 7)) ∧
    ((pending 0x60500000#32).cmd.extractLsb' 20 4).toNat = 5 ∧ (pending 0x60400000#32).cmd.extractLsb' 0 20 = 0#20 := by
  decide +kernel

theorem witness_WorkedWords :
    (pending 0x50200000#32).env = [] ∧ (pending 0x50200000#32).busy = true ∧ (pending 0x50200000#32).cmd = 0x50200000#32 ∧
    (pending 0x50100001#32).cmd = 0x50100001#32 ∧ (pending 0x01000000#32).cmd = 0x01000000#32 := by decide +kernel

theorem witness_StepRunsDecoded :
    (pending 0x50100000#32).busy = true ∧ decode (pending 0x50100000#32).cmd = .command (.crcCalc 1#4) ∧
    (pending 0x50100000#32).env = [] ∧ (facing (pending 0x50100000#32) .complete).env = .complete :: [] := by decide +kernel

theorem witness_CmdAcceptance : State.reset.busy = false ∧ (pending 0#32).busy = true := by decide +kernel

/-- A command of no unit and one of each unit, with the state it ends in. -/
theorem witness_UnitFrames :
    (∃ t, exec (.nop 0#4) State.reset = .next t) ∧ (∃ t, exec (.fmStart 0#4) State.reset = .next t) ∧
    (∃ t, exec (.bqRun 3#4) State.reset = .next t) ∧ (∃ t, exec (.dabFeed 0#4) State.reset = .next t) ∧
    (∃ t, exec (.rsInit 0#4) State.reset = .next t) ∧ (∃ t, exec (.crcCheck 0#4) State.reset = .next t) ∧
    (∃ t, exec (.brAdd 0#4) State.reset = .next t) ∧
    (∀ sel, (Instr.nop 0#4) ≠ .fmStart sel ∧ (Instr.nop 0#4) ≠ .fmProcess sel) ∧
    (∀ sel : BitVec 4, sel.toNat = 4 → (Instr.bqRun 3#4) ≠ .bqRun sel) := by
  refine ⟨⟨_, rfl⟩, ⟨_, rfl⟩, ⟨_, rfl⟩, ⟨_, rfl⟩, ⟨_, rfl⟩, ⟨_, rfl⟩, ⟨_, rfl⟩, ?_, ?_⟩ <;> decide +kernel

/-- One sample run through slot 5 by BQ_RUN: source at 0, destination at 8. -/
def oneSample : State := { withArgs 0#32 1#32 8#32 0#32 with busy := true, cmd := 0x21500000#32 }

theorem fmInv_stopped : FmInv Fm.reset := by unfold FmInv EmphInv Between; decide +kernel

theorem dabInv_reset : DabInv Dab.reset := by unfold DabInv; decide +kernel

theorem rsInv_reset : RsInv Rs.reset := by unfold RsInv RsLegal; decide +kernel

theorem rsInv_small : RsInv smallRs := by unfold RsInv RsLegal; decide +kernel

theorem blockInv_oneSample : BlockInv oneSample :=
  ⟨rfl, fmInv_stopped, dabInv_reset, rsInv_reset, by unfold ErrInv; decide +kernel, by unfold PowerInv; decide +kernel⟩

theorem witness_StoredBytesOnly : BlockInv oneSample ∧ (∃ t, exec (.bqRun 5#4) oneSample = .next t) ∧
    (∀ r, r ∈ storedRegions (.bqRun 5#4) oneSample → ¬ (r.1 ≤ 7 ∧ 7 < r.1 + r.2)) ∧
    (∀ r, r ∈ storedRegions (.bqRun 5#4) oneSample → ¬ (r.1 ≤ 16 ∧ 16 < r.1 + r.2)) ∧
    (∀ r, r ∈ storedRegions (.nop 0#4) oneSample → ¬ (r.1 ≤ 8 ∧ 8 < r.1 + r.2)) :=
  ⟨blockInv_oneSample, ⟨_, rfl⟩, by decide +kernel, by decide +kernel, by decide +kernel⟩

theorem witness_OnlyHostAccessFaults :
    faultOf (step (facing State.reset (.read 0x1FFFF .w16))) = some .busError ∧
    faultOf (step (facing State.reset (.write 0x20000 .w8 0#64))) = some .outsideWindow := by decide +kernel

/-- The edges of BusErrors: the last CSR-side offset and the first and the last of BUF, at each width. -/
theorem witness_BusErrors :
    0xFFFF < 0x20000 ∧ 0x1FFFF < 0x20000 ∧
    accessOk 0xFFFF .w8 = false ∧ accessOk 0xFFFE .w16 = false ∧ accessOk 0xFFFC .w32 = true ∧ accessOk 0xFFFE .w32 = false ∧
    accessOk 0x10000 .w8 = true ∧ accessOk 0x1FFFF .w8 = true ∧ accessOk 0x1FFFE .w16 = true ∧ accessOk 0x1FFFF .w16 = false ∧
    accessOk 0x1FFFC .w32 = true ∧ accessOk 0x1FFFE .w32 = false ∧ accessOk 0x10000 .w64 = false := by decide +kernel

theorem witness_BusyBuf : (pending 0#32).busy = true ∧ accessOk 0x10000 .w32 = true ∧ accessOk 0x1FFFF .w8 = true := by
  decide +kernel

theorem witness_BusyCsrWrites :
    (pending 0#32).busy = true ∧ State.reset.busy = false ∧ (1#64).getLsbD 0 = true ∧ (2#64).getLsbD 0 = false ∧
    csrAt 0x014 = some (.arg 0) ∧ csrAt 0x7C4 = some (.bq 7 .y2 .hi) ∧ isControl (.arg 0) = false ∧
    csrAt 0x010 = some .cmd ∧ csrAt 0x038 = some .irqStatus ∧ csrAt 0x03C = some .irqEnable ∧
    csrAt 0x00C = some .status ∧ csrAt 0x008 = some .ctrl := by decide +kernel

/-- Both ends of CsrMap: the first and the last register, and reserved offsets on either side. -/
theorem witness_CsrMap :
    csrAt 0x000 = some .id ∧ csrAt 0x7C4 = some (.bq 7 .y2 .hi) ∧ csrAt 0x048 = none ∧ csrAt 0xFFC = none ∧
    csrOffset .id = 0 ∧ csrOffset (.bq 7 .y2 .hi) = 0x7C4 := by decide +kernel

/-- No register stands at the first offset past the CSR window or at the last one before BUF. -/
theorem witness_CsrMap_reserved : (∀ c, 0x1000 ≠ csrOffset c) ∧ (∀ c, 0xFFFC ≠ csrOffset c) := by
  have bound : ∀ c, csrOffset c < 0x1000 := by
    intro c
    cases c <;> try (simp only [csrOffset]; omega)
    all_goals rename_i r; cases r <;> first | (simp only [csrOffset, crcOffset, rsOffset]; omega) | skip
    all_goals rename_i h; cases h <;> simp only [csrOffset, pllOffset, bqOffset, halfOffset] <;> omega
  exact ⟨fun c h => by have := bound c; omega, fun c h => by have := bound c; omega⟩

theorem witness_CsrWrites :
    State.reset.busy = false ∧ fourHeld.win.length ≤ 4 ∧ Dab.reset.win.length ≤ 4 ∧ isControl (.crc 1 .cfg) = false ∧ rwMask (.crc 1 .cfg) = some 7#32 ∧
    rwMask .pwrLast = none ∧ isControl .pwrLast = false ∧ isControl .dabFragLen = false ∧
    isControl (.rsConfig .pad) = false ∧ (Csr.rsN ≠ .rsConfig .pad ∧ Csr.rsN ≠ .rsStatus) ∧
    (Csr.dabSfCount ≠ .dabFragLen ∧ Csr.dabSfCount ≠ .status ∧ Csr.dabSfCount ≠ .dabStatus) := by decide +kernel

theorem witness_HostByteOrder : State.reset.busy = false ∧ 0 % 2 = 0 ∧ 0 % 4 = 0 ∧ (65532 < 65536 ∧ 65532 % 4 = 0) ∧
    (65534 < 65536 ∧ 65534 % 2 = 0) ∧ 65535 < 65536 := by decide +kernel

theorem witness_InterruptLine : irqOut { State.reset with irqStatus := 0x100#9, irqEnable := 0x180#9 } = true ∧
    irqOut { State.reset with irqStatus := 0x001#9, irqEnable := 0x180#9 } = false := by decide +kernel

/-- NOP's DONE bit is set as BUSY falls, with no event left and with the completion event. -/
theorem witness_IrqOnlyAtCompletion :
    (after (step (pending 0#32))).map (fun t => (t.irqStatus.getLsbD 0, t.busy)) = some (true, false) ∧
    (after (step (facing (pending 0#32) .complete))).map (fun t => (t.irqStatus.getLsbD 0, t.busy)) = some (true, false) ∧
    (pending 0#32).irqStatus.getLsbD 0 = false := by decide +kernel

theorem witness_TimeMoves :
    (∃ t, step State.reset = .next t) ∧ (facing State.reset (.elapse 7)).env = [.elapse 7] ∧
    (∃ t, step (facing State.reset (.elapse 7)) = .next t ∧ t.time = 7#64) ∧
    (∃ t, step { facing State.reset (.elapse 3) with time := 0xFFFFFFFFFFFFFFFF#64 } = .next t ∧ t.time = 2#64) ∧
    (∃ t, step (facing State.reset (.write 0x8 .w32 1#64)) = .next t) :=
  ⟨⟨_, rfl⟩, rfl, ⟨_, rfl, rfl⟩, ⟨_, rfl, rfl⟩, ⟨_, rfl⟩⟩

theorem witness_SoftReset : (1#64).getLsbD 0 = true ∧ (0xFFFFFFFFFFFFFFFF#64).getLsbD 0 = true := by decide

theorem witness_ResetValues : csrAt 0x000 = some .id ∧ csrAt 0x384 = some .pwrMax ∧ csrAt 0x7C4 = some (.bq 7 .y2 .hi) := by
  decide +kernel

theorem witness_InvKept : BlockInv oneSample ∧ ∃ t, step oneSample = .next t := ⟨blockInv_oneSample, _, rfl⟩

/-- The reset state with FM_CTRL, FM_SAMPLERATE and FM_OUT_RATE as given. -/
def fmConfig (ctrl : BitVec 3) (sr rate : Word) : Fm := { Fm.reset with ctrl := ctrl, samplerate := sr, outRate := rate }

/-- FmStartCompletes, the sample rate and the output rate: just outside and just inside their ranges (FM-S2, S3, S6, S7). -/
theorem witness_FmStartCompletes_rates :
    ¬ (1 ≤ (fmConfig 0#3 0#32 0#32).samplerate.toNat) ∧ ¬ ((fmConfig 0#3 3200001#32 0#32).samplerate.toNat ≤ 3200000) ∧
    (1 ≤ (1#32).toNat ∧ (3200000#32).toNat ≤ 3200000) ∧
    (fmConfig 3#3 1#32 0#32).ctrl.getLsbD 0 = true ∧ (fmConfig 3#3 1#32 0#32).ctrl.getLsbD 1 = true ∧
    (fmConfig 2#3 3200000#32 1#32).ctrl.getLsbD 0 = false ∧ (fmConfig 2#3 3200000#32 1#32).ctrl.getLsbD 1 = true ∧
    ¬ (3200000 / 1 ≤ 32768) ∧ ¬ (170001 ≤ 170000) ∧ (1 ≤ 170000 ∧ 170000 ≤ 170000 ∧ 170000 / 170000 ≤ 32768) ∧
    (fmConfig 4#3 1#32 0#32).ctrl.getLsbD 0 = false ∧ (fmConfig 4#3 1#32 0#32).ctrl.getLsbD 1 = false := by decide +kernel

/-- FmStartCompletes, the stereo pairs: each pair failing alone, and all passing at 76001 (FM-S9 .. FM-S12). -/
theorem witness_FmStartCompletes_stereo :
    (fmConfig 1#3 76001#32 0#32).ctrl.getLsbD 0 = true ∧ (fmConfig 1#3 76001#32 0#32).ctrl.getLsbD 1 = false ∧
    ¬ (1 ≤ 19000 ∧ 2 * 19000 < 38000 ∧ 1 ≤ 19000) ∧
    ((1 ≤ 19000 ∧ 2 * 19000 < 76000 ∧ 1 ≤ 19000) ∧ ¬ (1 ≤ 38000 ∧ 2 * 38000 < 76000 ∧ 1 ≤ 1267)) ∧
    (1 ≤ 38000 ∧ 2 * 38000 < 76001 ∧ 1 ≤ 1267) ∧ ¬ (1 ≤ 15000 ∧ 2 * 15000 < 76001 ∧ 1 ≤ 0) ∧
    (1 ≤ 15000 ∧ 2 * 15000 < 76001 ∧ 1 ≤ 707) := by decide +kernel

theorem fmInv_monoStream : FmInv monoStream := by unfold FmInv EmphInv Between; decide +kernel

/-- FM_PROCESS on a stream with a power configuration. -/
def fmWith (s : State) (win max : Word) : State := { s with diag := { s.diag with pwrWin := win, pwrMax := max } }

/-- FmProcessErrors, each of its errors met: no stream; the window at 0 and 65536; PWR_MAX 0; an odd length; a capacity one
short; an odd destination; a source and a destination one past the end. -/
theorem witness_FmProcessErrors :
    (FmInv State.reset.fm ∧ State.reset.fm.running = false) ∧
    (FmInv (fmState 12#32 0#32 4#32).fm ∧ (fmState 12#32 0#32 4#32).fm.running = true) ∧
    (¬ (1 ≤ (fmWith State.reset 0#32 1#32).diag.pwrWin.toNat) ∧ ¬ ((fmWith State.reset 65536#32 1#32).diag.pwrWin.toNat ≤ 65535)) ∧
    (fmWith State.reset 65535#32 0#32).diag.pwrMax.toNat = 0 ∧
    arg1 (fmState 3#32 0#32 0#32) % 2 = 1 ∧
    arg3 (fmState 12#32 0#32 3#32) < 2 * (fmOutput (fmState 12#32 0#32 3#32)).2.length ∧
    arg2 (fmState 12#32 0x101#32 4#32) % 2 = 1 ∧
    65536 < arg0 (withArgs 65535#32 2#32 0#32 0#32) + arg1 (withArgs 65535#32 2#32 0#32 0#32) ∧
    65536 < arg2 (fmState 12#32 65534#32 4#32) + arg3 (fmState 12#32 65534#32 4#32) :=
  ⟨⟨fmInv_stopped, rfl⟩, ⟨fmInv_monoStream, rfl⟩, by decide +kernel⟩

/-- FmProcessCompletes, with the destination ending at the end of BUF. -/
theorem witness_FmProcessCompletes :
    FmInv (fmState 12#32 65532#32 4#32).fm ∧ (fmState 12#32 65532#32 4#32).fm.running = true ∧
    1 ≤ (fmState 12#32 65532#32 4#32).diag.pwrWin.toNat ∧ (fmState 12#32 65532#32 4#32).diag.pwrWin.toNat ≤ 65535 ∧
    1 ≤ (fmState 12#32 65532#32 4#32).diag.pwrMax.toNat ∧ arg1 (fmState 12#32 65532#32 4#32) % 2 = 0 ∧
    arg2 (fmState 12#32 65532#32 4#32) % 2 = 0 ∧
    2 * (fmOutput (fmState 12#32 65532#32 4#32)).2.length ≤ arg3 (fmState 12#32 65532#32 4#32) ∧
    arg0 (fmState 12#32 65532#32 4#32) + arg1 (fmState 12#32 65532#32 4#32) ≤ 65536 ∧
    arg2 (fmState 12#32 65532#32 4#32) + arg3 (fmState 12#32 65532#32 4#32) ≤ 65536 :=
  ⟨fmInv_monoStream, by decide +kernel⟩

/-- An emphasize stream at 170000 samples a second with output 32000, one sample summed (FM-6). -/
def emphStream : Fm :=
  { Fm.reset with
    lSr := 170000#32, lOutRate := 32000#32, downsample := 6#32, deemphA := 13#32, lEmph := true, outFmt := 0x00100001#32,
    lprIdx := 32000#32, lprAcc := 16384#32, deemphAvg := 16384#32, running := true }

/-- FmProcessCompletes, one pair of a running stream: a mono, an emphasize and a stereo stream; a pair that completes D and one that
does not; an emphasize phase one short of the rate and one that reaches it. -/
theorem witness_FmProcessCompletes_pair :
    FmInv monoStream ∧ (monoStream.accCnt.toNat + 1 ≠ monoStream.downsample.toNat ∧
      ({ monoStream with accCnt := 2#32 } : Fm).accCnt.toNat + 1 = monoStream.downsample.toNat) ∧
    FmInv { monoStream with accCnt := 2#32 } ∧
    FmInv { monoStream with accCnt := 2#32, lStereo := true, outFmt := 0x00100002#32 } ∧
    FmInv { emphStream with accCnt := 5#32 } ∧ emphStream.lprIdx.toNat + emphStream.lOutRate.toNat < emphStream.lSr.toNat ∧
    FmInv { emphStream with accCnt := 5#32, lprIdx := 138000#32 } ∧
    170000 ≤ ({ emphStream with lprIdx := 138000#32 } : Fm).lprIdx.toNat + emphStream.lOutRate.toNat :=
  ⟨fmInv_monoStream, by decide +kernel, by unfold FmInv EmphInv Between; decide +kernel,
    by unfold FmInv EmphInv Between; decide +kernel, by unfold FmInv EmphInv Between; decide +kernel, by decide +kernel,
    by unfold FmInv EmphInv Between; decide +kernel, by decide +kernel⟩

/-- A further command on a state: new operands in the snapshot. -/
def nextArgs (s : State) (r0 r1 r2 r3 : Word) : State := { s with snap := ⟨r0, r1, r2, r3⟩ }

/-- FmChunks: FM-1's input in a chunk of two pairs, which leaves a partial sum, and one of four; and in one command. -/
theorem witness_FmChunks :
    FmInv (fmState 4#32 0x100#32 0#32).fm ∧
    ∃ t v x, exec (.fmProcess 0#4) (fmState 4#32 0x100#32 0#32) = .next t ∧
      exec (.fmProcess 0#4) (nextArgs t 4#32 8#32 0x200#32 4#32) = .next v ∧
      exec (.fmProcess 0#4) (fmState 12#32 0x300#32 4#32) = .next x ∧
      (t.err = false ∧ v.err = false ∧ x.err = false ∧ t.fm.accCnt = 2#32) ∧
      pairsAt (fmState 12#32 0x300#32 4#32).buf 0 6 =
        pairsAt (fmState 4#32 0x100#32 0#32).buf 0 2 ++ pairsAt (nextArgs t 4#32 8#32 0x200#32 4#32).buf 4 4 :=
  ⟨fmInv_monoStream, _, _, _, rfl, rfl, rfl, by decide +kernel, by decide +kernel⟩

theorem witness_FmBytesOutExact :
    (FmInv monoStream ∧ monoStream.running = true) ∧ (FmInv emphStream ∧ emphStream.running = true) :=
  ⟨⟨fmInv_monoStream, rfl⟩, by unfold FmInv EmphInv Between; decide +kernel, rfl⟩

theorem witness_FmFinishCompletes : State.reset.fm.running = false ∧ (fmState 0#32 0#32 0#32).fm.running = true := by
  decide +kernel

/-- AngleExactIsTruncated: the origin, a point off it, and the ends of the range. -/
theorem witness_AngleExactIsTruncated : ((0 : Int) = 0 ∧ (0 : Int) = 0) ∧ ¬ ((4 : Int) = 0 ∧ (3 : Int) = 0) ∧
    angleExact 0 (-1) = 16384 ∧ angleExact (-1) (-10000) = -16383 := by decide +kernel

theorem witness_AnglesOnAxes : (0 : Int) < 1 ∧ (-1 : Int) < 0 ∧ angleExact (-1) (-1) = -12288 ∧ angleFast (-1) (-1) = -12288 := by
  decide +kernel

/-- BqDesignCompletes: each check failing just outside its range, and all passing at the edges. -/
theorem witness_BqDesignCompletes :
    ¬ arg0 (withArgs 2#32 1#32 3#32 1#32) ≤ 1 ∧
    (arg0 (withArgs 1#32 1#32 0#32 1#32) ≤ 1 ∧ arg2 (withArgs 1#32 1#32 0#32 1#32) = 0) ∧
    (arg2 (withArgs 0#32 1#32 2#32 1#32) ≠ 0 ∧
      ¬ (1 ≤ arg1 (withArgs 0#32 1#32 2#32 1#32) ∧ 2 * arg1 (withArgs 0#32 1#32 2#32 1#32) < arg2 (withArgs 0#32 1#32 2#32 1#32))) ∧
    (1 ≤ arg1 (withArgs 0#32 1#32 3#32 0#32) ∧ 2 * arg1 (withArgs 0#32 1#32 3#32 0#32) < arg2 (withArgs 0#32 1#32 3#32 0#32) ∧
      arg3 (withArgs 0#32 1#32 3#32 0#32) = 0) ∧
    (∀ t : Fin 2, arg0 (withArgs (BitVec.ofNat 32 t.val) 1#32 3#32 1#32) = t.val ∧
      1 ≤ arg1 (withArgs (BitVec.ofNat 32 t.val) 1#32 3#32 1#32) ∧
      2 * arg1 (withArgs (BitVec.ofNat 32 t.val) 1#32 3#32 1#32) < arg2 (withArgs (BitVec.ofNat 32 t.val) 1#32 3#32 1#32) ∧
      1 ≤ arg3 (withArgs (BitVec.ofNat 32 t.val) 1#32 3#32 1#32)) := by decide +kernel

/-- BqRunCompletes and PllRunCompletes: both regions ending at the end of BUF. -/
theorem witness_f64Runs :
    arg0 (withArgs 65528#32 1#32 65528#32 0#32) % 8 = 0 ∧ arg2 (withArgs 65528#32 1#32 65528#32 0#32) % 8 = 0 ∧
    arg0 (withArgs 65528#32 1#32 65528#32 0#32) + 8 * arg1 (withArgs 65528#32 1#32 65528#32 0#32) ≤ 65536 ∧
    arg2 (withArgs 65528#32 1#32 65528#32 0#32) + 8 * arg1 (withArgs 65528#32 1#32 65528#32 0#32) ≤ 65536 := by decide +kernel

/-- PllRunCompletes, the step and WRAP: the greatest phase below 2^1023 and the least at it; finite gains; phase and W0 whose sum is
no negative zero; values just inside and just outside the bound 1024.0, a NaN and an infinity (WRAP's vectors). -/
theorem witness_PllRunCompletes :
    flt (fabs 0xFFDFFFFFFFFFFFFF#64) 0x7FE0000000000000#64 = true ∧ flt (fabs 0x7FE0000000000000#64) 0x7FE0000000000000#64 = false ∧
    flt (fabs 0x7FEFFFFFFFFFFFFF#64) (infinity false) = true ∧ flt (fabs Pll.reset.kp) (infinity false) = true ∧
    flt (fabs Pll.reset.ki) (infinity false) = true ∧ isNaN Pll.reset.integ = false ∧
    fadd Pll.reset.phase Pll.reset.w0 ≠ 0x8000000000000000#64 ∧
    (isNaN canonicalNaN = true ∧ fle (fofNat 1024) (fabs (infinity true)) = true ∧ fle (fofNat 1024) (fabs (fofInt (-1024))) = true) ∧
    (isNaN 0xC08FFFFFFFFFFFFF#64 = false ∧ fle (fofNat 1024) (fabs 0xC08FFFFFFFFFFFFF#64) = false) := by decide +kernel

theorem witness_F64RunErrors :
    arg0 (withArgs 1#32 1#32 0#32 0#32) % 8 ≠ 0 ∧
    (arg0 (withArgs 0#32 1#32 7#32 0#32) % 8 = 0 ∧ arg2 (withArgs 0#32 1#32 7#32 0#32) % 8 ≠ 0) ∧
    65536 < arg0 (withArgs 65528#32 2#32 0#32 0#32) + 8 * arg1 (withArgs 65528#32 2#32 0#32 0#32) ∧
    (arg0 (withArgs 0#32 2#32 65528#32 0#32) + 8 * arg1 (withArgs 0#32 2#32 65528#32 0#32) ≤ 65536 ∧
      65536 < arg2 (withArgs 0#32 2#32 65528#32 0#32) + 8 * arg1 (withArgs 0#32 2#32 65528#32 0#32)) := by decide +kernel

theorem witness_BiquadRecurrence : 0 < [fone].length := by decide

/-- The synchronizer's configuration with a length, a threshold and a READY flag. -/
def dabConfig (f thr : Word) (ready : Bool) (s : State) : State :=
  { s with dab := { s.dab with fragLen := f, lossThr := thr }, rs := { s.rs with ready := ready } }

/-- DabFeedErrors: each error met at the edge of its range. -/
theorem witness_DabFeedErrors :
    (dabConfig 24#32 1#32 false State.reset).rs.ready = false ∧
    ¬ (24 ≤ 0 ∧ 0 ≤ 1152 ∧ 0 % 24 = 0) ∧ ¬ (24 ≤ 1176 ∧ 1176 ≤ 1152) ∧ ¬ (25 % 24 = 0) ∧
    ¬ (5 * 24 % 121 = 0) ∧ (24 ≤ 24 ∧ 24 ≤ 1152 ∧ 24 % 24 = 0 ∧ 5 * 24 % State.reset.rs.n.toNat = 0) ∧
    (1152 ≤ 1152 ∧ 1152 % 24 = 0 ∧ 5 * 1152 % State.reset.rs.n.toNat = 0) ∧
    ¬ (1 ≤ (dabConfig 24#32 0#32 true State.reset).dab.lossThr.toNat) ∧
    ¬ ((dabConfig 24#32 256#32 true State.reset).dab.lossThr.toNat ≤ 255) ∧
    arg1 (withArgs 0#32 23#32 0#32 0#32) ≠ 24 ∧
    65536 < arg0 (withArgs 65513#32 24#32 0#32 0#32) + 24 ∧ 65536 < arg2 (withArgs 0#32 24#32 65417#32 0#32) + 5 * 24 := by
  decide +kernel

/-- Four fragments whose superframe has a wrong symbol in more places than the code corrects, with a fifth zero fragment. -/
def rejectedFifth (synced : Bool) : State :=
  { fifthZero with dab := { fourHeld with win := [1#8, 2#8, 0#8, 0#8].map (List.replicate 24), synced := synced } }

theorem dabInv_fourHeld : DabInv fourHeld := by unfold DabInv; decide +kernel

/-- DabFeedCompletes with fewer than four fragments held, with the regions ending at the end of BUF. -/
theorem witness_DabFeedCompletes_held :
    DabInv (dabConfig 24#32 255#32 true (withArgs 65512#32 24#32 65416#32 0#32)).dab ∧
    5 * 24 % State.reset.rs.n.toNat = 0 ∧ 65512 + 24 ≤ 65536 ∧ 65416 + 5 * 24 ≤ 65536 ∧
    State.reset.dab.win.length < 4 := ⟨by unfold DabInv; decide +kernel, by decide +kernel⟩

/-- DabFeedCompletes with a superframe accepted, and with one rejected in each of the two modes. -/
theorem witness_DabFeedCompletes_validated :
    DabInv fifthZero.dab ∧ fifthZero.rs.ready = true ∧ fifthZero.dab.fragLen.toNat = 24 ∧ arg1 fifthZero = 24 ∧
    fifthZero.dab.win.length = 4 ∧
    validate fifthZero (fifthZero.dab.win ++ [List.replicate 24 0#8]).flatten = some (List.replicate 120 0#8, 0) ∧
    DabInv (rejectedFifth false).dab ∧ DabInv (rejectedFifth true).dab ∧ (rejectedFifth true).dab.win.length = 4 ∧
    validate (rejectedFifth false) ((rejectedFifth false).dab.win ++ [List.replicate 24 0#8]).flatten = none ∧
    validate (rejectedFifth true) ((rejectedFifth true).dab.win ++ [List.replicate 24 0#8]).flatten = none :=
  ⟨dabInv_fourHeld, rfl, rfl, rfl, rfl, by decide +kernel, by unfold DabInv; decide +kernel, by unfold DabInv; decide +kernel,
    by decide +kernel, by decide +kernel, by decide +kernel⟩

/-- A superframe of eight words of which the sixth has one error, one whose first word has three, and a state whose Fire code does
not match the zero superframe's. -/
def oneError : List Byte := (List.replicate 120 0#8).set 5 7#8

def threeErrors : List Byte := (((List.replicate 120 0#8).set 0 1#8).set 8 1#8).set 16 2#8

def fireOn (init : BitVec 16) : State :=
  { fifthZero with dab := { fourHeld with fireEn := true }, crc1 := { CrcMode.reset1 with init := init } }

/-- What RS_CORRECT answers for the words of `oneError`. -/
def goodWords (i : Nat) : List Nat × List Nat := (List.replicate 15 0, if i = 5 then [0] else [])

theorem witness_AcceptedIsValid :
    RsInv fifthZero.rs ∧ (List.replicate 120 0#8).length % fifthZero.rs.n.toNat = 0 ∧
    validate fifthZero (List.replicate 120 0#8) = some (List.replicate 120 0#8, 0) ∧
    ({ fifthZero with dab := { fifthZero.dab with fireEn := true } } : State).dab.fireEn = true ∧
    oneError.length = 120 ∧ threeErrors.length = 120 ∧
    (∀ i, i < 8 → rsCorrect (rsCodeOf smallCode) (symbolsOf (rsCodeOf smallCode) (interleaved oneError 8 15 i)) [] =
      some (goodWords i)) ∧
    rsCorrect (rsCodeOf smallCode) (symbolsOf (rsCodeOf smallCode) (interleaved threeErrors 8 15 0)) [] = none ∧
    validate fifthZero oneError = some (List.replicate 120 0#8, 1) ∧
    validate (fireOn 0#16) oneError = some (List.replicate 120 0#8, 1) ∧
    validate (fireOn 1#16) oneError = none ∧ validate fifthZero threeErrors = none :=
  ⟨rsInv_small, by decide +kernel⟩

/-- RsInitCompletes: m at 1 and 9 (RS-C5); 0x11B (RS-C3); FCR, PRIM, NROOTS and PAD one too large, PRIM 5 (RS-C4), and
everything at the edges that pass. -/
theorem witness_RsInitCompletes :
    ¬ (2 ≤ 1 ∧ 1 ≤ 8) ∧ ¬ (2 ≤ 9 ∧ 9 ≤ 8) ∧ ¬ (isPrimitive 8 0x11B = true) ∧ isPrimitive 8 0x11D = true ∧ isPrimitive 2 7 = true ∧
    ¬ (255 ≤ 2 ^ 8 - 2) ∧ 254 ≤ 2 ^ 8 - 2 ∧ ¬ (Nat.gcd 5 (2 ^ 8 - 1) = 1) ∧ ¬ (1 ≤ 0) ∧
    (1 ≤ 254 ∧ 254 ≤ 2 ^ 8 - 2 ∧ Nat.gcd 254 (2 ^ 8 - 1) = 1) ∧ ¬ (255 ≤ 2 ^ 8 - 2) ∧ (1 ≤ 10 ∧ 10 ≤ 2 ^ 8 - 2) ∧
    ¬ (245 + 10 ≤ 2 ^ 8 - 2) ∧ 244 + 10 ≤ 2 ^ 8 - 2 ∧
    State.reset.rs.config.symsize.toNat = 8 ∧ State.reset.rs.config.gfpoly.toNat = 0x11D := by decide +kernel

theorem witness_PrimitiveMeansOrder : 2 ≤ 2 ∧ isPrimitive 2 7 = true ∧ isPrimitive 8 0x11D = true ∧ isPrimitive 8 0x11B = false := by
  decide +kernel

/-- RsDecodeErrors: each error met, the lengths and offsets one too large. -/
theorem witness_RsDecodeErrors :
    ({ State.reset with rs := { Rs.reset with ready := false } } : State).rs.ready = false ∧
    State.reset.rs.ready = true ∧ State.reset.rs.latched.nroots.toNat < arg2 (withArgs 0#32 0#32 11#32 0#32) ∧
    65536 < arg0 (withArgs 65417#32 0#32 0#32 0#32) + State.reset.rs.n.toNat ∧
    65536 < arg1 (withArgs 0#32 65527#32 10#32 0#32) + arg2 (withArgs 0#32 65527#32 10#32 0#32) ∧
    65536 < arg3 (withArgs 0#32 0#32 0#32 65527#32) + State.reset.rs.latched.nroots.toNat := by decide +kernel

/-- RsDecodeCompletes: the regions ending at the end of BUF; a bad list; an uncorrectable word; a corrected one. -/
theorem witness_RsDecodeCompletes :
    (65416 + State.reset.rs.n.toNat ≤ 65536 ∧ 65526 + 10 ≤ 65536 ∧ 65526 + State.reset.rs.latched.nroots.toNat ≤ 65536) ∧
    (receivedG wordG1).rs.ready = true ∧ arg2 (receivedG wordG1) ≤ (receivedG wordG1).rs.latched.nroots.toNat ∧
    ¬ (∀ e, e ∈ [15] → e < smallRs.n.toNat) ∧ ¬ ([5, 5].Nodup) ∧
    rsCorrect (rsCodeOf smallCode) ((wordG1.set 14 7#8).map (fun b => b.toNat % 16)) [] = none ∧
    rsCorrect (rsCodeOf smallCode) (wordG1.map (fun b => b.toNat % 16)) [] =
      some ([1, 2, 3, 4, 5, 6, 7, 8, 9, 10, 11, 11, 10, 14, 6], [0, 9]) := by decide +kernel

/-- The codeword of RS-G1, and the same with errors of a value at some positions. -/
def codewordG : List Nat := [1, 2, 3, 4, 5, 6, 7, 8, 9, 10, 11, 11, 10, 14, 6]

def withErrors (ps : List Nat) : List Nat := codewordG.zipIdx.map (fun sj => if ps.contains sj.2 then sj.1 ^^^ 9 else sj.1)

theorem rsLegal_small : RsLegal smallCode := by unfold RsLegal; decide +kernel

/-- RsCorrectSound: a codeword, words that are corrected with 2 e + f = NROOTS = 4 (two errors, one error and two erasures, four
erasures), and with less, an erased symbol being right. -/
theorem witness_RsCorrectSound :
    rsCorrect (rsCodeOf smallCode) (withErrors [14]) [14] = some (codewordG, [14]) ∧
    rsCorrect (rsCodeOf smallCode) (List.replicate 15 0) [3] = some (List.replicate 15 0, []) ∧
    codewordG.length = 2 ^ 4 - 1 ∧ (∀ x, x ∈ codewordG → x < 2 ^ 4) ∧ isCodeword (rsCodeOf smallCode) codewordG = true ∧
    (∀ c ∈ [([0, 14], []), ([3, 5, 7], [7, 5]), ([0, 1, 2, 14], [0, 1, 2, 14]), ([4], [6])],
      (∀ x, x ∈ withErrors c.1 → x < 2 ^ 4) ∧ (withErrors c.1).length = 15 ∧ c.2.Nodup ∧
      isCodeword (rsCodeOf smallCode) (withErrors c.1) = false ∧
      2 * (c.1.filter (fun j => !c.2.contains j)).length + c.2.length ≤ 4 ∧
      rsCorrect (rsCodeOf smallCode) (withErrors c.1) c.2 =
        some (codewordG, (List.range 15).filter (fun j => c.1.contains j || c.2.contains j))) := by decide +kernel

theorem witness_CrcCalcCompletes :
    65536 < arg0 (withArgs 65536#32 1#32 0#32 0#32) + arg1 (withArgs 65536#32 1#32 0#32 0#32) ∧
    arg0 (withArgs 65536#32 0#32 0#32 0#32) + arg1 (withArgs 65536#32 0#32 0#32 0#32) ≤ 65536 ∧ 2 ≤ (2#4).toNat ∧
    2 ≤ (15#4).toNat ∧
    -- the letter A (CRC-7 and CRC-8): the register whose output each mode's CRC is
    crc16 CrcMode.reset0 [0x41#8] = BitVec.reverse 0x503A#16 ^^^ 0xFFFF#16 ∧ crc16 CrcMode.reset1 [0x41#8] = 0xC039#16 ^^^ 0#16 := by
  decide +kernel

theorem witness_CrcCheckCompletes :
    65536 < arg0 (withArgs 65535#32 2#32 0#32 0#32) + arg1 (withArgs 65535#32 2#32 0#32 0#32) ∧
    (arg0 (withArgs 65535#32 1#32 65535#32 0#32) + arg1 (withArgs 65535#32 1#32 65535#32 0#32) ≤ 65536 ∧
      65536 < arg2 (withArgs 65535#32 1#32 65535#32 0#32) + 2) ∧
    arg2 (withArgs 65535#32 1#32 65534#32 0#32) + 2 ≤ 65536 := by decide +kernel

theorem witness_CrcSelfCheck :
    CrcMode.reset1.cfg.getLsbD 0 = false ∧ CrcMode.reset1.cfg.getLsbD 1 = false ∧ CrcMode.reset1.xorout = 0#16 := by decide

/-- A level-1 profile with two segments, at a size n. -/
def vitProfile (seg0 seg1 : BitVec 24) : Vit := { vitTables with prof := (vitTables.prof.set 0 seg0).set 1 seg1 }

/-- VitDecodeErrors: no polynomials; a negative count; an index of 0 and of 25; both counts 0; a length one short; regions one
past the end. -/
theorem witness_VitDecodeErrors :
    (∀ j : Fin 4, State.reset.vit.poly[j] = 0#7) ∧ ¬ (∀ j : Fin 4, vitTables.poly[j] = 0#7) ∧
    segmentBad (segment (vitProfile 0xFD0608#24 0#24) 1 0) 0 = true ∧
    segmentBad (segment (vitProfile 0x010000#24 0#24) 1 0) 1 = true ∧
    (segmentBad (segment (vitProfile 0x010008#24 0x010019#24) 1 0) 1 = false ∧
      segmentBad (segment (vitProfile 0x010008#24 0x010019#24) 1 1) 1 = true) ∧
    (segmentBad (segment (vitProfile 0#24 0#24) 1 0) 1 = false ∧ segmentBad (segment (vitProfile 0#24 0#24) 1 1) 1 = false ∧
      totalBlocks (vitProfile 0#24 0#24) 1 1 = 0) ∧
    (segmentBad (segment vitTables 1 0) 1 = false ∧ segmentBad (segment vitTables 1 1) 1 = false ∧
      totalBlocks vitTables 1 1 = 1 ∧ transmitted vitTables 1 1 = 76) ∧
    75 < 76 ∧ 65536 < 65461 + 76 ∧ 65536 < 65533 + 4 * 1 := by decide +kernel

/-- The last level, and an index and a block count at the upper ends. -/
theorem witness_VitDecodeErrors_level_4 :
    1 ≤ (4#4).toNat ∧ (4#4).toNat ≤ 4 ∧ 1 ≤ (1#4).toNat ∧
    segmentBad (segment { vitTables with prof := vitTables.prof.set 6 0x010018#24 } 4 0) 1 = false := by decide +kernel

/-- VitDecodeCompletes: both regions ending at the end of BUF. -/
theorem witness_VitDecodeCompletes :
    ¬ (∀ j : Fin 4, vitTables.poly[j] = 0#7) ∧ segmentBad (segment vitTables 1 0) 1 = false ∧
    segmentBad (segment vitTables 1 1) 1 = false ∧ totalBlocks vitTables 1 1 ≠ 0 ∧
    transmitted vitTables 1 1 ≤ 76 ∧ 65460 + transmitted vitTables 1 1 ≤ 65536 ∧
    65532 + 4 * totalBlocks vitTables 1 1 ≤ 65536 := by decide +kernel

theorem witness_ViterbiOptimal : [0x5B, 0x79, 0x65, 0x5B].length = 4 ∧ (List.replicate 28 (100 : Int)).length = 4 * (1 + 6) ∧
    [true].length = 1 ∧ 0 < 1 + 6 ∧ 6 < 1 + 6 ∧ 0 < 4 ∧ 3 < 4 := by decide

/-- PunctureMask: block counts 1 and 0 (VIT-1), both positive, and 0; indices 8, 1 and 24; the first and the last bit of a block
and of the tail; an input of length T. -/
theorem witness_PunctureMask :
    segmentOf 0x010008#24 = ⟨8, 0, 1⟩ ∧ segmentOf 0x010001#24 = ⟨1, 0, 1⟩ ∧ segmentOf 0x010018#24 = ⟨24, 0, 1⟩ ∧
    vitTables.prof.toList.getD (2 * (1 - 1) + 0) 0#24 = 0x010008#24 ∧
    vitTables.prof.toList.getD (2 * (1 - 1) + 1) 0#24 = 0#24 ∧
    (vitProfile 0x010001#24 0x010018#24).prof.toList.getD (2 * (1 - 1) + 1) 0#24 = 0x010018#24 ∧
    (0 < 128 ∧ 127 < 128 ∧ 0 < 24 ∧ 23 < 24) ∧
    (List.replicate 76 (0 : Int)).length = transmitted vitTables 1 1 := by decide +kernel

theorem witness_PwrCalcCompletes :
    ¬ (1 ≤ (fmWith State.reset 0#32 1#32).diag.pwrWin.toNat) ∧
    (1 ≤ (fmWith State.reset 1#32 0#32).diag.pwrWin.toNat ∧ (fmWith State.reset 1#32 0#32).diag.pwrMax = 0#32) ∧
    ((fmWith State.reset 65535#32 1#32).diag.pwrWin.toNat ≤ 65535 ∧ (fmWith State.reset 65535#32 1#32).diag.pwrMax ≠ 0#32) ∧
    65536 < arg0 (withArgs 65535#32 1#32 0#32 0#32) + 2 * arg1 (withArgs 65535#32 1#32 0#32 0#32) ∧
    arg0 (withArgs 65534#32 1#32 0#32 0#32) + 2 * arg1 (withArgs 65534#32 1#32 0#32 0#32) ≤ 65536 := by decide +kernel

/-- BrAddCompletes: a window of one second, and one a microsecond shorter. -/
theorem witness_BrAddCompletes :
    1000000 ≤ (({ State.reset with time := 1000000#64 } : State).time - State.reset.diag.brT0).toNat ∧
    (({ State.reset with time := 999999#64 } : State).time - State.reset.diag.brT0).toNat < 1000000 := by decide +kernel

/-- StnScoreCompletes: the rate, the length, the alignment and the region, each just outside and just inside. -/
theorem witness_StnScoreCompletes :
    ¬ (100 ≤ arg2 (withArgs 0#32 4096#32 99#32 0#32)) ∧ ¬ (arg2 (withArgs 0#32 4096#32 204900#32 0#32) ≤ 204899) ∧
    (100 ≤ arg2 (withArgs 0#32 4095#32 100#32 0#32) ∧ arg1 (withArgs 0#32 4095#32 100#32 0#32) < 4096) ∧
    arg1 (withArgs 0#32 4097#32 100#32 0#32) % 2 = 1 ∧
    (4096 ≤ arg1 (withArgs 1#32 4096#32 204899#32 0#32) ∧ arg0 (withArgs 1#32 4096#32 204899#32 0#32) % 2 = 1) ∧
    65536 < arg0 (withArgs 61442#32 4096#32 100#32 0#32) + arg1 (withArgs 61442#32 4096#32 100#32 0#32) ∧
    (arg0 (withArgs 61440#32 4096#32 100#32 0#32) % 2 = 0 ∧
      arg0 (withArgs 61440#32 4096#32 100#32 0#32) + arg1 (withArgs 61440#32 4096#32 100#32 0#32) ≤ 65536) := by decide +kernel

end Sys2Proof.Tests
end

section
/-! PROOFS. Host reads of registers as steps of the block, and the timer registers (spec file 10, R40). -/

namespace Sys2Proof.Machine

/-- A 32-bit read at an aligned offset of the CSR window is answered with its effect (R105). -/
theorem hostAccess_csrWindow {off : Nat} (hwindow : off < Config.csrWindow) (haligned : off % 4 = 0)
    (effect : State → State) (s : State) : hostAccess off .w32 effect s = .next (effect s) := by
  have hinside : ¬ Config.mmioSize ≤ off := by simp only [csrWindow_eq, mmioSize_eq] at *; omega
  have hok : accessOk off .w32 = true := decide_eq_true haligned
  rw [hostAccess, if_neg hinside, if_pos hok]

/-- The step of a 32-bit host read of a register: its word is returned, and TIME_LO alone loads the latch (R40, R109). -/
theorem step_readCsr {off : Nat} {c : Csr} (hcsr : csrAt off = some c) (hwindow : off < Config.csrWindow)
    (haligned : off % 4 = 0) (s : State) (rest : List Event) :
    step { s with env := .read off .w32 :: rest } =
      .next { s with
        env := rest
        timeHiLatch := if c = .timeLo then highHalf s.time else s.timeHiLatch
        hostData := readCsr { s with env := rest } c } := by
  rw [step_of_event rfl, takeEvent, hostRead, hostAccess_csrWindow hwindow haligned, readAt_csr _ hcsr hwindow,
    afterCsrRead_eq]

/-- Settles O19: both registers by the step of a register read, at their offsets 0x040 and 0x044 (R40). -/
theorem timerLatch : Obligations.TimerLatch := by
  intro s rest
  have htimeLo : csrAt 0x40 = some .timeLo := rfl
  have htimeHi : csrAt 0x44 = some .timeHi := rfl
  refine ⟨?timeLo, ?timeHi, ?resetTime, ?resetLatch⟩
  case timeLo =>
    rw [step_readCsr htimeLo (by decide) rfl, if_pos rfl]
    rfl
  case timeHi =>
    rw [step_readCsr htimeHi (by decide) rfl, if_neg (by decide)]
    rfl
  case resetTime => rfl
  case resetLatch => rfl

end Sys2Proof.Machine
end

section
/-! PROOFS. The host accesses the block answers, by width, alignment and side of the window (spec file 20, R105). -/

namespace Sys2Proof.Machine

/-- R105 as a condition on the offset and the width: 32-bit aligned accesses below BUF, aligned accesses of up to 32 bits in BUF. -/
theorem accessOk_iff (off : Nat) (w : Width) :
    accessOk off w = true ↔
      (off < 0x10000 ∧ w = .w32 ∧ off % 4 = 0) ∨
      (0x10000 ≤ off ∧ (w = .w8 ∨ (w = .w16 ∧ off % 2 = 0) ∨ (w = .w32 ∧ off % 4 = 0))) := by
  cases w with
  | w8 | w16 =>
    simp only [accessOk, Bool.and_eq_true, decide_eq_true_eq]
    simp
  | w32 =>
    have hside : off < 0x10000 ∨ 0x10000 ≤ off := Nat.lt_or_ge ..
    simp [accessOk, ← or_and_right, hside]
  | w64 => simp [accessOk]

/-- An access of the window is answered with its effect exactly when its width and alignment are legal (R105). -/
theorem hostAccess_inWindow {off : Nat} (hwindow : off < Config.mmioSize) (w : Width) (effect : State → State) (s : State) :
    hostAccess off w effect s = if accessOk off w then .next (effect s) else .fault .busError := by
  rw [hostAccess, if_neg (Nat.not_le_of_lt hwindow)]

/-- The step of a host read of the window (R102, R105). -/
theorem step_readInWindow {off : Nat} (hwindow : off < Config.mmioSize) (w : Width) (s : State) (rest : List Event) :
    step { s with env := .read off w :: rest } =
      if accessOk off w then .next (readAt off w { s with env := rest }) else .fault .busError := by
  rw [step_of_event rfl, takeEvent, hostRead, hostAccess_inWindow hwindow]

/-- The step of a host write of the window (R102, R105). -/
theorem step_writeInWindow {off : Nat} (hwindow : off < Config.mmioSize) (w : Width) (v : BitVec 64) (s : State)
    (rest : List Event) :
    step { s with env := .write off w v :: rest } =
      if accessOk off w then .next (writeAt off w v { s with env := rest }) else .fault .busError := by
  rw [step_of_event rfl, takeEvent, hostWrite, hostAccess_inWindow hwindow]

/-- Settles O11: the statement's condition is `accessOk`, which decides between the effect and the bus error (R105). -/
theorem busErrors : Obligations.BusErrors := by
  intro s rest off w v hwindow legal
  have hlegal : accessOk off w = true ↔ legal := accessOk_iff off w
  rw [← hlegal, step_readInWindow hwindow, step_writeInWindow hwindow]
  refine ⟨?refused, ?answered⟩
  case refused =>
    intro hbad
    exact ⟨if_neg hbad, if_neg hbad⟩
  case answered =>
    intro hok
    exact ⟨⟨_, if_pos hok⟩, ⟨_, if_pos hok⟩⟩

end Sys2Proof.Machine
end

section
/-! PROOFS. The fields of the command word and the opcode map (spec file 30, R130, R132, R133). -/

namespace Sys2Proof

/-- A word is its three fields side by side (R130). -/
theorem append_fields (w : Word) : opcField w ++ selField w ++ rsvField w = w := by
  have hopcSel : opcField w ++ selField w = w.extractLsb' 20 12 := BitVec.extractLsb'_append_extractLsb'_eq_extractLsb' rfl
  have hall : w.extractLsb' 20 12 ++ rsvField w = w.extractLsb' 0 32 :=
    BitVec.extractLsb'_append_extractLsb'_eq_extractLsb' rfl
  rw [hopcSel, hall, BitVec.extractLsb'_eq_self]

/-- The word of a command is the one word with its opcode, its selector and RSV = 0 (R130). -/
theorem encode_eq_of_fields {i : Instr} {w : Word} (hopc : opcodeOf i = opcField w) (hsel : i.sel = selField w)
    (hrsv : rsvField w = 0#20) : encode i = w := by
  rw [encode, hopc, hsel, ← hrsv]
  exact append_fields w

/-- The word of a command decodes to it (R132). -/
theorem decode_encode (i : Instr) : decode (encode i) = .command i := by
  cases i with
  | nop sel => exact Laws.RoundTrip.nop sel
  | fmStart sel => exact Laws.RoundTrip.fmStart sel
  | fmProcess sel => exact Laws.RoundTrip.fmProcess sel
  | fmFinish sel => exact Laws.RoundTrip.fmFinish sel
  | iqPolar sel => exact Laws.RoundTrip.iqPolar sel
  | bqDesign sel => exact Laws.RoundTrip.bqDesign sel
  | bqRun sel => exact Laws.RoundTrip.bqRun sel
  | bqClear sel => exact Laws.RoundTrip.bqClear sel
  | pllRun sel => exact Laws.RoundTrip.pllRun sel
  | pllClear sel => exact Laws.RoundTrip.pllClear sel
  | dabReset sel => exact Laws.RoundTrip.dabReset sel
  | dabFeed sel => exact Laws.RoundTrip.dabFeed sel
  | rsInit sel => exact Laws.RoundTrip.rsInit sel
  | rsDecode sel => exact Laws.RoundTrip.rsDecode sel
  | crcCalc sel => exact Laws.RoundTrip.crcCalc sel
  | crcCheck sel => exact Laws.RoundTrip.crcCheck sel
  | vitDecode sel => exact Laws.RoundTrip.vitDecode sel
  | pwrCalc sel => exact Laws.RoundTrip.pwrCalc sel
  | brAdd sel => exact Laws.RoundTrip.brAdd sel
  | stnScore sel => exact Laws.RoundTrip.stnScore sel

/-- The opcode map gives an opcode only the commands that have it (R133). -/
theorem opcodeOf_commandOf {opc : Nat} {sel : BitVec 4} {i : Instr} (h : commandOf opc sel = some i) :
    (opcodeOf i).toNat = opc := by
  unfold commandOf at h
  split at h <;> cases h <;> rfl

/-- A word with RSV other than 0 is illegal (R132). -/
theorem decode_of_rsv_ne {w : Word} (hrsv : rsvField w ≠ 0#20) : decode w = .illegalCommand := if_neg hrsv

/-- A word with an opcode of no command is illegal (R132). -/
theorem decode_of_unlisted {w : Word} (hopc : commandOf (opcField w).toNat (selField w) = none) :
    decode w = .illegalCommand := by
  rw [decode, hopc, ite_self]

/-- A command is well formed when its selector is in its range (R132). -/
theorem Instr.wf_iff (i : Instr) : i.wf = true ↔ i.selRange.1 ≤ i.sel.toNat ∧ i.sel.toNat ≤ i.selRange.2 := by
  rw [Instr.wf, Bool.and_eq_true, decide_eq_true_iff, decide_eq_true_iff]

namespace Machine

/-- Every command has its row in the table (R133). -/
theorem row_mem_commandTable (i : Instr) : ((opcodeOf i).toNat, i.selRange) ∈ commandTable := by
  cases i <;> simp [opcodeOf, Instr.selRange, commandTable]

/-- Every row of the table is the row of a command, for each selector (R133). -/
theorem exists_command_of_row (sel : BitVec 4) {row : Nat × Nat × Nat} (h : row ∈ commandTable) :
    ∃ i : Instr, (opcodeOf i).toNat = row.1 ∧ i.selRange = row.2 ∧ i.sel = sel := by
  have hlisted : ∀ r ∈ commandTable, ∃ i, commandOf r.1 sel = some i ∧ i.selRange = r.2 ∧ i.sel = sel := by
    simp [commandTable, commandOf, Instr.selRange, Instr.sel]
  obtain ⟨i, hcommand, hrange, hsel⟩ := hlisted row h
  exact ⟨i, opcodeOf_commandOf hcommand, hrange, hsel⟩

/-- An opcode that is in no row is the opcode of no command (R132, R133). -/
theorem commandOf_unlisted {opc : Nat} (sel : BitVec 4) (h : ∀ row, row ∈ commandTable → row.1 ≠ opc) :
    commandOf opc sel = none := by
  cases hcommand : commandOf opc sel with
  | none => rfl
  | some i => exact absurd (opcodeOf_commandOf hcommand) (h _ (row_mem_commandTable i))

end Machine

end Sys2Proof
end

section
/-! PROOFS. How a pending word completes (spec file 30, R132, R137). -/

namespace Sys2Proof.Machine

/-- Every command is run behind the selector check of its range (R132, R501). -/
theorem exec_eq_runCommand (i : Instr) (s : State) :
    ∃ check effect, exec i s = runCommand (withSelector i.selRange.1 i.selRange.2 i.sel check) effect s := by
  cases i <;> exact ⟨_, _, rfl⟩

/-- A command that is not well formed ends with BAD_SELECTOR and its word (R132). -/
theorem exec_of_not_wf {i : Instr} (hwf : ¬ i.wf = true) (s : State) : exec i s = .next (failedWith s 2#8 s.cmd) := by
  obtain ⟨check, effect, hrun⟩ := exec_eq_runCommand i s
  rw [i.wf_iff] at hwf
  rw [hrun, runCommand_error (withSelector_outside hwf), raiseError_eq_failedWith]
  rfl

section Pending

variable {s : State} (henv : s.env = []) (hbusy : s.busy = true)
include henv hbusy

/-- With a command pending and no event left, the step completes the command (R531, log 2). -/
theorem step_of_pending : step s = completePending s := by
  rw [step_of_idle_world henv, completeIfBusy, if_pos hbusy]

/-- The step that completes a word that decodes to a command is the command's meaning (R531). -/
theorem step_of_command {i : Instr} (hdecode : decode s.cmd = .command i) : step s = exec i s := by
  rw [step_of_pending henv hbusy, completePending, fetch, hdecode]

/-- The step that completes an illegal word ends with ILLEGAL_COMMAND and the word (R132). -/
theorem step_of_illegal (hdecode : decode s.cmd = .illegalCommand) : step s = .next (failedWith s 1#8 s.cmd) := by
  rw [step_of_pending henv hbusy, completePending, fetch, hdecode]
  exact congrArg _ (raiseError_eq_failedWith _ s)

end Pending

/-- Settles O2: a listed opcode with RSV = 0 is the word of the command of its row, whose selector check decides; any other
word does not decode. -/
theorem legalWords : Obligations.LegalWords := by
  intro s henv hbusy opc sel rsv
  refine ⟨?illegal, ?listed⟩
  case illegal =>
    rintro (hopc | hrsv)
    · exact step_of_illegal henv hbusy (decode_of_unlisted (commandOf_unlisted _ hopc))
    · exact step_of_illegal henv hbusy (decode_of_rsv_ne hrsv)
  case listed =>
    intro row hrow hopc hrsv
    obtain ⟨i, hiopc, hrange, hsel⟩ := exists_command_of_row (selField s.cmd) hrow
    have hword : encode i = s.cmd := encode_eq_of_fields (BitVec.eq_of_toNat_eq (hiopc.trans hopc)) hsel hrsv
    have hstep : step s = exec i s := step_of_command henv hbusy (hword ▸ decode_encode i)
    have hwf : i.wf = true ↔ row.2.1 ≤ sel ∧ sel ≤ row.2.2 := by
      rw [i.wf_iff, hrange, hsel]
      rfl
    rw [hstep, ← hwf]
    exact ⟨fun hbad => exec_of_not_wf hbad s, fun hgood => ⟨i, hgood, hword, rfl⟩⟩

/-- Settles O3: each good word is the word of its command; 0x50200000 is that of CRC_CALC with SEL 2, 0x50100001 has RSV = 1
and 0x01000000 the opcode 0x01 of no command. -/
theorem workedWords : Obligations.WorkedWords := by
  refine ⟨decode_encode (.crcCalc 1#4), decode_encode (.crcCheck 1#4), decode_encode (.vitDecode 3#4),
    decode_encode (.bqRun 3#4), decode_encode (.rsDecode 0#4), decode_encode (.fmProcess 0#4), ?errors⟩
  intro s henv hbusy
  refine ⟨?badSelector, ?reservedBits, ?unlistedOpcode⟩
  case badSelector =>
    intro hcmd
    have hdecode : decode s.cmd = .command (.crcCalc 2#4) := hcmd ▸ decode_encode (.crcCalc 2#4)
    rw [step_of_command henv hbusy hdecode, exec_of_not_wf (by decide), hcmd]
  case reservedBits =>
    intro hcmd
    have hdecode : decode s.cmd = .illegalCommand := hcmd ▸ decode_of_rsv_ne (by decide)
    rw [step_of_illegal henv hbusy hdecode, hcmd]
  case unlistedOpcode =>
    intro hcmd
    have hdecode : decode s.cmd = .illegalCommand := hcmd ▸ decode_of_unlisted rfl
    rw [step_of_illegal henv hbusy hdecode, hcmd]

end Sys2Proof.Machine
end

section
/-! PROOFS. A command with a legal selector, from its checks and its effect to its record (spec files 30 and 60, R132, R501, R504). -/

namespace Sys2Proof.Machine

/-- A legal selector adds nothing to a command's checks (R132). -/
theorem runCommand_withSelector {lo hi : Nat} {sel : BitVec 4} (hlo : lo ≤ sel.toNat) (hhi : sel.toNat ≤ hi)
    (check : State → Option CmdError) (effect : State → Effect) (s : State) :
    runCommand (withSelector lo hi sel check) effect s = runCommand check effect s := by
  rw [runCommand, withSelector_inside hlo hhi]
  rfl

section Records

variable {check : State → Option CmdError} {effect : State → Effect} {s : State}

/-- A command that fails a check ends with the record of that error (R504). -/
theorem runCommand_eq_failedWith {e : CmdError} (hcheck : check s = some e) :
    runCommand check effect s = .next (failedWith s (errNumber e.code) e.info) := by
  rw [runCommand_error hcheck, raiseError_eq_failedWith]

/-- A command that passes its checks ends with the success record of its effect (R504). -/
theorem runCommand_eq_doneWith {t : State} {r0 r1 r2 r3 : Word} {irqs all : BitVec 9} (hcheck : check s = none)
    (heffect : effect s = ⟨t, ⟨r0, r1, r2, r3⟩, irqs⟩) (hall : irqs ||| irqDone = all) :
    runCommand check effect s = .next (doneWith t r0 r1 r2 r3 all) := by
  rw [runCommand_success hcheck, heffect, succeed_eq_doneWith, hall]

end Records

end Sys2Proof.Machine
end

section
/-! PROOFS. FM_FINISH and FM_START (spec file 40, R210-R212, R230, R245). -/

namespace Sys2Proof.Machine

/-- FM_FINISH has the one selector 0 (R133). -/
theorem exec_fmFinish (s : State) : exec (.fmFinish 0#4) s = runCommand fmFinishCheck fmFinishEffect s :=
  runCommand_withSelector (sel := 0#4) (by decide) (by decide) fmFinishCheck fmFinishEffect s

/-- Settles O31: the one check reads RUNNING, and the effect writes RUNNING and FINISHED. -/
theorem fmFinishCompletes : Obligations.FmFinishCompletes := by
  intro s
  rw [exec_fmFinish]
  refine ⟨?idle, ?running⟩
  case idle =>
    intro hidle
    have hcheck : fmFinishCheck s = some ⟨.notReady, 0x114#32⟩ := by simp [fmFinishCheck, hidle]
    exact runCommand_eq_failedWith hcheck
  case running =>
    intro hrunning
    have hcheck : fmFinishCheck s = none := by simp [fmFinishCheck, hrunning]
    exact runCommand_eq_doneWith hcheck rfl rfl

/-- A check in front of others: all of them pass when it does and they do. -/
theorem ite_some_eq_none {α : Type} {p : Prop} [Decidable p] {e : α} {rest : Option α} :
    (if p then some e else rest) = none ↔ ¬ p ∧ rest = none := by
  split <;> simp [*]

/-- The legal pairs of a filter of type t: a frequency strictly between 0 and half the rate, which is then not 0, and a quality
other than 0 (R263). -/
theorem designFault_eq_none_iff {t : Nat} (ht : t ≤ 1) (f0 fs qm : Nat) :
    designFault t f0 fs qm = none ↔ 1 ≤ f0 ∧ 2 * f0 < fs ∧ 1 ≤ qm := by
  simp only [designFault, ite_some_eq_none, and_true]
  omega

/-- A pair of the stereo decoder is reported exactly when it is not legal (R210 check 4). -/
theorem designFault_isSome_iff {t : Nat} (ht : t ≤ 1) (f0 fs qm : Nat) :
    (designFault t f0 fs qm).isSome = true ↔ ¬ (1 ≤ f0 ∧ 2 * f0 < fs ∧ 1 ≤ qm) := by
  rw [← designFault_eq_none_iff ht, Option.isSome_iff_ne_none]

/-- FM_START has the one selector 0 (R133). -/
theorem exec_fmStart (s : State) : exec (.fmStart 0#4) s = runCommand fmStartCheck fmStartEffect s :=
  runCommand_withSelector (sel := 0#4) (by decide) (by decide) fmStartCheck fmStartEffect s

/-- A check of FM_START that fails ends it with BAD_CONFIG and the offset of the register (R210). -/
theorem exec_fmStart_of_fault {s : State} {off : Word} (hcheck : fmStartCheck s = some ⟨.badConfig, off⟩) :
    exec (.fmStart 0#4) s = .next (failedWith s 4#8 off) := by
  rw [exec_fmStart, runCommand_eq_failedWith hcheck]
  rfl

section StartChecks

variable {s : State}

/-- FM_START refuses a sample rate outside 1..3200000 (R210 check 1). -/
theorem fmStartCheck_of_badRate (hrate : ¬ (1 ≤ s.fm.samplerate.toNat ∧ s.fm.samplerate.toNat ≤ 3200000)) :
    fmStartCheck s = some ⟨.badConfig, 0x104#32⟩ := by
  rw [fmStartCheck, if_pos hrate]

variable (hrate : 1 ≤ s.fm.samplerate.toNat ∧ s.fm.samplerate.toNat ≤ 3200000)
include hrate

/-- FM_START refuses STEREO and EMPH together (R210 check 2). -/
theorem fmStartCheck_of_bothPaths (hstereo : ctrlStereo s.fm = true) (hemph : ctrlEmph s.fm = true) :
    fmStartCheck s = some ⟨.badConfig, 0x100#32⟩ := by
  simp [fmStartCheck, hrate, hstereo, hemph]

/-- With EMPH alone, FM_START refuses an output rate of 0, above the sample rate, or too far below it (R210 check 3). -/
theorem fmStartCheck_of_badOutRate (hstereo : ctrlStereo s.fm = false) (hemph : ctrlEmph s.fm = true)
    (hout : ¬ (1 ≤ s.fm.outRate.toNat ∧ s.fm.outRate.toNat ≤ s.fm.samplerate.toNat ∧
      s.fm.samplerate.toNat / s.fm.outRate.toNat ≤ 32768)) :
    fmStartCheck s = some ⟨.badConfig, 0x108#32⟩ := by
  have hfails : (decide (1 ≤ s.fm.outRate.toNat) && decide (s.fm.outRate.toNat ≤ s.fm.samplerate.toNat) &&
      decide (s.fm.samplerate.toNat / s.fm.outRate.toNat ≤ 32768)) = false := by
    simpa [and_assoc] using hout
  simp [fmStartCheck, hrate, hstereo, hemph, hfails]

/-- With EMPH alone, FM_START passes on a legal output rate (R210 check 3). -/
theorem fmStartCheck_of_emph (hstereo : ctrlStereo s.fm = false) (hemph : ctrlEmph s.fm = true)
    (hout : 1 ≤ s.fm.outRate.toNat ∧ s.fm.outRate.toNat ≤ s.fm.samplerate.toNat ∧
      s.fm.samplerate.toNat / s.fm.outRate.toNat ≤ 32768) :
    fmStartCheck s = none := by
  simp [fmStartCheck, hrate, hstereo, hemph, hout]

/-- With neither STEREO nor EMPH, FM_START checks no more than the sample rate (R210). -/
theorem fmStartCheck_of_mono (hstereo : ctrlStereo s.fm = false) (hemph : ctrlEmph s.fm = false) :
    fmStartCheck s = none := by
  simp [fmStartCheck, hrate, hstereo, hemph]

/-- With STEREO alone, FM_START checks the three filter pairs (R210 check 4). -/
theorem fmStartCheck_of_stereo (hstereo : ctrlStereo s.fm = true) (hemph : ctrlEmph s.fm = false) :
    fmStartCheck s = stereoConfigError s.fm := by
  simp [fmStartCheck, hrate, hstereo, hemph]

end StartChecks

section StartEffect

variable {s : State}

/-- When its checks pass, FM_START ends with its effect and returns D and A (R210, R211, R230). -/
theorem exec_fmStart_of_pass (hcheck : fmStartCheck s = none) :
    exec (.fmStart 0#4) s = .next (doneWith (fmStartEffect s).state (fmStarted numerics s.fm).downsample
      (fmStarted numerics s.fm).deemphA 0#32 0#32 0x001#9) := by
  rw [exec_fmStart]
  exact runCommand_eq_doneWith hcheck rfl rfl

/-- Without STEREO, FM_START writes the FM unit's registers only (R210). -/
theorem fmStartEffect_state_of_plain (hstereo : ctrlStereo s.fm = false) :
    (fmStartEffect s).state = { s with fm := fmStarted numerics s.fm } :=
  if_neg (by simp [hstereo])

/-- With STEREO, FM_START designs the four filters and restarts the loop too (R212). -/
theorem fmStartEffect_state_of_stereo (hstereo : ctrlStereo s.fm = true) :
    (fmStartEffect s).state = { s with
      fm := fmStarted numerics s.fm, bq := stereoSlots numerics s.fm s.bq, pll := stereoLoop s.fm s.pll } :=
  if_pos hstereo

/-- Without EMPH, the de-emphasis divisor is 0 (R210). -/
theorem fmStarted_deemphA_of_not_emph (nm : Numerics) {f : Fm} (hemph : ctrlEmph f = false) :
    (fmStarted nm f).deemphA = 0#32 :=
  if_neg (by simp [hemph])

end StartEffect

/-- Settles O26: one lemma of `fmStartCheck` decides each branch, and where it passes the registers are `fmStarted`. -/
theorem fmStartCompletes : Obligations.FmStartCompletes := by
  intro s f sr rate stereo emph bad u a d started slot
  refine ⟨?badRate, fun hlow hhigh => ⟨?bothPaths, ?emphOnly, ?mono, ?stereoOnly⟩⟩
  case badRate => exact fun hrate => exec_fmStart_of_fault (fmStartCheck_of_badRate hrate)
  case bothPaths =>
    exact fun hstereo hemph => exec_fmStart_of_fault (fmStartCheck_of_bothPaths ⟨hlow, hhigh⟩ hstereo hemph)
  case emphOnly =>
    intro hstereo hemph
    refine ⟨fun hout => exec_fmStart_of_fault (fmStartCheck_of_badOutRate ⟨hlow, hhigh⟩ hstereo hemph hout), ?_⟩
    intro hone hle hquotient
    rw [exec_fmStart_of_pass (fmStartCheck_of_emph ⟨hlow, hhigh⟩ hstereo hemph ⟨hone, hle, hquotient⟩),
      fmStartEffect_state_of_plain hstereo]
    rfl
  case mono =>
    intro hstereo hemph
    rw [exec_fmStart_of_pass (fmStartCheck_of_mono ⟨hlow, hhigh⟩ hstereo hemph), fmStartEffect_state_of_plain hstereo,
      fmStarted_deemphA_of_not_emph numerics hemph]
    rfl
  case stereoOnly =>
    intro hstereo hemph
    have hcheck : fmStartCheck s = stereoConfigError f := fmStartCheck_of_stereo ⟨hlow, hhigh⟩ hstereo hemph
    have hpilot : (designFault 1 f.pilotF.toNat sr f.pilotQm.toNat).isSome = true ↔ bad f.pilotF f.pilotQm :=
      designFault_isSome_iff le_rfl ..
    have hsub : (designFault 1 f.subF.toNat sr f.subQm.toNat).isSome = true ↔ bad f.subF f.subQm :=
      designFault_isSome_iff le_rfl ..
    have hlpf : (designFault 0 f.lpfF.toNat sr f.lpfQm.toNat).isSome = true ↔ bad f.lpfF f.lpfQm :=
      designFault_isSome_iff zero_le_one ..
    rw [← hpilot, ← hsub, ← hlpf]
    refine ⟨?pilotFault, ?subFault, ?lpfFault, ?pass⟩
    case pilotFault =>
      intro hp
      exact exec_fmStart_of_fault (hcheck.trans (if_pos hp))
    case subFault =>
      intro hp hs
      exact exec_fmStart_of_fault (hcheck.trans (by rw [stereoConfigError, if_neg hp, if_pos hs]))
    case lpfFault =>
      intro hp hs hl
      exact exec_fmStart_of_fault (hcheck.trans (by rw [stereoConfigError, if_neg hp, if_neg hs, if_pos hl]))
    case pass =>
      intro hp hs hl
      have hlegal : stereoConfigError f = none := by rw [stereoConfigError, if_neg hp, if_neg hs, if_neg hl]
      rw [exec_fmStart_of_pass (hcheck.trans hlegal), fmStartEffect_state_of_stereo hstereo,
        fmStarted_deemphA_of_not_emph numerics hemph]
      rfl

end Sys2Proof.Machine
end

section
/-! PROOFS. The angle functions at the origin, on the axes and the diagonals, the integer square root, and IQ_POLAR (spec file 40,
R222-R224, R246). -/

namespace Sys2Proof.Machine

/-- A search that knows the root to lie in r .. r + 2^k - 1 finds it (R246). -/
theorem isqrtFrom_eq_sqrt (n : Nat) : ∀ k r, r * r ≤ n → n < (r + 2 ^ k) * (r + 2 ^ k) → isqrtFrom n k r = Nat.sqrt n
  | 0, _, hlow, hhigh => Nat.eq_sqrt.mpr ⟨hlow, hhigh⟩
  | k + 1, r, hlow, hhigh => by
    rw [isqrtFrom]
    split
    case isTrue hdigit =>
      have hrange : r + 2 ^ (k + 1) = r + 2 ^ k + 2 ^ k := by ring
      exact isqrtFrom_eq_sqrt n k _ hdigit (hrange ▸ hhigh)
    case isFalse hdigit => exact isqrtFrom_eq_sqrt n k r hlow (Nat.lt_of_not_le hdigit)

/-- The digit search is the integer square root: half as many binary digits as n has, and one, are enough (R246). -/
theorem isqrt_eq_sqrt (n : Nat) : isqrt n = Nat.sqrt n := by
  refine isqrtFrom_eq_sqrt n _ 0 (Nat.zero_le n) ?_
  calc n < 2 ^ (n.log2 + 1) := Nat.lt_log2_self
    _ ≤ 2 ^ ((n.log2 / 2 + 1) + (n.log2 / 2 + 1)) := Nat.pow_le_pow_right (by decide) (by omega)
    _ = (0 + 2 ^ (n.log2 / 2 + 1)) * (0 + 2 ^ (n.log2 / 2 + 1)) := by rw [Nat.zero_add, pow_add]

/-- IQ_POLAR passes with its two selectors, and its results are the angle and the amplitude (R133, R246). -/
theorem exec_iqPolar {sel : BitVec 4} (hsel : sel.toNat ≤ 1) (s : State) :
    exec (.iqPolar sel) s = .next (doneWith s
      (BitVec.ofInt 32 (angleBy (decide (sel = 1#4)) s.snap.r1.toInt s.snap.r0.toInt))
      (BitVec.ofNat 32 (isqrt (s.snap.r0.toInt * s.snap.r0.toInt + s.snap.r1.toInt * s.snap.r1.toInt).toNat))
      0#32 0#32 0x001#9) := by
  have hrun : exec (.iqPolar sel) s = runCommand noChecks (iqPolarEffect (decide (sel = 1#4))) s :=
    runCommand_withSelector (Nat.zero_le _) hsel ..
  rw [hrun]
  exact runCommand_eq_doneWith (noChecks_eq s) rfl rfl

/-- Settles O32: the selector picks the angle function, and the amplitude's digit search is `Nat.sqrt`. -/
theorem iqPolarCompletes : Obligations.IqPolarCompletes := by
  intro s
  refine ⟨?exact, ?fast⟩
  case exact => rw [exec_iqPolar (by decide), isqrt_eq_sqrt, angleBy, if_neg (by decide)]
  case fast => rw [exec_iqPolar (by decide), isqrt_eq_sqrt, angleBy, if_pos (by decide)]

/-- What an angle function must answer where the angle is an eighth of a turn or a multiple of it: the values for y >= 0, and its
oddness, which gives those for y < 0 (R224). -/
structure KnownAngles (f : Int → Int → Int) : Prop where
  origin : f 0 0 = 0
  right : ∀ x, 0 < x → f 0 x = 0
  left : ∀ x, x < 0 → f 0 x = 16384
  up : ∀ y, 0 < y → f y 0 = 8192
  diagonal : ∀ x, 0 < x → f x x = 4096
  antidiagonal : ∀ x, 0 < x → f x (-x) = 12288
  odd : ∀ y x, 0 < y → f (-y) x = -f y x

/-- On the positive x axis all digits of the angle are 0. -/
theorem angleDigits_right (k : Nat) : ∀ {x : Int}, 0 < x → angleDigits k x 0 = 0 := by
  induction k with
  | zero => intro x _; rfl
  | succ k ih =>
    intro x hx
    rw [angleDigits, if_neg (not_le.mpr hx), Int.mul_zero, Int.mul_zero, Int.sub_zero]
    exact ih (mul_pos hx hx)

/-- On the positive y axis only the first digit of the angle is 1: the doubled and turned point is on the positive x axis. -/
theorem angleDigits_up (k : Nat) {y : Int} (hy : 0 < y) : angleDigits (k + 1) 0 y = 2 ^ k := by
  rw [angleDigits, if_pos le_rfl, Int.mul_zero, Int.mul_zero, Int.zero_mul, Int.neg_zero, Int.sub_zero,
    angleDigits_right k (mul_pos hy hy), Nat.add_zero]

/-- The doubled point of the diagonal is on the positive y axis. -/
theorem angleDigits_diagonal (k : Nat) {x : Int} (hx : 0 < x) : angleDigits (k + 2) x x = 2 ^ k := by
  have hdouble : 0 < 2 * x * x := by positivity
  rw [angleDigits, if_neg (not_le.mpr hx), Int.sub_self, angleDigits_up k hdouble]

/-- The doubled and turned point of the other diagonal is on the positive y axis. -/
theorem angleDigits_antidiagonal (k : Nat) {x : Int} (hx : 0 < x) :
    angleDigits (k + 2) (-x) x = 2 ^ (k + 1) + 2 ^ k := by
  have hturned : 0 < 2 * x * x := by positivity
  have hx' : x * x - -x * -x = 0 := by ring
  have hy' : -(2 * -x * x) = 2 * x * x := by ring
  rw [angleDigits, if_pos (by omega), hx', hy', angleDigits_up k hturned]

/-- Above the x axis the exact angle is its digits (R222). -/
theorem angleExact_of_pos {y : Int} (hy : 0 < y) (x : Int) : angleExact y x = angleDigits 14 x y := by
  rw [angleExact, if_neg hy.ne', if_pos hy]

/-- Below the x axis the exact angle is that of the mirrored point, negated (R222). -/
theorem angleExact_neg {y : Int} (hy : 0 < y) (x : Int) : angleExact (-y) x = -angleExact y x := by
  rw [angleExact, if_neg (by omega), if_neg (by omega), Int.neg_neg, angleExact_of_pos hy]

/-- ANGLE_EXACT has the values of R224. -/
theorem knownAngles_angleExact : KnownAngles angleExact where
  origin := rfl
  right x hx := by rw [angleExact, if_pos rfl, if_neg (by omega)]
  left x hx := by rw [angleExact, if_pos rfl, if_pos hx]
  up y hy := by rw [angleExact_of_pos hy, angleDigits_up 13 hy]; rfl
  diagonal x hx := by rw [angleExact_of_pos hx, angleDigits_diagonal 12 hx]; rfl
  antidiagonal x hx := by rw [angleExact_of_pos hx, angleDigits_antidiagonal 12 hx]; rfl
  odd y x hy := angleExact_neg hy x

/-- The fast angle in the first quadrant, off the origin (R223). -/
theorem angleFast_of_right {y x : Int} (hy : 0 ≤ y) (hx : 0 ≤ x) (hpoint : ¬ (x = 0 ∧ y = 0)) :
    angleFast y x = 4096 - quot (4096 * (x - y)) (x + y) := by
  rw [angleFast, if_neg hpoint]
  simp only [Int.natAbs_of_nonneg hy, if_pos hx, if_neg (not_lt.mpr hy)]

/-- The fast angle in the second quadrant (R223). -/
theorem angleFast_of_left {y x : Int} (hy : 0 ≤ y) (hx : x < 0) :
    angleFast y x = 12288 - quot (4096 * (x + y)) (y - x) := by
  rw [angleFast, if_neg (by omega)]
  simp only [Int.natAbs_of_nonneg hy, if_neg (not_le.mpr hx), if_neg (not_lt.mpr hy)]

/-- Below the x axis the fast angle is that of the mirrored point, negated (R223). -/
theorem angleFast_neg {y : Int} (hy : 0 < y) (x : Int) : angleFast (-y) x = -angleFast y x := by
  have hpoint : ¬ (x = 0 ∧ -y = 0) ∧ ¬ (x = 0 ∧ y = 0) := by omega
  rw [angleFast, angleFast, if_neg hpoint.1, if_neg hpoint.2, Int.natAbs_neg, if_pos (Int.neg_neg_of_pos hy),
    if_neg hy.asymm]

/-- ANGLE_FAST has the values of R224: its quotients there are 4096, 0 and -4096. -/
theorem knownAngles_angleFast : KnownAngles angleFast where
  origin := rfl
  right x hx := by
    rw [angleFast_of_right le_rfl hx.le (by omega), quot, Int.sub_zero, Int.add_zero, Int.mul_tdiv_cancel _ hx.ne']
    rfl
  left x hx := by
    have hquot : 4096 * (x + 0) = -4096 * (0 - x) := by ring
    rw [angleFast_of_left le_rfl hx, quot, hquot, Int.mul_tdiv_cancel _ (by omega)]
    rfl
  up y hy := by
    have hquot : 4096 * (0 - y) = -4096 * (0 + y) := by ring
    rw [angleFast_of_right hy.le le_rfl (by omega), quot, hquot, Int.mul_tdiv_cancel _ (by omega)]
    rfl
  diagonal x hx := by
    rw [angleFast_of_right hx.le hx.le (by omega), quot, Int.sub_self, Int.mul_zero, Int.zero_tdiv]
    rfl
  antidiagonal x hx := by
    rw [angleFast_of_left hx.le (by omega), quot, Int.add_comm (-x) x, Int.add_right_neg, Int.mul_zero, Int.zero_tdiv]
    rfl
  odd y x hy := angleFast_neg hy x

/-- Settles O34: both functions have the known angles for y >= 0, and oddness gives the others. -/
theorem anglesOnAxes : Obligations.AnglesOnAxes := by
  intro f hf
  have hknown : KnownAngles f := by
    rcases hf with rfl | rfl
    · exact knownAngles_angleExact
    · exact knownAngles_angleFast
  have hdown : ∀ y, y < 0 → f y 0 = -8192 := by
    intro y hy
    have hmirror : 0 < -y := by omega
    rw [← Int.neg_neg y, hknown.odd (-y) 0 hmirror, hknown.up (-y) hmirror]
  refine ⟨hknown.origin, hknown.right, hknown.left, hknown.up, hdown, ?diagonals, ?antidiagonals⟩
  case diagonals =>
    intro x hx
    exact ⟨hknown.diagonal x hx, by rw [hknown.odd x x hx, hknown.diagonal x hx]⟩
  case antidiagonals =>
    intro x hx
    exact ⟨hknown.antidiagonal x hx, by rw [hknown.odd x (-x) hx, hknown.antidiagonal x hx]⟩

end Sys2Proof.Machine
end

section
/-! PROOFS. The biquad slots a selector names, BQ_DESIGN, BQ_CLEAR and PLL_CLEAR (spec file 41, R263-R265, R268, R274). -/

namespace Sys2Proof.Machine

/-- The selectors 0..7 name the eight slots, each its own (R133). -/
theorem slotOf_ofNat (k : Fin 8) : slotOf (BitVec.ofNat 4 k.val) = k := by
  revert k
  decide

/-- The selector that names a slot is at most 7 (R133). -/
theorem slotSelector_le (k : Fin 8) : (BitVec.ofNat 4 k.val).toNat ≤ 7 := by
  rw [BitVec.toNat_ofNat]
  omega

/-- A command over a slot runs its checks and its effect on the slot its selector names (R132, R133). -/
theorem runCommand_slot (k : Fin 8) (check : State → Option CmdError) (effect : Fin 8 → State → Effect) (s : State) :
    runCommand (withSelector 0 7 (BitVec.ofNat 4 k.val) check) (effect (slotOf (BitVec.ofNat 4 k.val))) s =
      runCommand check (effect k) s := by
  rw [runCommand_withSelector (Nat.zero_le _) (slotSelector_le k), slotOf_ofNat]

/-- BQ_CLEAR has no checks and clears the slot its selector names (R268). -/
theorem exec_bqClear (k : Fin 8) (s : State) :
    exec (.bqClear (BitVec.ofNat 4 k.val)) s = runCommand noChecks (bqClearEffect k) s :=
  runCommand_slot k noChecks bqClearEffect s

/-- PLL_CLEAR has the one selector 0 and no checks (R133, R274). -/
theorem exec_pllClear (s : State) : exec (.pllClear 0#4) s = runCommand noChecks pllClearEffect s :=
  runCommand_withSelector (lo := 0) (hi := 0) (sel := 0#4) le_rfl le_rfl noChecks pllClearEffect s

/-- Settles O41: neither command has a check, and each effect writes the state values alone. -/
theorem filterClears : Obligations.FilterClears := by
  refine ⟨?slot, ?loop⟩
  case slot =>
    intro s k
    rw [exec_bqClear]
    exact runCommand_eq_doneWith (noChecks_eq s) rfl rfl
  case loop =>
    intro s
    rw [exec_pllClear]
    exact runCommand_eq_doneWith (noChecks_eq s) rfl rfl

/-- The quality factor's scale, 1000.0 (R264). -/
theorem fofNat_thousand : fofNat 1000 = 0x408F400000000000#64 := by decide +kernel

/-- The factor of A1, -2.0 (R264). -/
theorem fneg_ftwo : fneg ftwo = 0xC000000000000000#64 := by decide +kernel

/-- BQ_DESIGN runs its checks and designs the slot its selector names (R265). -/
theorem exec_bqDesign (k : Fin 8) (s : State) :
    exec (.bqDesign (BitVec.ofNat 4 k.val)) s = runCommand bqDesignCheck (bqDesignEffect k) s :=
  runCommand_slot k bqDesignCheck bqDesignEffect s

/-- A check of BQ_DESIGN that fails ends it with BAD_CONFIG and the index of the operand (R265). -/
theorem exec_bqDesign_of_fault (k : Fin 8) {s : State} {index : Word}
    (hcheck : bqDesignCheck s = some ⟨.badConfig, index⟩) :
    exec (.bqDesign (BitVec.ofNat 4 k.val)) s = .next (failedWith s 4#8 index) := by
  rw [exec_bqDesign, runCommand_eq_failedWith hcheck]
  rfl

section DesignChecks

variable {s : State}

/-- BQ_DESIGN refuses a filter type other than 0 and 1 and reports operand 0 (R263, R265). -/
theorem bqDesignCheck_of_badType (htype : ¬ arg0 s ≤ 1) : bqDesignCheck s = some ⟨.badConfig, 0#32⟩ := by
  rw [bqDesignCheck, designFault, if_pos htype]

variable (htype : arg0 s ≤ 1)
include htype

/-- BQ_DESIGN refuses a sample rate of 0 and reports operand 2 (R263, R265). -/
theorem bqDesignCheck_of_zeroRate (hrate : arg2 s = 0) : bqDesignCheck s = some ⟨.badConfig, 2#32⟩ := by
  have hfails : ¬ 1 ≤ arg2 s := by omega
  rw [bqDesignCheck, designFault, if_neg (not_not.mpr htype), if_pos hfails]

/-- BQ_DESIGN refuses a frequency of 0 or from half the sample rate on and reports operand 1 (R263, R265). -/
theorem bqDesignCheck_of_badFrequency (hrate : arg2 s ≠ 0) (hfreq : ¬ (1 ≤ arg1 s ∧ 2 * arg1 s < arg2 s)) :
    bqDesignCheck s = some ⟨.badConfig, 1#32⟩ := by
  have hpasses : ¬ ¬ 1 ≤ arg2 s := by omega
  rw [bqDesignCheck, designFault, if_neg (not_not.mpr htype), if_neg hpasses, if_pos hfreq]

/-- BQ_DESIGN refuses a quality of 0 and reports operand 3 (R263, R265). -/
theorem bqDesignCheck_of_zeroQuality (hlow : 1 ≤ arg1 s) (hhigh : 2 * arg1 s < arg2 s) (hquality : arg3 s = 0) :
    bqDesignCheck s = some ⟨.badConfig, 3#32⟩ := by
  have hpasses : ¬ ¬ 1 ≤ arg2 s := by omega
  have hfails : ¬ 1 ≤ arg3 s := by omega
  rw [bqDesignCheck, designFault, if_neg (not_not.mpr htype), if_neg hpasses, if_neg (not_not.mpr ⟨hlow, hhigh⟩),
    if_pos hfails]

/-- BQ_DESIGN passes on legal operands (R263). -/
theorem bqDesignCheck_of_legal (hlow : 1 ≤ arg1 s) (hhigh : 2 * arg1 s < arg2 s) (hquality : 1 ≤ arg3 s) :
    bqDesignCheck s = none := by
  rw [bqDesignCheck, (designFault_eq_none_iff htype ..).mpr ⟨hlow, hhigh, hquality⟩]

/-- On legal operands BQ_DESIGN ends with the designed slot in place of the one its selector names (R265). -/
theorem exec_bqDesign_of_legal (k : Fin 8) (hlow : 1 ≤ arg1 s) (hhigh : 2 * arg1 s < arg2 s) (hquality : 1 ≤ arg3 s) :
    exec (.bqDesign (BitVec.ofNat 4 k.val)) s = .next (doneWith
      { s with bq := s.bq.set k (designedSlot (design numerics (arg0 s) (arg1 s) (arg2 s) (arg3 s))) }
      0#32 0#32 0#32 0#32 0x001#9) := by
  rw [exec_bqDesign]
  exact runCommand_eq_doneWith (bqDesignCheck_of_legal htype hlow hhigh hquality) rfl rfl

end DesignChecks

/-- Settles O35: the two designs are the two branches of `design`, and one lemma of `bqDesignCheck` decides each of its checks. -/
theorem bqDesignCompletes : Obligations.BqDesignCompletes := by
  unfold Obligations.BqDesignCompletes
  intro one two minusTwo thousand pi w0 lowPass bandPass
  have hlow : ∀ f0 fs qm, designedSlot (design numerics 0 f0 fs qm) = lowPass f0 fs qm := by
    intro f0 fs qm
    rw [design, if_pos rfl, if_pos rfl, if_pos rfl, fofNat_thousand, fneg_ftwo]
    rfl
  have hband : ∀ f0 fs qm, designedSlot (design numerics 1 f0 fs qm) = bandPass f0 fs qm := by
    intro f0 fs qm
    rw [design, if_neg one_ne_zero, if_neg one_ne_zero, if_neg one_ne_zero, fofNat_thousand, fneg_ftwo]
    rfl
  refine ⟨fun f0 fs qm => ⟨rfl, hlow f0 fs qm, hband f0 fs qm⟩, ?_⟩
  intro s k t f0 fs qm run designed
  refine ⟨?badType, ?zeroRate, ?badFrequency, ?zeroQuality, ?lowPassDesigned, ?bandPassDesigned⟩
  case badType => exact fun htype => exec_bqDesign_of_fault k (bqDesignCheck_of_badType htype)
  case zeroRate => exact fun htype hrate => exec_bqDesign_of_fault k (bqDesignCheck_of_zeroRate htype hrate)
  case badFrequency =>
    exact fun htype hrate hfreq => exec_bqDesign_of_fault k (bqDesignCheck_of_badFrequency htype hrate hfreq)
  case zeroQuality =>
    exact fun htype hone hhalf hquality =>
      exec_bqDesign_of_fault k (bqDesignCheck_of_zeroQuality htype hone hhalf hquality)
  case lowPassDesigned =>
    intro htype hone hhalf hquality
    have hrun : run = designed (designedSlot (design numerics t f0 fs qm)) :=
      exec_bqDesign_of_legal (htype.trans_le zero_le_one) k hone hhalf hquality
    rw [hrun, htype, hlow]
  case bandPassDesigned =>
    intro htype hone hhalf hquality
    have hrun : run = designed (designedSlot (design numerics t f0 fs qm)) :=
      exec_bqDesign_of_legal htype.le k hone hhalf hquality
    rw [hrun, htype, hband]

end Sys2Proof.Machine
end

section
/-! PROOFS. The CRC mode a selector names, the stored CRC as a word, and CRC_CHECK (spec file 44, R133, R364). -/

namespace Sys2Proof.Machine

/-- The selectors 0 and 1 name the two CRC modes (R133). -/
theorem crcModeOf_ofNat (mode : Fin 2) (s : State) :
    crcModeOf (BitVec.ofNat 4 mode.val) s = if mode = 0 then s.crc0 else s.crc1 := by
  match mode with
  | 0 => rfl
  | 1 => rfl

/-- The selector that names a CRC mode is at most 1 (R133). -/
theorem crcSelector_le (mode : Fin 2) : (BitVec.ofNat 4 mode.val).toNat ≤ 1 := by
  rw [BitVec.toNat_ofNat]
  omega

/-- Two bytes put together, the high one first, as a number. -/
theorem toNat_append_byte (high low : Byte) : (high ++ low).toNat = high.toNat * 256 + low.toNat := by
  rw [BitVec.toNat_append, ← Nat.shiftLeft_add_eq_or_of_lt low.isLt, Nat.shiftLeft_eq]

/-- The stored CRC is the number of a 16-bit word: the first byte is the high one unless STORED_LE is set (R103, R364). -/
theorem storedCrc_eq_toNat (le : Bool) (first second : Byte) :
    storedCrc le first second = (if le then second ++ first else first ++ second).toNat := by
  cases le with
  | false => exact (toNat_append_byte first second).symm
  | true => exact (Nat.add_comm ..).trans (toNat_append_byte second first).symm

/-- Zero-extended to a register, two CRCs agree exactly when their numbers do (R364). -/
theorem setWidth_crc_inj (computed stored : BitVec 16) :
    computed.setWidth 32 = stored.setWidth 32 ↔ computed.toNat = stored.toNat := by
  rw [← BitVec.toNat_inj, BitVec.toNat_setWidth_of_le (by decide), BitVec.toNat_setWidth_of_le (by decide)]

/-- CRC_CHECK with the mode its selector names runs its own checks and its effect (R132, R133). -/
theorem exec_crcCheck (mode : Fin 2) (s : State) :
    exec (.crcCheck (BitVec.ofNat 4 mode.val)) s =
      runCommand crcCheckCheck (crcCheckEffect (BitVec.ofNat 4 mode.val)) s :=
  runCommand_withSelector (Nat.zero_le _) (crcSelector_le mode) ..

section CheckErrors

variable {s : State}

/-- CRC_CHECK refuses a payload that leaves BUF and reports its offset (R364). -/
theorem crcCheckCheck_of_badPayload (hpayload : 65536 < arg0 s + arg1 s) :
    crcCheckCheck s = some ⟨.addrRange, s.snap.r0⟩ := by
  have hbad : ¬ regionOk (arg0 s) (arg1 s) := by rw [regionOk_iff]; omega
  rw [crcCheckCheck, if_pos hbad]

variable (hpayload : arg0 s + arg1 s ≤ 65536)
include hpayload

/-- CRC_CHECK refuses a stored CRC that leaves BUF and reports its offset (R364). -/
theorem crcCheckCheck_of_badStored (hstored : 65536 < arg2 s + 2) :
    crcCheckCheck s = some ⟨.addrRange, s.snap.r2⟩ := by
  have hbad : ¬ regionOk (arg2 s) 2 := by rw [regionOk_iff]; omega
  rw [crcCheckCheck, if_neg (not_not.mpr ((regionOk_iff ..).mpr hpayload)), if_pos hbad]

/-- CRC_CHECK passes when both regions lie in BUF (R364). -/
theorem crcCheckCheck_of_legal (hstored : arg2 s + 2 ≤ 65536) : crcCheckCheck s = none := by
  rw [crcCheckCheck, if_neg (not_not.mpr ((regionOk_iff ..).mpr hpayload)),
    if_neg (not_not.mpr ((regionOk_iff ..).mpr hstored))]

end CheckErrors

/-- CRC_CHECK's effect for the mode m, its two CRCs as 16-bit words: whether they agree goes to CRC_PASS and RES2, and nothing
else of the state changes (R364). -/
theorem crcCheckEffect_eq {sel : BitVec 4} {s : State} {m : CrcMode} {computed stored : BitVec 16}
    (hmode : crcModeOf sel s = m) (hcomputed : crc16 m (bytesAt s.buf (arg0 s) (arg1 s)) = computed)
    (hstored : storedCrc (crcStoredLe m) (s.buf.read (arg2 s)) (s.buf.read (arg2 s + 1)) = stored.toNat) :
    crcCheckEffect sel s =
      ⟨{ s with crcPass := decide (computed.setWidth 32 = stored.setWidth 32) },
        ⟨computed.setWidth 32, stored.setWidth 32,
          if decide (computed.setWidth 32 = stored.setWidth 32) then 1#32 else 0#32, 0#32⟩, 0#9⟩ := by
  have hword : wrap32 stored.toNat = stored.setWidth 32 := BitVec.ofNat_toNat 32 stored
  simp only [crcCheckEffect, hmode, bytes_eq_bytesAt, hcomputed, hstored, hword, ← setWidth_crc_inj]
  rfl

/-- Settles O52: the checks in order, and on a pass the stored CRC as a 16-bit word, by the byte order of the mode. -/
theorem crcCheckCompletes : Obligations.CrcCheckCompletes := by
  intro s mode m computed first second stored pass run
  have hrun : run = runCommand crcCheckCheck (crcCheckEffect (BitVec.ofNat 4 mode.val)) s := exec_crcCheck mode s
  rw [hrun]
  refine ⟨?badPayload, ?badStored, ?completes⟩
  case badPayload => exact fun hpayload => runCommand_eq_failedWith (crcCheckCheck_of_badPayload hpayload)
  case badStored =>
    exact fun hpayload hstored => runCommand_eq_failedWith (crcCheckCheck_of_badStored hpayload hstored)
  case completes =>
    intro hpayload hstored
    have hword : stored = (if crcStoredLe m then second ++ first else first ++ second).setWidth 32 :=
      (apply_ite (BitVec.setWidth 32) ..).symm
    have heffect : crcCheckEffect (BitVec.ofNat 4 mode.val) s =
        ⟨{ s with crcPass := pass }, ⟨computed, stored, if pass then 1#32 else 0#32, 0#32⟩, 0#9⟩ := by
      simp only [pass, hword]
      exact crcCheckEffect_eq (crcModeOf_ofNat mode s) rfl (storedCrc_eq_toNat (crcStoredLe m) first second)
    exact runCommand_eq_doneWith (crcCheckCheck_of_legal hpayload hstored) heffect rfl

end Sys2Proof.Machine
end

section
/-! PROOFS. NOP, and the open and the closing window of BR_ADD (spec file 46, R414, R418). -/

namespace Sys2Proof.Machine

/-- A command whose one selector is 0 runs its own checks and its effect (R132, R133). -/
theorem runCommand_selZero (check : State → Option CmdError) (effect : State → Effect) (s : State) :
    runCommand (withSelector 0 0 0#4 check) effect s = runCommand check effect s :=
  runCommand_withSelector (sel := 0#4) (Nat.le_refl 0) (Nat.le_refl 0) check effect s

/-- NOP has the one selector 0 and no checks (R133, R418). -/
theorem exec_nop (s : State) : exec (.nop 0#4) s = runCommand noChecks nopEffect s :=
  runCommand_selZero noChecks nopEffect s

/-- Settles O25: the word 0 is the word of NOP, which has no checks and whose effect is the state it found. -/
theorem nopCompletes : Obligations.NopCompletes := by
  refine ⟨decode_encode (.nop 0#4), ?_⟩
  intro s
  rw [exec_nop]
  exact runCommand_eq_doneWith (noChecks_eq s) rfl rfl

/-- BR_ADD has the one selector 0 and no checks (R133, R414). -/
theorem exec_brAdd (s : State) : exec (.brAdd 0#4) s = runCommand noChecks brAddEffect s :=
  runCommand_selZero noChecks brAddEffect s

section Window

variable {s : State}

/-- BR_ADD closes a window of a second or more: its rate is returned, and the next one opens now and empty (R414). -/
theorem brAddEffect_of_closing (hold : 1000000 ≤ brElapsed s) :
    brAddEffect s =
      ⟨{ s with diag := { s.diag with bitrate := wrap32 (brRate s), brBytes := 0#64, brT0 := s.time } },
        ⟨wrap32 (brRate s), 1#32, 0#32, 0#32⟩, irqBrUpd⟩ :=
  if_pos hold

/-- BR_ADD leaves a younger window open, with the bytes added, and returns the last rate (R414). -/
theorem brAddEffect_of_open (hyoung : brElapsed s < 1000000) :
    brAddEffect s =
      ⟨{ s with diag := { s.diag with brBytes := BitVec.ofNat 64 (brTotal s) } },
        ⟨s.diag.bitrate, 0#32, 0#32, 0#32⟩, 0#9⟩ :=
  if_neg (Nat.not_le_of_lt hyoung)

end Window

/-- Settles O59: the age of the window decides between the two effects. -/
theorem brAddCompletes : Obligations.BrAddCompletes := by
  intro s bytes elapsed rate
  rw [exec_brAdd]
  refine ⟨?closing, ?stillOpen⟩
  case closing => exact fun hold => runCommand_eq_doneWith (noChecks_eq s) (brAddEffect_of_closing hold) rfl
  case stillOpen => exact fun hyoung => runCommand_eq_doneWith (noChecks_eq s) (brAddEffect_of_open hyoung) rfl

end Sys2Proof.Machine
end

section
/-! PROOFS. The power percentage and PWR_CALC (spec file 46, R411, R412). -/

namespace Sys2Proof.Machine

/-- The factor of the logarithm, 10.0 (R411). -/
theorem fofNat_ten : fofNat 10 = 0x4024000000000000#64 := by decide +kernel

/-- The scale of a percentage, 100.0 (R411). -/
theorem fofNat_hundred : fofNat 100 = 0x4059000000000000#64 := by decide +kernel

/-- The power of a pair is the sum of two squares, which is not negative (R411). -/
theorem pairPower_eq (pair : Byte × Byte) :
    (pairPower pair : Int) = centred pair.1 * centred pair.1 + centred pair.2 * centred pair.2 :=
  Int.natAbs_of_nonneg (add_nonneg (mul_self_nonneg _) (mul_self_nonneg _))

/-- The dB of a pair, over the integers (R411). -/
theorem pairDb_eq (nm : Numerics) (pair : Byte × Byte) :
    pairDb nm pair =
      if centred pair.1 * centred pair.1 + centred pair.2 * centred pair.2 = 0 then 0#64
      else fmul 0x4024000000000000#64
        (nm.log10 (fofInt (centred pair.1 * centred pair.1 + centred pair.2 * centred pair.2))) := by
  simp only [pairDb, ← pairPower_eq, Int.natCast_eq_zero, fofNat_ten]
  rfl

/-- The percentage: the dB of each pair, their sum from left to right, its mean and its share of PWR_MAX (R411). -/
theorem powerPercent_eq (nm : Numerics) (pwrMax : Nat) (pairs : List (Byte × Byte)) :
    powerPercent nm pwrMax pairs =
      if pairs = [] then 0
      else (min 100 (max 0 (ffloor (fdiv
        (fmul 0x4059000000000000#64 (fdiv ((pairs.map (pairDb nm)).foldl fadd 0#64) (fofInt pairs.length)))
        (fofInt pwrMax))))).toNat := by
  simp only [powerPercent, List.length_eq_zero_iff, List.foldl_map, fofNat_hundred]
  rfl

/-- A percentage is at most 100 (R411). -/
theorem powerPercent_le (nm : Numerics) (pwrMax : Nat) (pairs : List (Byte × Byte)) :
    powerPercent nm pwrMax pairs ≤ 100 := by
  rw [powerPercent_eq]
  split
  · exact Nat.zero_le _
  · exact Int.toNat_le.mpr (min_le_left ..)

/-- PWR_CALC has the one selector 0 (R133). -/
theorem exec_pwrCalc (s : State) : exec (.pwrCalc 0#4) s = runCommand pwrCalcCheck pwrCalcEffect s :=
  runCommand_selZero pwrCalcCheck pwrCalcEffect s

section PowerChecks

variable {s : State}

/-- PWR_CALC refuses a PWR_WIN outside 1..65535 and reports its offset (R412). -/
theorem pwrCalcCheck_of_badWindow (hwin : ¬ (1 ≤ s.diag.pwrWin.toNat ∧ s.diag.pwrWin.toNat ≤ 65535)) :
    pwrCalcCheck s = some ⟨.badConfig, 0x380#32⟩ := by
  rw [pwrCalcCheck, powerConfigError, if_pos hwin]

variable (hwin : 1 ≤ s.diag.pwrWin.toNat ∧ s.diag.pwrWin.toNat ≤ 65535)
include hwin

/-- PWR_CALC refuses a PWR_MAX of 0 and reports its offset (R412). -/
theorem pwrCalcCheck_of_zeroMax (hmax : s.diag.pwrMax = 0#32) : pwrCalcCheck s = some ⟨.badConfig, 0x384#32⟩ := by
  have hfails : ¬ 1 ≤ s.diag.pwrMax.toNat := by simp [hmax]
  rw [pwrCalcCheck, powerConfigError, if_neg (not_not.mpr hwin), if_pos hfails]

variable (hmax : s.diag.pwrMax ≠ 0#32)
include hmax

/-- With a legal power configuration, PWR_CALC checks the region of its pairs only (R412). -/
theorem pwrCalcCheck_of_legalConfig :
    pwrCalcCheck s = if ¬ regionOk (arg0 s) (2 * arg1 s) then some ⟨.addrRange, s.snap.r0⟩ else none := by
  have hnonzero : s.diag.pwrMax.toNat ≠ 0 := BitVec.toNat_ne.mp hmax
  have hpasses : ¬ ¬ 1 ≤ s.diag.pwrMax.toNat := by omega
  rw [pwrCalcCheck, powerConfigError, if_neg (not_not.mpr hwin), if_neg hpasses]

/-- PWR_CALC refuses pairs that leave BUF and reports their offset (R412). -/
theorem pwrCalcCheck_of_badRegion (hregion : 65536 < arg0 s + 2 * arg1 s) :
    pwrCalcCheck s = some ⟨.addrRange, s.snap.r0⟩ := by
  have hbad : ¬ regionOk (arg0 s) (2 * arg1 s) := by rw [regionOk_iff]; omega
  rw [pwrCalcCheck_of_legalConfig hwin hmax, if_pos hbad]

/-- PWR_CALC passes on pairs inside BUF (R412). -/
theorem pwrCalcCheck_of_legal (hregion : arg0 s + 2 * arg1 s ≤ 65536) : pwrCalcCheck s = none := by
  rw [pwrCalcCheck_of_legalConfig hwin hmax, if_neg (not_not.mpr ((regionOk_iff ..).mpr hregion))]

end PowerChecks

/-- PWR_CALC writes the percentage of the leading pairs to PWR_LAST and RES0, and nothing else (R412). -/
theorem pwrCalcEffect_eq {s : State} {p : Nat}
    (hpercent : powerPercent numerics s.diag.pwrMax.toNat (pairsAt s.buf (arg0 s) (min s.diag.pwrWin.toNat (arg1 s))) = p) :
    pwrCalcEffect s =
      ⟨{ s with diag := { s.diag with pwrLast := BitVec.ofNat 32 p } },
        ⟨BitVec.ofNat 32 p, 0#32, 0#32, 0#32⟩, irqPwrUpd⟩ := by
  rw [pwrCalcEffect, powerAt, iqPairs_eq, hpercent]
  rfl

/-- Settles O58: the statement's percentage is `powerPercent`, and one lemma of `pwrCalcCheck` decides each check. -/
theorem pwrCalcCompletes : Obligations.PwrCalcCompletes := by
  unfold Obligations.PwrCalcCompletes
  intro db percent
  have hdb : pairDb numerics = db := funext (pairDb_eq numerics)
  have hpercent : ∀ pwrMax pairs, powerPercent numerics pwrMax pairs = percent pwrMax pairs := by
    intro pwrMax pairs
    rw [powerPercent_eq, hdb]
  refine ⟨hpercent, ?_⟩
  intro s win p run
  have hrun : run = runCommand pwrCalcCheck pwrCalcEffect s := exec_pwrCalc s
  have hp : powerPercent numerics s.diag.pwrMax.toNat (pairsAt s.buf (arg0 s) (min win (arg1 s))) = p := hpercent _ _
  rw [hrun]
  refine ⟨?badWindow, ?zeroMax, ?badRegion, ?completes⟩
  case badWindow => exact fun hwin => runCommand_eq_failedWith (pwrCalcCheck_of_badWindow hwin)
  case zeroMax => exact fun hlow hhigh hmax => runCommand_eq_failedWith (pwrCalcCheck_of_zeroMax ⟨hlow, hhigh⟩ hmax)
  case badRegion =>
    exact fun hlow hhigh hmax hregion =>
      runCommand_eq_failedWith (pwrCalcCheck_of_badRegion ⟨hlow, hhigh⟩ hmax hregion)
  case completes =>
    intro hlow hhigh hmax hregion
    have hbound : p ≤ 100 := hp ▸ powerPercent_le ..
    exact ⟨hbound, runCommand_eq_doneWith (pwrCalcCheck_of_legal ⟨hlow, hhigh⟩ hmax hregion) (pwrCalcEffect_eq hp) rfl⟩

end Sys2Proof.Machine
end

section
/-! PROOFS. The sign changes, the windows and the variance of STN_SCORE (spec file 46, R415, R416). -/

namespace Sys2Proof.Machine

/-- The samples i and i + 1 differ in sign, 0 counted as positive (R416). -/
def signChangeAt (xs : List Int) (i : Nat) : Bool := decide (xs.getD i 0 < 0) != decide (xs.getD (i + 1) 0 < 0)

@[simp] theorem signChangeAt_cons_succ (x : Int) (xs : List Int) (i : Nat) :
    signChangeAt (x :: xs) (i + 1) = signChangeAt xs i := rfl

/-- The crossings are the neighbours that differ in sign (R416). -/
theorem zeroCrossings_eq : ∀ xs : List Int,
    zeroCrossings xs = ((List.range (xs.length - 1)).filter (signChangeAt xs)).length
  | [] => rfl
  | [_] => rfl
  | x :: y :: rest => by
    have hrest : zeroCrossings (y :: rest) = (List.range rest.length).countP (signChangeAt (y :: rest)) := by
      rw [zeroCrossings_eq (y :: rest), List.countP_eq_length_filter]
      rfl
    have hlength : (x :: y :: rest).length - 1 = rest.length + 1 := rfl
    have hfirst : signChangeAt (x :: y :: rest) 0 = (decide (x < 0) != decide (y < 0)) := rfl
    rw [← List.countP_eq_length_filter, hlength, List.range_succ_eq_map, List.countP_cons, List.countP_map, hfirst,
      zeroCrossings, hrest, Nat.add_comm]
    rfl

/-- The pieces of a list, each by the place where it begins. -/
theorem pieces_eq_map {α : Type} (w n : Nat) : ∀ xs : List α,
    pieces w n xs = (List.range n).map (fun k => (xs.drop (k * w)).take w) := by
  induction n with
  | zero => exact fun xs => rfl
  | succ n ih =>
    intro xs
    rw [pieces, ih, map_range_succ, Nat.zero_mul, List.drop_zero]
    congr 1
    refine List.map_congr_left (fun k _ => ?_)
    rw [List.drop_drop, Nat.add_one_mul, Nat.add_comm]

/-- A piece inside a list, each element by its index. -/
theorem take_drop_eq_map {a w : Nat} {xs : List Int} (hinside : a + w ≤ xs.length) :
    (xs.drop a).take w = (List.range w).map (fun i => xs.getD (a + i) 0) := by
  refine List.ext_getElem (by simp; omega) (fun i hleft hright => ?_)
  have hi : i < w := by simpa using hright
  simp [List.getElem?_eq_getElem (show a + i < xs.length by omega)]

/-- A window that is whole lies inside the samples (R416). -/
theorem window_inside {n w k : Nat} (hk : k < n / w) : k * w + w ≤ n := by
  rw [← Nat.add_one_mul]
  exact (Nat.mul_le_mul_right w hk).trans (Nat.div_mul_le_self n w)

/-- The RMS values of the whole windows, each sample by its index (R416). -/
theorem rmsWindows_eq (rate : Nat) (xs : List Int) :
    rmsWindows rate xs = (List.range (xs.length / (rate / 100))).map (fun k =>
      fsqrt (fdiv (fofInt (((List.range (rate / 100)).map (fun i =>
        xs.getD (k * (rate / 100) + i) 0 * xs.getD (k * (rate / 100) + i) 0)).sum)) (fofNat (rate / 100)))) := by
  rw [rmsWindows, pieces_eq_map, List.map_map]
  refine List.map_congr_left (fun k hk => ?_)
  have hinside := window_inside (List.mem_range.mp hk)
  rw [Function.comp_apply, windowRms, take_drop_eq_map hinside, List.map_map]
  rfl

/-- The mean, its sum begun with the first number (R416). -/
theorem fmean_eq (ys : List F64) : fmean ys = fdiv (ys.tail.foldl fadd (ys.headD 0#64)) (fofNat ys.length) := by
  cases ys <;> rfl

/-- There is an RMS value for each whole window (R416). -/
theorem length_rmsWindows (rate : Nat) (xs : List Int) : (rmsWindows rate xs).length = xs.length / (rate / 100) := by
  rw [rmsWindows, List.length_map, length_pieces]

@[simp] theorem length_pcmsAt (m : Memory) (a n : Nat) : (pcmsAt m a n).length = n := by simp [pcmsAt]

/-- The `_LO` half of a pair is its bits 31:0 (R32). -/
theorem lowHalf_eq (x : BitVec 64) : lowHalf x = x.extractLsb' 0 32 := by
  ext i hi
  simp

/-- The `_HI` half of a pair is its bits 63:32 (R32). -/
theorem highHalf_eq (x : BitVec 64) : highHalf x = x.extractLsb' 32 32 := by
  ext i hi
  simp

/-- STN_SCORE has the one selector 0 (R133). -/
theorem exec_stnScore (s : State) : exec (.stnScore 0#4) s = runCommand stnScoreCheck stnScoreEffect s :=
  runCommand_selZero stnScoreCheck stnScoreEffect s

section ScoreChecks

variable {s : State}

/-- STN_SCORE refuses a sample rate outside 100..204899 and reports operand 2 (R416). -/
theorem stnScoreCheck_of_badRate (hrate : ¬ (100 ≤ arg2 s ∧ arg2 s ≤ 204899)) :
    stnScoreCheck s = some ⟨.badConfig, 2#32⟩ := by
  rw [stnScoreCheck, if_pos hrate]

variable (hrate : 100 ≤ arg2 s ∧ arg2 s ≤ 204899)
include hrate

/-- STN_SCORE refuses a length below 4096 or odd and reports it (R416). -/
theorem stnScoreCheck_of_badLength (hlength : arg1 s < 4096 ∨ arg1 s % 2 = 1) :
    stnScoreCheck s = some ⟨.badLength, s.snap.r1⟩ := by
  rw [stnScoreCheck, if_neg (not_not.mpr hrate), if_pos hlength]

variable (hlong : 4096 ≤ arg1 s) (heven : arg1 s % 2 = 0)
include hlong heven

/-- STN_SCORE refuses an odd offset and reports it (R416). -/
theorem stnScoreCheck_of_misaligned (hodd : arg0 s % 2 = 1) : stnScoreCheck s = some ⟨.misaligned, s.snap.r0⟩ := by
  have hlength : ¬ (arg1 s < 4096 ∨ arg1 s % 2 = 1) := by omega
  have hbad : ¬ aligned 2 (arg0 s) := by rw [aligned_iff]; omega
  rw [stnScoreCheck, if_neg (not_not.mpr hrate), if_neg hlength, if_pos hbad]

variable (haligned : arg0 s % 2 = 0)
include haligned

/-- With a legal rate, length and alignment, STN_SCORE checks the region of its samples only (R416). -/
theorem stnScoreCheck_of_aligned :
    stnScoreCheck s = if ¬ regionOk (arg0 s) (arg1 s) then some ⟨.addrRange, s.snap.r0⟩ else none := by
  have hlength : ¬ (arg1 s < 4096 ∨ arg1 s % 2 = 1) := by omega
  rw [stnScoreCheck, if_neg (not_not.mpr hrate), if_neg hlength, if_neg (not_not.mpr ((aligned_iff ..).mpr haligned))]

/-- STN_SCORE refuses samples that leave BUF and reports their offset (R416). -/
theorem stnScoreCheck_of_badRegion (hregion : 65536 < arg0 s + arg1 s) :
    stnScoreCheck s = some ⟨.addrRange, s.snap.r0⟩ := by
  have hbad : ¬ regionOk (arg0 s) (arg1 s) := by rw [regionOk_iff]; omega
  rw [stnScoreCheck_of_aligned hrate hlong heven haligned, if_pos hbad]

/-- STN_SCORE passes on samples inside BUF (R416). -/
theorem stnScoreCheck_of_legal (hregion : arg0 s + arg1 s ≤ 65536) : stnScoreCheck s = none := by
  rw [stnScoreCheck_of_aligned hrate hlong heven haligned, if_neg (not_not.mpr ((regionOk_iff ..).mpr hregion))]

end ScoreChecks

/-- STN_SCORE's effect by its three statistics: they and the score of the OPEN function are returned, and the state is left as it
was (R415, R416). -/
theorem stnScoreEffect_eq {s : State} {crossings : Nat} {rms : List F64} {var : F64}
    (hcrossings : zeroCrossings (pcmsAt s.buf (arg0 s) (arg1 s / 2)) = crossings)
    (hrms : rmsWindows (arg2 s) (pcmsAt s.buf (arg0 s) (arg1 s / 2)) = rms) (hvar : fvariance rms = var) :
    stnScoreEffect s = ⟨s, ⟨BitVec.ofNat 32 crossings, var.extractLsb' 0 32, var.extractLsb' 32 32,
      BitVec.ofNat 32 (Config.stationScore crossings (arg1 s / 2) rms var).val⟩, 0#9⟩ := by
  simp only [stnScoreEffect, pcms_eq, hcrossings, hrms, hvar, lowHalf_eq var, highHalf_eq var]
  rfl

/-- Settles O60: the statement's crossings, RMS values and variance are the model's, and one lemma of `stnScoreCheck` decides
each check. -/
theorem stnScoreCompletes : Obligations.StnScoreCompletes := by
  intro s rate n xs crossings w rms total mean var score run
  have hlength : xs.length = n := length_pcmsAt ..
  have hcrossings : zeroCrossings xs = crossings := by
    rw [zeroCrossings_eq, hlength]
    rfl
  have hrms : rmsWindows rate xs = rms := by
    rw [rmsWindows_eq, hlength]
  have hwindows : rms.length = n / w := by rw [← hrms, length_rmsWindows, hlength]
  have hmean : fmean rms = mean := by rw [fmean_eq, hwindows]
  have hvar : fvariance rms = var := by
    rw [fvariance, hmean, fmean_eq, List.length_map, hwindows]
  have hrun : run = runCommand stnScoreCheck stnScoreEffect s := exec_stnScore s
  rw [hrun]
  refine ⟨?badRate, fun hlow hhigh => ⟨?badLength, ?misaligned, ?badRegion, ?completes⟩⟩
  case badRate => exact fun hrate => runCommand_eq_failedWith (stnScoreCheck_of_badRate hrate)
  case badLength => exact fun hbad => runCommand_eq_failedWith (stnScoreCheck_of_badLength ⟨hlow, hhigh⟩ hbad)
  case misaligned =>
    exact fun hlong heven hodd =>
      runCommand_eq_failedWith (stnScoreCheck_of_misaligned ⟨hlow, hhigh⟩ hlong heven hodd)
  case badRegion =>
    exact fun hlong heven haligned hregion =>
      runCommand_eq_failedWith (stnScoreCheck_of_badRegion ⟨hlow, hhigh⟩ hlong heven haligned hregion)
  case completes =>
    intro hlong heven haligned hregion
    have hscore : score ≤ 100 := Fin.is_le _
    exact ⟨hscore, runCommand_eq_doneWith (stnScoreCheck_of_legal ⟨hlow, hhigh⟩ hlong heven haligned hregion)
      (stnScoreEffect_eq hcrossings hrms hvar) rfl⟩

end Sys2Proof.Machine
end

section
/-! PROOFS. Host writes of registers as steps of the block, command acceptance and the interrupt line (spec file 60, R521, R522,
R530). -/

namespace Sys2Proof.Machine

/-- The step of a 32-bit host write of a register: it takes the low half of the written data (R30, R105). -/
theorem step_writeCsr {off : Nat} {c : Csr} (hcsr : csrAt off = some c) (hwindow : off < Config.csrWindow)
    (haligned : off % 4 = 0) (s : State) (rest : List Event) (v : BitVec 64) :
    step { s with env := .write off .w32 v :: rest } = .next (writeCsr { s with env := rest } (lowHalf v) c) := by
  rw [step_of_event rfl, takeEvent, hostWrite, hostAccess_csrWindow hwindow haligned, writeAt_csr _ hcsr hwindow]

/-- A CMD write to an idle block is accepted (R530). -/
theorem writeCsr_cmd_of_idle {s : State} (hidle : s.busy = false) (w : Word) :
    writeCsr s w .cmd = acceptCommand w s :=
  if_neg (by simp [hidle])

/-- A CMD write to a busy block is dropped with OVERRUN (R530). -/
theorem writeCsr_cmd_of_busy {s : State} (hbusy : s.busy = true) (w : Word) :
    writeCsr s w .cmd = { s with overrun := true } :=
  if_pos hbusy

/-- Settles O5: the step is the write of CMD, at its offset 0x010, which BUSY alone decides (R530). -/
theorem cmdAcceptance : Obligations.CmdAcceptance := by
  intro s rest v
  have hcmd : csrAt 0x10 = some .cmd := rfl
  rw [step_writeCsr hcmd (by decide) rfl]
  refine ⟨fun hidle => ?accepted, fun hbusy => ?dropped⟩
  case accepted => exact congrArg Host.Outcome.next (writeCsr_cmd_of_idle (s := { s with env := rest }) hidle (lowHalf v))
  case dropped => exact congrArg Host.Outcome.next (writeCsr_cmd_of_busy (s := { s with env := rest }) hbusy (lowHalf v))

/-- A word other than 0 has a bit that is set. -/
theorem bitVec_ne_zero_iff {n : Nat} (x : BitVec n) : x ≠ 0#n ↔ ∃ i, i < n ∧ x.getLsbD i = true := by
  constructor
  · intro hne
    by_contra! hclear
    exact hne (BitVec.eq_of_getLsbD_eq fun i hi => by simpa using hclear i hi)
  · rintro ⟨i, -, hset⟩ rfl
    simp at hset

/-- `irq_out` is asserted exactly while some pending bit is enabled (R522). -/
theorem irqOut_iff (s : State) :
    irqOut s = true ↔ ∃ i, i < 9 ∧ s.irqStatus.getLsbD i = true ∧ s.irqEnable.getLsbD i = true := by
  rw [irqOut, decide_eq_true_iff, bitVec_ne_zero_iff]
  simp only [BitVec.getLsbD_and, Bool.and_eq_true]

/-- A write to IRQ_STATUS clears the bits it carries and leaves the others (R521). -/
theorem getLsbD_clearBits (pending : BitVec 9) (v : BitVec 64) {i : Nat} (hi : i < 9) :
    (pending &&& ~~~((lowHalf v).setWidth 9)).getLsbD i = (pending.getLsbD i && !v.getLsbD i) := by
  simp [hi]

/-- Settles O17: the line by its pending and enabled bits, and the two writes by the step of a register write, at their offsets
0x038 and 0x03C (R521, R522). -/
theorem interruptLine : Obligations.InterruptLine := by
  have hstatus : csrAt 0x38 = some .irqStatus := rfl
  have henable : csrAt 0x3C = some .irqEnable := rfl
  refine ⟨irqOut_iff, fun s rest v => ?clears, fun s rest v => ?enables, rfl⟩
  case clears =>
    exact ⟨_, step_writeCsr hstatus (by decide) rfl s rest v, rfl, fun _ hi => getLsbD_clearBits s.irqStatus v hi⟩
  case enables =>
    have hlow : (lowHalf v).setWidth 9 = v.setWidth 9 := BitVec.setWidth_setWidth_of_le v (by decide)
    rw [step_writeCsr henable (by decide) rfl, writeCsr, hlow]

end Sys2Proof.Machine
end

section
/-! PROOFS. BUF accesses while BUSY and the soft reset as steps of the block (spec file 70, R602, R610). -/

namespace Sys2Proof.Machine

/-- A host read of BUF while BUSY returns 0 and sets BUF_HAZ (R610). -/
theorem readAt_buf_of_busy {off : Nat} (hbuf : Config.bufWindow ≤ off) (w : Width) {s : State} (hbusy : s.busy = true) :
    readAt off w s = { s with bufHaz := true, hostData := 0#32 } := by
  rw [readAt, if_neg (Nat.not_lt_of_le hbuf), if_pos hbusy]

/-- A host write of BUF while BUSY is dropped and sets BUF_HAZ (R610). -/
theorem writeAt_buf_of_busy {off : Nat} (hbuf : Config.bufWindow ≤ off) (w : Width) (v : BitVec 64) {s : State}
    (hbusy : s.busy = true) : writeAt off w v s = { s with bufHaz := true } := by
  rw [writeAt, if_neg (Nat.not_lt_of_le hbuf), if_pos hbusy]

/-- Settles O12: an answered access is its effect at the port, which BUSY decides for BUF (R610). -/
theorem busyBuf : Obligations.BusyBuf := by
  intro s rest off w v hbusy hbuf hwindow hok
  have hread := readAt_buf_of_busy hbuf w (s := { s with env := rest }) hbusy
  have hwrite := writeAt_buf_of_busy hbuf w v (s := { s with env := rest }) hbusy
  rw [step_readInWindow hwindow, step_writeInWindow hwindow, if_pos hok, if_pos hok, hread, hwrite]
  exact ⟨rfl, rfl⟩

/-- A write of 1 to CTRL.SRST is the soft reset, busy or not (R602). -/
theorem writeCsr_ctrl_of_set {v : Word} (hset : v.getLsbD 0 = true) (s : State) : writeCsr s v .ctrl = softReset s :=
  if_pos hset

/-- Settles O21: the step is the write of CTRL, at its offset 0x008, whose bit 0 decides (R602). -/
theorem step_softReset : Obligations.SoftReset := by
  intro s rest v hset
  have hctrl : csrAt 0x8 = some .ctrl := rfl
  have hlow : (lowHalf v).getLsbD 0 = true := by simpa [lowHalf] using hset
  rw [step_writeCsr hctrl (by decide) rfl, writeCsr_ctrl_of_set hlow, softReset]

end Sys2Proof.Machine
end

section
/-! PROOFS. The reset value of every register, along the CSR map (spec files 10 and 70, R600). -/

namespace Sys2Proof.Machine

/-- The registers whose reset value is not 0, by offset (R600). -/
def resetTable : List (Nat × Word) :=
  [(0x000, 0x52535244#32), (0x004, 0x00010000#32), (0x104, 170000#32), (0x108, 32000#32), (0x150, 19000#32),
   (0x154, 19000#32), (0x158, 38000#32), (0x15C, 1267#32), (0x160, 15000#32), (0x164, 707#32)] ++
  [(0x180, 0x47AE147B#32), (0x184, 0x3F847AE1#32), (0x188, 0x88E368F1#32), (0x18C, 0x3EE4F8B5#32), (0x200, 288#32),
   (0x208, 3#32), (0x240, 8#32), (0x244, 0x11D#32), (0x24C, 1#32), (0x250, 10#32)] ++
  [(0x254, 135#32), (0x258, 1#32), (0x25C, 120#32), (0x260, 110#32), (0x280, 0x1021#32), (0x284, 0xFFFF#32),
   (0x288, 0xFFFF#32), (0x28C, 3#32), (0x290, 0x782F#32), (0x380, 1024#32), (0x384, 238#32)]

/-- The reset word of the register at an offset: the table's, else 0 (R600). -/
def resetWord (off : Nat) : Word := ((resetTable.find? (fun e => e.1 == off)).map (fun e => e.2)).getD 0#32

/-- The table lists nothing among the Viterbi vectors and profiles, nor among the biquad slots. -/
theorem resetTable_offsets : ∀ e ∈ resetTable, e.1 < 0x300 ∨ (0x380 ≤ e.1 ∧ e.1 < 0x400) := by decide

/-- The reset word of an offset among those regions is 0. -/
theorem resetWord_eq_zero {off : Nat} (hunlisted : (0x300 ≤ off ∧ off < 0x380) ∨ 0x400 ≤ off) : resetWord off = 0#32 := by
  have hnone : resetTable.find? (fun e => e.1 == off) = none := by
    rw [List.find?_eq_none]
    intro e he heq
    have hoff : e.1 = off := by simpa using heq
    have hplace := resetTable_offsets e he
    omega
  rw [resetWord, hnone]
  rfl

/-- The registers at 0x000-0x17F that stand alone, each with its reset word (R33-R43). -/
theorem readCsr_reset_low {off : Nat} {c : Csr} (hcsr : lowCsrAt off = some c) :
    readCsr State.reset c = resetWord off := by
  unfold lowCsrAt at hcsr
  split at hcsr <;> cases hcsr <;> rfl

/-- The registers at 0x200-0x3FF that stand alone, each with its reset word (R45-R51). -/
theorem readCsr_reset_mid {off : Nat} {c : Csr} (hcsr : midCsrAt off = some c) :
    readCsr State.reset c = resetWord off := by
  unfold midCsrAt at hcsr
  split at hcsr <;> cases hcsr <;> rfl

/-- The half the map finds at an offset begins where the offset's third bit says (R32). -/
theorem halfOffset_halfAt (off : Nat) : halfOffset (halfAt off) = 4 * (off / 4 % 2) := by
  unfold halfAt
  split <;> simp only [halfOffset] <;> omega

/-- The PLL register the map finds begins at the multiple of 8 below (R44). -/
theorem pllOffset_of_pllRegAt {o : Nat} {r : PllReg} (hreg : pllRegAt o = some r) : pllOffset r = 0x180 + 8 * (o / 8) := by
  unfold pllRegAt at hreg
  split at hreg <;> cases hreg <;> simp only [pllOffset, *]

/-- The PLL register the map finds at an aligned offset stands at that offset (R44). -/
theorem csrOffset_pll {off : Nat} {r : PllReg} (hreg : pllRegAt (off - 0x180) = some r) (hlow : 0x180 ≤ off)
    (haligned : off % 4 = 0) : csrOffset (.pll r (halfAt off)) = off := by
  rw [csrOffset, pllOffset_of_pllRegAt hreg, halfOffset_halfAt]
  omega

/-- The PLL registers, each half with its reset word (R44). -/
theorem readCsr_reset_pll (r : PllReg) (h : Half) : readCsr State.reset (.pll r h) = resetWord (csrOffset (.pll r h)) := by
  cases r <;> cases h <;> rfl

/-- The biquad registers are all +0.0 (R52). -/
theorem readCsr_reset_bq (slot : Fin 8) (r : BqReg) (h : Half) : readCsr State.reset (.bq slot r h) = 0#32 := by
  have hslot : State.reset.bq[slot] = BqSlot.reset := Vector.getElem_replicate _
  rw [readCsr, hslot]
  cases r <;> cases h <;> rfl

/-- The Viterbi puncturing vectors are not loaded (R50). -/
theorem readCsr_reset_vitPi (k : Fin 24) : readCsr State.reset (.vitPi k) = 0#32 := Vector.getElem_replicate _

/-- The Viterbi profiles are not loaded (R50). -/
theorem readCsr_reset_vitProf (i : Fin 8) : readCsr State.reset (.vitProf i) = 0#32 := by
  have hprof : State.reset.vit.prof[i] = 0#24 := Vector.getElem_replicate _
  rw [readCsr, hprof]
  rfl

/-- Every register reads its reset word right after reset: branch by branch of the CSR map (R600). -/
theorem readCsr_reset {off : Nat} {c : Csr} (hcsr : csrAt off = some c) (haligned : off % 4 = 0) :
    readCsr State.reset c = resetWord off := by
  unfold csrAt at hcsr
  split_ifs at hcsr with hlow hpll hmid hpi hprof hdiag hbq
  · exact readCsr_reset_low hcsr
  · obtain ⟨r, hreg, rfl⟩ := Option.map_eq_some_iff.1 hcsr
    rw [readCsr_reset_pll, csrOffset_pll hreg (Nat.le_of_not_lt hlow) haligned]
  · exact readCsr_reset_mid hcsr
  · cases hcsr
    rw [readCsr_reset_vitPi, resetWord_eq_zero (by omega)]
  · cases hcsr
    rw [readCsr_reset_vitProf, resetWord_eq_zero (by omega)]
  · exact readCsr_reset_mid hcsr
  · obtain ⟨r, hreg, rfl⟩ := Option.map_eq_some_iff.1 hcsr
    rw [readCsr_reset_bq, resetWord_eq_zero (by omega)]

/-- Settles O22: the step of a register read returns the register's reset word, and the latch, which TIME_LO loads with the high
half of TIME, stays 0 (R40, R600). -/
theorem resetValues : Obligations.ResetValues := by
  refine ⟨fun off c hwindow haligned hcsr => ?registers, rfl, rfl, rfl, rfl, rfl, rfl, rfl, rfl⟩
  have hword : readCsr State.reset c = resetWord off := readCsr_reset hcsr haligned
  refine ⟨hword, fun rest => ?step⟩
  have hdata : readCsr { State.reset with env := rest } c = resetWord off := hword
  have hlatch : (if c = .timeLo then highHalf State.reset.time else State.reset.timeHiLatch) = State.reset.timeHiLatch :=
    ite_eq_right_iff.2 fun _ => rfl
  rw [step_readCsr hcsr hwindow haligned, hdata, hlatch]
  rfl

end Sys2Proof.Machine
end

section
/-! TESTS. The bound on the turns of WRAP's loops is reached (spec file 41, R272). -/

namespace Sys2Proof.Machine

/-- The first number above -1024.0 is still below 0.0 after 162 turns, and no longer after 163. -/
example : flt (wrapUp 162 0xC08FFFFFFFFFFFFF#64) 0#64 = true ∧ flt (wrapUp 163 0xC08FFFFFFFFFFFFF#64) 0#64 = false := by
  decide

end Sys2Proof.Machine
end

section
/-! PROOFS. Decoding and encoding in both directions, and the step that completes a decoded command (spec files 30 and 60, R130-R133,
R531). -/

namespace Sys2Proof

set_option Elab.async false

/-- The opcode map puts the selector it is given into the command (R133). -/
theorem sel_commandOf {opc : Nat} {sel : BitVec 4} {i : Instr} (h : commandOf opc sel = some i) : i.sel = sel := by
  unfold commandOf at h
  split at h <;> cases h <;> rfl

/-- A word decodes to a command when RSV is 0 and the opcode map has the command (R132). -/
theorem decode_eq_command_iff {w : Word} {i : Instr} :
    decode w = .command i ↔ rsvField w = 0#20 ∧ commandOf (opcField w).toNat (selField w) = some i := by
  unfold decode
  split
  case isTrue hrsv => cases hcommand : commandOf (opcField w).toNat (selField w) <;> simp [hrsv]
  case isFalse hrsv => simp [hrsv]

/-- A word that decodes to a command is that command's word (R130, R132). -/
theorem encode_of_decode {w : Word} {i : Instr} (h : decode w = .command i) : encode i = w := by
  obtain ⟨hrsv, hcommand⟩ := decode_eq_command_iff.1 h
  exact encode_eq_of_fields (BitVec.eq_of_toNat_eq (opcodeOf_commandOf hcommand)) (sel_commandOf hcommand) hrsv

/-- Settles O1: the opcode map has the opcode and the selector of its command in one direction, and the other is the round trip
of every command. -/
theorem decodeIffEncode : Obligations.DecodeIffEncode := by
  intro w i
  refine ⟨fun hdecode => (encode_of_decode hdecode).symm, ?_⟩
  rintro rfl
  exact decode_encode i

namespace Machine

/-- The completion of a pending command is the command's meaning (R531). -/
theorem completeIfBusy_of_command {s : State} {i : Instr} (hbusy : s.busy = true) (hdecode : decode s.cmd = .command i) :
    completeIfBusy s = exec i s := by
  rw [completeIfBusy, if_pos hbusy, completePending, fetch, hdecode]

/-- Settles O4: both forms of the completing step are the completion of the pending command. -/
theorem stepRunsDecoded : Obligations.StepRunsDecoded := by
  intro s i hbusy hdecode
  refine ⟨?noEvent, ?completionEvent⟩
  case noEvent => exact fun henv => step_of_command henv hbusy hdecode
  case completionEvent =>
    intro rest henv
    rw [step_of_event henv, takeEvent, completeIfBusy_of_command (s := { s with env := rest }) hbusy hdecode]

end Machine

end Sys2Proof
end

section
/-! PROOFS. Every command as its checks and its effect, and what it does to each part of the state (spec files 30, 60 and 70, R131,
R504, R505, R613). -/

namespace Sys2Proof.Machine

set_option Elab.async false

/-- The checks of a command behind its selector check (R501). -/
def checkOf : Instr → State → Option CmdError
  | .nop _ | .iqPolar _ | .bqClear _ | .pllClear _ | .dabReset _ | .brAdd _ => noChecks
  | .fmStart _ => fmStartCheck
  | .fmProcess _ => fmProcessCheck
  | .fmFinish _ => fmFinishCheck
  | .bqDesign _ => bqDesignCheck
  | .bqRun _ | .pllRun _ => f64RunCheck
  | .dabFeed _ => dabFeedCheck
  | .rsInit _ => rsInitCheck
  | .rsDecode _ => rsDecodeCheck
  | .crcCalc _ => crcCalcCheck
  | .crcCheck _ => crcCheckCheck
  | .vitDecode sel => vitDecodeCheck sel.toNat
  | .pwrCalc _ => pwrCalcCheck
  | .stnScore _ => stnScoreCheck

/-- The effect of a command that passes its checks (R503). -/
def effectOf : Instr → State → Effect
  | .nop _ => nopEffect
  | .fmStart _ => fmStartEffect
  | .fmProcess _ => fmProcessEffect
  | .fmFinish _ => fmFinishEffect
  | .iqPolar sel => iqPolarEffect (decide (sel = 1#4))
  | .bqDesign sel => bqDesignEffect (slotOf sel)
  | .bqRun sel => bqRunEffect (slotOf sel)
  | .bqClear sel => bqClearEffect (slotOf sel)
  | .pllRun _ => pllRunEffect
  | .pllClear _ => pllClearEffect
  | .dabReset _ => dabResetEffect
  | .dabFeed _ => dabFeedEffect
  | .rsInit _ => rsInitEffect
  | .rsDecode _ => rsDecodeEffect
  | .crcCalc sel => crcCalcEffect sel
  | .crcCheck sel => crcCheckEffect sel
  | .vitDecode sel => vitDecodeEffect sel.toNat
  | .pwrCalc _ => pwrCalcEffect
  | .brAdd _ => brAddEffect
  | .stnScore _ => stnScoreEffect

/-- A command is its checks, behind the selector check of its range, and its effect (R132, R501, R503). -/
theorem exec_eq (i : Instr) (s : State) :
    exec i s = runCommand (withSelector i.selRange.1 i.selRange.2 i.sel (checkOf i)) (effectOf i) s := by
  cases i <;> rfl

/-- Everything a command can do: an error record over the state, or its effect with a success record (R504). -/
theorem exec_cases {i : Instr} {s t : State} (h : exec i s = .next t) :
    (∃ e, t = raiseError e s) ∨ (i.wf = true ∧ checkOf i s = none ∧ t = succeed (effectOf i s)) := by
  rw [exec_eq] at h
  rcases runCommand_cases h with ⟨e, -, ht⟩ | ⟨hpass, ht⟩
  · exact .inl ⟨e, ht⟩
  · obtain ⟨hlow, hhigh, hcheck⟩ := withSelector_eq_none.1 hpass
    exact .inr ⟨i.wf_iff.2 ⟨hlow, hhigh⟩, hcheck, ht⟩

/-- A command always answers a next state (R502, R505). -/
theorem exec_next (i : Instr) (s : State) : ∃ t, exec i s = .next t := by
  rw [exec_eq]
  exact runCommand_next ..

/-! ### What the effects write -/

/-- FM_START writes the FM unit's registers, and with STEREO the loop's and the four slots' (R210, R212). -/
theorem fmStartEffect_writes (s : State) :
    (fmStartEffect s).state = { s with
      fm := fmStarted numerics s.fm
      pll := if ctrlStereo s.fm then stereoLoop s.fm s.pll else s.pll
      bq := if ctrlStereo s.fm then stereoSlots numerics s.fm s.bq else s.bq } := by
  cases hstereo : ctrlStereo s.fm with
  | true => exact fmStartEffect_state_of_stereo hstereo
  | false => exact fmStartEffect_state_of_plain hstereo

/-- BR_ADD writes the registers of the bit-rate window (R414). -/
theorem brAddEffect_writes (s : State) : ∃ rate bytes t0,
    (brAddEffect s).state = { s with diag := { s.diag with bitrate := rate, brBytes := bytes, brT0 := t0 } } := by
  unfold brAddEffect
  split
  · exact ⟨_, _, _, rfl⟩
  · exact ⟨s.diag.bitrate, _, s.diag.brT0, rfl⟩

/-- The word RS_DECODE reads, as field symbols (R332, R340). -/
def receivedWord (s : State) : List Nat := symbolsOf (rsCodeOf s.rs.latched) (bytesAt s.buf (arg0 s) s.rs.n.toNat)

/-- The erased positions RS_DECODE reads (R340). -/
def erasedPositions (s : State) : List Nat := (bytesAt s.buf (arg1 s) (arg2 s)).map (fun b => b.toNat)

/-- RS_DECODE with a bad erasure list leaves the state alone (R340). -/
theorem rsDecodeEffect_of_badErasures {s : State} (hbad : erasuresOk s.rs.n.toNat (erasedPositions s) = false) :
    rsDecodeEffect s = ⟨s, results 0xFFFFFFFF#32 1#32 s.snap.r2 0#32, 0#9⟩ := by
  simp only [erasedPositions] at hbad
  simp only [rsDecodeEffect, bytes_eq_bytesAt, hbad]
  rfl

/-- RS_DECODE of an uncorrectable word leaves the state alone (R340). -/
theorem rsDecodeEffect_of_uncorrectable {s : State} (hgood : erasuresOk s.rs.n.toNat (erasedPositions s) = true)
    (hword : rsCorrect (rsCodeOf s.rs.latched) (receivedWord s) (erasedPositions s) = none) :
    rsDecodeEffect s = ⟨s, results 0xFFFFFFFF#32 0#32 s.snap.r2 0#32, 0#9⟩ := by
  simp only [erasedPositions, receivedWord] at hgood hword
  simp only [rsDecodeEffect, bytes_eq_bytesAt, hgood, hword]
  rfl

/-- RS_DECODE of a correctable word writes it back and then the positions (R340). -/
theorem rsDecodeEffect_of_corrected {s : State} {cw ps : List Nat}
    (hgood : erasuresOk s.rs.n.toNat (erasedPositions s) = true)
    (hword : rsCorrect (rsCodeOf s.rs.latched) (receivedWord s) (erasedPositions s) = some (cw, ps)) :
    rsDecodeEffect s = ⟨{ s with buf := (s.buf.write (arg0 s) (bytesOf cw)).write (arg3 s) (bytesOf ps) },
      results (wrap32 ps.length) 0#32 s.snap.r2 0#32, 0#9⟩ := by
  simp only [erasedPositions, receivedWord] at hgood hword
  simp only [rsDecodeEffect, bytes_eq_bytesAt, hgood, hword]
  rfl

/-- Everything RS_DECODE's effect can be (R340). -/
theorem rsDecodeEffect_cases (s : State) :
    (∃ r0 r1, rsDecodeEffect s = ⟨s, results r0 r1 s.snap.r2 0#32, 0#9⟩) ∨
    (∃ cw ps, rsCorrect (rsCodeOf s.rs.latched) (receivedWord s) (erasedPositions s) = some (cw, ps) ∧
      erasuresOk s.rs.n.toNat (erasedPositions s) = true ∧
      rsDecodeEffect s = ⟨{ s with buf := (s.buf.write (arg0 s) (bytesOf cw)).write (arg3 s) (bytesOf ps) },
        results (wrap32 ps.length) 0#32 s.snap.r2 0#32, 0#9⟩) := by
  cases hgood : erasuresOk s.rs.n.toNat (erasedPositions s) with
  | false => exact .inl ⟨_, _, rsDecodeEffect_of_badErasures hgood⟩
  | true =>
    cases hword : rsCorrect (rsCodeOf s.rs.latched) (receivedWord s) (erasedPositions s) with
    | none => exact .inl ⟨_, _, rsDecodeEffect_of_uncorrectable hgood hword⟩
    | some d => exact .inr ⟨d.1, d.2, rfl, rfl, rsDecodeEffect_of_corrected hgood hword⟩

/-- RS_DECODE writes BUF, and announces nothing (R340). -/
theorem rsDecodeEffect_writes (s : State) : ∃ buf res, rsDecodeEffect s = ⟨{ s with buf := buf }, res, 0#9⟩ := by
  rcases rsDecodeEffect_cases s with ⟨r0, r1, heffect⟩ | ⟨cw, ps, -, -, heffect⟩
  · exact ⟨s.buf, _, heffect⟩
  · exact ⟨_, _, heffect⟩

/-- The synchronizer with the fragment that DAB_FEED reads appended (R302, R306). -/
def fedDab (s : State) : Dab := appendFragment s.dab (bytesAt s.buf (arg0 s) s.dab.fragLen.toNat)

theorem length_win_fedDab (s : State) : (fedDab s).win.length = s.dab.win.length + 1 := by simp [fedDab]

/-- DAB_FEED with fewer than four fragments held appends the fragment (R306). -/
theorem dabFeedEffect_of_collecting {s : State} (hfew : s.dab.win.length < 4) :
    dabFeedEffect s = ⟨{ s with dab := fedDab s }, feedResults 0 0 (fedDab s), 0#9⟩ := by
  have hheld := length_win_fedDab s
  simp only [fedDab] at hheld
  simp only [dabFeedEffect, bytes_eq_bytesAt]
  rw [if_pos (by omega)]
  rfl

/-- DAB_FEED with a valid superframe stores it and empties the window (R306). -/
theorem dabFeedEffect_of_accepted {s : State} {sf : List Byte} {total : Nat} (hfull : 4 ≤ s.dab.win.length)
    (hvalid : validate s (fedDab s).win.flatten = some (sf, total)) :
    dabFeedEffect s =
      ⟨{ s with dab := acceptSuperframe (fedDab s), buf := s.buf.write (arg2 s) sf },
        feedResults 1 total (acceptSuperframe (fedDab s)), irqSuperframe ||| irqIf (!s.dab.synced) irqSyncAcq⟩ := by
  have hheld := length_win_fedDab s
  simp only [fedDab] at hheld hvalid
  simp only [dabFeedEffect, bytes_eq_bytesAt]
  rw [if_neg (by omega), hvalid]
  rfl

/-- DAB_FEED with an invalid superframe leaves BUF alone (R306). -/
theorem dabFeedEffect_of_rejected {s : State} (hfull : 4 ≤ s.dab.win.length)
    (hvalid : validate s (fedDab s).win.flatten = none) :
    dabFeedEffect s =
      ⟨{ s with dab := rejectSuperframe (fedDab s) }, feedResults 2 0 (rejectSuperframe (fedDab s)),
        irqIf (lossReached (fedDab s)) irqSyncLost⟩ := by
  have hheld := length_win_fedDab s
  simp only [fedDab] at hheld hvalid
  simp only [dabFeedEffect, bytes_eq_bytesAt]
  rw [if_neg (by omega), hvalid]
  rfl

/-- Everything DAB_FEED's effect can be (R306). -/
theorem dabFeedEffect_cases (s : State) :
    (s.dab.win.length < 4 ∧ dabFeedEffect s = ⟨{ s with dab := fedDab s }, feedResults 0 0 (fedDab s), 0#9⟩) ∨
    (4 ≤ s.dab.win.length ∧ ∃ sf total, validate s (fedDab s).win.flatten = some (sf, total) ∧ dabFeedEffect s =
      ⟨{ s with dab := acceptSuperframe (fedDab s), buf := s.buf.write (arg2 s) sf },
        feedResults 1 total (acceptSuperframe (fedDab s)), irqSuperframe ||| irqIf (!s.dab.synced) irqSyncAcq⟩) ∨
    (4 ≤ s.dab.win.length ∧ validate s (fedDab s).win.flatten = none ∧ dabFeedEffect s =
      ⟨{ s with dab := rejectSuperframe (fedDab s) }, feedResults 2 0 (rejectSuperframe (fedDab s)),
        irqIf (lossReached (fedDab s)) irqSyncLost⟩) := by
  rcases Nat.lt_or_ge s.dab.win.length 4 with hfew | hfull
  · exact .inl ⟨hfew, dabFeedEffect_of_collecting hfew⟩
  · cases hvalid : validate s (fedDab s).win.flatten with
    | none => exact .inr (.inr ⟨hfull, rfl, dabFeedEffect_of_rejected hfull hvalid⟩)
    | some d => exact .inr (.inl ⟨hfull, d.1, d.2, rfl, dabFeedEffect_of_accepted hfull hvalid⟩)

/-- A rejection keeps the synchronizer's configuration (R306). -/
theorem rejectSuperframe_config (d : Dab) : (rejectSuperframe d).fragLen = d.fragLen ∧
    (rejectSuperframe d).fireEn = d.fireEn ∧ (rejectSuperframe d).lossThr = d.lossThr := by
  unfold rejectSuperframe
  split <;> exact ⟨rfl, rfl, rfl⟩

/-- DAB_FEED writes the synchronizer, but for its configuration, and BUF (R306). -/
theorem dabFeedEffect_writes (s : State) : ∃ dab buf, (dabFeedEffect s).state = { s with dab := dab, buf := buf } ∧
    dab.fragLen = s.dab.fragLen ∧ dab.fireEn = s.dab.fireEn ∧ dab.lossThr = s.dab.lossThr := by
  rcases dabFeedEffect_cases s with ⟨-, heffect⟩ | ⟨-, sf, total, -, heffect⟩ | ⟨-, -, heffect⟩ <;> rw [heffect]
  · exact ⟨_, s.buf, rfl, rfl, rfl, rfl⟩
  · exact ⟨_, _, rfl, rfl, rfl, rfl⟩
  · exact ⟨_, s.buf, rfl, rejectSuperframe_config (fedDab s)⟩

/-! ### The data path of the FM unit -/

/-- The second of two register sets differs from the first in what a stream computes only: not in the configuration of the FM unit
and of the loop, nor in the stream's latched configuration, nor in the slots 4..7 (R201, R613). -/
structure SameStream (p q : FmPath) : Prop where
  fm : q.fm = { p.fm with
    accI := q.fm.accI, accQ := q.fm.accQ, accCnt := q.fm.accCnt, prevI := q.fm.prevI, prevQ := q.fm.prevQ
    deemphAvg := q.fm.deemphAvg, lprAcc := q.fm.lprAcc, lprIdx := q.fm.lprIdx }
  kp : q.pll.kp = p.pll.kp
  ki : q.pll.ki = p.pll.ki
  slots : ∀ k : Fin 8, 4 ≤ k.val → q.bq[k] = p.bq[k]

theorem SameStream.refl (p : FmPath) : SameStream p p := ⟨rfl, rfl, rfl, fun _ _ => rfl⟩

theorem SameStream.trans {p q r : FmPath} (hpq : SameStream p q) (hqr : SameStream q r) : SameStream p r where
  fm := hqr.fm.trans (by rw [hpq.fm])
  kp := hqr.kp.trans hpq.kp
  ki := hqr.ki.trans hpq.ki
  slots k hk := (hqr.slots k hk).trans (hpq.slots k hk)

/-- Four new slots at 0..3 leave the slots 4..7 (R613). -/
theorem getElem_setFour (bq : Vector BqSlot 8) (b0 b1 b2 b3 : BqSlot) (k : Fin 8) (hk : 4 ≤ k.val) :
    ((((bq.set 0 b0).set 1 b1).set 2 b2).set 3 b3)[k] = bq[k] := by
  have hne : ∀ j : Nat, j < 4 → j ≠ k.val := by omega
  simp only [Fin.getElem_fin]
  rw [Vector.getElem_set_ne _ _ (hne 3 (by decide)), Vector.getElem_set_ne _ _ (hne 2 (by decide)),
    Vector.getElem_set_ne _ _ (hne 1 (by decide)), Vector.getElem_set_ne _ _ (hne 0 (by decide))]

/-- An output of the discriminator moves the stream only, on each of the three paths (R225, R226, R231). -/
theorem sameStream_pathStep (nm : Numerics) (p : FmPath) (d : Int) : SameStream p (pathStep nm p d).1 := by
  unfold pathStep
  split
  · exact ⟨rfl, rfl, rfl, fun k hk => getElem_setFour _ _ _ _ _ k hk⟩
  · split
    · unfold emphStep
      dsimp only
      split <;> exact ⟨rfl, rfl, rfl, fun _ _ => rfl⟩
    · exact SameStream.refl p

/-- A pair moves the stream only (R220). -/
theorem sameStream_pairStep (nm : Numerics) (p : FmPath) (pair : Byte × Byte) : SameStream p (pairStep nm p pair).1 := by
  unfold pairStep
  dsimp only
  split
  · refine SameStream.trans (q := { p with fm := { p.fm with
      accI := 0#32, accQ := 0#32, accCnt := 0#32
      prevI := word32 (quot (s32 p.fm.accI + centred pair.1) p.fm.downsample.toNat)
      prevQ := word32 (quot (s32 p.fm.accQ + centred pair.2) p.fm.downsample.toNat) } }) ?_ (sameStream_pathStep nm _ _)
    exact ⟨rfl, rfl, rfl, fun _ _ => rfl⟩
  · exact ⟨rfl, rfl, rfl, fun _ _ => rfl⟩

/-- A whole input moves the stream only (R240). -/
theorem sameStream_fmRun (nm : Numerics) (xs : List (Byte × Byte)) : ∀ p, SameStream p (fmRun nm p xs).1 := by
  induction xs with
  | nil => exact SameStream.refl
  | cons x xs ih => exact fun p => (sameStream_pairStep nm p x).trans (ih _)

/-- FM_PROCESS refreshes no other register of the FM unit than the three of the power (R241). -/
theorem refreshPower_eq (s : State) (f : Fm) (src npairs : Nat) : ∃ pwr pwrT pwrValid,
    refreshPower s f src npairs = { f with pwr := pwr, pwrT := pwrT, pwrValid := pwrValid } := by
  unfold refreshPower
  split
  · exact ⟨_, _, _, rfl⟩
  · exact ⟨f.pwr, f.pwrT, f.pwrValid, rfl⟩

/-- The loop's gains and increment are kept by a run (R227). -/
theorem runSamples_pllStep (nm : Numerics) (xs : List F64) : ∀ l : Pll, ∃ phase integ,
    (runSamples (pllStep nm) l xs).1 = { l with phase := phase, integ := integ } := by
  induction xs with
  | nil => exact fun l => ⟨l.phase, l.integ, rfl⟩
  | cons x xs ih =>
    intro l
    obtain ⟨phase, integ, hrun⟩ := ih (pllStep nm l x).1
    exact ⟨phase, integ, hrun⟩

/-! ### The two completion records -/

/-- What the effect of every command leaves to the success record: the interrupts, of which it may not announce ERR, ERR_INFO and
the host's registers (R504). -/
structure LeavesRecord (s : State) (d : Effect) : Prop where
  irqStatus : d.state.irqStatus = s.irqStatus
  errInfo : d.state.errInfo = s.errInfo
  noErr : d.irqs.getLsbD 1 = false
  host : SameHostRegisters s d.state

theorem SameHostRegisters.refl (s : State) : SameHostRegisters s s := by simp [SameHostRegisters]

/-- A conditional interrupt is that interrupt under the condition. -/
theorem getLsbD_irqIf (c : Bool) (bit : BitVec 9) (k : Nat) : (irqIf c bit).getLsbD k = (c && bit.getLsbD k) := by
  cases c
  · exact BitVec.getLsbD_zero
  · rfl

/-- FM_PROCESS announces no error and leaves the host's registers (R240, R504). -/
theorem leavesRecord_fmProcess (s : State) : LeavesRecord s (fmProcessEffect s) := by
  have hstream := sameStream_fmRun numerics (s.buf.iqPairs (arg0 s) (arg1 s / 2)) ⟨s.fm, s.pll, s.bq⟩
  obtain ⟨pwr, pwrT, pwrValid, hpower⟩ := refreshPower_eq s
    (fmRun numerics ⟨s.fm, s.pll, s.bq⟩ (s.buf.iqPairs (arg0 s) (arg1 s / 2))).1.fm (arg0 s) (arg1 s / 2)
  refine ⟨rfl, rfl, ?_, ?_⟩
  · rw [fmProcessEffect, BitVec.getLsbD_or, getLsbD_irqIf]
    simp [irqFmFrame, irqPwrUpd]
  · simp only [SameHostRegisters, fmProcessEffect, hpower, hstream.kp, hstream.ki]
    rw [hstream.fm]
    simp

/-- DAB_FEED announces no error and leaves the host's registers (R306, R504). -/
theorem leavesRecord_dabFeed (s : State) : LeavesRecord s (dabFeedEffect s) := by
  obtain ⟨dab, buf, hstate, hlen, hfire, hthr⟩ := dabFeedEffect_writes s
  refine ⟨by rw [hstate], by rw [hstate], ?_, by simp [SameHostRegisters, hstate, hlen, hfire, hthr]⟩
  rcases dabFeedEffect_cases s with ⟨-, heffect⟩ | ⟨-, sf, total, -, heffect⟩ | ⟨-, -, heffect⟩ <;> rw [heffect]
  · exact BitVec.getLsbD_zero
  · rw [BitVec.getLsbD_or, getLsbD_irqIf]
    simp [irqSuperframe, irqSyncAcq]
  · rw [getLsbD_irqIf]
    simp [irqSyncLost]

/-- Every command announces no error when it succeeds, and leaves ERR_INFO and the host's registers (R504, R505). -/
theorem leavesRecord_effectOf (i : Instr) (s : State) : LeavesRecord s (effectOf i s) := by
  cases i with
  | nop | iqPolar | bqDesign | bqRun | bqClear | pllClear | dabReset | rsInit | crcCalc | crcCheck | vitDecode | stnScore =>
    exact ⟨rfl, rfl, BitVec.getLsbD_zero, SameHostRegisters.refl s⟩
  | fmFinish => exact ⟨rfl, rfl, (by decide : irqFmFinished.getLsbD 1 = false), SameHostRegisters.refl s⟩
  | pwrCalc => exact ⟨rfl, rfl, (by decide : irqPwrUpd.getLsbD 1 = false), SameHostRegisters.refl s⟩
  | fmStart =>
    refine ⟨?_, ?_, BitVec.getLsbD_zero, ?_⟩ <;> simp only [effectOf, fmStartEffect_writes, SameHostRegisters]
    cases hstereo : ctrlStereo s.fm <;> simp [fmStarted, stereoLoop]
  | fmProcess => exact leavesRecord_fmProcess s
  | pllRun =>
    obtain ⟨phase, integ, hrun⟩ := runSamples_pllStep numerics (s.buf.f64s (arg0 s) (arg1 s)) s.pll
    exact ⟨rfl, rfl, BitVec.getLsbD_zero, by simp [SameHostRegisters, effectOf, pllRunEffect, hrun]⟩
  | dabFeed => exact leavesRecord_dabFeed s
  | rsDecode =>
    obtain ⟨buf, res, heffect⟩ := rsDecodeEffect_writes s
    rw [effectOf, heffect]
    exact ⟨rfl, rfl, BitVec.getLsbD_zero, SameHostRegisters.refl s⟩
  | brAdd =>
    obtain ⟨rate, bytes, t0, hstate⟩ := brAddEffect_writes s
    refine ⟨by rw [effectOf, hstate], by rw [effectOf, hstate], ?_, by simp [effectOf, hstate, SameHostRegisters]⟩
    simp only [effectOf, brAddEffect]
    split
    · exact (by decide : irqBrUpd.getLsbD 1 = false)
    · exact BitVec.getLsbD_zero

/-- The number of an error code is in 1..7 (R500). -/
theorem errNumber_range (c : ErrCode) : 1 ≤ (errNumber c).toNat ∧ (errNumber c).toNat ≤ 7 := by cases c <;> decide

/-- Settles O7: an error raised is the error record by its number, and an effect leaves everything else of the success record. -/
theorem completionRecord : Obligations.CompletionRecord := by
  intro i s
  obtain ⟨t, hrun⟩ := exec_next i s
  rcases exec_cases hrun with ⟨e, rfl⟩ | ⟨-, -, rfl⟩
  · obtain ⟨hlow, hhigh⟩ := errNumber_range e.code
    exact .inl ⟨errNumber e.code, e.info, hlow, hhigh, hrun⟩
  · have hleaves := leavesRecord_effectOf i s
    have hsucceed := succeed_eq_doneWith (effectOf i s).state (effectOf i s).res (effectOf i s).irqs
    refine .inr ⟨_, _, _, _, _, _, hrun.trans (congrArg _ hsucceed), ?_, ?_, hleaves.irqStatus, hleaves.errInfo, hleaves.host⟩
    · simp [irqDone]
    · rw [BitVec.getLsbD_or, hleaves.noErr]
      decide

/-! ### The operands -/

/-- No check reads the live ARG registers (R131). -/
theorem checkOf_args (i : Instr) (s : State) (q : Quad) : checkOf i { s with args := q } = checkOf i s := by
  cases i <;> rfl

/-- No effect reads the live ARG registers, and each keeps them (R131, R530). -/
theorem effectOf_args (i : Instr) (s : State) (q : Quad) :
    effectOf i { s with args := q } =
      { effectOf i s with state := { (effectOf i s).state with args := q } } := by
  cases i with
  | nop | fmFinish | iqPolar | bqDesign | bqRun | bqClear | pllClear | pllRun | dabReset | rsInit | crcCalc | crcCheck | vitDecode
  | pwrCalc | stnScore | fmProcess => rfl
  | fmStart => cases hstereo : ctrlStereo s.fm <;> simp [effectOf, fmStartEffect, hstereo]
  | dabFeed =>
    rcases dabFeedEffect_cases s with ⟨hfew, heffect⟩ | ⟨hfull, sf, total, hvalid, heffect⟩ | ⟨hfull, hvalid, heffect⟩
    · rw [effectOf, heffect]
      exact dabFeedEffect_of_collecting (s := { s with args := q }) hfew
    · rw [effectOf, heffect]
      exact dabFeedEffect_of_accepted (s := { s with args := q }) hfull hvalid
    · rw [effectOf, heffect]
      exact dabFeedEffect_of_rejected (s := { s with args := q }) hfull hvalid
  | rsDecode =>
    cases hgood : erasuresOk s.rs.n.toNat (erasedPositions s) with
    | false =>
      rw [effectOf, rsDecodeEffect_of_badErasures hgood]
      exact rsDecodeEffect_of_badErasures (s := { s with args := q }) hgood
    | true =>
      cases hword : rsCorrect (rsCodeOf s.rs.latched) (receivedWord s) (erasedPositions s) with
      | none =>
        rw [effectOf, rsDecodeEffect_of_uncorrectable hgood hword]
        exact rsDecodeEffect_of_uncorrectable (s := { s with args := q }) hgood hword
      | some d =>
        rw [effectOf, rsDecodeEffect_of_corrected hgood hword]
        exact rsDecodeEffect_of_corrected (s := { s with args := q }) hgood hword
  | brAdd =>
    rcases Nat.lt_or_ge (brElapsed s) 1000000 with hyoung | hold
    · rw [effectOf, brAddEffect_of_open hyoung]
      exact brAddEffect_of_open (s := { s with args := q }) hyoung
    · rw [effectOf, brAddEffect_of_closing hold]
      exact brAddEffect_of_closing (s := { s with args := q }) hold

/-- Settles O6: neither the checks nor the effect read the live registers, and both records keep them. -/
theorem snapshotOnly : Obligations.SnapshotOnly := by
  intro i s q
  rw [exec_eq, exec_eq]
  have hcheck : withSelector i.selRange.1 i.selRange.2 i.sel (checkOf i) { s with args := q } =
      withSelector i.selRange.1 i.selRange.2 i.sel (checkOf i) s := by
    rw [withSelector, checkOf_args]
    rfl
  cases hpass : withSelector i.selRange.1 i.selRange.2 i.sel (checkOf i) s with
  | some e => exact ⟨_, runCommand_error hpass, runCommand_error (hcheck.trans hpass)⟩
  | none =>
    refine ⟨_, runCommand_success hpass, ?_⟩
    rw [runCommand_success (hcheck.trans hpass), effectOf_args]
    rfl

/-! ### The frames of the units -/

/-- What the effect of a command leaves of each unit that is not its own (R35, R613): clause by clause as the commands that may
write it. -/
structure UnitFrame (i : Instr) (s t : State) : Prop where
  fm : (∀ sel, i ≠ .fmStart sel ∧ i ≠ .fmProcess sel ∧ i ≠ .fmFinish sel) → t.fm = s.fm
  pll : (∀ sel, i ≠ .fmStart sel ∧ i ≠ .fmProcess sel ∧ i ≠ .pllRun sel ∧ i ≠ .pllClear sel) → t.pll = s.pll
  bq : ∀ k : Fin 8, (∀ sel, sel.toNat = k.val → i ≠ .bqDesign sel ∧ i ≠ .bqRun sel ∧ i ≠ .bqClear sel) →
    (4 ≤ k.val ∨ ∀ sel, i ≠ .fmStart sel ∧ i ≠ .fmProcess sel) → t.bq[k] = s.bq[k]
  dab : (∀ sel, i ≠ .dabReset sel ∧ i ≠ .dabFeed sel) → t.dab = s.dab
  rs : (∀ sel, i ≠ .rsInit sel) → t.rs = s.rs
  crcPass : (∀ sel, i ≠ .crcCheck sel) → t.crcPass = s.crcPass
  diag : (∀ sel, i ≠ .pwrCalc sel ∧ i ≠ .brAdd sel) → t.diag = s.diag

/-- A state with the same units is in every frame. -/
theorem UnitFrame.of_eq {i : Instr} {s t : State} (hfm : t.fm = s.fm) (hpll : t.pll = s.pll) (hbq : t.bq = s.bq)
    (hdab : t.dab = s.dab) (hrs : t.rs = s.rs) (hcrc : t.crcPass = s.crcPass) (hdiag : t.diag = s.diag) : UnitFrame i s t :=
  ⟨fun _ => hfm, fun _ => hpll, fun _ _ _ => by rw [hbq], fun _ => hdab, fun _ => hrs, fun _ => hcrc, fun _ => hdiag⟩

/-- Another slot than the one a well-formed selector names is kept by a write to that one. -/
theorem getElem_set_slotOf (bq : Vector BqSlot 8) (b : BqSlot) {sel : BitVec 4} (hsel : sel.toNat ≤ 7) {k : Fin 8}
    (hk : sel.toNat ≠ k.val) : (bq.set (slotOf sel) b)[k] = bq[k] := by
  have hslot : (slotOf sel).val = sel.toNat := Nat.mod_eq_of_lt (by omega)
  simp only [Fin.getElem_fin]
  exact Vector.getElem_set_ne _ _ (by omega)

/-- A command over a slot is in its frame. -/
theorem unitFrame_slot {i : Instr} {sel : BitVec 4} {s t : State} (b : BqSlot) (hsel : sel.toNat ≤ 7)
    (hi : i = .bqDesign sel ∨ i = .bqRun sel ∨ i = .bqClear sel) (hfm : t.fm = s.fm) (hpll : t.pll = s.pll)
    (hbq : t.bq = s.bq.set (slotOf sel) b) (hdab : t.dab = s.dab) (hrs : t.rs = s.rs) (hcrc : t.crcPass = s.crcPass)
    (hdiag : t.diag = s.diag) : UnitFrame i s t where
  fm _ := hfm
  pll _ := hpll
  bq k hother _ := by
    rw [hbq]
    refine getElem_set_slotOf _ _ hsel (fun hk => ?_)
    obtain ⟨h1, h2, h3⟩ := hother sel hk
    rcases hi with h | h | h
    · exact h1 h
    · exact h2 h
    · exact h3 h
  dab _ := hdab
  rs _ := hrs
  crcPass _ := hcrc
  diag _ := hdiag

/-- The FM unit's two commands over the whole path are in their frames: they keep the slots 4..7 (R613). -/
theorem unitFrame_path {i : Instr} {s t : State} (hi : ∃ sel, i = .fmStart sel ∨ i = .fmProcess sel)
    (hbq : ∀ k : Fin 8, 4 ≤ k.val → t.bq[k] = s.bq[k]) (hdab : t.dab = s.dab) (hrs : t.rs = s.rs)
    (hcrc : t.crcPass = s.crcPass) (hdiag : t.diag = s.diag) : UnitFrame i s t := by
  obtain ⟨sel, hsel⟩ := hi
  refine ⟨?_, ?_, ?_, fun _ => hdab, fun _ => hrs, fun _ => hcrc, fun _ => hdiag⟩
  · intro hother
    obtain ⟨h1, h2, -⟩ := hother sel
    exact (hsel.elim h1 h2).elim
  · intro hother
    obtain ⟨h1, h2, -⟩ := hother sel
    exact (hsel.elim h1 h2).elim
  · rintro k - (hk | hother)
    · exact hbq k hk
    · exact (hsel.elim (hother sel).1 (hother sel).2).elim

/-- The effect of every command is in its frame (R613). -/
theorem unitFrame_effectOf (i : Instr) (hwf : i.wf = true) (s : State) : UnitFrame i s (effectOf i s).state := by
  have hsel := (i.wf_iff.1 hwf).2
  cases i with
  | nop | iqPolar | crcCalc | vitDecode | stnScore => exact .of_eq rfl rfl rfl rfl rfl rfl rfl
  | fmStart sel =>
    rw [effectOf, fmStartEffect_writes]
    refine unitFrame_path ⟨sel, .inl rfl⟩ (fun k hk => ?_) rfl rfl rfl rfl
    dsimp only
    split
    · exact getElem_setFour _ _ _ _ _ k hk
    · rfl
  | fmProcess sel =>
    have hstream := sameStream_fmRun numerics (s.buf.iqPairs (arg0 s) (arg1 s / 2)) ⟨s.fm, s.pll, s.bq⟩
    exact unitFrame_path ⟨sel, .inr rfl⟩ hstream.slots rfl rfl rfl rfl
  | fmFinish sel =>
    exact ⟨fun h => absurd rfl (h sel).2.2, fun _ => rfl, fun _ _ _ => rfl, fun _ => rfl, fun _ => rfl, fun _ => rfl, fun _ => rfl⟩
  | bqDesign sel => exact unitFrame_slot _ hsel (.inl rfl) rfl rfl rfl rfl rfl rfl rfl
  | bqRun sel => exact unitFrame_slot _ hsel (.inr (.inl rfl)) rfl rfl rfl rfl rfl rfl rfl
  | bqClear sel => exact unitFrame_slot _ hsel (.inr (.inr rfl)) rfl rfl rfl rfl rfl rfl rfl
  | pllRun sel =>
    exact ⟨fun _ => rfl, fun h => absurd rfl (h sel).2.2.1, fun _ _ _ => rfl, fun _ => rfl, fun _ => rfl, fun _ => rfl, fun _ => rfl⟩
  | pllClear sel =>
    exact ⟨fun _ => rfl, fun h => absurd rfl (h sel).2.2.2, fun _ _ _ => rfl, fun _ => rfl, fun _ => rfl, fun _ => rfl, fun _ => rfl⟩
  | dabReset sel =>
    exact ⟨fun _ => rfl, fun _ => rfl, fun _ _ _ => rfl, fun h => absurd rfl (h sel).1, fun _ => rfl, fun _ => rfl, fun _ => rfl⟩
  | dabFeed sel =>
    obtain ⟨dab, buf, hstate, -⟩ := dabFeedEffect_writes s
    rw [effectOf, hstate]
    exact ⟨fun _ => rfl, fun _ => rfl, fun _ _ _ => rfl, fun h => absurd rfl (h sel).2, fun _ => rfl, fun _ => rfl, fun _ => rfl⟩
  | rsInit sel =>
    exact ⟨fun _ => rfl, fun _ => rfl, fun _ _ _ => rfl, fun _ => rfl, fun h => absurd rfl (h sel), fun _ => rfl, fun _ => rfl⟩
  | rsDecode sel =>
    obtain ⟨buf, res, heffect⟩ := rsDecodeEffect_writes s
    rw [effectOf, heffect]
    exact .of_eq rfl rfl rfl rfl rfl rfl rfl
  | crcCheck sel =>
    exact ⟨fun _ => rfl, fun _ => rfl, fun _ _ _ => rfl, fun _ => rfl, fun _ => rfl, fun h => absurd rfl (h sel), fun _ => rfl⟩
  | pwrCalc sel =>
    exact ⟨fun _ => rfl, fun _ => rfl, fun _ _ _ => rfl, fun _ => rfl, fun _ => rfl, fun _ => rfl, fun h => absurd rfl (h sel).1⟩
  | brAdd sel =>
    obtain ⟨rate, bytes, t0, hstate⟩ := brAddEffect_writes s
    rw [effectOf, hstate]
    exact ⟨fun _ => rfl, fun _ => rfl, fun _ _ _ => rfl, fun _ => rfl, fun _ => rfl, fun _ => rfl, fun h => absurd rfl (h sel).2⟩

/-- Settles O8: an error record writes no unit, and neither record writes more of the units than the effect. -/
theorem unitFrames : Obligations.UnitFrames := by
  intro i s t hrun
  have hframe : UnitFrame i s t := by
    rcases exec_cases hrun with ⟨e, rfl⟩ | ⟨hwf, -, rfl⟩
    · exact .of_eq rfl rfl rfl rfl rfl rfl rfl
    · obtain ⟨h1, h2, h3, h4, h5, h6, h7⟩ := unitFrame_effectOf i hwf s
      exact ⟨h1, h2, h3, h4, h5, h6, h7⟩
  exact ⟨hframe.fm, hframe.pll, hframe.bq, hframe.dab, hframe.rs, hframe.crcPass, hframe.diag⟩

end Sys2Proof.Machine
end

section
/-! PROOFS. The CSR map, and what the reserved offsets do (spec files 10 and 20, R30-R52, R109). -/

namespace Sys2Proof.Machine

set_option Elab.async false

/-- A register of 0x000-0x17F that stands alone is found at its offset (R33-R43). -/
theorem csrOffset_of_lowCsrAt {off : Nat} {c : Csr} (h : lowCsrAt off = some c) : csrOffset c = off := by
  unfold lowCsrAt at h
  split at h <;> cases h <;> rfl

/-- A register of 0x200-0x3FF that stands alone is found at its offset (R45-R51). -/
theorem csrOffset_of_midCsrAt {off : Nat} {c : Csr} (h : midCsrAt off = some c) : csrOffset c = off := by
  unfold midCsrAt at h
  split at h <;> cases h <;> rfl

/-- The biquad register the map finds begins at the multiple of 8 below (R52). -/
theorem bqOffset_of_bqRegAt {o : Nat} {r : BqReg} (h : bqRegAt o = some r) : bqOffset r = 8 * (o / 8) := by
  unfold bqRegAt at h
  split at h <;> cases h <;> simp only [bqOffset, *]

/-- The register the map finds at an aligned offset stands at that offset (R33-R52). -/
theorem csrOffset_of_csrAt {off : Nat} {c : Csr} (h : csrAt off = some c) (haligned : off % 4 = 0) : csrOffset c = off := by
  unfold csrAt at h
  split_ifs at h with hlow hpll hmid hpi hprof hdiag hbq
  · exact csrOffset_of_lowCsrAt h
  · obtain ⟨r, hreg, rfl⟩ := Option.map_eq_some_iff.1 h
    exact csrOffset_pll hreg (Nat.le_of_not_lt hlow) haligned
  · exact csrOffset_of_midCsrAt h
  · cases h
    simp only [csrOffset, Fin.val_ofNat]
    omega
  · cases h
    simp only [csrOffset, Fin.val_ofNat]
    omega
  · exact csrOffset_of_midCsrAt h
  · obtain ⟨r, hreg, rfl⟩ := Option.map_eq_some_iff.1 h
    rw [csrOffset, bqOffset_of_bqRegAt hreg, halfOffset_halfAt, Fin.val_ofNat]
    omega

/-- The map finds every register at its offset (R33-R52). -/
theorem csrAt_csrOffset (c : Csr) : csrAt (csrOffset c) = some c := by
  cases c with
  | arg i | res i | vitPoly i | vitPi i | vitProf i => revert i; decide
  | pll r h => cases r <;> cases h <;> rfl
  | rsConfig r => cases r <;> rfl
  | crc mode r => revert mode; cases r <;> decide
  | bq slot r h => revert slot; cases r <;> cases h <;> decide
  | _ => rfl

/-- Every register stands at an aligned offset of the CSR window (R30). -/
theorem csrOffset_inWindow (c : Csr) : csrOffset c < Config.csrWindow ∧ csrOffset c % 4 = 0 := by
  rw [csrWindow_eq]
  cases c with
  | arg i | res i | vitPoly i | vitPi i | vitProf i => simp only [csrOffset]; omega
  | pll r h => cases r <;> cases h <;> decide
  | rsConfig r => cases r <;> decide
  | crc mode r => cases r <;> simp only [csrOffset, crcOffset] <;> omega
  | bq slot r h => cases r <;> cases h <;> simp only [csrOffset, bqOffset, halfOffset] <;> omega
  | _ => decide

/-- An aligned offset of the window holds a register exactly when the register's table puts it there (R33-R52). -/
theorem csrAt_eq_some_iff {off : Nat} {c : Csr} (haligned : off % 4 = 0) : csrAt off = some c ↔ off = csrOffset c := by
  refine ⟨fun h => (csrOffset_of_csrAt h haligned).symm, ?_⟩
  rintro rfl
  exact csrAt_csrOffset c

/-- No register is reached at an aligned offset where none stands (R30). -/
theorem csrOf_reserved {off : Nat} (haligned : off % 4 = 0) (hreserved : ∀ c, off ≠ csrOffset c) : csrOf off = none := by
  unfold csrOf
  split
  · cases h : csrAt off with
    | none => rfl
    | some c => exact absurd ((csrAt_eq_some_iff haligned).1 h) (hreserved c)
  · rfl

/-- A 32-bit access at an aligned offset below BUF is answered (R105). -/
theorem accessOk_of_aligned {off : Nat} (haligned : off % 4 = 0) : accessOk off .w32 = true := decide_eq_true haligned

/-- A read at a reserved offset returns 0 (R30). -/
theorem readAt_reserved {off : Nat} (hbelow : off < Config.bufWindow) (hnone : csrOf off = none) (w : Width) (s : State) :
    readAt off w s = { s with hostData := 0#32 } := by
  rw [readAt, if_pos hbelow, hnone]

/-- A write at a reserved offset has no effect (R30, R109). -/
theorem writeAt_reserved {off : Nat} (hbelow : off < Config.bufWindow) (hnone : csrOf off = none) (w : Width) (v : BitVec 64)
    (s : State) : writeAt off w v s = s := by
  rw [writeAt, if_pos hbelow, hnone]

/-- Settles O14: the map and the table of offsets agree, and at an offset of no register a read is 0 and a write does nothing. -/
theorem csrMap : Obligations.CsrMap := by
  refine ⟨fun off c _ haligned => csrAt_eq_some_iff haligned, ?_⟩
  intro s rest off v hbelow haligned hreserved
  have hwindow : off < Config.mmioSize := hbelow.trans (by decide)
  have hnone := csrOf_reserved haligned hreserved
  rw [step_readInWindow hwindow, step_writeInWindow hwindow, if_pos (accessOk_of_aligned haligned),
    if_pos (accessOk_of_aligned haligned), readAt_reserved hbelow hnone, writeAt_reserved hbelow hnone]
  exact ⟨rfl, rfl⟩

end Sys2Proof.Machine
end

section
/-! PROOFS. What a register write does: while BUSY, to the control registers, and to a register of an idle block (spec files 10, 60
and 70, R31, R35, R45, R335, R521, R602, R611). -/

namespace Sys2Proof.Machine

set_option Elab.async false

/-- A write while BUSY to any register but the control registers is ignored with WR_IGNORED set (R611). -/
theorem writeCsr_of_busy {s : State} {c : Csr} (hbusy : s.busy = true) (hplain : isControl c = false) (v : Word) :
    writeCsr s v c = { s with wrIgnored := true } := by
  cases c with
  | ctrl | status | cmd | irqStatus | irqEnable => cases hplain
  | _ => exact if_pos hbusy

/-- A write to a register of an idle block is stored (R31, R109). -/
theorem writeCsr_of_idle {s : State} {c : Csr} (hidle : s.busy = false) (hplain : isControl c = false) (v : Word) :
    writeCsr s v c = storeCsr s v c := by
  have hbusy : ¬ s.busy = true := by simp [hidle]
  cases c with
  | ctrl | status | cmd | irqStatus | irqEnable => cases hplain
  | _ => exact if_neg hbusy

/-- Settles O13: the step of a register write, and for each class of registers what the write does. -/
theorem busyCsrWrites : Obligations.BusyCsrWrites := by
  intro s rest off v c hwindow haligned hcsr u answer
  have hanswer : answer = .next (writeCsr u (lowHalf v) c) := step_writeCsr hcsr hwindow haligned s rest v
  have hlow : ∀ k, k < 32 → (lowHalf v).getLsbD k = v.getLsbD k := fun k hk => by simp [lowHalf, hk]
  have hnine : (lowHalf v).setWidth 9 = v.setWidth 9 := BitVec.setWidth_setWidth_of_le v (by decide)
  rw [hanswer]
  refine ⟨?ignored, ?overrun, ?irqStatus, ?irqEnable, ?status, ?ctrl⟩
  case ignored => exact fun hbusy hplain => congrArg _ (writeCsr_of_busy (s := u) hbusy hplain _)
  case overrun =>
    rintro hbusy rfl
    exact congrArg _ (writeCsr_cmd_of_busy (s := u) hbusy _)
  case irqStatus =>
    rintro rfl
    rw [writeCsr, hnine]
  case irqEnable =>
    rintro rfl
    rw [writeCsr, hnine]
  case status =>
    rintro rfl
    rw [writeCsr, clearSticky, hlow 16 (by decide), hlow 17 (by decide), hlow 18 (by decide)]
  case ctrl =>
    rintro rfl
    rw [writeCsr, hlow 0 (by decide)]
    rfl

/-! ### The halves and the bits of a register -/

/-- The bits of two halves put together. -/
theorem getLsbD_halves (high low : Word) (k : Nat) :
    (high ++ low : BitVec 64).getLsbD k = if k < 32 then low.getLsbD k else high.getLsbD (k - 32) := by
  have h : (high ++ low).getLsbD k = _ := BitVec.getLsbD_append
  rw [h]

/-- The low half of two halves put together. -/
theorem lowHalf_append (high low : Word) : lowHalf (high ++ low) = low := by
  refine BitVec.eq_of_getLsbD_eq (fun i hi => ?_)
  rw [BitVec.getLsbD_setWidth, getLsbD_halves, if_pos hi, decide_eq_true hi, Bool.true_and]

/-- The high half of two halves put together. -/
theorem highHalf_append (high low : Word) : highHalf (high ++ low) = high := by
  refine BitVec.eq_of_getLsbD_eq (fun i hi => ?_)
  rw [BitVec.getLsbD_setWidth, BitVec.getLsbD_ushiftRight, getLsbD_halves, if_neg (by omega), decide_eq_true hi, Bool.true_and,
    Nat.add_sub_cancel_left]

/-- A half written is read back (R32). -/
theorem halfOf_withHalf (h : Half) (x : BitVec 64) (v : Word) : halfOf h (withHalf h x v) = v := by
  cases h with
  | lo => exact lowHalf_append ..
  | hi => exact highHalf_append ..

/-- The other half is kept (R32). -/
theorem halfOf_withHalf_of_ne {h h' : Half} (hne : h' ≠ h) (x : BitVec 64) (v : Word) :
    halfOf h' (withHalf h x v) = halfOf h' x := by
  cases h with
  | lo =>
    cases h' with
    | lo => exact absurd rfl hne
    | hi => exact highHalf_append ..
  | hi =>
    cases h' with
    | lo => exact lowHalf_append ..
    | hi => exact absurd rfl hne

/-- The lowest bits of a word, read as a word. -/
theorem setWidth_setWidth_eq_and (v : Word) {k : Nat} (hk : k ≤ 32) :
    (v.setWidth k).setWidth 32 = v &&& BitVec.ofNat 32 (2 ^ k - 1) := by
  have hpow : 2 ^ k ≤ 2 ^ 32 := Nat.pow_le_pow_right (by decide) hk
  have hmask : (2 ^ k - 1) % 2 ^ 32 = 2 ^ k - 1 := Nat.mod_eq_of_lt (by have := Nat.two_pow_pos k; omega)
  apply BitVec.eq_of_toNat_eq
  rw [BitVec.toNat_setWidth_of_le hk, BitVec.toNat_setWidth, BitVec.toNat_and, BitVec.toNat_ofNat, hmask,
    Nat.and_two_pow_sub_one_eq_mod]

/-- A flag has its own bit only (R35). -/
theorem getLsbD_flagAt (b : Bool) {pos : Nat} (hpos : pos < 32) (k : Nat) :
    (flagAt b pos).getLsbD k = (b && decide (k = pos)) := by
  cases b with
  | false => exact BitVec.getLsbD_zero
  | true =>
    rw [flagAt, if_pos rfl, BitVec.getLsbD_ofNat, Nat.testBit_two_pow, Bool.true_and]
    grind

/-- A flag in bit 0 is the word 1 or 0. -/
theorem flagAt_zero (b : Bool) : flagAt b 0 = if b then 1#32 else 0#32 := rfl

/-! ### Reads -/

/-- A read of a register does not depend on the events to come. -/
theorem readCsr_env (s : State) (rest : List Event) (c : Csr) : readCsr { s with env := rest } c = readCsr s c := by
  cases c <;> rfl

/-- The bits of STATUS (R35). -/
theorem getLsbD_statusWord (s : State) (k : Nat) : (statusWord s).getLsbD k =
    (s.busy && decide (k = 0) || s.err && decide (k = 1) || s.crcPass && decide (k = 2) || s.dab.synced && decide (k = 3) ||
      (decide (k < 32) && !decide (k < 8) && s.errcode.getLsbD (k - 8)) ||
      s.overrun && decide (k = 16) || s.wrIgnored && decide (k = 17) || s.bufHaz && decide (k = 18)) := by
  have hcode : (s.errcode.setWidth 32 <<< 8).getLsbD k = (decide (k < 32) && !decide (k < 8) && s.errcode.getLsbD (k - 8)) := by
    rw [BitVec.getLsbD_shiftLeft, BitVec.getLsbD_setWidth]
    grind
  simp only [statusWord, BitVec.getLsbD_or, hcode]
  rw [getLsbD_flagAt _ (by decide), getLsbD_flagAt _ (by decide), getLsbD_flagAt _ (by decide), getLsbD_flagAt _ (by decide),
    getLsbD_flagAt _ (by decide), getLsbD_flagAt _ (by decide), getLsbD_flagAt _ (by decide)]

/-- The bits of FM_STATE (R42). -/
theorem getLsbD_fmStateWord (f : Fm) (k : Nat) : (fmStateWord f).getLsbD k =
    (f.running && decide (k = 0) || f.finished && decide (k = 1) || f.pwrValid && decide (k = 2) ||
      f.lStereo && decide (k = 8) || f.lEmph && decide (k = 9) || f.lFast && decide (k = 10)) := by
  simp only [fmStateWord, BitVec.getLsbD_or]
  rw [getLsbD_flagAt _ (by decide), getLsbD_flagAt _ (by decide), getLsbD_flagAt _ (by decide), getLsbD_flagAt _ (by decide),
    getLsbD_flagAt _ (by decide), getLsbD_flagAt _ (by decide)]

/-- The bits of DAB_STATUS (R46). -/
theorem getLsbD_dabStatusWord (d : Dab) (k : Nat) : (dabStatusWord d).getLsbD k =
    (d.synced && decide (k = 0) || (decide (k < 32) && !decide (k < 8) && (wcnt d).getLsbD (k - 8)) ||
      (decide (k < 32) && !decide (k < 16) && d.fails.getLsbD (k - 16))) := by
  simp only [dabStatusWord, BitVec.getLsbD_or, BitVec.getLsbD_shiftLeft, BitVec.getLsbD_setWidth]
  rw [getLsbD_flagAt _ (by decide)]
  grind

/-- A field of a word is 0 when its bits are. -/
theorem extractLsb'_eq_zero {w : Word} {start len : Nat} (h : ∀ i, i < len → w.getLsbD (start + i) = false) :
    w.extractLsb' start len = 0#len := by
  refine BitVec.eq_of_getLsbD_eq (fun i hi => ?_)
  simp [hi, h i hi]

/-- The fields of STATUS, bit by bit, with the reserved bits 0 (R35). -/
theorem statusWord_fields (s : State) :
    (statusWord s).getLsbD 0 = s.busy ∧ (statusWord s).getLsbD 1 = s.err ∧ (statusWord s).getLsbD 2 = s.crcPass ∧
    (statusWord s).getLsbD 3 = s.dab.synced ∧ (statusWord s).extractLsb' 8 8 = s.errcode ∧
    (statusWord s).getLsbD 16 = s.overrun ∧ (statusWord s).getLsbD 17 = s.wrIgnored ∧
    (statusWord s).getLsbD 18 = s.bufHaz ∧ (statusWord s).extractLsb' 4 4 = 0#4 ∧
    (statusWord s).extractLsb' 19 13 = 0#13 := by
  refine ⟨?_, ?_, ?_, ?_, ?code, ?_, ?_, ?_, ?low, ?high⟩
  case code =>
    refine BitVec.eq_of_getLsbD_eq (fun i hi => ?_)
    rw [BitVec.getLsbD_extractLsb', getLsbD_statusWord]
    have hbounds : 8 + i ≠ 0 ∧ 8 + i ≠ 1 ∧ 8 + i ≠ 2 ∧ 8 + i ≠ 3 ∧ 8 + i ≠ 16 ∧ 8 + i ≠ 17 ∧ 8 + i ≠ 18 ∧ 8 + i < 32 := by omega
    simp [hi, hbounds]
  case low =>
    refine extractLsb'_eq_zero (fun i hi => ?_)
    rw [getLsbD_statusWord]
    have hbounds : 4 + i ≠ 0 ∧ 4 + i ≠ 1 ∧ 4 + i ≠ 2 ∧ 4 + i ≠ 3 ∧ 4 + i ≠ 16 ∧ 4 + i ≠ 17 ∧ 4 + i ≠ 18 ∧ 4 + i < 8 := by omega
    simp [hbounds]
  case high =>
    refine extractLsb'_eq_zero (fun i hi => ?_)
    rw [getLsbD_statusWord, BitVec.getLsbD_of_ge _ (19 + i - 8) (by omega)]
    have hbounds : 19 + i ≠ 0 ∧ 19 + i ≠ 1 ∧ 19 + i ≠ 2 ∧ 19 + i ≠ 3 ∧ 19 + i ≠ 16 ∧ 19 + i ≠ 17 ∧ 19 + i ≠ 18 := by omega
    simp [hbounds]
  all_goals
    rw [getLsbD_statusWord]
    simp

/-- The fields of FM_STATE, with the reserved bits 0 (R42). -/
theorem fmStateWord_fields (f : Fm) :
    (fmStateWord f).getLsbD 0 = f.running ∧ (fmStateWord f).getLsbD 1 = f.finished ∧ (fmStateWord f).getLsbD 2 = f.pwrValid ∧
    (fmStateWord f).getLsbD 8 = f.lStereo ∧ (fmStateWord f).getLsbD 9 = f.lEmph ∧ (fmStateWord f).getLsbD 10 = f.lFast ∧
    (fmStateWord f).extractLsb' 3 5 = 0#5 ∧ (fmStateWord f).extractLsb' 11 21 = 0#21 := by
  refine ⟨?_, ?_, ?_, ?_, ?_, ?_, ?low, ?high⟩
  case low =>
    refine extractLsb'_eq_zero (fun i hi => ?_)
    rw [getLsbD_fmStateWord]
    have hbounds : 3 + i ≠ 0 ∧ 3 + i ≠ 1 ∧ 3 + i ≠ 2 ∧ 3 + i ≠ 8 ∧ 3 + i ≠ 9 ∧ 3 + i ≠ 10 := by omega
    simp [hbounds]
  case high =>
    refine extractLsb'_eq_zero (fun i hi => ?_)
    rw [getLsbD_fmStateWord]
    have hbounds : 11 + i ≠ 0 ∧ 11 + i ≠ 1 ∧ 11 + i ≠ 2 ∧ 11 + i ≠ 8 ∧ 11 + i ≠ 9 ∧ 11 + i ≠ 10 := by omega
    simp [hbounds]
  all_goals
    rw [getLsbD_fmStateWord]
    simp

/-- The fields of DAB_STATUS, with the reserved bits 0 (R46). -/
theorem dabStatusWord_fields (d : Dab) :
    (dabStatusWord d).getLsbD 0 = d.synced ∧ (dabStatusWord d).extractLsb' 8 3 = wcnt d ∧
    (dabStatusWord d).extractLsb' 16 8 = d.fails ∧ (dabStatusWord d).extractLsb' 1 7 = 0#7 ∧
    (dabStatusWord d).extractLsb' 11 5 = 0#5 ∧ (dabStatusWord d).extractLsb' 24 8 = 0#8 := by
  refine ⟨by rw [getLsbD_dabStatusWord]; simp, ?wcnt, ?fails, ?low, ?mid, ?high⟩
  case wcnt =>
    refine BitVec.eq_of_getLsbD_eq (fun i hi => ?_)
    rw [BitVec.getLsbD_extractLsb', getLsbD_dabStatusWord]
    have hbounds : 8 + i ≠ 0 ∧ 8 + i < 32 ∧ 8 + i < 16 := by omega
    simp [hi, hbounds]
  case fails =>
    refine BitVec.eq_of_getLsbD_eq (fun i hi => ?_)
    rw [BitVec.getLsbD_extractLsb', getLsbD_dabStatusWord, (wcnt d).getLsbD_of_ge (16 + i - 8) (by omega)]
    have hbounds : 16 + i ≠ 0 ∧ 16 + i < 32 := by omega
    simp [hi, hbounds]
  case low =>
    refine extractLsb'_eq_zero (fun i hi => ?_)
    rw [getLsbD_dabStatusWord]
    have hbounds : 1 + i ≠ 0 ∧ 1 + i < 8 ∧ 1 + i < 16 := by omega
    simp [hbounds]
  case mid =>
    refine extractLsb'_eq_zero (fun i hi => ?_)
    rw [getLsbD_dabStatusWord, (wcnt d).getLsbD_of_ge (11 + i - 8) (by omega)]
    have hbounds : 11 + i ≠ 0 ∧ 11 + i < 16 := by omega
    simp [hbounds]
  case high =>
    refine extractLsb'_eq_zero (fun i hi => ?_)
    rw [getLsbD_dabStatusWord, (wcnt d).getLsbD_of_ge (24 + i - 8) (by omega), d.fails.getLsbD_of_ge (24 + i - 16) (by omega)]
    simp

/-- WCNT is the number of fragments held, when there are at most four (R46, R302). -/
theorem toNat_wcnt {d : Dab} (hwin : d.win.length ≤ 4) : (wcnt d).toNat = d.win.length := by
  rw [wcnt, BitVec.toNat_ofNat, Nat.mod_eq_of_lt (by omega)]

/-- A half of a register, bit by bit of the 64 (R32). -/
theorem halfOf_eq (h : Half) (x : BitVec 64) :
    halfOf h x = if h = .lo then x.extractLsb' 0 32 else x.extractLsb' 32 32 := by
  cases h with
  | lo => exact lowHalf_eq x
  | hi => exact highHalf_eq x

/-! ### Writes -/

theorem Quad.get_put_same (q : Quad) (i : Fin 4) (v : Word) : (q.put i v).get i = v := by
  match i with
  | 0 | 1 | 2 | 3 => rfl

theorem Quad.get_put_of_ne (q : Quad) {i j : Fin 4} (hne : j ≠ i) (v : Word) : (q.put i v).get j = q.get j := by
  match i, j with
  | 0, 0 | 1, 1 | 2, 2 | 3, 3 => exact absurd rfl hne
  | 0, 1 | 0, 2 | 0, 3 | 1, 0 | 1, 2 | 1, 3 | 2, 0 | 2, 1 | 2, 3 | 3, 0 | 3, 1 | 3, 2 => rfl

theorem pllGet_pllPut_same (l : Pll) (r : PllReg) (v : F64) : pllGet (pllPut l r v) r = v := by cases r <;> rfl

theorem pllGet_pllPut_of_ne (l : Pll) {r r' : PllReg} (hne : r' ≠ r) (v : F64) :
    pllGet (pllPut l r v) r' = pllGet l r' := by
  cases r <;> cases r' <;> grind [pllGet, pllPut]

theorem bqGet_bqPut_same (b : BqSlot) (r : BqReg) (v : F64) : bqGet (bqPut b r v) r = v := by cases r <;> rfl

theorem bqGet_bqPut_of_ne (b : BqSlot) {r r' : BqReg} (hne : r' ≠ r) (v : F64) :
    bqGet (bqPut b r v) r' = bqGet b r' := by
  cases r <;> cases r' <;> grind [bqGet, bqPut]

theorem rsGet_rsPut_same (c : RsConfig) (r : RsReg) (v : Word) : rsGet (rsPut c r v) r = v := by cases r <;> rfl

theorem rsGet_rsPut_of_ne (c : RsConfig) {r r' : RsReg} (hne : r' ≠ r) (v : Word) :
    rsGet (rsPut c r v) r' = rsGet c r' := by
  cases r <;> cases r' <;> grind [rsGet, rsPut]

theorem crcGet_crcPut_of_ne (m : CrcMode) {r r' : CrcReg} (hne : r' ≠ r) (v : Word) :
    crcGet (crcPut m r v) r' = crcGet m r' := by
  cases r <;> cases r' <;> grind [crcGet, crcPut]

/-- A CRC register written is read back in the bits it has (R49). -/
theorem crcGet_crcPut_same (m : CrcMode) (r : CrcReg) (v : Word) {mask : Word}
    (hmask : rwMask (.crc 0 r) = some mask) : crcGet (crcPut m r v) r = v &&& mask := by
  cases r <;> cases hmask <;> exact setWidth_setWidth_eq_and v (by decide)

theorem getElem_set_same {α : Type} {n : Nat} (v : Vector α n) (k : Fin n) (x : α) : (v.set k x)[k] = x :=
  Vector.getElem_set_self _

theorem getElem_set_of_ne {α : Type} {n : Nat} (v : Vector α n) {k j : Fin n} (hne : j ≠ k) (x : α) :
    (v.set k x)[j] = v[j] :=
  Vector.getElem_set_ne _ _ (fun h => hne (Fin.ext h.symm))

/-- All 32 bits are kept by the full mask. -/
theorem and_allOnes32 (v : Word) : v &&& 0xFFFFFFFF#32 = v := BitVec.and_allOnes

/-- A RW register reads back what was written, in the bits it has (R31). -/
theorem readCsr_storeCsr_same (s : State) (v : Word) {c : Csr} {mask : Word} (hmask : rwMask c = some mask) :
    readCsr (storeCsr s v c) c = v &&& mask := by
  cases c with
  | arg i => cases hmask; exact (Quad.get_put_same s.args i v).trans (and_allOnes32 v).symm
  | fmSamplerate | fmOutRate | stPilotF | stPilotQm | stSubF | stSubQm | stLpfF | stLpfQm | dabFragLen | dabLossThr | pwrWin
  | pwrMax => cases hmask; exact (and_allOnes32 v).symm
  | fmCtrl | vitTail => cases hmask; exact setWidth_setWidth_eq_and v (by decide)
  | pll r h =>
    cases hmask
    rw [and_allOnes32, readCsr, storeCsr, pllGet_pllPut_same, halfOf_withHalf]
  | dabCtrl =>
    cases hmask
    rw [readCsr, storeCsr]
    refine BitVec.eq_of_getLsbD_eq (fun i hi => ?_)
    have hone : (1#32).getLsbD i = decide (i = 0) := by simp [BitVec.getLsbD_one]
    rw [getLsbD_flagAt _ (by decide), BitVec.getLsbD_and, hone]
    grind
  | rsConfig r => cases hmask; exact (rsGet_rsPut_same s.rs.config r v).trans (and_allOnes32 v).symm
  | crc mode r =>
    have hcopy : rwMask (.crc 0 r) = some mask := by rw [← hmask]; cases r <;> rfl
    unfold storeCsr readCsr
    by_cases hmode : mode = 0
    · simp only [hmode, if_pos]
      exact crcGet_crcPut_same _ r v hcopy
    · simp only [hmode, if_false]
      exact crcGet_crcPut_same _ r v hcopy
  | vitPoly j =>
    cases hmask
    rw [readCsr, storeCsr, getElem_set_same]
    exact setWidth_setWidth_eq_and v (by decide)
  | vitPi k =>
    cases hmask
    rw [readCsr, storeCsr, getElem_set_same, and_allOnes32]
  | vitProf i =>
    cases hmask
    rw [readCsr, storeCsr, getElem_set_same]
    exact setWidth_setWidth_eq_and v (by decide)
  | bq slot r h =>
    cases hmask
    rw [and_allOnes32, readCsr, storeCsr, getElem_set_same, bqGet_bqPut_same, halfOf_withHalf]
  | _ => cases hmask

/-- A read-only register ignores the write (R31). -/
theorem storeCsr_of_readOnly (s : State) (v : Word) {c : Csr} (hmask : rwMask c = none) : storeCsr s v c = s := by
  cases c with
  | crc mode r => cases r <;> cases hmask
  | id | version | ctrl | status | cmd | res | errInfo | irqStatus | irqEnable | timeLo | timeHi | fmDownsample | fmDeemphA
  | fmState | fmAccI | fmAccQ | fmAccCnt | fmPrevI | fmPrevQ | fmDeemphAvg | fmLprAcc | fmLprIdx | fmPwr | fmOutRateDesc
  | fmOutFmt | fmLSr | fmLOutRate | dabStatus | dabSfCount | dabRejCount | rsStatus | rsN | rsK | pwrLast | bitrate
  | brBytes => rfl
  | _ => cases hmask

/-- Two registers with an index each differ in the index. -/
theorem ne_index {α : Type} {f : α → Csr} {i j : α} (hne : f j ≠ f i) : j ≠ i := fun h => hne (congrArg f h)

/-- A half of one of several registers of 64 bits, a half of one of them written: the other registers and the other half are
kept. -/
theorem half_kept {R : Type} {put : R → F64 → F64} {get : R → F64} {r r' : R} {h h' : Half} {v : Word}
    (hsame : put r (withHalf h (get r) v) = withHalf h (get r) v)
    (hother : r' ≠ r → put r' (withHalf h (get r) v) = get r') (hne : ¬ (r' = r ∧ h' = h)) :
    halfOf h' (put r' (withHalf h (get r) v)) = halfOf h' (get r') := by
  by_cases hr : r' = r
  · subst hr
    rw [hsame]
    exact halfOf_withHalf_of_ne (fun hh => hne ⟨rfl, hh⟩) ..
  · rw [hother hr]

/-- Every other register reads as before, but for STATUS and DAB_STATUS after DAB_FRAG_LEN, and RS_STATUS after the RS
configuration (R31, R45, R335). -/
theorem readCsr_storeCsr_of_ne (s : State) (v : Word) {c d : Csr} (hne : d ≠ c)
    (hfrag : c = .dabFragLen → d ≠ .status ∧ d ≠ .dabStatus) (hready : ∀ r, c = .rsConfig r → d ≠ .rsStatus) :
    readCsr (storeCsr s v c) d = readCsr s d := by
  cases c with
  | arg i =>
    cases d with
    | arg j => exact Quad.get_put_of_ne _ (ne_index hne) v
    | _ => rfl
  | fmCtrl =>
    cases d with
    | fmCtrl => exact absurd rfl hne
    | _ => rfl
  | fmSamplerate =>
    cases d with
    | fmSamplerate => exact absurd rfl hne
    | _ => rfl
  | fmOutRate =>
    cases d with
    | fmOutRate => exact absurd rfl hne
    | _ => rfl
  | stPilotF =>
    cases d with
    | stPilotF => exact absurd rfl hne
    | _ => rfl
  | stPilotQm =>
    cases d with
    | stPilotQm => exact absurd rfl hne
    | _ => rfl
  | stSubF =>
    cases d with
    | stSubF => exact absurd rfl hne
    | _ => rfl
  | stSubQm =>
    cases d with
    | stSubQm => exact absurd rfl hne
    | _ => rfl
  | stLpfF =>
    cases d with
    | stLpfF => exact absurd rfl hne
    | _ => rfl
  | stLpfQm =>
    cases d with
    | stLpfQm => exact absurd rfl hne
    | _ => rfl
  | pll r h =>
    cases d with
    | pll r' h' =>
      refine half_kept (put := fun r' x => pllGet (pllPut s.pll r x) r') (get := pllGet s.pll) ?_ ?_ ?_
      · exact pllGet_pllPut_same ..
      · exact fun hr => pllGet_pllPut_of_ne s.pll hr _
      · rintro ⟨rfl, rfl⟩
        exact hne rfl
    | _ => rfl
  | dabFragLen =>
    cases d with
    | dabFragLen => exact absurd rfl hne
    | status => exact absurd rfl (hfrag rfl).1
    | dabStatus => exact absurd rfl (hfrag rfl).2
    | _ => rfl
  | dabCtrl =>
    cases d with
    | dabCtrl => exact absurd rfl hne
    | _ => rfl
  | dabLossThr =>
    cases d with
    | dabLossThr => exact absurd rfl hne
    | _ => rfl
  | rsConfig r =>
    cases d with
    | rsConfig r' => exact rsGet_rsPut_of_ne _ (ne_index hne) v
    | rsStatus => exact absurd rfl (hready r rfl)
    | _ => rfl
  | crc mode r =>
    cases d with
    | crc mode' r' =>
      match mode, mode' with
      | 0, 0 | 1, 1 => exact crcGet_crcPut_of_ne _ (fun hr => hne (congrArg _ hr)) v
      | 0, 1 | 1, 0 => rfl
    | _ =>
      match mode with
      | 0 | 1 => rfl
  | vitPoly j =>
    cases d with
    | vitPoly j' => exact congrArg (BitVec.setWidth 32) (getElem_set_of_ne _ (ne_index hne) _)
    | _ => rfl
  | vitTail =>
    cases d with
    | vitTail => exact absurd rfl hne
    | _ => rfl
  | vitPi k =>
    cases d with
    | vitPi k' => exact getElem_set_of_ne _ (ne_index hne) _
    | _ => rfl
  | vitProf i =>
    cases d with
    | vitProf i' => exact congrArg (BitVec.setWidth 32) (getElem_set_of_ne _ (ne_index hne) _)
    | _ => rfl
  | pwrWin =>
    cases d with
    | pwrWin => exact absurd rfl hne
    | _ => rfl
  | pwrMax =>
    cases d with
    | pwrMax => exact absurd rfl hne
    | _ => rfl
  | bq slot r h =>
    cases d with
    | bq slot' r' h' =>
      by_cases hslot : slot' = slot
      · subst hslot
        simp only [readCsr, storeCsr, getElem_set_same]
        refine half_kept (put := fun r' x => bqGet (bqPut s.bq[slot'] r x) r') (get := bqGet s.bq[slot']) ?_ ?_ ?_
        · exact bqGet_bqPut_same ..
        · exact fun hr => bqGet_bqPut_of_ne _ hr _
        · rintro ⟨rfl, rfl⟩
          exact hne rfl
      · simp only [readCsr, storeCsr, getElem_set_of_ne _ hslot]
    | _ => rfl
  | _ => rfl

/-- Settles O15: a read by the step of a register read, the words written out by the fields of the status words, and a write by
the step of a register write and what it stores. -/
theorem csrWrites : Obligations.CsrWrites := by
  refine ⟨?reads, ?protocol, ?readOnly, ?readWrite, ?writes, ?stored⟩
  case reads =>
    intro s rest c
    obtain ⟨hwindow, haligned⟩ := csrOffset_inWindow c
    rw [step_readCsr (csrAt_csrOffset c) hwindow haligned, readCsr_env, highHalf_eq]
  case protocol =>
    intro s status
    exact ⟨rfl, rfl, rfl, rfl, rfl, rfl, rfl, rfl, statusWord_fields s⟩
  case readOnly =>
    intro s fmWord dabWord
    obtain ⟨f0, f1, f2, f8, f9, f10, flow, fhigh⟩ := fmStateWord_fields s.fm
    obtain ⟨d0, dcount, dfails, dlow, dmid, dhigh⟩ := dabStatusWord_fields s.dab
    refine ⟨f0, f1, f2, f8, f9, f10, flow, fhigh, d0, ?_, dfails, dlow, dmid, dhigh, flagAt_zero _, ?_⟩
    · exact fun hwin => (congrArg BitVec.toNat dcount).trans (toNat_wcnt hwin)
    · exact ⟨rfl, rfl, rfl, rfl, rfl, rfl, rfl, rfl, rfl, rfl, rfl, rfl, rfl, rfl, rfl, rfl, rfl, rfl, rfl, rfl, rfl,
        lowHalf_eq _⟩
  case readWrite =>
    intro s h half
    have hhalf : ∀ x, halfOf h x = half x := halfOf_eq h
    exact ⟨rfl, rfl, rfl, rfl, rfl, rfl, rfl, rfl, rfl, rfl, rfl, rfl, rfl, hhalf _, hhalf _, hhalf _, hhalf _, hhalf _,
      rfl, flagAt_zero _, rfl, rfl, rfl, rfl, rfl, rfl, rfl, fun n => ⟨rfl, rfl, rfl, rfl⟩, fun _ => rfl, rfl, fun _ => rfl,
      fun _ => rfl, rfl, rfl, fun _ => ⟨hhalf _, hhalf _, hhalf _, hhalf _, hhalf _, hhalf _, hhalf _, hhalf _, hhalf _⟩⟩
  case writes =>
    intro s rest v c hidle hplain
    obtain ⟨hwindow, haligned⟩ := csrOffset_inWindow c
    exact step_writeCsr (csrAt_csrOffset c) hwindow haligned s rest v
  case stored =>
    intro s v c hidle hplain
    rw [writeCsr_of_idle hidle hplain]
    refine ⟨fun m => readCsr_storeCsr_same s v, storeCsr_of_readOnly s v, fun d => readCsr_storeCsr_of_ne s v, ?_, ?_⟩
    · rintro rfl
      rfl
    · rintro r rfl
      exact ⟨rfl, rfl⟩

end Sys2Proof.Machine
end

section
/-! PROOFS. Host accesses to BUF of an idle block, byte by byte (spec file 20, R102). -/

namespace Sys2Proof.Machine

set_option Elab.async false

/-- A host read of BUF of an idle block (R102). -/
theorem readAt_buf_of_idle {off : Nat} (hbuf : Config.bufWindow ≤ off) (w : Width) {s : State} (hidle : s.busy = false) :
    readAt off w s =
      { s with hostData := BitVec.ofNat 32 (leValue (bytesAt s.buf (off - Config.bufWindow) (widthBytes w))) } := by
  rw [readAt, if_neg (Nat.not_lt_of_le hbuf), if_neg (by simp [hidle]), bytes_eq_bytesAt]

/-- A host write of BUF of an idle block (R102). -/
theorem writeAt_buf_of_idle {off : Nat} (hbuf : Config.bufWindow ≤ off) (w : Width) (v : BitVec 64) {s : State}
    (hidle : s.busy = false) :
    writeAt off w v s = { s with buf := s.buf.write (off - Config.bufWindow) (leBytes (widthBytes w) v.toNat) } := by
  rw [writeAt, if_neg (Nat.not_lt_of_le hbuf), if_neg (by simp [hidle])]

/-- Byte k of a number, as a byte of its bit vector (R102). -/
theorem getElem_leBytes (n : Nat) : ∀ (v k : Nat) (hk : k < (leBytes n v).length),
    (leBytes n v)[k] = BitVec.ofNat 8 (v / 256 ^ k) := by
  induction n with
  | zero => intro v k hk; simp at hk
  | succ n ih =>
    intro v k hk
    cases k with
    | zero => simp [leBytes]
    | succ k =>
      simp only [leBytes, List.getElem_cons_succ, ih]
      rw [Nat.div_div_eq_div_mul, pow_succ']

/-- Byte k of written data is its bits 8 k + 7 down to 8 k (R102). -/
theorem ofNat_div_eq_extract (v : BitVec 64) (k : Nat) : BitVec.ofNat 8 (v.toNat / 256 ^ k) = v.extractLsb' (8 * k) 8 := by
  have hpow : (256 : Nat) ^ k = 2 ^ (8 * k) := by rw [pow_mul]; rfl
  apply BitVec.eq_of_toNat_eq
  rw [BitVec.toNat_ofNat, BitVec.extractLsb'_toNat, Nat.shiftRight_eq_div_pow, hpow]

/-- A host write of BUF of an idle block: its bytes stand from the offset on, low end first, and every other byte is left alone
(R102). -/
theorem step_writeBuf {s : State} (hidle : s.busy = false) (rest : List Event) {a : Nat} (ha : a < 65536) {w : Width}
    (hok : accessOk (0x10000 + a) w = true) (v : BitVec 64) :
    ∃ t, step { s with env := .write (0x10000 + a) w v :: rest } = .next t ∧
      t = { s with env := rest, buf := t.buf } ∧
      (∀ k, k < widthBytes w → t.buf.read (a + k) = v.extractLsb' (8 * k) 8) ∧
      ∀ b, b < a ∨ a + widthBytes w ≤ b → t.buf.read b = s.buf.read b := by
  have hwindow : 0x10000 + a < Config.mmioSize := by rw [mmioSize_eq]; omega
  have hbuf : Config.bufWindow ≤ 0x10000 + a := by rw [bufWindow_eq]; omega
  have hoff : 0x10000 + a - Config.bufWindow = a := by rw [bufWindow_eq]; omega
  have hwrite := writeAt_buf_of_idle hbuf w v (s := { s with env := rest }) hidle
  rw [hoff] at hwrite
  rw [step_writeInWindow hwindow, if_pos hok, hwrite]
  obtain ⟨hinside, houtside⟩ := stored_write s.buf a (leBytes (widthBytes w) v.toNat)
  rw [length_leBytes] at houtside
  refine ⟨_, rfl, rfl, fun k hk => ?_, houtside⟩
  have hlength : k < (leBytes (widthBytes w) v.toNat).length := by rwa [length_leBytes]
  exact (hinside k hlength).trans ((getElem_leBytes ..).trans (ofNat_div_eq_extract v k))

/-- A host read of BUF of an idle block (R102). -/
theorem step_readBuf {s : State} (hidle : s.busy = false) (rest : List Event) {a : Nat} (ha : a < 65536) {w : Width}
    (hok : accessOk (0x10000 + a) w = true) :
    step { s with env := .read (0x10000 + a) w :: rest } =
      .next { s with env := rest, hostData := BitVec.ofNat 32 (leValue (bytesAt s.buf a (widthBytes w))) } := by
  have hwindow : 0x10000 + a < Config.mmioSize := by rw [mmioSize_eq]; omega
  have hbuf : Config.bufWindow ≤ 0x10000 + a := by rw [bufWindow_eq]; omega
  have hoff : 0x10000 + a - Config.bufWindow = a := by rw [bufWindow_eq]; omega
  have hread := readAt_buf_of_idle hbuf w (s := { s with env := rest }) hidle
  rw [hoff] at hread
  rw [step_readInWindow hwindow, if_pos hok, hread]

/-- A little-endian number is below the bound of its bytes. -/
theorem leValue_lt : ∀ bs : List Byte, leValue bs < 2 ^ (8 * bs.length)
  | [] => Nat.one_pos
  | b :: bs => by
    have hrest := leValue_lt bs
    have hbyte := b.isLt
    rw [leValue, List.length_cons, Nat.mul_succ, pow_add]
    omega

/-- A number in fewer bits, widened. -/
theorem ofNat_eq_setWidth {n : Nat} {w : Nat} (hlt : n < 2 ^ w) (hw : w ≤ 32) :
    BitVec.ofNat 32 n = (BitVec.ofNat w n).setWidth 32 := by
  have hpow : 2 ^ w ≤ 2 ^ 32 := Nat.pow_le_pow_right (by decide) hw
  apply BitVec.eq_of_toNat_eq
  rw [BitVec.toNat_setWidth_of_le hw, BitVec.toNat_ofNat, BitVec.toNat_ofNat, Nat.mod_eq_of_lt hlt,
    Nat.mod_eq_of_lt (hlt.trans_le hpow)]

/-- Settles O16: one lemma for the writes and one for the reads, at the three widths (R102, R105). -/
theorem hostByteOrder : Obligations.HostByteOrder := by
  intro s rest a v hidle ha
  have hbyte : accessOk (0x10000 + a) .w8 = true := (accessOk_iff ..).2 (.inr ⟨by omega, .inl rfl⟩)
  have hhalf : a % 2 = 0 → accessOk (0x10000 + a) .w16 = true :=
    fun h => (accessOk_iff ..).2 (.inr ⟨by omega, .inr (.inl ⟨rfl, by omega⟩)⟩)
  have hword : a % 4 = 0 → accessOk (0x10000 + a) .w32 = true :=
    fun h => (accessOk_iff ..).2 (.inr ⟨by omega, .inr (.inr ⟨rfl, by omega⟩)⟩)
  refine ⟨?write8, ?write16, ?write32, ?read8, ?read16, ?read32⟩
  case write8 =>
    obtain ⟨t, hstep, ht, hbytes, hframe⟩ := step_writeBuf hidle rest ha hbyte v
    exact ⟨t, hstep, ht, hbytes 0 (by decide), fun b hb => hframe b (by simp only [widthBytes]; omega)⟩
  case write16 =>
    intro heven
    obtain ⟨t, hstep, ht, hbytes, hframe⟩ := step_writeBuf hidle rest ha (hhalf heven) v
    exact ⟨t, hstep, ht, hbytes 0 (by decide), hbytes 1 (by decide), hframe⟩
  case write32 =>
    intro haligned
    obtain ⟨t, hstep, ht, hbytes, hframe⟩ := step_writeBuf hidle rest ha (hword haligned) v
    exact ⟨t, hstep, ht, hbytes 0 (by decide), hbytes 1 (by decide), hbytes 2 (by decide), hbytes 3 (by decide), hframe⟩
  case read8 =>
    have hbytes : bytesAt s.buf a (widthBytes .w8) = [s.buf.read a] := rfl
    rw [step_readBuf hidle rest ha hbyte, hbytes, ofNat_eq_setWidth (w := 8) (leValue_lt _) (by decide), ofNat_leValue_one]
  case read16 =>
    intro heven
    have hbytes : bytesAt s.buf a (widthBytes .w16) = [s.buf.read a, s.buf.read (a + 1)] := rfl
    rw [step_readBuf hidle rest ha (hhalf heven), hbytes, ofNat_eq_setWidth (w := 16) (leValue_lt _) (by decide),
      ofNat_leValue_cons 8, ofNat_leValue_one]
  case read32 =>
    intro haligned word
    have hbytes : bytesAt s.buf a (widthBytes .w32) =
      [s.buf.read a, s.buf.read (a + 1), s.buf.read (a + 2), s.buf.read (a + 3)] := rfl
    rw [step_readBuf hidle rest ha (hword haligned), hbytes, ofNat_leValue_cons 24, ofNat_leValue_cons 16,
      ofNat_leValue_cons 8, ofNat_leValue_one]

end Sys2Proof.Machine
end

section
/-! PROOFS. Everything a step can do, and what of it stops the block, sets interrupts and moves TIME (spec files 20, 46, 60 and 70,
R410, R502, R505, R520, R602). -/

namespace Sys2Proof.Machine

set_option Elab.async false

/-- The completion is due in `u`: no event is left, or the completion is the next one and is taken off (logs 1 and 2). -/
def CompletionDue (s u : State) : Prop :=
  (s.env = [] ∧ u = s) ∨ ∃ rest, s.env = .complete :: rest ∧ u = { s with env := rest }

/-- Everything a step that goes on can do. -/
inductive StepCase (s t : State) : Prop
  /-- The completion is due, but no command is pending (R537). -/
  | idle (hdue : CompletionDue s t) (hidle : s.busy = false)
  /-- The pending command or word ends with an error (R504). -/
  | fails (u : State) (e : CmdError) (hdue : CompletionDue s u) (hbusy : s.busy = true) (ht : t = raiseError e u)
  /-- The pending command succeeds (R503). -/
  | succeeds (u : State) (i : Instr) (hdue : CompletionDue s u) (hbusy : s.busy = true) (hdecode : decode s.cmd = .command i)
      (hwf : i.wf = true) (hcheck : checkOf i u = none) (ht : t = succeed (effectOf i u))
  /-- Time passes (R410). -/
  | elapses (us : Nat) (rest : List Event) (henv : s.env = .elapse us :: rest) (ht : t = elapseTime us { s with env := rest })
  /-- The host reads (R102). -/
  | reads (off : Nat) (w : Width) (rest : List Event) (henv : s.env = .read off w :: rest) (hwindow : off < Config.mmioSize)
      (hok : accessOk off w = true) (ht : t = readAt off w { s with env := rest })
  /-- The host writes (R102). -/
  | writes (off : Nat) (w : Width) (v : BitVec 64) (rest : List Event) (henv : s.env = .write off w v :: rest)
      (hwindow : off < Config.mmioSize) (hok : accessOk off w = true) (ht : t = writeAt off w v { s with env := rest })

/-- The state in which a completion is due differs from the one before in the events to come only. -/
theorem CompletionDue.eq {s u : State} (h : CompletionDue s u) : u = { s with env := u.env } := by
  rcases h with ⟨-, rfl⟩ | ⟨rest, -, rfl⟩ <;> rfl

/-- The completion, by what it does (R531). -/
theorem StepCase.of_completeIfBusy {s t u : State} (hdue : CompletionDue s u) (hrun : completeIfBusy u = .next t) :
    StepCase s t := by
  have hbusy : u.busy = s.busy := by rw [hdue.eq]
  have hcmd : u.cmd = s.cmd := by rw [hdue.eq]
  unfold completeIfBusy at hrun
  split at hrun
  case isTrue hpending =>
    unfold completePending fetch at hrun
    split at hrun
    case h_1 i hdecode =>
      rcases exec_cases hrun with ⟨e, ht⟩ | ⟨hwf, hcheck, ht⟩
      · exact .fails u e hdue (hbusy ▸ hpending) ht
      · exact .succeeds u i hdue (hbusy ▸ hpending) (hcmd ▸ hdecode) hwf hcheck ht
    case h_2 hdecode =>
      cases hrun
      exact .fails u _ hdue (hbusy ▸ hpending) rfl
  case isFalse hidle =>
    cases hrun
    exact .idle hdue (by simpa [hbusy] using hidle)

/-- Every step that goes on is one of the cases. -/
theorem stepCase {s t : State} (h : step s = .next t) : StepCase s t := by
  cases henv : s.env with
  | nil =>
    rw [step_of_idle_world henv] at h
    exact .of_completeIfBusy (.inl ⟨henv, rfl⟩) h
  | cons e rest =>
    rw [step_of_event henv] at h
    cases e with
    | read off w =>
      obtain ⟨hwindow, hok, ht⟩ := hostAccess_next h
      exact .reads off w rest henv hwindow hok ht
    | write off w v =>
      obtain ⟨hwindow, hok, ht⟩ := hostAccess_next h
      exact .writes off w v rest henv hwindow hok ht
    | elapse us =>
      cases h
      exact .elapses us rest henv rfl
    | complete => exact .of_completeIfBusy (.inr ⟨rest, henv, rfl⟩) h

/-! ### Stops -/

/-- The completion always answers a next state (R502, R505). -/
theorem completeIfBusy_next (s : State) : ∃ t, completeIfBusy s = .next t := by
  unfold completeIfBusy
  split
  · unfold completePending
    split
    · exact exec_next ..
    · exact ⟨_, rfl⟩
  · exact ⟨s, rfl⟩

/-- Settles O10: a completion and elapsed time answer a next state, and a host access faults at the port only. -/
theorem onlyHostAccessFaults : Obligations.OnlyHostAccessFaults := by
  intro s
  have hquiet : (∃ t, step s = .next t) → (∀ r, step s ≠ .refused r) ∧ ∀ f, step s ≠ .fault f := by
    rintro ⟨t, ht⟩
    simp [ht]
  have haccess (off : Nat) (w : Width) (effect : State → State) (u : State) (hstep : step s = hostAccess off w effect u) :
      (∀ r, step s ≠ .refused r) ∧ ∀ f, step s = .fault f → (f = .busError ↔ off < 0x20000) := by
    rw [hstep]
    rcases hostAccess_cases off w effect u with ⟨houtside, h⟩ | ⟨-, -, h⟩ | ⟨hinside, -, h⟩ <;> rw [h]
    · rw [mmioSize_eq] at houtside
      refine ⟨by simp, ?_⟩
      rintro f ⟨⟩
      simp [houtside]
    · simp
    · rw [mmioSize_eq] at hinside
      refine ⟨by simp, ?_⟩
      rintro f ⟨⟩
      simp [hinside]
  cases henv : s.env with
  | nil =>
    obtain ⟨hrefused, hfault⟩ := hquiet (by rw [step_of_idle_world henv]; exact completeIfBusy_next s)
    exact ⟨hrefused, fun f h => absurd h (hfault f)⟩
  | cons e rest =>
    have hstep := step_of_event henv
    cases e with
    | read off w =>
      obtain ⟨hrefused, hfault⟩ := haccess off w _ _ hstep
      exact ⟨hrefused, fun f h => ⟨off, w, rest, .inl rfl, hfault f h⟩⟩
    | write off w v =>
      obtain ⟨hrefused, hfault⟩ := haccess off w _ _ hstep
      exact ⟨hrefused, fun f h => ⟨off, w, rest, .inr ⟨v, rfl⟩, hfault f h⟩⟩
    | elapse us =>
      obtain ⟨hrefused, hfault⟩ := hquiet ⟨_, hstep⟩
      exact ⟨hrefused, fun f h => absurd h (hfault f)⟩
    | complete =>
      obtain ⟨hrefused, hfault⟩ := hquiet (by rw [hstep]; exact completeIfBusy_next _)
      exact ⟨hrefused, fun f h => absurd h (hfault f)⟩

/-! ### What host accesses write -/

/-- A host read writes the latch, BUF_HAZ and the data it returns, and nothing else (R109, R610). -/
theorem readAt_writes (off : Nat) (w : Width) (s : State) : ∃ latch haz data,
    readAt off w s = { s with timeHiLatch := latch, bufHaz := haz, hostData := data } := by
  unfold readAt
  split
  · split
    · rw [afterCsrRead_eq]
      exact ⟨_, s.bufHaz, _, rfl⟩
    · exact ⟨s.timeHiLatch, s.bufHaz, _, rfl⟩
  · split
    · exact ⟨s.timeHiLatch, _, _, rfl⟩
    · exact ⟨s.timeHiLatch, s.bufHaz, _, rfl⟩

/-- Everything a host write does: to a register, to a reserved offset, and to BUF, busy or idle (R30, R102, R610). -/
theorem writeAt_cases (off : Nat) (w : Width) (v : BitVec 64) (s : State) :
    (∃ c, off < Config.csrWindow ∧ csrAt off = some c ∧ writeAt off w v s = writeCsr s (lowHalf v) c) ∨
    writeAt off w v s = s ∨ writeAt off w v s = { s with bufHaz := true } ∨
    (Config.bufWindow ≤ off ∧
      writeAt off w v s = { s with buf := s.buf.write (off - Config.bufWindow) (leBytes (widthBytes w) v.toNat) }) := by
  rcases Nat.lt_or_ge off Config.bufWindow with hbelow | hbuf
  · cases hcsr : csrOf off with
    | none => exact .inr (.inl (writeAt_reserved hbelow hcsr w v s))
    | some c =>
      unfold csrOf at hcsr
      split at hcsr
      · rename_i hwindow
        exact .inl ⟨c, hwindow, hcsr, writeAt_csr s hcsr hwindow w v⟩
      · cases hcsr
  · rcases Bool.eq_false_or_eq_true s.busy with hbusy | hidle
    · exact .inr (.inr (.inl (writeAt_buf_of_busy hbuf w v hbusy)))
    · exact .inr (.inr (.inr ⟨hbuf, writeAt_buf_of_idle hbuf w v hidle⟩))

/-- A stored register is no register of the engine: the protocol, the interrupts, the time, the results and BUF are kept (R31). -/
structure SameEngine (s t : State) : Prop where
  busy : t.busy = s.busy
  err : t.err = s.err
  errcode : t.errcode = s.errcode
  irqStatus : t.irqStatus = s.irqStatus
  time : t.time = s.time
  buf : t.buf = s.buf
  pwrLast : t.diag.pwrLast = s.diag.pwrLast

/-- A stored register is kept out of the engine (R31). -/
theorem sameEngine_storeCsr (s : State) (v : Word) (c : Csr) : SameEngine s (storeCsr s v c) := by
  cases c with
  | crc mode r =>
    match mode with
    | 0 | 1 => exact ⟨rfl, rfl, rfl, rfl, rfl, rfl, rfl⟩
  | _ => exact ⟨rfl, rfl, rfl, rfl, rfl, rfl, rfl⟩

/-- Everything a register write does (R31, R521, R530, R602, R611). -/
inductive WriteCase (s : State) (v : Word) (c : Csr) (t : State) : Prop
  | resets (hctrl : c = .ctrl) (hset : v.getLsbD 0 = true) (ht : t = softReset s)
  | nothing (ht : t = s)
  | clearsSticky (ht : t = clearSticky s v)
  | clearsIrqs (ht : t = { s with irqStatus := s.irqStatus &&& ~~~(v.setWidth 9) })
  | enablesIrqs (ht : t = { s with irqEnable := v.setWidth 9 })
  | overruns (ht : t = { s with overrun := true })
  | accepts (ht : t = acceptCommand v s)
  | ignores (ht : t = { s with wrIgnored := true })
  | stores (ht : t = storeCsr s v c)

/-- Every register write is one of the cases. -/
theorem writeCase (s : State) (v : Word) (c : Csr) : WriteCase s v c (writeCsr s v c) := by
  have hplain (h : isControl c = false) : WriteCase s v c (writeCsr s v c) := by
    rcases Bool.eq_false_or_eq_true s.busy with hbusy | hidle
    · exact .ignores (writeCsr_of_busy hbusy h v)
    · exact .stores (writeCsr_of_idle hidle h v)
  cases c with
  | ctrl =>
    by_cases hset : v.getLsbD 0 = true
    · exact .resets rfl hset (writeCsr_ctrl_of_set hset s)
    · exact .nothing (if_neg hset)
  | status => exact .clearsSticky rfl
  | irqStatus => exact .clearsIrqs rfl
  | irqEnable => exact .enablesIrqs rfl
  | cmd =>
    rcases Bool.eq_false_or_eq_true s.busy with hbusy | hidle
    · exact .overruns (writeCsr_cmd_of_busy hbusy v)
    · exact .accepts (writeCsr_cmd_of_idle hidle v)
  | _ => exact hplain rfl

/-- A host write sets no interrupt (R520, R521). -/
theorem irqStatus_writeAt {off : Nat} {w : Width} {v : BitVec 64} {s : State} {i : Nat}
    (hset : (writeAt off w v s).irqStatus.getLsbD i = true) : s.irqStatus.getLsbD i = true := by
  rcases writeAt_cases off w v s with ⟨c, -, -, h⟩ | h | h | ⟨-, h⟩ <;> rw [h] at hset
  · cases writeCase s (lowHalf v) c with
    | resets _ _ ht => exact absurd hset (by simp [ht, State.reset])
    | clearsIrqs ht =>
      rw [ht, BitVec.getLsbD_and, Bool.and_eq_true] at hset
      exact hset.1
    | stores ht => rwa [ht, (sameEngine_storeCsr s (lowHalf v) c).irqStatus] at hset
    | nothing ht | clearsSticky ht | enablesIrqs ht | overruns ht | accepts ht | ignores ht => rwa [ht] at hset
  · exact hset
  · exact hset
  · exact hset

/-- Settles O18: of the cases of a step only the two completions of a pending command set interrupt bits (R520, R524, R531). -/
theorem irqOnlyAtCompletion : Obligations.IrqOnlyAtCompletion := by
  intro s t i hstep hset hclear
  have hdue {u : State} (h : CompletionDue s u) : s.env = [] ∨ ∃ rest, s.env = .complete :: rest := by
    rcases h with ⟨henv, -⟩ | ⟨rest, henv, -⟩
    · exact .inl henv
    · exact .inr ⟨rest, henv⟩
  have hkept (h : t.irqStatus.getLsbD i = true → s.irqStatus.getLsbD i = true) : False := by
    rw [h hset] at hclear
    cases hclear
  cases stepCase hstep with
  | idle hd _ => exact (hkept (by rw [hd.eq]; exact id)).elim
  | fails u e hd hbusy ht => exact ⟨hbusy, by rw [ht, raiseError_busy], hdue hd⟩
  | succeeds u j hd hbusy _ _ _ ht => exact ⟨hbusy, by rw [ht, succeed_busy], hdue hd⟩
  | elapses us rest _ ht => exact (hkept (by rw [ht]; exact id)).elim
  | reads off w rest _ _ _ ht =>
    obtain ⟨latch, haz, data, hread⟩ := readAt_writes off w { s with env := rest }
    exact (hkept (by rw [ht, hread]; exact id)).elim
  | writes off w v rest _ _ _ ht => exact (hkept (by rw [ht]; exact irqStatus_writeAt)).elim

/-- A host write changes TIME only as a reset, by a 1 in bit 0 of CTRL (R410, R602). -/
theorem time_writeAt {off : Nat} {w : Width} (hok : accessOk off w = true) (v : BitVec 64) (s : State) :
    (writeAt off w v s).time = s.time ∨
    (off = 0x8 ∧ w = .w32 ∧ v.getLsbD 0 = true ∧ (writeAt off w v s).time = 0#64) := by
  rcases writeAt_cases off w v s with ⟨c, hwindow, hcsr, h⟩ | h | h | ⟨-, h⟩ <;> rw [h]
  · cases writeCase s (lowHalf v) c with
    | resets hctrl hset ht =>
      have hwidth : w = .w32 ∧ off % 4 = 0 := by
        rcases (accessOk_iff off w).1 hok with ⟨-, hwidth⟩ | ⟨hbuf, -⟩
        · exact hwidth
        · rw [csrWindow_eq] at hwindow
          omega
      have hoff : off = csrOffset .ctrl := (csrAt_eq_some_iff hwidth.2).1 (hctrl ▸ hcsr)
      exact .inr ⟨hoff, hwidth.1, by simpa [lowHalf] using hset, by rw [ht]; rfl⟩
    | stores ht => exact .inl (by rw [ht, (sameEngine_storeCsr s (lowHalf v) c).time])
    | nothing ht | clearsSticky ht | clearsIrqs ht | enablesIrqs ht | overruns ht | accepts ht | ignores ht =>
      exact .inl ((congrArg State.time ht).trans rfl)
  · exact .inl rfl
  · exact .inl rfl
  · exact .inl rfl

/-- Settles O20: the passing of time is one case of a step, and of the others only the write of CTRL changes TIME. -/
theorem timeMoves : Obligations.TimeMoves := by
  refine ⟨?elapse, ?others⟩
  case elapse =>
    intro s us rest henv
    exact step_of_event henv
  case others =>
    intro s t hstep
    cases stepCase hstep with
    | idle hd _ => exact .inl (by rw [hd.eq])
    | fails u e hd _ ht => exact .inl (by rw [ht, raiseError_time, hd.eq])
    | succeeds u i hd _ _ _ _ ht =>
      obtain ⟨-, -, -, -, htime, -⟩ := (leavesRecord_effectOf i u).host
      exact .inl (by rw [ht, succeed_time, htime, hd.eq])
    | elapses us rest henv ht => exact .inr (.inl ⟨us, rest, henv, ht⟩)
    | reads off w rest _ _ _ ht =>
      obtain ⟨latch, haz, data, hread⟩ := readAt_writes off w { s with env := rest }
      exact .inl (by rw [ht, hread])
    | writes off w v rest henv _ hok ht =>
      rcases time_writeAt hok v { s with env := rest } with hsame | ⟨rfl, rfl, hset, hzero⟩
      · exact .inl (by rw [ht, hsame])
      · exact .inr (.inr ⟨v, rest, henv, hset, by rw [ht, hzero]⟩)

end Sys2Proof.Machine
end

section
/-! PROOFS. Negation in binary64, and the symmetric band-pass design (spec file 41, R261, R264). -/

namespace Sys2Proof.Machine

set_option Elab.async false

/-- The value with the sign changed; a NaN has none. -/
def Unpacked.flip : Unpacked → Unpacked
  | .nan => .nan
  | .inf neg => .inf (!neg)
  | .fin neg m e => .fin (!neg) m e

/-- The pattern with the sign bit changed, as a number. -/
theorem toNat_xor_sign (x : F64) : (x ^^^ 0x8000000000000000#64).toNat =
    if 2 ^ 63 ≤ x.toNat then x.toNat - 2 ^ 63 else x.toNat + 2 ^ 63 := by
  have hlt := x.isLt
  have hnat : (x ^^^ 0x8000000000000000#64).toNat = x.toNat ^^^ 2 ^ 63 := BitVec.toNat_xor ..
  have hmod : (x.toNat ^^^ 2 ^ 63) % 2 ^ 63 = x.toNat % 2 ^ 63 := by
    rw [Nat.xor_mod_two_pow, Nat.mod_self, Nat.xor_zero]
  have hdiv : (x.toNat ^^^ 2 ^ 63) / 2 ^ 63 = x.toNat / 2 ^ 63 ^^^ 1 := by
    rw [Nat.xor_div_two_pow, Nat.div_self (Nat.two_pow_pos _)]
  rw [hnat]
  split
  · have hsign : x.toNat / 2 ^ 63 = 1 := by omega
    rw [hsign, Nat.xor_self] at hdiv
    omega
  · have hsign : x.toNat / 2 ^ 63 = 0 := by omega
    rw [hsign, Nat.zero_xor] at hdiv
    omega

/-- Changing the sign bit changes the sign of the value. -/
theorem unpack_xor_sign (x : F64) : unpack (x ^^^ 0x8000000000000000#64) = (unpack x).flip := by
  have hlt := x.isLt
  have hxor := toNat_xor_sign x
  generalize x ^^^ 0x8000000000000000#64 = y at *
  have hexpo : y.toNat / 2 ^ 52 % 2048 = x.toNat / 2 ^ 52 % 2048 := by split at hxor <;> omega
  have hfrac : y.toNat % 2 ^ 52 = x.toNat % 2 ^ 52 := by split at hxor <;> omega
  have hsign : decide (2 ^ 63 ≤ y.toNat) = !decide (2 ^ 63 ≤ x.toNat) := by
    rw [← decide_not, decide_eq_decide]
    split at hxor <;> omega
  unfold unpack
  simp only [hexpo, hfrac, hsign]
  split_ifs <;> rfl

/-- Negation changes the sign of the value (R261). -/
theorem unpack_fneg (x : F64) : unpack (fneg x) = (unpack x).flip := by
  unfold fneg
  split
  case h_1 hnan =>
    rw [hnan]
    decide
  case h_2 => exact unpack_xor_sign x

/-- Negation of a pattern that is no NaN changes its sign bit (R261). -/
theorem fneg_eq_xor {x : F64} (h : unpack x ≠ .nan) : fneg x = x ^^^ 0x8000000000000000#64 := by
  unfold fneg
  split
  case h_1 hnan => exact absurd hnan h
  case h_2 => rfl

theorem fneg_canonicalNaN : fneg canonicalNaN = canonicalNaN := by decide

theorem fneg_infinity (neg : Bool) : fneg (infinity neg) = infinity (!neg) := by cases neg <;> decide

theorem fneg_signedZero (neg : Bool) : fneg (signedZero neg) = signedZero (!neg) := by cases neg <;> decide

/-- Negation of a packed number changes its sign. -/
theorem fneg_packExact (neg : Bool) (t : Nat) (q : Int) : fneg (packExact neg t q) = packExact (!neg) t q := by
  unfold packExact
  generalize (q + 1074).toNat * 2 ^ 52 + t = bits
  dsimp only
  split
  · exact fneg_infinity neg
  · have hsum : ∀ b : Bool, (BitVec.ofNat 64 ((if b then 2 ^ 63 else 0) + bits)).toNat = (if b then 2 ^ 63 else 0) + bits := by
      intro b
      rw [BitVec.toNat_ofNat]
      split <;> omega
    have hfinite : unpack (BitVec.ofNat 64 ((if neg then 2 ^ 63 else 0) + bits)) ≠ .nan := by
      unfold unpack
      rw [hsum]
      have hexpo : ¬ ((if neg then 2 ^ 63 else 0) + bits) / 2 ^ 52 % 2048 = 2047 := by split <;> omega
      simp only [if_neg hexpo]
      split_ifs <;> exact Unpacked.noConfusion
    rw [fneg_eq_xor hfinite]
    apply BitVec.eq_of_toNat_eq
    rw [toNat_xor_sign, hsum, hsum]
    cases neg
    · simp only [Bool.not_false, if_true, if_false, Bool.false_eq_true]
      rw [if_neg (by omega)]
      omega
    · simp only [Bool.not_true, if_true, if_false, Bool.false_eq_true]
      rw [if_pos (by omega)]
      omega

/-- Negation of a rounded number is the rounding of the opposite number: rounding to nearest is symmetric (R11). -/
theorem fneg_roundPack (neg : Bool) (m : Nat) (e : Int) : fneg (roundPack neg m e) = roundPack (!neg) m e := by
  unfold roundPack
  dsimp only
  split_ifs
  · exact fneg_signedZero neg
  · exact fneg_packExact ..
  · exact fneg_packExact ..

/-- The quotient of the opposite number is the opposite quotient, bit by bit. -/
theorem fdiv_fneg (x y : F64) : fdiv (fneg x) y = fneg (fdiv x y) := by
  unfold fdiv
  rw [unpack_fneg]
  cases unpack x with
  | nan => exact fneg_canonicalNaN.symm
  | inf a =>
    cases unpack y with
    | nan | inf => exact fneg_canonicalNaN.symm
    | fin b n f => simp only [Unpacked.flip, fneg_infinity, Bool.not_bne]
  | fin a m e =>
    cases unpack y with
    | nan => exact fneg_canonicalNaN.symm
    | inf b => simp only [Unpacked.flip, fneg_signedZero, Bool.not_bne]
    | fin b n f =>
      simp only [Unpacked.flip]
      split_ifs
      · exact fneg_canonicalNaN.symm
      · simp only [fneg_infinity, Bool.not_bne]
      · simp only [fneg_roundPack, Bool.not_bne]

/-- Settles O36: B0 and B2 of a band-pass design are the quotients of alpha and of its opposite by the same number. -/
theorem bandPassSymmetric : Obligations.BandPassSymmetric := by
  intro nm f0 fs qm
  simp only [design, if_neg one_ne_zero]
  exact fdiv_fneg ..

end Sys2Proof.Machine
end

section
/-! PROOFS. BQ_RUN and PLL_RUN over their samples, and the difference equation of a slot (spec file 41, R266, R267, R273). -/

namespace Sys2Proof.Machine

set_option Elab.async false

/-- BQ_RUN runs its checks and filters with the slot its selector names (R267). -/
theorem exec_bqRun (k : Fin 8) (s : State) :
    exec (.bqRun (BitVec.ofNat 4 k.val)) s = runCommand f64RunCheck (bqRunEffect k) s :=
  runCommand_slot k f64RunCheck bqRunEffect s

/-- PLL_RUN has the one selector 0 (R133). -/
theorem exec_pllRun (s : State) : exec (.pllRun 0#4) s = runCommand f64RunCheck pllRunEffect s :=
  runCommand_selZero f64RunCheck pllRunEffect s

section RunChecks

variable {s : State}

/-- The two commands refuse a misaligned source (R267, R273). -/
theorem f64RunCheck_of_badSource (hsrc : arg0 s % 8 ≠ 0) : f64RunCheck s = some ⟨.misaligned, s.snap.r0⟩ := by
  have hbad : ¬ aligned 8 (arg0 s) := by rwa [aligned_iff]
  rw [f64RunCheck, if_pos hbad]

variable (hsrc : arg0 s % 8 = 0)
include hsrc

/-- They refuse a misaligned destination (R267, R273). -/
theorem f64RunCheck_of_badDestination (hdst : arg2 s % 8 ≠ 0) : f64RunCheck s = some ⟨.misaligned, s.snap.r2⟩ := by
  have hbad : ¬ aligned 8 (arg2 s) := by rwa [aligned_iff]
  rw [f64RunCheck, if_neg (not_not.mpr ((aligned_iff ..).mpr hsrc)), if_pos hbad]

variable (hdst : arg2 s % 8 = 0)
include hdst

/-- They refuse a source that leaves BUF (R267, R273). -/
theorem f64RunCheck_of_longSource (hlong : 65536 < arg0 s + 8 * arg1 s) :
    f64RunCheck s = some ⟨.addrRange, s.snap.r0⟩ := by
  have hbad : ¬ regionOk (arg0 s) (8 * arg1 s) := by rw [regionOk_iff]; omega
  rw [f64RunCheck, if_neg (not_not.mpr ((aligned_iff ..).mpr hsrc)), if_neg (not_not.mpr ((aligned_iff ..).mpr hdst)),
    if_pos hbad]

variable (hin : arg0 s + 8 * arg1 s ≤ 65536)
include hin

/-- They refuse a destination that leaves BUF (R267, R273). -/
theorem f64RunCheck_of_longDestination (hlong : 65536 < arg2 s + 8 * arg1 s) :
    f64RunCheck s = some ⟨.addrRange, s.snap.r2⟩ := by
  have hbad : ¬ regionOk (arg2 s) (8 * arg1 s) := by rw [regionOk_iff]; omega
  rw [f64RunCheck, if_neg (not_not.mpr ((aligned_iff ..).mpr hsrc)), if_neg (not_not.mpr ((aligned_iff ..).mpr hdst)),
    if_neg (not_not.mpr ((regionOk_iff ..).mpr hin)), if_pos hbad]

/-- They pass on aligned, legal regions (R267, R273). -/
theorem f64RunCheck_of_legal (hout : arg2 s + 8 * arg1 s ≤ 65536) : f64RunCheck s = none := by
  rw [f64RunCheck, if_neg (not_not.mpr ((aligned_iff ..).mpr hsrc)), if_neg (not_not.mpr ((aligned_iff ..).mpr hdst)),
    if_neg (not_not.mpr ((regionOk_iff ..).mpr hin)), if_neg (not_not.mpr ((regionOk_iff ..).mpr hout))]

end RunChecks

/-- Settles O39: both commands run the same four checks. -/
theorem f64RunErrors : Obligations.F64RunErrors := by
  intro s i hi
  have hrun : ∃ effect, exec i s = runCommand f64RunCheck effect s := by
    rcases hi with rfl | ⟨k, rfl⟩
    · exact ⟨_, exec_pllRun s⟩
    · exact ⟨_, exec_bqRun k s⟩
  obtain ⟨effect, hrun⟩ := hrun
  rw [hrun]
  exact ⟨fun hsrc => runCommand_eq_failedWith (f64RunCheck_of_badSource hsrc),
    fun hsrc hdst => runCommand_eq_failedWith (f64RunCheck_of_badDestination hsrc hdst),
    fun hsrc hdst hlong => runCommand_eq_failedWith (f64RunCheck_of_longSource hsrc hdst hlong),
    fun hsrc hdst hin hlong => runCommand_eq_failedWith (f64RunCheck_of_longDestination hsrc hdst hin hlong)⟩

/-- BQ_RUN's effect, its samples read one by one (R267). -/
theorem bqRunEffect_eq (k : Fin 8) (s : State) {slot : BqSlot} {out : List F64}
    (hrun : runSamples bqStep s.bq[k] (f64sAt s.buf (arg0 s) (arg1 s)) = (slot, out)) :
    bqRunEffect k s = ⟨{ s with bq := s.bq.set k slot, buf := s.buf.write (arg2 s) (f64Bytes out) },
      ⟨s.snap.r1, 0#32, 0#32, 0#32⟩, 0#9⟩ := by
  simp only [bqRunEffect, f64s_eq, hrun]
  rfl

/-- Settles O37: the checks pass, and the effect stores the outputs and the slot after the last step. -/
theorem bqRunCompletes : Obligations.BqRunCompletes := by
  intro s k hsrc hdst hin hout run
  refine ⟨doneWith { s with bq := s.bq.set k run.1, buf := s.buf.write (arg2 s) (f64Bytes run.2) } s.snap.r1 0#32 0#32 0#32
    0x001#9, ?_, stored_write .., rfl⟩
  rw [exec_bqRun]
  exact runCommand_eq_doneWith (f64RunCheck_of_legal hsrc hdst hin hout) (bqRunEffect_eq k s rfl) rfl

/-- Settles O40: each step shifts its input and its output into the slot, so the rest of the run is that of the slot one sample
later. -/
theorem biquadRecurrence : Obligations.BiquadRecurrence := by
  intro b xs
  induction xs generalizing b with
  | nil => exact ⟨rfl, fun n hn => absurd hn (Nat.not_lt_zero n), rfl⟩
  | cons x0 xs ih =>
    obtain ⟨hlength, hequation, hstate⟩ := ih (bqStep b x0).1
    refine ⟨congrArg Nat.succ hlength, ?_, hstate⟩
    intro n hn
    cases n with
    | zero => rfl
    | succ n => exact hequation n (Nat.lt_of_succ_lt_succ hn)

end Sys2Proof.Machine
end

section
/-! PROOFS. The CRC register byte by byte, CRC_CALC, and a message followed by its own CRC (spec file 44, R361-R363). -/

namespace Sys2Proof.Machine

set_option Elab.async false

/-- CRC_CALC with the mode its selector names runs its own check and its effect (R132, R133). -/
theorem exec_crcCalc (mode : Fin 2) (s : State) :
    exec (.crcCalc (BitVec.ofNat 4 mode.val)) s =
      runCommand crcCalcCheck (crcCalcEffect (BitVec.ofNat 4 mode.val)) s :=
  runCommand_withSelector (Nat.zero_le _) (crcSelector_le mode) ..

/-- CRC_CALC refuses a region that leaves BUF and reports its offset (R363). -/
theorem crcCalcCheck_of_long {s : State} (hlong : 65536 < arg0 s + arg1 s) :
    crcCalcCheck s = some ⟨.addrRange, s.snap.r0⟩ := by
  have hbad : ¬ regionOk (arg0 s) (arg1 s) := by rw [regionOk_iff]; omega
  rw [crcCalcCheck, if_pos hbad]

/-- CRC_CALC passes on a region inside BUF (R363). -/
theorem crcCalcCheck_of_legal {s : State} (hlegal : arg0 s + arg1 s ≤ 65536) : crcCalcCheck s = none := by
  rw [crcCalcCheck, if_neg (not_not.mpr ((regionOk_iff ..).mpr hlegal))]

/-- CRC_CALC's effect for the mode m: its CRC in RES0, zero-extended, and the state as it was (R363). -/
theorem crcCalcEffect_eq {sel : BitVec 4} {s : State} {m : CrcMode} (hmode : crcModeOf sel s = m) :
    crcCalcEffect sel s =
      ⟨s, ⟨(crc16 m (bytesAt s.buf (arg0 s) (arg1 s))).setWidth 32, 0#32, 0#32, 0#32⟩, 0#9⟩ := by
  simp only [crcCalcEffect, hmode, bytes_eq_bytesAt]
  rfl

/-- Several shifts are the shift iterated (R362). -/
theorem crcShifts_eq_iterate (poly : BitVec 16) (k : Nat) : ∀ reg, crcShifts poly k reg = (crcShift poly)^[k] reg := by
  induction k with
  | zero => exact fun reg => rfl
  | succ k ih => exact fun reg => ih (crcShift poly reg)

/-- A byte's number, moved to bits 15:8, is the byte put over eight zeros. -/
theorem ofNat_shiftLeft_eq_append (b : Byte) : BitVec.ofNat 16 b.toNat <<< 8 = b ++ 0#8 := by
  have hbyte := b.isLt
  apply BitVec.eq_of_toNat_eq
  rw [toNat_append_byte, BitVec.toNat_shiftLeft, BitVec.toNat_ofNat, Nat.shiftLeft_eq, BitVec.toNat_ofNat]
  omega

/-- What RES0 shows of a CRC register (R362). -/
def crcOutput (m : CrcMode) (reg : BitVec 16) : BitVec 16 := (if m.cfg.getLsbD 1 then reg.reverse else reg) ^^^ m.xorout

/-- Two registers that show alike are equal. -/
theorem crcOutput_injective (m : CrcMode) : Function.Injective (crcOutput m) := by
  intro a b h
  have hreg := (BitVec.xor_left_inj _).1 h
  split at hreg
  · rw [← BitVec.reverse_reverse_eq (x := a), hreg, BitVec.reverse_reverse_eq]
  · exact hreg

/-- The CRC is what the register shows after the last byte (R362). -/
theorem crc16_eq (m : CrcMode) (bytes : List Byte) : crc16 m bytes = crcOutput m (bytes.foldl (crcByte m) m.init) := by
  have hreverse : ∀ reg : BitVec 16, BitVec.ofNat 16 (reflect 16 reg.toNat) = reg.reverse := by
    intro reg
    rw [reflect_toNat, BitVec.ofNat_toNat, BitVec.setWidth_eq]
  simp only [crc16, hreverse]
  rfl

/-- One byte taken into the register: reversed under REFIN, XORed in at bits 15:8, and shifted out (R362). -/
theorem crcByte_eq (m : CrcMode) (reg : BitVec 16) (b : Byte) :
    crcByte m reg b = (crcShift m.poly)^[8] (reg ^^^ ((if m.cfg.getLsbD 0 then b.reverse else b) ++ 0#8)) := by
  rw [crcByte, crcShifts_eq_iterate, ← ofNat_shiftLeft_eq_append]
  congr 3
  rw [crcRefin]
  split
  · rw [reflect_toNat]
  · rfl

/-- Settles O51: the command by its check, its selectors and its effect, and the CRC by the fold over the bytes. -/
theorem crcCalcCompletes : Obligations.CrcCalcCompletes := by
  refine ⟨?command, ?badSelector, ?crc⟩
  case command =>
    intro s mode m
    rw [exec_crcCalc]
    exact ⟨fun hlong => runCommand_eq_failedWith (crcCalcCheck_of_long hlong), fun hlegal =>
      runCommand_eq_doneWith (crcCalcCheck_of_legal hlegal) (crcCalcEffect_eq (crcModeOf_ofNat mode s)) rfl⟩
  case badSelector =>
    intro s sel hsel
    refine exec_of_not_wf ?_ s
    rw [Instr.wf_iff]
    simp only [Instr.selRange, Instr.sel]
    omega
  case crc =>
    intro m output shift take
    refine ⟨crc16_eq m [], fun bytes b reg hreg => ?_⟩
    have hfold : bytes.foldl (crcByte m) m.init = reg := crcOutput_injective m ((crc16_eq m bytes).symm.trans hreg)
    rw [crc16_eq, List.foldl_append, hfold, List.foldl_cons, List.foldl_nil, crcByte_eq]
    rfl

/-- Shifts that move no 1 out of bit 15 are shifts of the number (R362). -/
theorem crcShifts_of_small (poly : BitVec 16) (k : Nat) : ∀ {reg : BitVec 16}, reg.toNat * 2 ^ k < 2 ^ 16 →
    (crcShifts poly k reg).toNat = reg.toNat * 2 ^ k := by
  induction k with
  | zero => exact fun _ => (Nat.mul_one _).symm
  | succ k ih =>
    intro reg hsmall
    have hdouble : reg.toNat * 2 ^ (k + 1) = 2 * reg.toNat * 2 ^ k := by ring
    have hone : 2 * reg.toNat ≤ 2 * reg.toNat * 2 ^ k := Nat.le_mul_of_pos_right _ (Nat.two_pow_pos k)
    have htop : reg.getLsbD 15 = false := Nat.testBit_lt_two_pow (by omega)
    have hshift : (crcShift poly reg).toNat = 2 * reg.toNat := by
      rw [crcShift, htop, if_neg Bool.false_ne_true, BitVec.toNat_shiftLeft, Nat.shiftLeft_eq]
      omega
    rw [crcShifts, ih (by rw [hshift]; omega), hshift, hdouble]

/-- The high byte of a register, XORed in at bits 15:8, leaves the low byte. -/
theorem xor_highByte (reg : BitVec 16) : reg ^^^ (reg.extractLsb' 8 8 ++ 0#8) = 0#8 ++ reg.extractLsb' 0 8 := by
  have hreg : reg.extractLsb' 8 8 ++ reg.extractLsb' 0 8 = reg :=
    (BitVec.extractLsb'_append_extractLsb'_eq_extractLsb' rfl).trans BitVec.extractLsb'_eq_self
  calc reg ^^^ (reg.extractLsb' 8 8 ++ 0#8)
      = (reg.extractLsb' 8 8 ++ reg.extractLsb' 0 8) ^^^ (reg.extractLsb' 8 8 ++ 0#8) := congrArg (· ^^^ _) hreg.symm
    _ = (reg.extractLsb' 8 8 ^^^ reg.extractLsb' 8 8) ++ (reg.extractLsb' 0 8 ^^^ 0#8) := BitVec.xor_append
    _ = 0#8 ++ reg.extractLsb' 0 8 := by rw [BitVec.xor_self, BitVec.xor_zero]

/-- Settles O53: the first of the two bytes cancels the register's high half, and shifting moves the low half up, which the second
cancels. -/
theorem crcSelfCheck : Obligations.CrcSelfCheck := by
  intro m bytes hrefin hrefout hxor
  have houtput : ∀ reg, crcOutput m reg = reg := by
    intro reg
    rw [crcOutput, hrefout, hxor, if_neg Bool.false_ne_true, BitVec.xor_zero]
  have htake : ∀ reg b, crcByte m reg b = crcShifts m.poly 8 (reg ^^^ (b ++ 0#8)) := by
    intro reg b
    rw [crcByte_eq, hrefin, if_neg Bool.false_ne_true, crcShifts_eq_iterate]
  simp only [crc16_eq, houtput, List.foldl_append, List.foldl_cons, List.foldl_nil, htake]
  generalize bytes.foldl (crcByte m) m.init = reg
  have hshifted : crcShifts m.poly 8 (0#8 ++ reg.extractLsb' 0 8) = reg.extractLsb' 0 8 ++ 0#8 := by
    have hlow : (0#8 ++ reg.extractLsb' 0 8).toNat = (reg.extractLsb' 0 8).toNat := by
      rw [toNat_append_byte, BitVec.toNat_ofNat, Nat.zero_mod, Nat.zero_mul, Nat.zero_add]
    apply BitVec.eq_of_toNat_eq
    rw [crcShifts_of_small m.poly 8 (by omega), hlow, toNat_append_byte, BitVec.toNat_ofNat]
    omega
  rw [xor_highByte, hshifted, BitVec.xor_self]
  apply BitVec.eq_of_toNat_eq
  rw [crcShifts_of_small m.poly 8 (by decide)]
  rfl

end Sys2Proof.Machine
end

section
/-! PROOFS. The ranges of the FM data path, the invariant of the unit along a stream, and the length of its output (spec file 40,
R220-R223, R231, R232, R240). -/

namespace Sys2Proof.Machine

set_option Elab.async false

/-! ### Ranges of the arithmetic -/

/-- A signed number of 32 bits is what its pattern holds (R131). -/
theorem toInt_word32 {v : Int} (hlow : -2147483648 ≤ v) (hhigh : v < 2147483648) : (word32 v).toInt = v := by
  rw [word32, BitVec.toInt_ofInt]
  exact Int.bmod_eq_of_le (by simpa using hlow) (by simpa using hhigh)

/-- A number below 2^32 is what its word holds (R9). -/
theorem toNat_wrap32 {n : Nat} (h : n < 4294967296) : (wrap32 n).toNat = n := by
  rw [wrap32, BitVec.toNat_ofNat]
  omega

/-- A truncated quotient lies where its dividend does, in units of the divisor (R8). -/
theorem quot_bounds {a b lo hi : Int} (hb : 0 < b) (hlo : lo ≤ 0) (hhi : 0 ≤ hi) (hlow : lo * b ≤ a) (hhigh : a ≤ hi * b) :
    lo ≤ quot a b ∧ quot a b ≤ hi := by
  unfold quot
  rcases Int.le_total 0 a with hpos | hneg
  · rw [Int.tdiv_eq_ediv_of_nonneg hpos]
    exact ⟨hlo.trans (Int.ediv_nonneg hpos hb.le), Int.ediv_le_of_le_mul hb hhigh⟩
  · have hflip : a.tdiv b = -((-a) / b) := by
      rw [← Int.tdiv_eq_ediv_of_nonneg (by omega), Int.neg_tdiv, neg_neg]
    have hquot : -a / b ≤ -lo := Int.ediv_le_of_le_mul hb (by rw [neg_mul]; omega)
    have hnonneg : 0 ≤ -a / b := Int.ediv_nonneg (by omega) hb.le
    rw [hflip]
    omega

/-- A raw byte less the centre is in -127..128 (R220). -/
theorem centred_bounds (b : Byte) : -127 ≤ centred b ∧ centred b ≤ 128 := by
  have := b.isLt
  unfold centred
  omega

/-- The digits of an angle are a number of that many bits (R222). -/
theorem angleDigits_lt (k : Nat) : ∀ x y : Int, angleDigits k x y < 2 ^ k := by
  induction k with
  | zero => intro x y; simp [angleDigits]
  | succ k ih =>
    intro x y
    unfold angleDigits
    split
    · have := ih (y * y - x * x) (-(2 * x * y))
      rw [Nat.pow_succ]
      omega
    · have := ih (x * x - y * y) (2 * x * y)
      rw [Nat.pow_succ]
      omega

/-- The exact angle is in -16383..16384 (R222). -/
theorem angleExact_bounds (y x : Int) : -16383 ≤ angleExact y x ∧ angleExact y x ≤ 16384 := by
  unfold angleExact
  split
  · split <;> omega
  · split
    · have := angleDigits_lt 14 x y
      omega
    · have := angleDigits_lt 14 x (-y)
      omega

/-- The fast angle is in -16384..16384 (R223). -/
theorem angleFast_bounds (y x : Int) : -16384 ≤ angleFast y x ∧ angleFast y x ≤ 16384 := by
  unfold angleFast
  split
  · omega
  · rename_i hpoint
    dsimp only
    generalize hyabs : (y.natAbs : Int) = yabs
    have hnonneg : 0 ≤ yabs := by omega
    have hright (h : 0 ≤ x) : -4096 ≤ quot (4096 * (x - yabs)) (x + yabs) ∧ quot (4096 * (x - yabs)) (x + yabs) ≤ 4096 :=
      quot_bounds (by omega) (by omega) (by omega) (by omega) (by omega)
    have hleft (h : x < 0) : -4096 ≤ quot (4096 * (x + yabs)) (yabs - x) ∧ quot (4096 * (x + yabs)) (yabs - x) ≤ 4096 :=
      quot_bounds (by omega) (by omega) (by omega) (by omega) (by omega)
    by_cases hx : 0 ≤ x
    · have := hright hx
      rw [if_pos hx]
      split <;> omega
    · have := hleft (by omega)
      rw [if_neg hx]
      split <;> omega

/-- Either angle is in -16384..16384 (R221). -/
theorem angleBy_bounds (fast : Bool) (y x : Int) : -16384 ≤ angleBy fast y x ∧ angleBy fast y x ≤ 16384 := by
  cases fast with
  | true => exact angleFast_bounds y x
  | false =>
    have := angleExact_bounds y x
    exact ⟨by rw [angleBy]; simp; omega, by rw [angleBy]; simp; omega⟩

/-- A positive distance, rounded by half the divisor and divided, is not longer (R231). -/
theorem quot_rounded_le {a dl : Int} (ha : 0 ≤ a) (hdl : 0 < dl) :
    0 ≤ quot (dl + quot a 2) a ∧ quot (dl + quot a 2) a ≤ dl := by
  have hhalf : quot a 2 = a / 2 := Int.tdiv_eq_ediv_of_nonneg ha
  rw [hhalf]
  rcases ha.eq_or_lt with rfl | hpos
  · simp [quot, hdl.le]
  · refine quot_bounds hpos (by omega) hdl.le (by simp; omega) ?_
    have hmul : (dl - 1) * 1 ≤ (dl - 1) * a := Int.mul_le_mul_of_nonneg_left (by omega) (by omega)
    have hexpand : (dl - 1) * a = dl * a - a := by ring
    omega

/-- The de-emphasis filter's average stays in the range of what it averages (R231). -/
theorem deemphNext_bounds {a avg d : Int} (ha : 0 ≤ a) (havg : -16384 ≤ avg ∧ avg ≤ 16384) (hd : -16384 ≤ d ∧ d ≤ 16384) :
    -16384 ≤ deemphNext a avg d ∧ deemphNext a avg d ≤ 16384 := by
  unfold deemphNext
  dsimp only
  split
  · rename_i hup
    have := quot_rounded_le ha hup
    omega
  · rename_i hdown
    rcases (Int.not_lt.1 hdown).eq_or_lt with hzero | hneg
    · rw [hzero]
      have hflip : quot (0 - quot a 2) a = -quot (quot a 2) a := by simp [quot, Int.neg_tdiv]
      have hhalf : quot a 2 = a / 2 := Int.tdiv_eq_ediv_of_nonneg ha
      have hsmall : quot (a / 2) a = 0 := by
        rcases ha.eq_or_lt with rfl | hpos
        · rfl
        · rw [quot, Int.tdiv_eq_ediv_of_nonneg (by omega)]
          exact Int.ediv_eq_zero_of_lt (by omega) (by omega)
      rw [hflip, hhalf, hsmall]
      omega
    · have hflip : quot (d - avg - quot a 2) a = -quot (-(d - avg) + quot a 2) a := by
        have hneg : d - avg - quot a 2 = -(-(d - avg) + quot a 2) := by omega
        rw [hneg]
        exact Int.neg_tdiv _ _
      have := quot_rounded_le ha (show 0 < -(d - avg) by omega)
      omega

/-- Saturation leaves what is in range (R9). -/
theorem sat16_of_bounds {v : Int} (hlow : -32768 ≤ v) (hhigh : v ≤ 32767) : sat16 v = v := by
  unfold sat16
  omega

/-! ### The invariant along a stream -/

/-- What holds of the FM unit while a stream runs (R211, R220, R231). -/
structure Streaming (f : Fm) : Prop where
  rateLow : 1 ≤ f.lSr.toNat
  rateHigh : f.lSr.toNat ≤ 3200000
  factor : f.downsample.toNat = 1000000 / f.lSr.toNat + 1
  count : f.accCnt.toNat < f.downsample.toNat
  accI : Between (-127 * (f.accCnt.toNat : Int)) f.accI (128 * (f.accCnt.toNat : Int))
  accQ : Between (-127 * (f.accCnt.toNat : Int)) f.accQ (128 * (f.accCnt.toNat : Int))
  prevI : Between (-127) f.prevI 128
  prevQ : Between (-127) f.prevQ 128
  onePath : f.lStereo = true → f.lEmph = false
  format : f.outFmt = if f.lStereo then 0x00100002#32 else 0x00100001#32
  emph : f.lEmph = true → EmphInv f

theorem FmInv.streaming {f : Fm} (h : FmInv f) (hrunning : f.running = true) : Streaming f := by
  obtain ⟨h1, h2, h3, h4, h5, h6, h7, h8, h9, h10, h11⟩ := h hrunning
  exact ⟨h1, h2, h3, h4, h5, h6, h7, h8, h9, h10, h11⟩

theorem Streaming.fmInv {f : Fm} (h : Streaming f) : FmInv f := fun _ =>
  ⟨h.rateLow, h.rateHigh, h.factor, h.count, h.accI, h.accQ, h.prevI, h.prevQ, h.onePath, h.format, h.emph⟩

/-- The decimation factor is at most 1000001, as the rate is not 0 (R211). -/
theorem Streaming.downsample_le {f : Fm} (h : Streaming f) : f.downsample.toNat ≤ 1000001 := by
  rw [h.factor]
  exact Nat.succ_le_succ (Nat.div_le_self _ _)

/-- A sum of `n` centred bytes and one more is a sum of `n + 1`, and held exactly (R220). -/
theorem between_addCentred {n : Nat} {w : Word} (hn : n ≤ 1000001) (h : Between (-127 * (n : Int)) w (128 * (n : Int)))
    (b : Byte) :
    -127 * ((n + 1 : Nat) : Int) ≤ s32 w + centred b ∧ s32 w + centred b ≤ 128 * ((n + 1 : Nat) : Int) ∧
    (word32 (s32 w + centred b)).toInt = s32 w + centred b := by
  obtain ⟨hlow, hhigh⟩ := h
  have := centred_bounds b
  unfold s32
  exact ⟨by omega, by omega, toInt_word32 (by omega) (by omega)⟩

/-- The average of `d` centred bytes is one, and held exactly (R220). -/
theorem between_average {d : Nat} {sum : Int} (hd : 0 < d) (hlow : -127 * (d : Int) ≤ sum) (hhigh : sum ≤ 128 * (d : Int)) :
    Between (-127) (word32 (quot sum d)) 128 := by
  obtain ⟨hlo, hhi⟩ := quot_bounds (lo := -127) (hi := 128) (by omega) (by omega) (by omega) hlow hhigh
  rw [Between, toInt_word32 (by omega) (by omega)]
  exact ⟨hlo, hhi⟩

/-- A running sum within 16384 for each sample is below 2^30 (R232). -/
theorem natAbs_sum_lt {acc : Int} {rate out idx : Nat} (hout : 1 ≤ out) (hratio : rate / out ≤ 32768) (hidx : idx < rate)
    (hsum : acc.natAbs * out ≤ 16384 * idx) : acc.natAbs < 1073741824 := by
  have hrate : rate < 32769 * out := (Nat.div_lt_iff_lt_mul (by omega)).1 (by omega)
  by_contra hbig
  have hmul : 1073741824 * out ≤ acc.natAbs * out := Nat.mul_le_mul_right out (by omega)
  omega

/-- An average in -16384..16384 adds at most 16384 to a running sum (R232). -/
theorem natAbs_add_mul_le {acc avg : Int} {out idx : Nat} (havg : -16384 ≤ avg ∧ avg ≤ 16384)
    (hsum : acc.natAbs * out ≤ 16384 * idx) : (acc + avg).natAbs * out ≤ 16384 * (idx + out) :=
  calc (acc + avg).natAbs * out ≤ (acc.natAbs + 16384) * out := Nat.mul_le_mul_right out (by omega)
    _ = acc.natAbs * out + 16384 * out := Nat.add_mul ..
    _ ≤ 16384 * (idx + out) := by omega

/-- The emphasize path keeps its ranges (R231, R232). -/
theorem EmphInv.step {p : FmPath} {d : Int} (h : EmphInv p.fm) (hrate : p.fm.lSr.toNat ≤ 3200000)
    (hd : -16384 ≤ d ∧ d ≤ 16384) : EmphInv (emphStep p d).1.fm := by
  obtain ⟨houtLow, houtHigh, hratio, hidx, havg, hsum⟩ := h
  have hnext := deemphNext_bounds (a := p.fm.deemphA.toNat) (Int.natCast_nonneg _) havg hd
  have havg' : Between (-16384) (word32 (deemphNext p.fm.deemphA.toNat (s32 p.fm.deemphAvg) d)) 16384 := by
    rw [Between, toInt_word32] <;> unfold s32 <;> omega
  have hsum' := natAbs_add_mul_le hnext hsum
  unfold emphStep
  dsimp only
  split
  · rename_i hfull
    refine ⟨houtLow, houtHigh, hratio, ?_, havg', by simp⟩
    show (wrap32 (p.fm.lprIdx.toNat + p.fm.lOutRate.toNat - p.fm.lSr.toNat)).toNat < p.fm.lSr.toNat
    rw [toNat_wrap32] <;> omega
  · rename_i hpart
    have hbound := natAbs_sum_lt houtLow hratio (by omega) hsum'
    have hsat := sat16_of_bounds (v := deemphNext p.fm.deemphA.toNat (s32 p.fm.deemphAvg) d) (by unfold s32; omega)
      (by unfold s32; omega)
    rw [hsat]
    unfold s32 at *
    refine ⟨houtLow, houtHigh, hratio, ?_, havg', ?_⟩
    · show (wrap32 (p.fm.lprIdx.toNat + p.fm.lOutRate.toNat)).toNat < p.fm.lSr.toNat
      rw [toNat_wrap32] <;> omega
    · rw [toInt_word32 (by omega) (by omega), toNat_wrap32 (by omega)]
      exact hsum'

/-- An output of the discriminator keeps the invariant, on each path (R225, R226, R231). -/
theorem Streaming.pathStep {p : FmPath} {d : Int} (nm : Numerics) (h : Streaming p.fm) (hd : -16384 ≤ d ∧ d ≤ 16384) :
    Streaming (pathStep nm p d).1.fm := by
  unfold Machine.pathStep
  split
  case isTrue => exact h
  case isFalse =>
    split
    case isFalse => exact h
    case isTrue hemph =>
      have hstep := (h.emph hemph).step h.rateHigh hd
      unfold emphStep at hstep ⊢
      dsimp only at hstep ⊢
      split at hstep <;> rename_i hfull
      · rw [if_pos hfull]
        exact ⟨h.rateLow, h.rateHigh, h.factor, h.count, h.accI, h.accQ, h.prevI, h.prevQ, h.onePath, h.format, fun _ => hstep⟩
      · rw [if_neg hfull]
        exact ⟨h.rateLow, h.rateHigh, h.factor, h.count, h.accI, h.accQ, h.prevI, h.prevQ, h.onePath, h.format, fun _ => hstep⟩

/-- The unit with the sums cleared and a decimated sample remembered (R220, R221). -/
def decimated (p : FmPath) (ci cq : Int) : FmPath :=
  { p with fm := { p.fm with accI := 0#32, accQ := 0#32, accCnt := 0#32, prevI := word32 ci, prevQ := word32 cq } }

/-- A pair that fills the decimator goes on to the output path (R220, R221). -/
theorem pairStep_of_full {p : FmPath} {pair : Byte × Byte} (nm : Numerics)
    (hfull : p.fm.accCnt.toNat + 1 = p.fm.downsample.toNat) :
    pairStep nm p pair =
      Machine.pathStep nm
        (decimated p (quot (s32 p.fm.accI + centred pair.1) p.fm.downsample.toNat)
          (quot (s32 p.fm.accQ + centred pair.2) p.fm.downsample.toNat))
        (discriminate p.fm (quot (s32 p.fm.accI + centred pair.1) p.fm.downsample.toNat)
          (quot (s32 p.fm.accQ + centred pair.2) p.fm.downsample.toNat)) := by
  unfold pairStep
  dsimp only
  rw [if_pos hfull]
  rfl

/-- A pair that does not is summed (R220). -/
theorem pairStep_of_part {p : FmPath} {pair : Byte × Byte} (nm : Numerics)
    (hpart : p.fm.accCnt.toNat + 1 ≠ p.fm.downsample.toNat) :
    pairStep nm p pair = ({ p with fm := { p.fm with
      accI := word32 (s32 p.fm.accI + centred pair.1), accQ := word32 (s32 p.fm.accQ + centred pair.2)
      accCnt := wrap32 (p.fm.accCnt.toNat + 1) } }, []) := by
  unfold pairStep
  dsimp only
  rw [if_neg hpart]

/-- The unit whose decimator was just filled keeps the invariant (R220). -/
theorem Streaming.decimated {p : FmPath} {pair : Byte × Byte} (h : Streaming p.fm)
    (hfull : p.fm.accCnt.toNat + 1 = p.fm.downsample.toNat) :
    Streaming (decimated p (quot (s32 p.fm.accI + centred pair.1) p.fm.downsample.toNat)
      (quot (s32 p.fm.accQ + centred pair.2) p.fm.downsample.toNat)).fm := by
  have hbound := h.downsample_le
  obtain ⟨hlowI, hhighI, -⟩ := between_addCentred (by omega) h.accI pair.1
  obtain ⟨hlowQ, hhighQ, -⟩ := between_addCentred (by omega) h.accQ pair.2
  rw [hfull] at hlowI hhighI hlowQ hhighQ
  have hzero : Between (-127 * ((0#32 : Word).toNat : Int)) 0#32 (128 * ((0#32 : Word).toNat : Int)) := ⟨by decide, by decide⟩
  exact ⟨h.rateLow, h.rateHigh, h.factor, show 0 < p.fm.downsample.toNat by omega, hzero, hzero,
    between_average (by omega) hlowI hhighI, between_average (by omega) hlowQ hhighQ, h.onePath, h.format, h.emph⟩

/-- A pair keeps the invariant (R220). -/
theorem Streaming.pairStep {p : FmPath} (nm : Numerics) (h : Streaming p.fm) (pair : Byte × Byte) :
    Streaming (pairStep nm p pair).1.fm := by
  by_cases hfull : p.fm.accCnt.toNat + 1 = p.fm.downsample.toNat
  · rw [pairStep_of_full nm hfull]
    exact (h.decimated hfull).pathStep nm (angleBy_bounds ..)
  · have hbound := h.downsample_le
    have hcount := h.count
    obtain ⟨hlowI, hhighI, hexactI⟩ := between_addCentred (by omega) h.accI pair.1
    obtain ⟨hlowQ, hhighQ, hexactQ⟩ := between_addCentred (by omega) h.accQ pair.2
    have hcnt : (wrap32 (p.fm.accCnt.toNat + 1)).toNat = p.fm.accCnt.toNat + 1 := toNat_wrap32 (by omega)
    rw [pairStep_of_part nm hfull]
    refine ⟨h.rateLow, h.rateHigh, h.factor, ?_, ?_, ?_, h.prevI, h.prevQ, h.onePath, h.format, h.emph⟩
    · rw [hcnt]
      exact Nat.lt_of_le_of_ne hcount hfull
    · rw [Between, hcnt, hexactI]
      exact ⟨hlowI, hhighI⟩
    · rw [Between, hcnt, hexactQ]
      exact ⟨hlowQ, hhighQ⟩

/-- A whole input keeps the invariant (R240). -/
theorem Streaming.fmRun (nm : Numerics) (xs : List (Byte × Byte)) :
    ∀ {p : FmPath}, Streaming p.fm → Streaming (fmRun nm p xs).1.fm := by
  induction xs with
  | nil => exact fun h => h
  | cons x xs ih => exact fun h => ih (h.pairStep nm x)

/-! ### The length of the output -/

/-- The PCM bytes that `k` decimated samples give (R240 check 4). -/
def outputBytes (f : Fm) (k : Nat) : Nat :=
  if f.lStereo then 4 * k
  else if f.lEmph then 2 * ((f.lprIdx.toNat + k * f.lOutRate.toNat) / f.lSr.toNat)
  else 2 * k

theorem fmBytesOut_eq (f : Fm) (n : Nat) : fmBytesOut f n = outputBytes f ((f.accCnt.toNat + n) / f.downsample.toNat) := rfl

/-- An output of the discriminator gives its share of the PCM bytes (R225, R226, R232). -/
theorem outputBytes_succ {p : FmPath} {d : Int} (nm : Numerics) (h : Streaming p.fm) (k : Nat) :
    outputBytes p.fm (k + 1) = 2 * (pathStep nm p d).2.length + outputBytes (pathStep nm p d).1.fm k := by
  unfold pathStep
  split
  case isTrue hstereo =>
    have hone : outputBytes (stereoStep nm p d).1.fm k = 4 * k := if_pos hstereo
    rw [hone, outputBytes, if_pos hstereo]
    simp [stereoStep]
    ring
  case isFalse hstereo =>
    split
    case isFalse hemph =>
      rw [outputBytes, outputBytes, if_neg hstereo, if_neg hemph, if_neg hstereo, if_neg hemph]
      simp
      ring
    case isTrue hemph =>
      obtain ⟨houtLow, houtHigh, -, hidx, -, -⟩ := h.emph hemph
      have hrate := h.rateHigh
      have hsucc : p.fm.lprIdx.toNat + (k + 1) * p.fm.lOutRate.toNat =
          p.fm.lprIdx.toNat + p.fm.lOutRate.toNat + k * p.fm.lOutRate.toNat := by ring
      rw [outputBytes, if_neg hstereo, if_pos hemph, hsucc]
      unfold emphStep
      dsimp only
      split
      · rename_i hfull
        rw [outputBytes, if_neg hstereo, if_pos hemph]
        dsimp only
        rw [toNat_wrap32 (by omega)]
        have hwrap : p.fm.lprIdx.toNat + p.fm.lOutRate.toNat + k * p.fm.lOutRate.toNat =
            p.fm.lprIdx.toNat + p.fm.lOutRate.toNat - p.fm.lSr.toNat + k * p.fm.lOutRate.toNat + p.fm.lSr.toNat := by omega
        rw [hwrap, Nat.add_div_right _ h.rateLow]
        simp
        ring
      · rw [outputBytes, if_neg hstereo, if_pos hemph]
        dsimp only
        rw [toNat_wrap32 (by omega)]
        simp

/-- A pair gives its share of the PCM bytes (R220). -/
theorem fmBytesOut_succ {p : FmPath} (nm : Numerics) (h : Streaming p.fm) (pair : Byte × Byte) (n : Nat) :
    fmBytesOut p.fm (n + 1) = 2 * (pairStep nm p pair).2.length + fmBytesOut (pairStep nm p pair).1.fm n := by
  have hstream := sameStream_pairStep nm p pair
  by_cases hfull : p.fm.accCnt.toNat + 1 = p.fm.downsample.toNat
  · have hcount : (p.fm.accCnt.toNat + (n + 1)) / p.fm.downsample.toNat = n / p.fm.downsample.toNat + 1 := by
      rw [show p.fm.accCnt.toNat + (n + 1) = n + p.fm.downsample.toNat by omega, Nat.add_div_right _ (by omega)]
    have hcleared : (pairStep nm p pair).1.fm.accCnt = 0#32 := by
      rw [pairStep_of_full nm hfull]
      unfold pathStep
      split
      · rfl
      · split
        · unfold emphStep
          dsimp only
          split <;> rfl
        · rfl
    rw [fmBytesOut_eq, fmBytesOut_eq, hcleared, hcount, show (pairStep nm p pair).1.fm.downsample = p.fm.downsample by rw [hstream.fm],
      pairStep_of_full nm hfull]
    have hshare := outputBytes_succ nm (h.decimated (pair := pair) hfull)
      (d := discriminate p.fm (quot (s32 p.fm.accI + centred pair.1) p.fm.downsample.toNat)
        (quot (s32 p.fm.accQ + centred pair.2) p.fm.downsample.toNat)) (n / p.fm.downsample.toNat)
    rw [BitVec.toNat_zero, Nat.zero_add, ← hshare]
    rfl
  · have hbound := h.downsample_le
    have hcount := h.count
    rw [pairStep_of_part nm hfull, fmBytesOut_eq, fmBytesOut_eq]
    dsimp only
    rw [toNat_wrap32 (by omega), show p.fm.accCnt.toNat + (n + 1) = p.fm.accCnt.toNat + 1 + n by omega]
    simp [outputBytes]

/-- Settles O30: the pairs, one after the other, give their shares. -/
theorem fmBytesOutExact : Obligations.FmBytesOutExact := by
  intro nm p xs hinv hrunning
  have hstream := hinv.streaming hrunning
  clear hinv hrunning
  induction xs generalizing p with
  | nil =>
    have hcount : p.fm.accCnt.toNat / p.fm.downsample.toNat = 0 := Nat.div_eq_of_lt hstream.count
    rw [List.length_nil, fmBytesOut_eq, Nat.add_zero, hcount, outputBytes]
    split
    · rfl
    · split
      · rename_i hemph
        obtain ⟨-, -, -, hidx, -, -⟩ := hstream.emph hemph
        rw [Nat.zero_mul, Nat.add_zero, Nat.div_eq_of_lt hidx]
        rfl
      · rfl
  | cons x xs ih =>
    rw [List.length_cons, fmBytesOut_succ nm hstream x, ← ih _ (hstream.pairStep nm x), fmRun, List.length_append]
    ring

end Sys2Proof.Machine
end

section
/-! PROOFS. FM_PROCESS: its errors, its completion, the step of one pair, and a stream cut in two (spec file 40, R201, R220-R232,
R240, R241). -/

namespace Sys2Proof.Machine

set_option Elab.async false

/-- The code's number and the word that an error leaves in ERRCODE and ERR_INFO (R500). -/
def errorRecord (e : CmdError) : BitVec 8 × Word := (errNumber e.code, e.info)

/-- A command with a legal selector whose checks decide for an error ends with the record of that error (R501, R504). -/
theorem exec_of_errorRecord {i : Instr} {s : State} {r : BitVec 8 × Word} (hwf : i.wf = true)
    (hcheck : (checkOf i s).map errorRecord = some r) : exec i s = .next (failedWith s r.1 r.2) := by
  obtain ⟨hlow, hhigh⟩ := i.wf_iff.1 hwf
  obtain ⟨e, herror, rfl⟩ := Option.map_eq_some_iff.1 hcheck
  rw [exec_eq]
  exact runCommand_eq_failedWith ((withSelector_inside hlow hhigh).trans herror)

/-- A command with a legal selector that passes its checks succeeds (R503). -/
theorem exec_of_pass {i : Instr} {s : State} (hwf : i.wf = true) (hcheck : checkOf i s = none) :
    exec i s = .next (succeed (effectOf i s)) := by
  obtain ⟨hlow, hhigh⟩ := i.wf_iff.1 hwf
  rw [exec_eq]
  exact runCommand_success (withSelector_eq_none.2 ⟨hlow, hhigh, hcheck⟩)

/-- A command that ended without an error passed its checks (R504). -/
theorem exec_pass {i : Instr} {s t : State} (hrun : exec i s = .next t) (hok : t.err = false) :
    checkOf i s = none ∧ t = succeed (effectOf i s) := by
  rcases exec_cases hrun with ⟨e, rfl⟩ | ⟨-, hcheck, ht⟩
  · rw [raiseError_err] at hok
    cases hok
  · exact ⟨hcheck, ht⟩

/-- The record of the first of several checks, taken apart. -/
theorem map_ite_some (p : Prop) [Decidable p] (e : CmdError) (rest : Option CmdError) :
    (if p then some e else rest).map errorRecord = if p then some (errorRecord e) else rest.map errorRecord := by
  split <;> rfl

@[simp] theorem length_pairsAt (m : Memory) (a n : Nat) : (pairsAt m a n).length = n := by simp [pairsAt]

/-! ### The checks -/

section ProcessChecks

variable {s : State}

/-- FM_PROCESS checks the capacity against the bytes its stream produces (R240 check 4, log 12). -/
theorem length_fmOutput (hinv : FmInv s.fm) (hrunning : s.fm.running = true) :
    fmBytesOut s.fm (arg1 s / 2) = 2 * (fmOutput s).2.length := by
  rw [fmOutput, fmBytesOutExact numerics ⟨s.fm, s.pll, s.bq⟩ _ hinv hrunning, length_pairsAt]

/-- The checks of FM_PROCESS in order (R240). -/
theorem fmProcessCheck_eq : fmProcessCheck s =
    if s.fm.running = false then some ⟨.notReady, 0x114#32⟩
    else if ¬ (1 ≤ s.diag.pwrWin.toNat ∧ s.diag.pwrWin.toNat ≤ 65535) then some ⟨.badConfig, 0x380#32⟩
    else if s.diag.pwrMax.toNat = 0 then some ⟨.badConfig, 0x384#32⟩
    else if arg1 s % 2 = 1 then some ⟨.badLength, s.snap.r1⟩
    else if arg3 s < fmBytesOut s.fm (arg1 s / 2) then some ⟨.badLength, neededLength (fmBytesOut s.fm (arg1 s / 2))⟩
    else if arg2 s % 2 = 1 then some ⟨.misaligned, s.snap.r2⟩
    else if 65536 < arg0 s + arg1 s then some ⟨.addrRange, s.snap.r0⟩
    else if 65536 < arg2 s + arg3 s then some ⟨.addrRange, s.snap.r2⟩
    else none := by
  have hmax : ¬ 1 ≤ s.diag.pwrMax.toNat ↔ s.diag.pwrMax.toNat = 0 := by omega
  have halign : ¬ aligned 2 (arg2 s) = true ↔ arg2 s % 2 = 1 := by
    rw [aligned_iff]
    omega
  have hregion (a n : Nat) : ¬ regionOk a n = true ↔ 65536 < a + n := by
    rw [regionOk_iff]
    omega
  unfold fmProcessCheck powerConfigError
  simp only [halign, hregion, hmax, Bool.not_eq_true]
  refine if_congr Iff.rfl rfl ?_
  by_cases hwin : ¬ (1 ≤ s.diag.pwrWin.toNat ∧ s.diag.pwrWin.toNat ≤ 65535)
  · rw [if_pos hwin, if_pos hwin]
  · rw [if_neg hwin, if_neg hwin]
    by_cases hzero : s.diag.pwrMax.toNat = 0
    · rw [if_pos hzero, if_pos hzero]
    · rw [if_neg hzero, if_neg hzero]

end ProcessChecks

/-- Settles O27: the checks in order, with the number of bytes the stream produces for its closed form. -/
theorem fmProcessErrors : Obligations.FmProcessErrors := by
  intro s hinv nout first e hfirst
  refine exec_of_errorRecord (i := .fmProcess 0#4) rfl ?_
  rw [← hfirst]
  show (fmProcessCheck s).map errorRecord = first
  rw [fmProcessCheck_eq]
  simp only [map_ite_some, Option.map_none]
  by_cases hrunning : s.fm.running = true
  · rw [length_fmOutput hinv hrunning]
    rfl
  · rw [Bool.not_eq_true] at hrunning
    rw [if_pos hrunning]
    exact (if_pos hrunning).symm

/-! ### The completion -/

/-- FM_PROCESS passes its checks in a running stream with a legal power configuration, an even length, room and legal regions
(R240). -/
theorem fmProcessCheck_of_legal {s : State} (hrunning : s.fm.running = true)
    (hwin : 1 ≤ s.diag.pwrWin.toNat ∧ s.diag.pwrWin.toNat ≤ 65535) (hmax : 1 ≤ s.diag.pwrMax.toNat)
    (heven : arg1 s % 2 = 0) (haligned : arg2 s % 2 = 0) (hroom : fmBytesOut s.fm (arg1 s / 2) ≤ arg3 s)
    (hsrc : arg0 s + arg1 s ≤ 65536) (hdst : arg2 s + arg3 s ≤ 65536) : fmProcessCheck s = none := by
  rw [fmProcessCheck_eq, if_neg (by simp [hrunning]), if_neg (not_not.2 hwin), if_neg (by omega), if_neg (by omega),
    if_neg (by omega), if_neg (by omega), if_neg (by omega), if_neg (by omega)]

/-- What FM_PROCESS has passed (R240). -/
theorem legal_of_fmProcessCheck {s : State} (hcheck : fmProcessCheck s = none) :
    s.fm.running = true ∧ fmBytesOut s.fm (arg1 s / 2) ≤ arg3 s ∧ arg2 s + arg3 s ≤ 65536 := by
  rw [fmProcessCheck_eq] at hcheck
  simp only [ite_some_eq_none] at hcheck
  obtain ⟨hrunning, -, -, -, hroom, -, -, hdst, -⟩ := hcheck
  exact ⟨by simpa using hrunning, by omega, by omega⟩

/-- The channels of a running stream, as the announced format tells them (R210, R240). -/
theorem Streaming.channels {f : Fm} (h : Streaming f) : f.outFmt.toNat % 65536 = if f.lStereo then 2 else 1 := by
  rw [h.format]
  split <;> rfl

/-- The effect of FM_PROCESS in the terms of the claims (R240, R241). -/
theorem fmProcessEffect_eq {s : State} (h : Streaming s.fm) :
    fmProcessEffect s =
      ⟨{ s with
        fm := refreshPower s (fmOutput s).1.fm (arg0 s) (arg1 s / 2), pll := (fmOutput s).1.pll, bq := (fmOutput s).1.bq
        buf := s.buf.write (arg2 s) (pcmBytes (fmOutput s).2) },
      ⟨wrap32 (2 * (fmOutput s).2.length), wrap32 ((fmOutput s).2.length / if s.fm.lStereo then 2 else 1),
        wrap32 (if s.fm.lStereo then 2 else 1), s.fm.outRateDesc⟩,
      irqFmFrame ||| irqIf (powerDue s (arg1 s / 2)) irqPwrUpd⟩ := by
  unfold fmProcessEffect
  dsimp only
  rw [iqPairs_eq, h.channels, length_pcmBytes, Nat.mul_div_mul_left _ _ (by decide)]
  rfl

/-- One pair is one step of the stream (R240). -/
theorem fmRun_singleton (nm : Numerics) (p : FmPath) (pair : Byte × Byte) : fmRun nm p [pair] = pairStep nm p pair := by
  simp [fmRun]

/-- The fast angle, with the absolute value of the integers (R223). -/
theorem angleFast_eq (y x : Int) : angleFast y x =
    if x = 0 ∧ y = 0 then 0
    else
      let angle := if 0 ≤ x then 4096 - (4096 * (x - |y|)).tdiv (x + |y|) else 12288 - (4096 * (x + |y|)).tdiv (|y| - x)
      if y < 0 then -angle else angle := by
  rw [← Int.natCast_natAbs]
  rfl

/-- A PCM sample of R229, with the clamp inside the conversion. -/
theorem toPcm_pcm16 (v : F64) : toPcm (pcm16 v) =
    BitVec.ofInt 16 (if isNaN v then 0
      else ftrunc (fmul (if flt v (fneg fone) then fneg fone else if flt fone v then fone else v) (fofNat 32767))) := rfl

/-- The de-emphasis filter with the average taken out (R231). -/
theorem deemphNext_eq (a avg d : Int) : deemphNext a avg d =
    avg + (if 0 < d - avg then (d - avg + a.tdiv 2).tdiv a else (d - avg - a.tdiv 2).tdiv a) := by
  unfold deemphNext
  dsimp only
  split <;> rfl

/-- Settles O28: the effect behind the checks; the step of a pair is `pairStep`, its path a case of `pathStep`. -/
theorem fmProcessCompletes : Obligations.FmProcessCompletes := by
  refine ⟨?completes, fun _ _ => rfl, ?cons, ?pair⟩
  case completes =>
    intro s hinv hrunning hwinLow hwinHigh hmax heven haligned hroom hsrc hdst n path pcm due power channels
    have hcheck : checkOf (.fmProcess 0#4) s = none :=
      fmProcessCheck_of_legal hrunning ⟨hwinLow, hwinHigh⟩ hmax heven haligned ((length_fmOutput hinv hrunning).trans_le hroom)
        hsrc hdst
    refine ⟨_, exec_of_pass rfl hcheck, ?_⟩
    rw [effectOf, fmProcessEffect_eq (hinv.streaming hrunning), succeed_eq_doneWith]
    refine ⟨stored_write .., ?_⟩
    have hpower : powerAt s (arg0 s) n = power := by
      rw [powerAt, iqPairs_eq]
    have hfm : refreshPower s path.fm (arg0 s) n =
        if due then { path.fm with pwr := BitVec.ofNat 32 power, pwrT := s.time, pwrValid := true } else path.fm := by
      rw [← hpower]
      rfl
    have hirqs : irqFmFrame ||| irqIf (powerDue s n) irqPwrUpd ||| irqDone = if due then 0x085#9 else 0x005#9 := by
      rw [show powerDue s n = due from rfl]
      cases due <;> rfl
    rw [hfm, hirqs]
    rfl
  case cons =>
    intro nm p x xs one more
    rw [show one = pairStep nm p x from fmRun_singleton nm p x]
    rfl
  case pair =>
    intro nm p bI bQ hinv hrunning f d sumI sumQ one sat
    have hone : one = pairStep nm p (bI, bQ) := fmRun_singleton nm p (bI, bQ)
    rw [hone]
    refine ⟨fun hpart => pairStep_of_part nm hpart, ?_⟩
    intro hfull ci cq re im fast out g
    have hout : discriminate p.fm ci cq = out := by
      rw [show out = if f.lFast then fast else angleExact im re from rfl, show fast = angleFast im re from (angleFast_eq im re).symm]
      rfl
    have hstep : pairStep nm p (bI, bQ) = pathStep nm { p with fm := g } out := by
      rw [pairStep_of_full nm hfull, ← hout]
      rfl
    rw [hstep]
    refine ⟨?mono, ?stereo, ?emph⟩
    case mono =>
      intro hstereo hemph
      rw [pathStep, if_neg (by simpa [g] using hstereo), if_neg (by simpa [g] using hemph)]
      rfl
    case stereo =>
      intro hstereo x pilot loop sub mono diff clamp pcm
      rw [pathStep, if_pos hstereo]
      rfl
    case emph =>
      intro hstereo hemph a avg dl next sum idx rate
      have hnext : deemphNext g.deemphA.toNat (s32 g.deemphAvg) out = next := deemphNext_eq a avg out
      rw [pathStep, if_neg (by simpa [g] using hstereo), if_pos hemph, emphStep]
      dsimp only
      rw [hnext]
      refine ⟨fun hshort => ?_, fun hdone => ?_⟩
      · rw [if_neg (show ¬ rate ≤ idx by omega)]
        rfl
      · rw [if_pos (show rate ≤ idx from hdone)]
        rfl

end Sys2Proof.Machine
end

section
/-! PROOFS. A stream cut in two (spec file 40, R201, R241). -/

namespace Sys2Proof.Machine

set_option Elab.async false

/-- The pairs of two inputs, one after the other, are run one after the other (R201). -/
theorem fmRun_append (nm : Numerics) (xs ys : List (Byte × Byte)) : ∀ p : FmPath,
    fmRun nm p (xs ++ ys) =
      ((fmRun nm (fmRun nm p xs).1 ys).1, (fmRun nm p xs).2 ++ (fmRun nm (fmRun nm p xs).1 ys).2) := by
  induction xs with
  | nil => intro p; rfl
  | cons x xs ih =>
    intro p
    rw [List.cons_append, fmRun, ih, fmRun]
    simp only [List.append_assoc]

/-- The registers of a stream with those of the power replaced (R241). -/
def withPower (pwr : Word) (pwrT : BitVec 64) (valid : Bool) (p : FmPath) : FmPath :=
  { p with fm := { p.fm with pwr := pwr, pwrT := pwrT, pwrValid := valid } }

section Power

variable (nm : Numerics) (pwr : Word) (pwrT : BitVec 64) (valid : Bool)

/-- The output path does not look at the power registers (R241). -/
theorem pathStep_withPower (p : FmPath) (d : Int) :
    pathStep nm (withPower pwr pwrT valid p) d = (withPower pwr pwrT valid (pathStep nm p d).1, (pathStep nm p d).2) := by
  cases hstereo : p.fm.lStereo with
  | true =>
    rw [pathStep, pathStep, if_pos (show (withPower pwr pwrT valid p).fm.lStereo = true from hstereo), if_pos hstereo]
    rfl
  | false =>
    have hnot : ¬ p.fm.lStereo = true := by simp [hstereo]
    rw [pathStep, pathStep, if_neg (show ¬ (withPower pwr pwrT valid p).fm.lStereo = true from hnot), if_neg hnot]
    cases hemph : p.fm.lEmph with
    | false =>
      have hplain : ¬ p.fm.lEmph = true := by simp [hemph]
      rw [if_neg (show ¬ (withPower pwr pwrT valid p).fm.lEmph = true from hplain), if_neg (by decide)]
    | true =>
      rw [if_pos (show (withPower pwr pwrT valid p).fm.lEmph = true from hemph), if_pos rfl]
      by_cases hfull : p.fm.lSr.toNat ≤ p.fm.lprIdx.toNat + p.fm.lOutRate.toNat
      · rw [emphStep, emphStep, if_pos hfull]
        exact if_pos hfull
      · rw [emphStep, emphStep, if_neg hfull]
        exact if_neg hfull

/-- A pair's step does not look at the power registers (R241). -/
theorem pairStep_withPower (p : FmPath) (pair : Byte × Byte) :
    pairStep nm (withPower pwr pwrT valid p) pair = (withPower pwr pwrT valid (pairStep nm p pair).1, (pairStep nm p pair).2) := by
  by_cases hfull : p.fm.accCnt.toNat + 1 = p.fm.downsample.toNat
  · rw [pairStep_of_full nm hfull, ← pathStep_withPower]
    exact pairStep_of_full nm (p := withPower pwr pwrT valid p) hfull
  · rw [pairStep_of_part nm hfull]
    exact pairStep_of_part nm (p := withPower pwr pwrT valid p) hfull

/-- A stream does not look at the power registers (R241). -/
theorem fmRun_withPower (xs : List (Byte × Byte)) : ∀ p : FmPath,
    fmRun nm (withPower pwr pwrT valid p) xs = (withPower pwr pwrT valid (fmRun nm p xs).1, (fmRun nm p xs).2) := by
  induction xs with
  | nil => intro p; rfl
  | cons x xs ih =>
    intro p
    rw [fmRun, fmRun, pairStep_withPower, ih]

end Power

/-- A refresh of the power is a replacement of its registers (R241). -/
theorem refreshPower_withPower (s : State) (p : FmPath) (src n : Nat) : ∃ pwr pwrT valid,
    (⟨refreshPower s p.fm src n, p.pll, p.bq⟩ : FmPath) = withPower pwr pwrT valid p := by
  obtain ⟨pwr, pwrT, valid, h⟩ := refreshPower_eq s p.fm src n
  exact ⟨pwr, pwrT, valid, by rw [h]; rfl⟩

/-- What FM_PROCESS that completed has done to the stream, to BUF and to the results (R240). -/
structure Processed (s t : State) : Prop where
  path : ∃ pwr pwrT valid, (⟨t.fm, t.pll, t.bq⟩ : FmPath) = withPower pwr pwrT valid (fmOutput s).1
  stored : Stored s.buf t.buf (arg2 s) (pcmBytes (fmOutput s).2)
  length : 2 * (fmOutput s).2.length ≤ 65536
  bytes : t.res.r0 = wrap32 (2 * (fmOutput s).2.length)
  samples : t.res.r1 = wrap32 ((fmOutput s).2.length / if s.fm.lStereo then 2 else 1)
  channels : t.res.r2 = wrap32 (if s.fm.lStereo then 2 else 1)
  rate : t.res.r3 = s.fm.outRateDesc

/-- FM_PROCESS that completed found a running stream and has processed its input (R240). -/
theorem processed_of_exec {s t : State} (hinv : FmInv s.fm) (hrun : exec (.fmProcess 0#4) s = .next t) (hok : t.err = false) :
    Streaming s.fm ∧ Processed s t := by
  obtain ⟨hcheck, ht⟩ := exec_pass hrun hok
  obtain ⟨hrunning, hroom, hdst⟩ := legal_of_fmProcessCheck hcheck
  have hstream := hinv.streaming hrunning
  have hlength := length_fmOutput hinv hrunning
  rw [effectOf, fmProcessEffect_eq hstream] at ht
  subst ht
  exact ⟨hstream, refreshPower_withPower .., stored_write .., by omega, rfl, rfl, rfl, rfl⟩

/-- The frames of a stereo stream have two samples each (R226). -/
theorem stereo_length_even {s : State} (h : Streaming s.fm) (hrunning : s.fm.running = true) (hstereo : s.fm.lStereo = true) :
    (fmOutput s).2.length % 2 = 0 := by
  have hbytes := length_fmOutput h.fmInv hrunning
  rw [fmBytesOut_eq, outputBytes, if_pos hstereo] at hbytes
  omega

/-- The samples per channel of two outputs add up (R201). -/
theorem frames_add {a b channels : Nat} (hchannels : channels = 1 ∨ channels = 2) (ha : channels = 2 → a % 2 = 0) :
    (a + b) / channels = a / channels + b / channels := by
  rcases hchannels with rfl | rfl
  · simp
  · have := ha rfl
    omega

/-- Settles O29: the stream of the joined input is the second stream after the first, as neither looks at the power registers. -/
theorem fmChunks : Obligations.FmChunks := by
  intro s t u v w x hinv hst htok hufm hupll hubq huv hvok hwfm hwpll hwbq hpairs hwx hxok n1 n2
  obtain ⟨hstream, hs⟩ := processed_of_exec hinv hst htok
  obtain ⟨pwr, pwrT, valid, hpath⟩ := hs.path
  have hustart : (⟨u.fm, u.pll, u.bq⟩ : FmPath) = withPower pwr pwrT valid (fmOutput s).1 := by rw [hufm, hupll, hubq, hpath]
  have hsame : SameStream ⟨s.fm, s.pll, s.bq⟩ (fmOutput s).1 := sameStream_fmRun numerics _ _
  have hfirst : Streaming (fmOutput s).1.fm := Streaming.fmRun numerics _ hstream
  have hufm' : u.fm = { (fmOutput s).1.fm with pwr := pwr, pwrT := pwrT, pwrValid := valid } := congrArg FmPath.fm hustart
  have huinv : FmInv u.fm := by
    rw [hufm']
    exact hfirst.fmInv
  obtain ⟨-, hu⟩ := processed_of_exec huinv huv hvok
  obtain ⟨-, hw⟩ := processed_of_exec (hwfm ▸ hinv) hwx hxok
  -- the joined stream
  have hsecond : fmOutput u = (withPower pwr pwrT valid (fmRun numerics (fmOutput s).1 (pairsAt u.buf (arg0 u) (arg1 u / 2))).1,
      (fmRun numerics (fmOutput s).1 (pairsAt u.buf (arg0 u) (arg1 u / 2))).2) := by
    rw [fmOutput, hustart, fmRun_withPower]
  have hjoined : (fmOutput w).2 = (fmOutput s).2 ++ (fmOutput u).2 ∧
      withPower pwr pwrT valid (fmOutput w).1 = (fmOutput u).1 := by
    rw [hsecond, fmOutput, hwfm, hwpll, hwbq, hpairs, fmRun_append]
    exact ⟨rfl, rfl⟩
  obtain ⟨hpcm, hend⟩ := hjoined
  have hlength : (fmOutput w).2.length = (fmOutput s).2.length + (fmOutput u).2.length := by rw [hpcm, List.length_append]
  have hbytes : pcmBytes (fmOutput w).2 = pcmBytes (fmOutput s).2 ++ pcmBytes (fmOutput u).2 := by
    rw [hpcm, pcmBytes, List.flatMap_append]
    rfl
  have hn1 : n1 = (pcmBytes (fmOutput s).2).length := by
    have := hs.length
    rw [length_pcmBytes, show n1 = t.res.r0.toNat from rfl, hs.bytes, toNat_wrap32 (by omega)]
  have hn2 : n2 = (pcmBytes (fmOutput u).2).length := by
    have := hu.length
    rw [length_pcmBytes, show n2 = v.res.r0.toNat from rfl, hu.bytes, toNat_wrap32 (by omega)]
  have hstereo : u.fm.lStereo = s.fm.lStereo := by rw [hufm', hsame.fm]
  have hdesc : u.fm.outRateDesc = s.fm.outRateDesc := by rw [hufm', hsame.fm]
  have hlenw := hw.length
  have hlens := hs.length
  have hlenu := hu.length
  -- the registers after the one command and after the two
  obtain ⟨pwrV, pwrTV, validV, hv⟩ := hu.path
  obtain ⟨pwrX, pwrTX, validX, hx⟩ := hw.path
  refine ⟨?bytes1, ?bytes2, ?res0, ?res1, ?res2, ?res3, ?pll, ?bq, ?fm⟩
  case bytes1 =>
    intro i hi
    rw [hn1] at hi
    rw [hw.stored.1 i (by rw [hbytes, List.length_append]; omega), hs.stored.1 i hi]
    simp only [hbytes, List.getElem_append_left hi]
  case bytes2 =>
    intro i hi
    rw [hn2] at hi
    rw [Nat.add_assoc, hw.stored.1 (n1 + i) (by rw [hbytes, List.length_append]; omega), hu.stored.1 i hi]
    simp only [hbytes, hn1, List.getElem_append_right (Nat.le_add_right _ _), Nat.add_sub_cancel_left]
  case res0 =>
    rw [hw.bytes, toNat_wrap32 (by omega), hlength, hn1, hn2, length_pcmBytes, length_pcmBytes]
    ring
  case res1 =>
    have hchannels : (if s.fm.lStereo = true then 2 else 1) = 1 ∨ (if s.fm.lStereo = true then 2 else 1) = 2 := by
      split
      · exact .inr rfl
      · exact .inl rfl
    have hle (a : Nat) : a / (if s.fm.lStereo = true then 2 else 1) ≤ a := Nat.div_le_self ..
    have hles := hle (fmOutput s).2.length
    have hleu := hle (fmOutput u).2.length
    have hlew := hle (fmOutput w).2.length
    rw [hw.samples, hs.samples, hu.samples, hwfm, hstereo, toNat_wrap32 (by omega), toNat_wrap32 (by omega),
      toNat_wrap32 (by omega), hlength]
    refine frames_add hchannels fun htwo => ?_
    cases hkind : s.fm.lStereo with
    | true => exact stereo_length_even hstream (legal_of_fmProcessCheck (exec_pass hst htok).1).1 hkind
    | false => rw [hkind] at htwo; cases htwo
  case res2 => rw [hw.channels, hu.channels, hwfm, hstereo]
  case res3 => rw [hw.rate, hu.rate, hwfm, hdesc]
  case pll =>
    have h1 : x.pll = (fmOutput w).1.pll := congrArg FmPath.pll hx
    have h2 : v.pll = (fmOutput u).1.pll := congrArg FmPath.pll hv
    rw [h1, h2, ← hend]
    rfl
  case bq =>
    have h1 : x.bq = (fmOutput w).1.bq := congrArg FmPath.bq hx
    have h2 : v.bq = (fmOutput u).1.bq := congrArg FmPath.bq hv
    rw [h1, h2, ← hend]
    rfl
  case fm =>
    have h1 : x.fm = _ := congrArg FmPath.fm hx
    have h2 : v.fm = _ := congrArg FmPath.fm hv
    rw [h1, h2, ← hend]
    rfl

end Sys2Proof.Machine
end

section
/-! PROOFS. The primitivity check, RS_INIT, what RS_CORRECT answers, and RS_DECODE (spec file 43, R330-R334, R338, R340). -/

namespace Sys2Proof.Machine

set_option Elab.async false

/-! ### The primitivity check -/

/-- The search ends with the last of its steps exactly when 1 is met there first (R334). -/
theorem orderSearch_eq_zero_iff (c : RsCode) (fuel : Nat) : ∀ a, orderSearch c fuel a = some 0 ↔
    1 ≤ fuel ∧ (gfDouble c)^[fuel - 1] a = 1 ∧ ∀ k, k < fuel - 1 → (gfDouble c)^[k] a ≠ 1 := by
  induction fuel with
  | zero => intro a; simp [orderSearch]
  | succ fuel ih =>
    refine fun a => ⟨orderSearch_zero c (fuel + 1) a, ?_⟩
    rintro ⟨-, hlast, hearlier⟩
    rw [Nat.add_sub_cancel] at hlast hearlier
    unfold orderSearch
    cases fuel with
    | zero =>
      rw [if_pos (show a = 1 from hlast)]
    | succ fuel =>
      rw [if_neg (show a ≠ 1 from hearlier 0 (Nat.succ_pos fuel)), ih]
      refine ⟨by omega, ?_, fun k hk => ?_⟩
      · rwa [Function.iterate_succ_apply] at hlast
      · have := hearlier (k + 1) (by omega)
        rwa [Function.iterate_succ_apply] at this

/-- Settles O47: the search begins at x, one doubling after 1, and has 2^m - 1 steps. -/
theorem primitiveMeansOrder : Obligations.PrimitiveMeansOrder := by
  intro m p hm double
  have hpow : 2 ^ 2 ≤ 2 ^ m := Nat.pow_le_pow_right (by norm_num) hm
  have hone : double 1 = 2 := if_neg (show ¬ 2 ^ m ≤ 2 * 1 by omega)
  have hsucc (k : Nat) : double^[k + 1] 1 = double^[k] 2 := by rw [Function.iterate_succ_apply, hone]
  have horder : 2 ^ m - 1 = (2 ^ m - 1 - 1) + 1 := by omega
  have hsearch : orderSearch ⟨m, p, 0, 1, 1⟩ (2 ^ m - 1) 2 = some 0 ↔
      double^[2 ^ m - 1] 1 = 1 ∧ ∀ k, 1 ≤ k → k < 2 ^ m - 1 → double^[k] 1 ≠ 1 := by
    rw [orderSearch_eq_zero_iff]
    constructor
    · rintro ⟨-, hlast, hearlier⟩
      refine ⟨by rw [horder, hsucc]; exact hlast, fun k hlow hhigh => ?_⟩
      obtain ⟨j, rfl⟩ : ∃ j, k = j + 1 := ⟨k - 1, by omega⟩
      rw [hsucc]
      exact hearlier j (by omega)
    · rintro ⟨hlast, hearlier⟩
      refine ⟨by omega, by rwa [horder, hsucc] at hlast, fun k hk => ?_⟩
      have := hearlier (k + 1) (by omega) (by omega)
      rwa [hsucc] at this
  rw [isPrimitive, Bool.and_eq_true, Bool.and_eq_true, decide_eq_true_iff, decide_eq_true_iff, decide_eq_true_iff, hsearch,
    and_assoc]

/-! ### RS_INIT -/

/-- The effect of RS_INIT on a configuration that fits (R334). -/
theorem rsInitEffect_eq {s : State}
    (hfits : s.rs.config.pad.toNat + s.rs.config.nroots.toNat ≤ 2 ^ s.rs.config.symsize.toNat - 2) :
    let n := 2 ^ s.rs.config.symsize.toNat - 1 - s.rs.config.pad.toNat
    rsInitEffect s =
      ⟨{ s with rs := { s.rs with
          latched := s.rs.config, n := BitVec.ofNat 32 n, k := BitVec.ofNat 32 (n - s.rs.config.nroots.toNat), ready := true } },
        ⟨BitVec.ofNat 32 n, BitVec.ofNat 32 (n - s.rs.config.nroots.toNat), 0#32, 0#32⟩, 0#9⟩ := by
  intro n
  have hk : wrap32 n - s.rs.config.nroots = BitVec.ofNat 32 (n - s.rs.config.nroots.toNat) := by
    have := s.rs.config.nroots.isLt
    apply BitVec.eq_of_toNat_eq
    rw [wrap32, BitVec.toNat_sub, BitVec.toNat_ofNat, BitVec.toNat_ofNat]
    omega
  rw [← hk]
  rfl

/-- Settles O46: RS_INIT's checks in order, and its effect. -/
theorem rsInitCompletes : Obligations.RsInitCompletes := by
  intro s c m n poly fcr prim roots fits run
  have hfault {off : Word} (hcheck : rsInitCheck s = some ⟨.badConfig, off⟩) : run = .next (failedWith s 4#8 off) :=
    exec_of_errorRecord (i := .rsInit 0#4) (r := (4#8, off)) rfl (congrArg (Option.map errorRecord) hcheck)
  refine ⟨fun hsize => hfault (if_pos hsize), fun hlow hhigh => ?_⟩
  have hsize : ¬ ¬ (2 ≤ m ∧ m ≤ 8) := not_not.2 ⟨hlow, hhigh⟩
  refine ⟨?poly, ?fcr, ?prim, ?roots, ?fits, ?completes⟩
  case poly => exact fun hbad => hfault (by rw [rsInitCheck, if_neg hsize, if_pos hbad])
  case fcr => exact fun hpoly hbad => hfault (by rw [rsInitCheck, if_neg hsize, if_neg (not_not.2 hpoly), if_pos hbad])
  case prim =>
    exact fun hpoly hfcr hbad => hfault (by
      rw [rsInitCheck, if_neg hsize, if_neg (not_not.2 hpoly), if_neg (not_not.2 hfcr), if_pos hbad])
  case roots =>
    exact fun hpoly hfcr hprim hbad => hfault (by
      rw [rsInitCheck, if_neg hsize, if_neg (not_not.2 hpoly), if_neg (not_not.2 hfcr), if_neg (not_not.2 hprim), if_pos hbad])
  case fits =>
    exact fun hpoly hfcr hprim hroots hbad => hfault (by
      rw [rsInitCheck, if_neg hsize, if_neg (not_not.2 hpoly), if_neg (not_not.2 hfcr), if_neg (not_not.2 hprim),
        if_neg (not_not.2 hroots), if_pos hbad])
  case completes =>
    intro hpoly hfcr hprim hroots hfits
    have hcheck : checkOf (.rsInit 0#4) s = none := by
      show rsInitCheck s = none
      rw [rsInitCheck, if_neg hsize, if_neg (not_not.2 hpoly), if_neg (not_not.2 hfcr), if_neg (not_not.2 hprim),
        if_neg (not_not.2 hroots), if_neg (not_not.2 hfits)]
    have heffect : effectOf (.rsInit 0#4) s = _ := rsInitEffect_eq hfits
    rw [show run = _ from exec_of_pass rfl hcheck, heffect, succeed_eq_doneWith]
    rfl

/-- A configuration that passes RS_INIT's checks is a legal one (R334). -/
theorem rsLegal_of_rsInitCheck {s : State} (hcheck : rsInitCheck s = none) : RsLegal s.rs.config := by
  unfold rsInitCheck at hcheck
  simp only [ite_some_eq_none, not_not] at hcheck
  obtain ⟨⟨hlow, hhigh⟩, hpoly, hfcr, ⟨hprim, hprim', hgcd⟩, ⟨hroots, hroots'⟩, hfits, -⟩ := hcheck
  exact ⟨hlow, hhigh, hpoly, hfcr, hprim, hprim', hgcd, hroots, hroots', hfits⟩

/-! ### What RS_CORRECT answers -/

section Answers

variable {code : RsCode} {r erased cw ps : List Nat}

@[simp] theorem length_rsCandidate : (rsCandidate code r erased).length = r.length := by simp [rsCandidate]

/-- RS_CORRECT answers a codeword with itself (R338 case 1). -/
theorem rsCorrect_of_codeword (hword : isCodeword code r = true) : rsCorrect code r erased = some (r, []) := if_pos hword

/-- RS_CORRECT answers any other word with a candidate within its bound (R338). -/
theorem rsCorrect_of_not_codeword (hword : isCodeword code r = false) :
    rsCorrect code r erased =
      if withinBound code r (rsCandidate code r erased) erased then
        some (rsCandidate code r erased, correctedPositions r (rsCandidate code r erased) erased)
      else none := by
  rw [rsCorrect, hword]
  rfl

/-- Everything an answer of RS_CORRECT can be (R338). -/
theorem rsCorrect_answer (h : rsCorrect code r erased = some (cw, ps)) :
    (isCodeword code r = true ∧ cw = r ∧ ps = []) ∨
    (isCodeword code r = false ∧ cw.length = r.length ∧ withinBound code r cw erased = true ∧
      ps = correctedPositions r cw erased) := by
  rcases Bool.eq_false_or_eq_true (isCodeword code r) with hword | hword
  · rw [rsCorrect_of_codeword hword] at h
    cases h
    exact .inl ⟨hword, rfl, rfl⟩
  · rw [rsCorrect_of_not_codeword hword] at h
    split at h
    · rename_i hbound
      cases h
      exact .inr ⟨hword, length_rsCandidate, hbound, rfl⟩
    · cases h

/-- What the bound of RS_CORRECT says (R338). -/
theorem withinBound_iff : withinBound code r cw erased = true ↔
    isCodeword code cw = true ∧ (∀ x, x ∈ cw → x < 2 ^ code.m) ∧
    2 * (errorPositions r cw erased).length + erased.length ≤ code.nroots := by
  simp [withinBound, and_assoc]

/-- An answer is as long as the received word (R338). -/
theorem length_of_rsCorrect (h : rsCorrect code r erased = some (cw, ps)) : cw.length = r.length := by
  rcases rsCorrect_answer h with ⟨-, rfl, -⟩ | ⟨-, hlength, -, -⟩
  · rfl
  · exact hlength

/-- An answer is a codeword (R338). -/
theorem isCodeword_of_rsCorrect (h : rsCorrect code r erased = some (cw, ps)) : isCodeword code cw = true := by
  rcases rsCorrect_answer h with ⟨hword, rfl, -⟩ | ⟨-, -, hbound, -⟩
  · exact hword
  · exact (withinBound_iff.1 hbound).1

/-- An answer to a word of field symbols is one (R338). -/
theorem symbols_of_rsCorrect (h : rsCorrect code r erased = some (cw, ps)) (hr : ∀ x, x ∈ r → x < 2 ^ code.m) :
    ∀ x, x ∈ cw → x < 2 ^ code.m := by
  rcases rsCorrect_answer h with ⟨-, rfl, -⟩ | ⟨-, -, hbound, -⟩
  · exact hr
  · exact (withinBound_iff.1 hbound).2.1

/-- What has one of two properties has the first, or the second without the first. -/
theorem countP_or_le {α : Type} (p q : α → Bool) (l : List α) :
    l.countP (fun a => p a || q a) ≤ l.countP (fun a => !p a && q a) + l.countP p := by
  induction l with
  | nil => simp
  | cons a l ih =>
    simp only [List.countP_cons]
    cases p a <;> cases q a <;> simp <;> omega

/-- The positions counted are at most those of E and the errors outside E. -/
theorem length_correctedPositions_le :
    (correctedPositions r cw erased).length ≤ (errorPositions r cw erased).length + erased.length := by
  have hsplit : (correctedPositions r cw erased).length ≤
      (errorPositions r cw erased).length + ((List.range r.length).filter (fun j => erased.contains j)).length := by
    unfold correctedPositions errorPositions
    rw [← List.countP_eq_length_filter, ← List.countP_eq_length_filter, ← List.countP_eq_length_filter]
    exact countP_or_le ..
  have herased : ((List.range r.length).filter (fun j => erased.contains j)).length ≤ erased.length := by
    refine (List.subperm_of_subset (List.nodup_range.filter _) fun j hj => ?_).length_le
    simpa using (List.mem_filter.1 hj).2
  omega

/-- RS_CORRECT counts at most NROOTS positions (R338). -/
theorem length_positions_of_rsCorrect (h : rsCorrect code r erased = some (cw, ps)) : ps.length ≤ code.nroots := by
  rcases rsCorrect_answer h with ⟨-, -, rfl⟩ | ⟨-, -, hbound, rfl⟩
  · exact Nat.zero_le _
  · have := length_correctedPositions_le (r := r) (cw := cw) (erased := erased)
    have := (withinBound_iff.1 hbound).2.2
    omega

end Answers

/-! ### RS_DECODE -/

/-- A region is illegal when it leaves BUF (R106). -/
theorem not_regionOk_iff (a n : Nat) : ¬ regionOk a n = true ↔ 65536 < a + n := by
  rw [regionOk_iff]
  omega

/-- Settles O48: RS_DECODE's checks in order. -/
theorem rsDecodeErrors : Obligations.RsDecodeErrors := by
  intro s first e hfirst
  refine exec_of_errorRecord (i := .rsDecode 0#4) rfl ?_
  rw [← hfirst]
  show (rsDecodeCheck s).map errorRecord = first
  simp only [rsDecodeCheck, map_ite_some, Option.map_none, Bool.not_eq_true, regionOk_false_iff]
  rfl

/-- The erasure list is good when it names no position twice and none at or above N (R340). -/
theorem erasuresOk_iff (n : Nat) (es : List Nat) : erasuresOk n es = true ↔ (∀ e, e ∈ es → e < n) ∧ es.Nodup := by
  simp [erasuresOk]

/-- Settles O49: the three forms of RS_DECODE's effect, with the word stored first and the positions after it. -/
theorem rsDecodeCompletes : Obligations.RsDecodeCompletes := by
  intro s hready hcount hword herased hpositions code n word erased
  have hcheck : checkOf (.rsDecode 0#4) s = none := by
    show rsDecodeCheck s = none
    simp only [rsDecodeCheck, not_regionOk_iff]
    rw [if_neg (by simp [hready]), if_neg (by omega), if_neg (by omega), if_neg (by omega), if_neg (by omega)]
  have hrun : exec (.rsDecode 0#4) s = .next (succeed (rsDecodeEffect s)) := exec_of_pass rfl hcheck
  rw [hrun]
  refine ⟨fun hbad => ?_, fun hrange hnodup hnone => ?_, fun hrange hnodup cw ps hsome => ?_⟩
  · have hfalse : erasuresOk n erased = false := by
      rw [← Bool.not_eq_true, erasuresOk_iff]
      exact hbad
    rw [rsDecodeEffect_of_badErasures hfalse, succeed_eq_doneWith]
    rfl
  · rw [rsDecodeEffect_of_uncorrectable ((erasuresOk_iff n erased).2 ⟨hrange, hnodup⟩) hnone, succeed_eq_doneWith]
    rfl
  · rw [rsDecodeEffect_of_corrected ((erasuresOk_iff n erased).2 ⟨hrange, hnodup⟩) hsome]
    refine ⟨_, rfl, by rw [succeed_eq_doneWith]; rfl, fun i hi => ?_, fun a ha => ?_⟩
    · rw [succeed_buf, read_write_inside _ _ _ i (by simpa using hi)]
      simp [bytesOf]
    · have houtside : a < arg3 s ∨ arg3 s + (bytesOf ps).length ≤ a := by
        rw [length_bytesOf]
        omega
      rw [succeed_buf, read_write_outside _ _ _ a houtside]
      refine ⟨fun j hj hplace => ?_, fun hother => read_write_outside _ _ _ a (by rw [length_bytesOf]; omega)⟩
      rw [hplace, read_write_inside _ _ _ j (by simpa using hj)]
      simp [bytesOf]

end Sys2Proof.Machine
end

section
/-! PROOFS. Superframes and DAB_FEED (spec file 42, R302-R309). -/

namespace Sys2Proof.Machine

set_option Elab.async false

/-! ### Superframes -/

@[simp] theorem length_deinterleave (k n : Nat) (cws : List (List Byte)) : (deinterleave k n cws).length = k * n := by
  simp [deinterleave]

/-- The superframe of corrected codewords: symbol j of codeword i at i + k j (R303, R304). -/
def fixedSuperframe (len k : Nat) (good : Nat → List Nat × List Nat) : List Byte :=
  (List.range len).map (fun a => BitVec.ofNat 8 ((good (a % k)).1.getD (a / k) 0))

/-- Symbols as bytes, read one by one. -/
theorem getD_bytesOf (xs : List Nat) (j : Nat) : (bytesOf xs).getD j 0#8 = BitVec.ofNat 8 (xs.getD j 0) := by
  simp only [bytesOf, List.getD_eq_getElem?_getD, List.getElem?_map]
  cases xs[j]? <;> rfl

/-- Corrected codewords put together (R303). -/
theorem deinterleave_eq (k n : Nat) (good : Nat → List Nat × List Nat) :
    deinterleave k n ((List.range k).map (fun i => bytesOf (good i).1)) = fixedSuperframe (k * n) k good := by
  unfold deinterleave fixedSuperframe
  refine List.map_congr_left fun a ha => ?_
  have hk : a % k < k := Nat.mod_lt _ (Nat.pos_of_mul_pos_right (Nat.zero_lt_of_lt (List.mem_range.1 ha)))
  have hcodeword : ((List.range k).map (fun i => bytesOf (good i).1)).getD (a % k) [] = bytesOf (good (a % k)).1 := by
    simp [List.getD_eq_getElem?_getD, hk]
  rw [hcodeword, getD_bytesOf]

/-- A codeword of a superframe put together is the one that went in (R303). -/
theorem interleaved_fixedSuperframe {k n i : Nat} (good : Nat → List Nat × List Nat) (hi : i < k) (hlength : (good i).1.length = n) :
    interleaved (fixedSuperframe (k * n) k good) k n i = bytesOf (good i).1 := by
  refine List.ext_getElem (by simp [interleaved, hlength]) fun j hj hj' => ?_
  have hjn : j < n := by simpa [interleaved] using hj
  have hplace : i + k * j < k * n := by
    have : k * (j + 1) ≤ k * n := Nat.mul_le_mul_left k hjn
    rw [Nat.mul_succ] at this
    omega
  have hmod : (i + k * j) % k = i := by rw [Nat.add_mul_mod_self_left, Nat.mod_eq_of_lt hi]
  have hdiv : (i + k * j) / k = j := by
    rw [Nat.add_mul_div_left _ _ (by omega), Nat.div_eq_of_lt hi, Nat.zero_add]
  have hcodeword : j < (good i).1.length := by omega
  simp [interleaved, fixedSuperframe, bytesOf, List.getD_eq_getElem?_getD, hplace, hmod, hdiv, hcodeword]

/-- Field symbols stored as bytes are read back (R332). -/
theorem symbolsOf_bytesOf {code : RsCode} {xs : List Nat} (hm : code.m ≤ 8) (hxs : ∀ x, x ∈ xs → x < 2 ^ code.m) :
    symbolsOf code (bytesOf xs) = xs := by
  rw [symbolsOf, bytesOf, List.map_map]
  refine (List.map_congr_left fun x hx => ?_).trans (List.map_id xs)
  have hsymbol := hxs x hx
  have hbyte : 2 ^ code.m ≤ 2 ^ 8 := Nat.pow_le_pow_right (by decide) hm
  simp only [Function.comp, BitVec.toNat_ofNat, id]
  rw [Nat.mod_eq_of_lt (hsymbol.trans_le hbyte), Nat.mod_eq_of_lt hsymbol]

/-- Bytes read as field symbols are some (R332). -/
theorem symbols_symbolsOf (code : RsCode) (bs : List Byte) : ∀ x, x ∈ symbolsOf code bs → x < 2 ^ code.m := by
  intro x hx
  obtain ⟨b, -, rfl⟩ := List.mem_map.1 hx
  exact Nat.mod_lt _ (Nat.two_pow_pos _)

section Correct

variable {code : RsCode} {n : Nat} {sf : List Byte}

/-- A superframe of which every codeword is corrected (R304). -/
theorem correctSuperframe_of_good {good : Nat → List Nat × List Nat}
    (hgood : ∀ i, i < sf.length / n → rsCorrect code (symbolsOf code (interleaved sf (sf.length / n) n i)) [] = some (good i)) :
    correctSuperframe code n sf =
      some (fixedSuperframe (sf.length / n * n) (sf.length / n) good,
        ((List.range (sf.length / n)).map (fun i => (good i).2.length)).sum) := by
  have hdecoded : (List.range (sf.length / n)).map (fun k => correctCodeword code (interleaved sf (sf.length / n) n k)) =
      (List.range (sf.length / n)).map (fun i => some ((good i).2.length, bytesOf (good i).1)) := by
    refine List.map_congr_left fun i hi => ?_
    rw [correctCodeword, hgood i (List.mem_range.1 hi)]
  unfold correctSuperframe
  dsimp only
  rw [hdecoded, if_pos (by simp), List.filterMap_map]
  simp only [Function.comp_def, id, List.filterMap_eq_map', List.map_map]
  rw [deinterleave_eq]

/-- A superframe of which some codeword is not corrected (R304). -/
theorem correctSuperframe_of_bad {i : Nat} (hi : i < sf.length / n)
    (hbad : rsCorrect code (symbolsOf code (interleaved sf (sf.length / n) n i)) [] = none) :
    correctSuperframe code n sf = none := by
  have hnot : ((List.range (sf.length / n)).map
      (fun k => correctCodeword code (interleaved sf (sf.length / n) n k))).all Option.isSome = false := by
    rw [List.all_eq_false]
    refine ⟨none, List.mem_map.2 ⟨i, List.mem_range.2 hi, ?_⟩, by simp⟩
    rw [correctCodeword, hbad]
  unfold correctSuperframe
  dsimp only
  rw [hnot]
  rfl

/-- A superframe is corrected only when every codeword is (R304). -/
theorem good_of_correctSuperframe {out : List Byte × Nat} (h : correctSuperframe code n sf = some out) :
    ∃ good : Nat → List Nat × List Nat, ∀ i, i < sf.length / n →
      rsCorrect code (symbolsOf code (interleaved sf (sf.length / n) n i)) [] = some (good i) := by
  refine ⟨fun i => (rsCorrect code (symbolsOf code (interleaved sf (sf.length / n) n i)) []).getD ([], []), fun i hi => ?_⟩
  cases hword : rsCorrect code (symbolsOf code (interleaved sf (sf.length / n) n i)) [] with
  | some d => simp [hword]
  | none => rw [correctSuperframe_of_bad hi hword] at h; cases h

end Correct

section Validate

variable {s : State} {sf : List Byte}

/-- A corrected superframe is accepted without FIRE_EN or with a good header (R304). -/
theorem validate_of_corrected {out : List Byte} {total : Nat}
    (h : correctSuperframe (rsCodeOf s.rs.latched) s.rs.n.toNat sf = some (out, total)) :
    validate s sf = if s.dab.fireEn && !fireCodeOk s.crc1 out then none else some (out, total) := by
  rw [validate, h]

/-- A superframe that is not corrected is rejected (R304). -/
theorem validate_of_uncorrected (h : correctSuperframe (rsCodeOf s.rs.latched) s.rs.n.toNat sf = none) : validate s sf = none := by
  rw [validate, h]

/-- An accepted superframe was corrected, and its header is good if FIRE_EN asks (R304). -/
theorem corrected_of_validate {out : List Byte} {total : Nat} (h : validate s sf = some (out, total)) :
    correctSuperframe (rsCodeOf s.rs.latched) s.rs.n.toNat sf = some (out, total) ∧
    (s.dab.fireEn = true → fireCodeOk s.crc1 out = true) := by
  cases hcorrect : correctSuperframe (rsCodeOf s.rs.latched) s.rs.n.toNat sf with
  | none => rw [validate_of_uncorrected hcorrect] at h; cases h
  | some d =>
    rw [validate_of_corrected hcorrect] at h
    split at h
    · cases h
    · rename_i hfire
      cases h
      exact ⟨rfl, by simpa using hfire⟩

/-- An accepted superframe is as long as the whole codewords of the candidate (R304). -/
theorem length_of_validate {out : List Byte} {total : Nat} (h : validate s sf = some (out, total)) :
    out.length = sf.length / s.rs.n.toNat * s.rs.n.toNat := by
  obtain ⟨hcorrect, -⟩ := corrected_of_validate h
  obtain ⟨good, hgood⟩ := good_of_correctSuperframe hcorrect
  rw [correctSuperframe_of_good hgood] at hcorrect
  cases hcorrect
  simp [fixedSuperframe]

end Validate

/-- The header check compares the CRC with the stored word (R304, R364). -/
theorem fireCodeOk_iff (m : CrcMode) (sf : List Byte) :
    fireCodeOk m sf = true ↔
      crc16 m ((sf.drop 2).take 9) =
        if m.cfg.getLsbD 2 then sf.getD 1 0#8 ++ sf.getD 0 0#8 else sf.getD 0 0#8 ++ sf.getD 1 0#8 := by
  rw [fireCodeOk, decide_eq_true_iff, storedCrc_eq_toNat, ← BitVec.toNat_inj]
  rfl

/-- Settles O45: the corrected codewords are codewords of field symbols, and are read back from the superframe they make. -/
theorem acceptedIsValid : Obligations.AcceptedIsValid := by
  intro s sf hinv hwhole code n k word
  obtain ⟨⟨-, hm, -⟩, -⟩ := hinv
  have hlength : k * n = sf.length := Nat.div_mul_cancel (Nat.dvd_of_mod_eq_zero hwhole)
  refine ⟨?sound, ?complete, fun ⟨i, hi, hbad⟩ => validate_of_uncorrected (correctSuperframe_of_bad hi hbad)⟩
  case sound =>
    intro out total hvalid
    obtain ⟨hcorrect, hfire⟩ := corrected_of_validate hvalid
    obtain ⟨good, hgood⟩ := good_of_correctSuperframe hcorrect
    refine ⟨(length_of_validate hvalid).trans hlength, fun i hi => ?_, hfire⟩
    rw [correctSuperframe_of_good hgood] at hcorrect
    cases hcorrect
    have hanswer : rsCorrect code (word sf i) [] = some ((good i).1, (good i).2) := hgood i hi
    have hcodeword : word (fixedSuperframe (k * n) k good) i = (good i).1 := by
      have hlen : (good i).1.length = n := by
        rw [length_of_rsCorrect hanswer]
        simp [word, interleaved]
      show symbolsOf code (interleaved _ k n i) = _
      rw [interleaved_fixedSuperframe good hi hlen,
        symbolsOf_bytesOf hm (symbols_of_rsCorrect hanswer (symbols_symbolsOf code _))]
    show isCodeword code (word (fixedSuperframe (k * n) k good) i) = true
    rw [hcodeword]
    exact isCodeword_of_rsCorrect hanswer
  case complete =>
    intro good hgood fixed total first second computed fire
    have hcorrect : correctSuperframe code n sf = some (fixed, total) := by
      rw [correctSuperframe_of_good hgood]
      show some (fixedSuperframe (k * n) k good, total) = some (fixed, total)
      rw [hlength]
      rfl
    have hfire : fireCodeOk s.crc1 fixed = true ↔ fire := fireCodeOk_iff s.crc1 fixed
    have hvalid := validate_of_corrected hcorrect
    refine ⟨fun hgoodFire => ?_, fun hen hbadFire => ?_⟩
    · rw [hvalid, if_neg]
      simp only [Bool.and_eq_true, Bool.not_eq_true', not_and, Bool.not_eq_false]
      exact fun hen => hfire.2 (hgoodFire hen)
    · rw [hvalid, if_pos]
      simp only [Bool.and_eq_true, Bool.not_eq_true', ← Bool.not_eq_true]
      exact ⟨hen, fun h => hbadFire (hfire.1 h)⟩

/-! ### DAB_FEED -/

/-- The legal fragment lengths (R45, R306). -/
theorem fragLenOk_iff (f : Nat) : fragLenOk f = true ↔ 24 ≤ f ∧ f ≤ 1152 ∧ f % 24 = 0 := by
  simp [fragLenOk, and_assoc]

/-- The checks of DAB_FEED in order (R306). -/
theorem dabFeedCheck_eq (s : State) : dabFeedCheck s =
    if s.rs.ready = false then some ⟨.notReady, 0x258#32⟩
    else if ¬ (24 ≤ s.dab.fragLen.toNat ∧ s.dab.fragLen.toNat ≤ 1152 ∧ s.dab.fragLen.toNat % 24 = 0 ∧
        5 * s.dab.fragLen.toNat % s.rs.n.toNat = 0) then some ⟨.badConfig, 0x200#32⟩
    else if ¬ (1 ≤ s.dab.lossThr.toNat ∧ s.dab.lossThr.toNat ≤ 255) then some ⟨.badConfig, 0x208#32⟩
    else if arg1 s ≠ s.dab.fragLen.toNat then some ⟨.badLength, s.snap.r1⟩
    else if 65536 < arg0 s + s.dab.fragLen.toNat then some ⟨.addrRange, s.snap.r0⟩
    else if 65536 < arg2 s + 5 * s.dab.fragLen.toNat then some ⟨.addrRange, s.snap.r2⟩
    else none := by
  have hlength : ¬ (fragLenOk s.dab.fragLen.toNat && decide (5 * s.dab.fragLen.toNat % s.rs.n.toNat = 0)) = true ↔
      ¬ (24 ≤ s.dab.fragLen.toNat ∧ s.dab.fragLen.toNat ≤ 1152 ∧ s.dab.fragLen.toNat % 24 = 0 ∧
        5 * s.dab.fragLen.toNat % s.rs.n.toNat = 0) := by
    rw [Bool.and_eq_true, fragLenOk_iff, decide_eq_true_iff, and_assoc, and_assoc]
  unfold dabFeedCheck
  dsimp only
  rw [if_congr hlength rfl rfl]
  simp only [Bool.not_eq_true, regionOk_false_iff]

/-- Settles O43: DAB_FEED's checks in order. -/
theorem dabFeedErrors : Obligations.DabFeedErrors := by
  intro s f thr first e hfirst
  refine exec_of_errorRecord (i := .dabFeed 0#4) rfl ?_
  rw [← hfirst]
  show (dabFeedCheck s).map errorRecord = first
  rw [dabFeedCheck_eq]
  simp only [map_ite_some, Option.map_none]
  rfl

/-- What DAB_FEED has passed (R306). -/
theorem legal_of_dabFeedCheck {s : State} (hcheck : dabFeedCheck s = none) :
    24 ≤ s.dab.fragLen.toNat ∧ s.dab.fragLen.toNat ≤ 1152 ∧ s.dab.fragLen.toNat % 24 = 0 ∧
    5 * s.dab.fragLen.toNat % s.rs.n.toNat = 0 ∧ s.dab.lossThr.toNat ≤ 255 ∧
    arg2 s + 5 * s.dab.fragLen.toNat ≤ 65536 := by
  rw [dabFeedCheck_eq] at hcheck
  simp only [ite_some_eq_none, not_not] at hcheck
  obtain ⟨-, ⟨hlow, hhigh, hunit, hwords⟩, ⟨-, hthr⟩, -, -, hdst, -⟩ := hcheck
  exact ⟨hlow, hhigh, hunit, hwords, hthr, by omega⟩

/-- The candidate is as long as its fragments (R302). -/
theorem length_flatten_of_forall {α : Type} {f : Nat} {frags : List (List α)} (h : ∀ frag, frag ∈ frags → frag.length = f) :
    frags.flatten.length = frags.length * f := by
  rw [List.length_flatten, List.map_congr_left h, List.map_const', List.sum_replicate, smul_eq_mul]

/-- Five fragments are held after the fifth is fed, each as long as DAB_FRAG_LEN says (R302, R306). -/
theorem length_flatten_fedDab {s : State} (hinv : DabInv s.dab) :
    (fedDab s).win.flatten.length = (s.dab.win.length + 1) * s.dab.fragLen.toNat := by
  obtain ⟨-, hfrags, -⟩ := hinv
  rw [← length_win_fedDab]
  refine length_flatten_of_forall fun frag hfrag => ?_
  rcases List.mem_append.1 hfrag with hheld | hnew
  · exact hfrags frag hheld
  · rw [List.mem_singleton.1 hnew, length_bytesAt]

/-- An accepted superframe is as long as five fragments (R304, R306). -/
theorem length_of_accepted {s : State} {sf : List Byte} {total : Nat} (hinv : DabInv s.dab)
    (hwords : 5 * s.dab.fragLen.toNat % s.rs.n.toNat = 0) (hfull : 4 ≤ s.dab.win.length)
    (hvalid : validate s (fedDab s).win.flatten = some (sf, total)) : sf.length = 5 * s.dab.fragLen.toNat := by
  have hfour : s.dab.win.length = 4 := by
    obtain ⟨hfew, -⟩ := hinv
    omega
  rw [length_of_validate hvalid, length_flatten_fedDab hinv, hfour]
  exact Nat.div_mul_cancel (Nat.dvd_of_mod_eq_zero hwords)

/-- The synchronizer after a rejection in Searching (R306). -/
theorem rejectSuperframe_of_searching {d : Dab} (h : d.synced = false) :
    rejectSuperframe d = { d with rejCount := d.rejCount + 1#32, win := d.win.drop 1 } := by
  rw [rejectSuperframe, h]
  rfl

/-- The synchronizer after a rejection that does not end Synced (R306). -/
theorem rejectSuperframe_of_kept {d : Dab} (h : d.synced = true) (hkept : d.fails.toNat + 1 < d.lossThr.toNat) :
    lossReached d = false ∧
    rejectSuperframe d = { d with rejCount := d.rejCount + 1#32, win := [], fails := d.fails + 1#8, synced := true } := by
  have hloss : lossReached d = false := by simp [lossReached, hkept]
  rw [rejectSuperframe, hloss, if_pos h]
  exact ⟨rfl, rfl⟩

/-- The synchronizer after the rejection that ends Synced (R306). -/
theorem rejectSuperframe_of_lost {d : Dab} (h : d.synced = true) (hlost : d.lossThr.toNat ≤ d.fails.toNat + 1) :
    lossReached d = true ∧
    rejectSuperframe d = { d with rejCount := d.rejCount + 1#32, win := [], fails := 0#8, synced := false } := by
  have hloss : lossReached d = true := by simp [lossReached, h, hlost]
  rw [rejectSuperframe, hloss, if_pos h]
  exact ⟨rfl, rfl⟩

/-- WCNT in a result is the number of fragments held (R307). -/
theorem wcnt_setWidth {d : Dab} (h : d.win.length < 8) : (wcnt d).setWidth 32 = BitVec.ofNat 32 d.win.length := by
  apply BitVec.eq_of_toNat_eq
  simp only [wcnt, BitVec.toNat_setWidth, BitVec.toNat_ofNat]
  omega

/-- Settles O44: the three forms of DAB_FEED's effect. -/
theorem dabFeedCompletes : Obligations.DabFeedCompletes := by
  intro s hinv hready f hlow hhigh hunit hwords hthrLow hthrHigh harg hsrc hdst frag synced
  have hcheck : checkOf (.dabFeed 0#4) s = none := by
    show dabFeedCheck s = none
    rw [dabFeedCheck_eq, if_neg (by simp [hready]), if_neg (not_not.2 ⟨hlow, hhigh, hunit, hwords⟩),
      if_neg (not_not.2 ⟨hthrLow, hthrHigh⟩), if_neg (not_not.2 harg), if_neg (by omega), if_neg (by omega)]
  have hrun : exec (.dabFeed 0#4) s = .next (succeed (dabFeedEffect s)) := exec_of_pass rfl hcheck
  have hsynced : flagAt s.dab.synced 0 = synced := rfl
  have hheld := length_win_fedDab s
  rw [hrun]
  refine ⟨fun hfew => ?collecting, fun hfull sf total hvalid => ?accepted, fun hfull hvalid => ?rejected⟩
  case collecting =>
    rw [dabFeedEffect_of_collecting hfew, feedResults, wcnt_setWidth (by omega), hheld, succeed_eq_doneWith, ← hsynced]
    rfl
  case accepted =>
    rw [dabFeedEffect_of_accepted hfull.ge hvalid]
    refine ⟨_, rfl, length_of_accepted hinv hwords hfull.ge hvalid, stored_write .., ?_⟩
    rw [succeed_eq_doneWith]
    have hirqs : irqSuperframe ||| irqIf (!s.dab.synced) irqSyncAcq ||| irqDone = if s.dab.synced then 0x011#9 else 0x031#9 := by
      cases s.dab.synced <;> rfl
    rw [hirqs]
    rfl
  case rejected =>
    intro d searching kept lost
    rw [dabFeedEffect_of_rejected hfull.ge hvalid]
    rcases Bool.eq_false_or_eq_true s.dab.synced with hs | hs
    · rw [if_neg (by simp [hs])]
      by_cases hkept : s.dab.fails.toNat + 1 < s.dab.lossThr.toNat
      · obtain ⟨hloss, hreject⟩ := rejectSuperframe_of_kept (d := fedDab s) hs hkept
        rw [if_pos hkept, hloss, hreject, succeed_eq_doneWith]
        have hdab : ({ fedDab s with
            rejCount := (fedDab s).rejCount + 1#32, win := [], fails := (fedDab s).fails + 1#8, synced := true } : Dab) = kept := by
          simp [kept, d, fedDab, appendFragment, hs]
        rw [hdab, show feedResults 2 0 kept = ⟨2#32, 0#32, 0#32, 1#32⟩ by simp [feedResults, kept, d, hs, flagAt, wcnt, results, wrap32]]
        rfl
      · obtain ⟨hloss, hreject⟩ := rejectSuperframe_of_lost (d := fedDab s) hs (Nat.not_lt.1 hkept)
        rw [if_neg hkept, hloss, hreject, succeed_eq_doneWith]
        rfl
    · have hloss : lossReached (fedDab s) = false := by
        have : (fedDab s).synced = false := hs
        simp [lossReached, this]
      have hdab : rejectSuperframe (fedDab s) = searching := by
        rw [rejectSuperframe_of_searching (show (fedDab s).synced = false from hs)]
        have hdrop : (fedDab s).win.drop 1 = s.dab.win.drop 1 ++ [frag] := List.drop_append_of_le_length (by omega)
        rw [hdrop]
        rfl
      have hfour : searching.win.length = 4 := by simp [searching, hfull]
      have hresults : feedResults 2 0 searching = ⟨2#32, 0#32, 4#32, 0#32⟩ := by
        rw [feedResults, wcnt_setWidth (by omega), hfour]
        simp [searching, d, hs, flagAt, results, wrap32]
      rw [if_pos hs, hdab, hloss, hresults, succeed_eq_doneWith]
      rfl

end Sys2Proof.Machine
end

section
/-! PROOFS. The puncturing mask, and VIT_DECODE behind its checks (spec file 45, R383-R388). -/

namespace Sys2Proof.Machine

set_option Elab.async false

/-! ### Bits of numbers -/

/-- A bit of a number, counted from the most significant of `n`. -/
theorem getD_bitsMsb (n v : Nat) : ∀ q, q < n → (bitsMsb n v).getD q false = v.testBit (n - 1 - q) := by
  induction n with
  | zero => intro q hq; omega
  | succ n ih =>
    intro q hq
    cases q with
    | zero => rw [bitsMsb, List.getD_cons_zero, Nat.testBit_eq_decide_div_mod_eq]; rfl
    | succ q =>
      rw [bitsMsb, List.getD_cons_succ, ih q (by omega)]
      congr 1
      omega

/-- The highest of the bits that are counted, taken apart (R9). -/
theorem popcount_succ_top (n : Nat) : ∀ v, popcount (n + 1) v = v / 2 ^ n % 2 + popcount n v := by
  induction n with
  | zero => intro v; simp [popcount]
  | succ n ih =>
    intro v
    rw [popcount, ih, popcount, Nat.div_div_eq_div_mul, ← Nat.pow_succ', Nat.succ_eq_add_one]
    omega

/-- The 1 bits of a number are those of its bits (R9). -/
theorem count_bitsMsb (n v : Nat) : (bitsMsb n v).count true = popcount n v := by
  induction n with
  | zero => rfl
  | succ n ih =>
    rw [popcount_succ_top, bitsMsb, List.count_cons, ih]
    rcases Nat.mod_two_eq_zero_or_one (v / 2 ^ n) with hbit | hbit <;> simp [hbit, Nat.add_comm]

/-- A copy of a block, read by its place in the block. -/
theorem getD_flatten_replicate {α : Type} (l : List α) (d : α) {q : Nat} (hq : q < l.length) (k : Nat) :
    ∀ b, b < k → (List.replicate k l).flatten.getD (l.length * b + q) d = l.getD q d := by
  induction k with
  | zero => intro b hb; omega
  | succ k ih =>
    intro b hb
    rw [List.replicate_succ, List.flatten_cons]
    cases b with
    | zero => rw [Nat.mul_zero, Nat.zero_add, List.getD_append _ _ _ _ hq]
    | succ b =>
      have hplace : l.length * (b + 1) + q = l.length + (l.length * b + q) := by ring
      rw [hplace, List.getD_append_right _ _ _ _ (Nat.le_add_right _ _), Nat.add_sub_cancel_left, ih b (by omega)]

/-! ### The profile registers -/

/-- The fields of a profile register, by their bits (R50, R383). -/
theorem segmentOf_eq (w : BitVec 24) :
    segmentOf w = ⟨(w.extractLsb' 0 8).toNat, (w.extractLsb' 8 8).toNat, (w.extractLsb' 16 8).toInt⟩ := by
  have hidx : w.toNat % 256 = (w.extractLsb' 0 8).toNat := by simp
  have ha : w.toNat / 256 % 256 = (w.extractLsb' 8 8).toNat := by simp [Nat.shiftRight_eq_div_pow]
  rw [segmentOf, hidx, ha]

section Mask

variable (v : Vit) (g : Segment) (n : Nat)

@[simp] theorem length_blockMask (pi : Word) : (blockMask pi).length = 128 := by simp [blockMask]

@[simp] theorem length_segmentMask : (segmentMask v g n).length = 128 * (blocks g n).toNat := by
  simp [segmentMask, Nat.mul_comm]

/-- A block's mask is the puncturing vector, most significant bit first, four times (R384). -/
theorem getD_blockMask (pi : Word) {q : Nat} (hq : q < 128) : (blockMask pi).getD q false = pi.getLsbD (31 - q % 32) := by
  have hmod : q % 32 < 32 := Nat.mod_lt _ (by decide)
  have hplace : q = (bitsMsb 32 pi.toNat).length * (q / 32) + q % 32 := by rw [length_bitsMsb, Nat.div_add_mod]
  rw [blockMask]
  conv_lhs => rw [hplace]
  rw [getD_flatten_replicate _ _ (by simpa using hmod) 4 _ (by omega), getD_bitsMsb _ _ _ hmod]
  rfl

/-- A segment's mask is its block's mask, once for each block (R384). -/
theorem getD_segmentMask {b q : Nat} (hb : b < (blocks g n).toNat) (hq : q < 128) :
    (segmentMask v g n).getD (128 * b + q) false = (piVector v g.idx).getLsbD (31 - q % 32) := by
  have := getD_flatten_replicate (blockMask (piVector v g.idx)) false (q := q) (by simpa using hq) (blocks g n).toNat b hb
  rw [length_blockMask] at this
  rw [segmentMask, this, getD_blockMask _ hq]

/-- A segment transmits as many bits as its mask says (R384). -/
theorem count_segmentMask : (segmentMask v g n).count true = segmentSent v g n := by
  simp only [segmentMask, blockMask, segmentSent, List.count_flatten, List.map_replicate, List.sum_replicate, count_bitsMsb,
    smul_eq_mul]
  ring

/-- The puncturing vector of a legal index (R384). -/
theorem piVector_of_pos {idx : Nat} (h : 1 ≤ idx) : piVector v idx = v.pi.toList.getD (idx - 1) 0#32 :=
  if_neg (by omega)

end Mask

/-! ### Puncturing and depuncturing -/

@[simp] theorem length_depuncture : ∀ (mask : List Bool) (xs : List Int), (depuncture mask xs).length = mask.length
  | [], _ => rfl
  | true :: mask, _ :: xs => congrArg (· + 1) (length_depuncture mask xs)
  | true :: mask, [] => congrArg (· + 1) (length_depuncture mask [])
  | false :: mask, xs => congrArg (· + 1) (length_depuncture mask xs)

/-- Puncturing undoes depuncturing, of as many values as the mask transmits (R385). -/
theorem puncture_depuncture : ∀ (mask : List Bool) (xs : List Int), xs.length = mask.count true →
    puncture mask (depuncture mask xs) = xs
  | [], xs, h => (List.length_eq_zero_iff.1 h).symm
  | true :: mask, x :: xs, h => by
    rw [depuncture, puncture, puncture_depuncture mask xs (by simpa using h)]
  | true :: mask, [], h => by simp at h
  | false :: mask, xs, h => by
    rw [depuncture, puncture, puncture_depuncture mask xs (by simpa using h)]

/-- Settles O57: the mask read by place, the two segments and the tail one after the other. -/
theorem punctureMask_spec : Obligations.PunctureMask := by
  intro v level n reg idx count pi h0 h1 l0 l1 mask
  have hseg (h : Fin 2) : segment v level h.val = ⟨idx h, ((reg h).extractLsb' 8 8).toNat, ((reg h).extractLsb' 16 8).toInt⟩ :=
    segmentOf_eq (reg h)
  have hcount (h : Fin 2) : blocks (segment v level h.val) n = count h := by rw [hseg]; rfl
  have hidx (h : Fin 2) : (segment v level h.val).idx = idx h := by rw [hseg]
  have hl0 : (blocks (segment v level 0) n).toNat = l0 := congrArg Int.toNat (hcount 0)
  have hl1 : (blocks (segment v level 1) n).toNat = l1 := congrArg Int.toNat (hcount 1)
  have hlen0 : (segmentMask v (segment v level 0) n).length = 128 * l0 := by rw [length_segmentMask, hl0]
  have hlen1 : (segmentMask v (segment v level 1) n).length = 128 * l1 := by rw [length_segmentMask, hl1]
  have htotal : totalBlocks v level n = l0 + l1 := by
    rw [totalBlocks, show blocks (segment v level 0) n = count 0 from hcount 0, show blocks (segment v level 1) n = count 1 from hcount 1]
    omega
  have hmask : mask = segmentMask v (segment v level 0) n ++ segmentMask v (segment v level 1) n ++ bitsMsb 24 v.tail.toNat := rfl
  have hlength : mask.length = 4 * (32 * (l0 + l1) + 6) := by
    rw [hmask, List.length_append, List.length_append, hlen0, hlen1, length_bitsMsb]
    ring
  have htransmitted : mask.count true = transmitted v level n := by
    rw [hmask, List.count_append, List.count_append, count_segmentMask, count_segmentMask, count_bitsMsb]
    rfl
  refine ⟨htotal, hlength, fun hlow _ b q hb hq => ?_, fun hlow _ b q hb hq => ?_, fun q hq => ?_, htransmitted, fun xs hxs => ?_⟩
  · rw [hmask, List.append_assoc, List.getD_append _ _ _ _ (by omega), getD_segmentMask _ _ _ (by omega) hq, show (segment v level 0).idx = idx 0 from hidx 0,
      piVector_of_pos v hlow]
  · rw [hmask, List.append_assoc, List.getD_append_right _ _ _ _ (by omega), List.getD_append _ _ _ _ (by omega), hlen0,
      show 128 * (l0 + b) + q - 128 * l0 = 128 * b + q by omega, getD_segmentMask _ _ _ (by omega) hq, show (segment v level 1).idx = idx 1 from hidx 1,
      piVector_of_pos v hlow]
  · rw [hmask, List.getD_append_right _ _ _ _ (by rw [List.length_append]; omega), List.length_append, hlen0, hlen1,
      show 128 * (l0 + l1) + q - (128 * l0 + 128 * l1) = q by omega, getD_bitsMsb _ _ _ hq]
    rfl
  · exact ⟨length_depuncture mask xs, puncture_depuncture mask xs (hxs.trans htransmitted.symm)⟩

/-! ### VIT_DECODE -/

/-- No polynomial is loaded when all four registers are 0 (R381, R388). -/
theorem polysOf_all_zero_iff (v : Vit) : (polysOf v).all (fun p => p == 0) = true ↔ ∀ j : Fin 4, v.poly[j] = 0#7 := by
  have hzero (p : BitVec 7) : p.toNat = 0 ↔ p = 0#7 := by
    rw [← BitVec.toNat_inj]
    rfl
  simp only [polysOf, List.all_map, List.all_eq_true, Function.comp, beq_iff_eq, hzero, Vector.mem_toList_iff, Vector.mem_iff_getElem]
  constructor
  · exact fun h j => h _ ⟨j.val, j.isLt, rfl⟩
  · rintro h p ⟨j, hj, rfl⟩
    exact h ⟨j, hj⟩

/-- A segment is illegal with a negative count, or with blocks and no vector for them (R388 check 2). -/
theorem segmentBad_iff (g : Segment) (n : Nat) :
    segmentBad g n = true ↔ blocks g n < 0 ∨ (0 < blocks g n ∧ ¬ (1 ≤ g.idx ∧ g.idx ≤ 24)) := by
  simp only [segmentBad, Bool.or_eq_true, Bool.and_eq_true, decide_eq_true_iff, Bool.not_eq_true', ← Bool.not_eq_true]

/-- Settles O54: VIT_DECODE's checks in order, with the fields of the profile registers by their bits. -/
theorem vitDecodeErrors : Obligations.VitDecodeErrors := by
  intro s sel hlow hhigh n reg idx count illegal offset t run
  have hseg (h : Fin 2) : segment s.vit sel.toNat h.val =
      ⟨idx h, ((reg h).extractLsb' 8 8).toNat, ((reg h).extractLsb' 16 8).toInt⟩ := segmentOf_eq (reg h)
  have hcount (h : Fin 2) : blocks (segment s.vit sel.toNat h.val) n = count h := by rw [hseg]; rfl
  have hbad (h : Fin 2) : segmentBad (segment s.vit sel.toNat h.val) n = true ↔ illegal h := by
    rw [segmentBad_iff, hcount, hseg]
  have hbad0 : segmentBad (segment s.vit sel.toNat 0) n = true ↔ illegal 0 := hbad 0
  have hbad1 : segmentBad (segment s.vit sel.toNat 1) n = true ↔ illegal 1 := hbad 1
  have htotal : totalBlocks s.vit sel.toNat n = (count 0 + count 1).toNat := by
    rw [← hcount 0, ← hcount 1]
    rfl
  have hrun {code : ErrCode} {info : Word} (hcheck : vitDecodeCheck sel.toNat s = some ⟨code, info⟩) :
      run = .next (failedWith s (errNumber code) info) :=
    exec_of_errorRecord (i := .vitDecode sel) (r := (errNumber code, info)) ((Instr.wf_iff _).2 ⟨hlow, hhigh⟩)
      (congrArg (Option.map errorRecord) hcheck)
  refine ⟨fun hpolys => hrun (if_pos ((polysOf_all_zero_iff s.vit).2 hpolys)), fun hpolys => ?_⟩
  have hloaded : ¬ (polysOf s.vit).all (fun p => p == 0) = true := (polysOf_all_zero_iff s.vit).not.2 hpolys
  refine ⟨?first, ?second, ?empty, ?rest⟩
  case first => exact fun h0 => hrun (code := .badConfig) (info := offset 0) (by
    rw [vitDecodeCheck, if_neg hloaded, if_pos (hbad0.2 h0)]
    rfl)
  case second =>
    exact fun h0 h1 => hrun (code := .badConfig) (info := offset 1) (by
      rw [vitDecodeCheck, if_neg hloaded, if_neg (hbad0.not.2 h0), if_pos (hbad1.2 h1)]
      rfl)
  case empty =>
    intro h0 h1 hempty
    have hzero : totalBlocks s.vit sel.toNat n = 0 := by rw [htotal, hempty]; rfl
    exact hrun (code := .badConfig) (info := offset 0) (by
      rw [vitDecodeCheck, if_neg hloaded, if_neg (hbad0.not.2 h0), if_neg (hbad1.not.2 h1), if_pos hzero]
      rfl)
  case rest =>
    intro h0 h1 hsome
    have hpos0 : 0 ≤ count 0 := Int.not_lt.1 fun h => h0 (.inl h)
    have hpos1 : 0 ≤ count 1 := Int.not_lt.1 fun h => h1 (.inl h)
    have hnonzero : ¬ totalBlocks s.vit sel.toNat n = 0 := by omega
    have hchecks : vitDecodeCheck sel.toNat s =
        if arg3 s < t then some ⟨.badLength, if t < 2 ^ 32 then wrap32 t else 0xFFFFFFFF#32⟩
        else if ¬ regionOk (arg0 s) t then some ⟨.addrRange, s.snap.r0⟩
        else if ¬ regionOk (arg2 s) (4 * totalBlocks s.vit sel.toNat n) then some ⟨.addrRange, s.snap.r2⟩
        else none := by
      rw [vitDecodeCheck, if_neg hloaded, if_neg (hbad0.not.2 h0), if_neg (hbad1.not.2 h1), if_neg hnonzero]
    simp only [not_regionOk_iff] at hchecks
    refine ⟨fun hshort => ?_, fun hroom hsrc => ?_, fun hroom hsrc hdst => ?_⟩
    · exact hrun (hchecks.trans (if_pos hshort))
    · exact hrun (by rw [hchecks, if_neg (by omega), if_pos hsrc])
    · exact hrun (by rw [hchecks, if_neg (by omega), if_neg (by omega), if_pos (by omega)])

/-- A bit of the value of eight bits, the first one most significant (R388). -/
theorem getMsbD_msbValue (bs : List Bool) (hlength : bs.length = 8) {b : Nat} (hb : b < 8) :
    (BitVec.ofNat 8 (msbValue bs)).getMsbD b = bs.getD b false := by
  obtain ⟨b0, b1, b2, b3, b4, b5, b6, b7, rfl⟩ :
      ∃ b0 b1 b2 b3 b4 b5 b6 b7, bs = [b0, b1, b2, b3, b4, b5, b6, b7] := by
    match bs, hlength with
    | [b0, b1, b2, b3, b4, b5, b6, b7], _ => exact ⟨b0, b1, b2, b3, b4, b5, b6, b7, rfl⟩
  clear hlength
  have hall : ∀ b0 b1 b2 b3 b4 b5 b6 b7 : Bool, ∀ b : Fin 8,
      (BitVec.ofNat 8 (msbValue [b0, b1, b2, b3, b4, b5, b6, b7])).getMsbD b.val =
        [b0, b1, b2, b3, b4, b5, b6, b7].getD b.val false := by decide +kernel
  exact hall b0 b1 b2 b3 b4 b5 b6 b7 ⟨b, hb⟩

@[simp] theorem length_packBits (bits : List Bool) : (packBits bits).length = bits.length / 8 := by simp [packBits]

/-- A bit of the packed bytes is the decoded bit of that place (R103, R388). -/
theorem getMsbD_packBits {bits : List Bool} {i b : Nat} (hi : i < (packBits bits).length) (hb : b < 8) :
    ((packBits bits)[i]).getMsbD b = bits.getD (8 * i + b) false := by
  have hbyte : i * 8 + 8 ≤ bits.length := by
    rw [length_packBits] at hi
    omega
  have hpiece : (packBits bits)[i] = BitVec.ofNat 8 (msbValue ((bits.drop (i * 8)).take 8)) := by
    simp [packBits, pieces_eq_map]
  rw [hpiece, getMsbD_msbValue _ (by simp; omega) hb, List.getD_eq_getElem?_getD, List.getD_eq_getElem?_getD,
    List.getElem?_take_of_lt hb, List.getElem?_drop, Nat.mul_comm]

/-- A traceback has a bit for every step (R386). -/
@[simp] theorem length_traceback (ds : List (List Bool)) : ∀ st, (traceback st ds).length = ds.length := by
  induction ds with
  | nil => exact fun _ => rfl
  | cons d ds ih => exact fun st => congrArg (· + 1) (ih _)

/-- The forward pass makes a decision for every group (R386). -/
theorem length_forward (table : List (List Bool)) (groups : List (List Int)) : ∀ ms ds info,
    (forward table ms ds info groups).2.length = ds.length + groups.length := by
  induction groups with
  | nil => exact fun _ _ _ => rfl
  | cons vs groups ih =>
    intro ms ds info
    rw [forward, ih, List.length_cons, List.length_cons]
    omega

/-- The decoder answers as many bits as it is asked for (R386). -/
theorem length_viterbi (polys : List Nat) (v : List Int) (info : Nat) : (viterbi polys v info).1.length = info := by
  simp [viterbi, length_forward]

/-- A soft value contradicts a coded bit when their signs differ (R387). -/
theorem disagrees_eq (v : Int) (c : Bool) : disagrees v c = decide ((0 < v ∧ c = false) ∨ (v < 0 ∧ c = true)) := by
  cases c <;> simp [disagrees]

/-- Settles O55: VIT_DECODE's effect behind its checks, its output region by bytes and bits. -/
theorem vitDecodeCompletes : Obligations.VitDecodeCompletes := by
  intro s sel hlow hhigh n level t total hpolys hgood0 hgood1 htotal hroom hsrc hdst soft mask decoded sent errors
  have hcheck : checkOf (.vitDecode sel) s = none := by
    show vitDecodeCheck sel.toNat s = none
    rw [vitDecodeCheck, if_neg ((polysOf_all_zero_iff s.vit).not.2 hpolys), if_neg (Bool.eq_false_iff.1 hgood0),
      if_neg (Bool.eq_false_iff.1 hgood1), if_neg htotal, if_neg (Nat.not_lt.2 hroom),
      if_neg (not_not.2 ((regionOk_iff _ _).2 hsrc)), if_neg (not_not.2 ((regionOk_iff _ _).2 hdst))]
  have hlength : decoded.1.length = 32 * total := length_viterbi ..
  have hpacked : (packBits decoded.1).length = 4 * total := by rw [length_packBits, hlength]; omega
  have herrors : errorCount soft sent = errors := by
    unfold errorCount
    simp only [errors, ← disagrees_eq]
  have heffect : effectOf (.vitDecode sel) s = ⟨{ s with buf := s.buf.write (arg2 s) (packBits decoded.1) },
      ⟨BitVec.ofNat 32 (32 * total), BitVec.ofNat 32 errors, BitVec.ofNat 32 t, BitVec.ofInt 32 decoded.2⟩, 0#9⟩ := by
    rw [← herrors]
    simp only [effectOf, vitDecodeEffect, bytes_eq_bytesAt]
    rfl
  refine ⟨_, exec_of_pass ((Instr.wf_iff _).2 ⟨hlow, hhigh⟩) hcheck, hlength, fun i hi b hb => ?_, fun a ha => ?_, ?_⟩
  · have hi' : i < (packBits decoded.1).length := by omega
    rw [heffect, succeed_buf, read_write_inside _ _ _ i hi', getMsbD_packBits hi' hb]
  · rw [heffect, succeed_buf, read_write_outside _ _ _ a (by omega)]
  · rw [heffect, succeed_eq_doneWith]
    rfl

end Sys2Proof.Machine
end

section
/-! PROOFS. The mother sequence by its bits, and the decoder's survivors: it is a maximum-likelihood decoder (spec file 45, R381, R382,
R386). -/

namespace Sys2Proof.Machine

set_option Elab.async false

/-! ### The encoder -/

/-- The encoder's state after the bits of a list (R382). -/
def endState : Nat → List Bool → Nat
  | st, [] => st
  | st, u :: us => endState ((u.toNat * 64 + st) / 2) us

theorem endState_append (us ws : List Bool) : ∀ st, endState st (us ++ ws) = endState (endState st us) ws := by
  induction us with
  | nil => exact fun _ => rfl
  | cons u us ih => exact fun st => ih _

theorem endState_concat (st : Nat) (us : List Bool) (u : Bool) :
    endState st (us ++ [u]) = (u.toNat * 64 + endState st us) / 2 := endState_append us [u] st

theorem endState_lt (us : List Bool) : ∀ {st}, st < 64 → endState st us < 64 := by
  induction us with
  | nil => exact fun h => h
  | cons u us ih =>
    intro st h
    have := u.toNat_le
    exact ih (by omega)

section Encoder

variable {polys : List Nat}

theorem encodeBits_append (us ws : List Bool) : ∀ st,
    encodeBits polys st (us ++ ws) = encodeBits polys st us ++ encodeBits polys (endState st us) ws := by
  induction us with
  | nil => exact fun _ => rfl
  | cons u us ih =>
    intro st
    rw [List.cons_append, encodeBits, encodeBits, ih, List.append_assoc]
    rfl

theorem encodeBits_concat (us : List Bool) (u : Bool) (st : Nat) :
    encodeBits polys st (us ++ [u]) = encodeBits polys st us ++ motherBits polys (u.toNat * 64 + endState st us) := by
  rw [encodeBits_append, encodeBits, encodeBits, List.append_nil]

theorem length_motherBits (sr : Nat) : (motherBits polys sr).length = polys.length := List.length_map _

variable (hpolys : polys.length = 4)
include hpolys

/-- Four bits for every bit that goes in (R382). -/
theorem length_encodeBits (us : List Bool) : ∀ st, (encodeBits polys st us).length = 4 * us.length := by
  induction us with
  | nil => exact fun _ => rfl
  | cons u us ih =>
    intro st
    rw [encodeBits, List.length_append, length_motherBits, hpolys, ih, List.length_cons]
    ring

theorem length_motherSequence (us : List Bool) : (motherSequence polys us).length = 4 * (us.length + 6) := by
  rw [motherSequence, length_encodeBits hpolys]
  simp

/-- The bits that one input bit gives, from the state before it (R382). -/
theorem getD_encodeBits {j : Nat} (hj : j < 4) : ∀ (us : List Bool) (t st : Nat), t < us.length →
    (encodeBits polys st us).getD (4 * t + j) false =
      (motherBits polys ((us.getD t false).toNat * 64 + endState st (us.take t))).getD j false
  | [], t, st, ht => by simp at ht
  | u :: us, 0, st, _ => by
    rw [encodeBits, Nat.mul_zero, Nat.zero_add, List.getD_append _ _ _ _ (by rw [length_motherBits]; omega)]
    rfl
  | u :: us, t + 1, st, ht => by
    have hplace : 4 * (t + 1) + j = (motherBits polys (u.toNat * 64 + st)).length + (4 * t + j) := by
      rw [length_motherBits, hpolys]
      ring
    rw [encodeBits, hplace, List.getD_append_right _ _ _ _ (Nat.le_add_right _ _), Nat.add_sub_cancel_left,
      getD_encodeBits hj us t _ (by simpa using ht)]
    rfl

end Encoder

/-- A bit of the encoder's state is the input bit of so many steps before (R382). -/
theorem testBit_endState (us : List Bool) : ∀ k, k < 6 →
    (endState 0 us).testBit k = (decide (6 - k ≤ us.length) && us.getD (us.length - (6 - k)) false) := by
  induction us using List.reverseRecOn with
  | nil =>
    intro k hk
    have : ¬ 6 - k ≤ 0 := by omega
    simp [endState, this]
  | append_singleton us u ih =>
    intro k hk
    have hstate := endState_lt us (show 0 < 64 by decide)
    have hbit : (endState 0 (us ++ [u])).testBit k = (u.toNat * 64 + endState 0 us).testBit (k + 1) := by
      rw [endState_concat, Nat.testBit_div_two]
    rw [hbit, show u.toNat * 64 = 2 ^ 6 * u.toNat by ring, Nat.testBit_two_pow_mul_add _ hstate, List.length_append,
      List.length_singleton]
    rcases Nat.lt_or_ge (k + 1) 6 with hlow | hhigh
    · rw [if_pos hlow, ih (k + 1) hlow]
      have hlast : us.length + 1 - (6 - k) = us.length - (6 - (k + 1)) := by omega
      have hsame : (6 - (k + 1) ≤ us.length) ↔ (6 - k ≤ us.length + 1) := by omega
      rw [hlast, decide_eq_decide.2 hsame]
      by_cases hin : 6 - k ≤ us.length + 1
      · rw [List.getD_append _ _ _ _ (by omega)]
      · rw [decide_eq_false hin]
        rfl
    · have hk5 : k = 5 := by omega
      subst hk5
      rw [if_neg (by decide)]
      cases u <;> simp

/-- The number of 1 bits is that of the places that hold one, from the top (R9). -/
theorem popcount_eq_length_filter (n v : Nat) :
    popcount n v = ((List.range n).filter (fun i => v.testBit (n - 1 - i))).length := by
  have hbits : bitsMsb n v = (List.range n).map (fun i => v.testBit (n - 1 - i)) := by
    refine List.ext_getElem (by simp) fun i hi _ => ?_
    have hin : i < n := by simpa using hi
    have := getD_bitsMsb n v i hin
    rw [List.getD_eq_getElem _ _ hi] at this
    simp [this]
  rw [← List.countP_eq_length_filter, ← count_bitsMsb, hbits, List.count, List.countP_map]
  exact List.countP_congr fun i _ => by simp

/-- A bit of the mother sequence is the parity of the input bits that its polynomial takes (R381, R382). -/
theorem getD_motherSequence {polys : List Nat} (hpolys : polys.length = 4) (us : List Bool) {t j : Nat} (ht : t < us.length + 6)
    (hj : j < 4) :
    (motherSequence polys us).getD (4 * t + j) false =
      decide (((List.range 7).filter
        (fun i => (polys.getD j 0).testBit (6 - i) && decide (i ≤ t) && us.getD (t - i) false)).length % 2 = 1) := by
  have hpadded (i : Nat) : (us ++ List.replicate 6 false).getD i false = us.getD i false := by
    rcases Nat.lt_or_ge i us.length with hi | hi
    · rw [List.getD_append _ _ _ _ hi]
    · rw [List.getD_append_right _ _ _ _ hi, List.getD_eq_default _ _ hi, List.getD_eq_getElem?_getD,
        List.getElem?_getD_replicate_default_eq]
  have hlength : (us ++ List.replicate 6 false).length = us.length + 6 := by simp
  have hregister (i : Nat) (hi : i < 7) :
      ((us.getD t false).toNat * 64 + endState 0 ((us ++ List.replicate 6 false).take t)).testBit (6 - i) =
        (decide (i ≤ t) && us.getD (t - i) false) := by
    have hstate := endState_lt ((us ++ List.replicate 6 false).take t) (show 0 < 64 by decide)
    have htake : ((us ++ List.replicate 6 false).take t).length = t := by rw [List.length_take]; omega
    rw [show (us.getD t false).toNat * 64 = 2 ^ 6 * (us.getD t false).toNat by ring, Nat.testBit_two_pow_mul_add _ hstate]
    cases i with
    | zero =>
      rw [if_neg (by decide)]
      cases us.getD t false <;> simp
    | succ i =>
      rw [if_pos (by omega), testBit_endState _ _ (by omega), htake, show 6 - (6 - (i + 1)) = i + 1 by omega]
      by_cases hin : i + 1 ≤ t
      · rw [decide_eq_true hin, List.getD_eq_getElem?_getD, List.getElem?_take_of_lt (by omega), ← List.getD_eq_getElem?_getD,
          hpadded]
      · rw [decide_eq_false hin]
        rfl
  have hj' : j < polys.length := by omega
  have hpoly : (motherBits polys ((us.getD t false).toNat * 64 + endState 0 ((us ++ List.replicate 6 false).take t))).getD j false =
      decide (parity 7 (((us.getD t false).toNat * 64 + endState 0 ((us ++ List.replicate 6 false).take t)) &&& polys.getD j 0) = 1) := by
    simp [motherBits, List.getD_eq_getElem?_getD, hj']
  rw [motherSequence, getD_encodeBits hpolys hj _ t 0 (by omega), hpadded, hpoly, parity, popcount_eq_length_filter]
  have hfilter : (List.range 7).filter (fun i =>
      (((us.getD t false).toNat * 64 + endState 0 ((us ++ List.replicate 6 false).take t)) &&& polys.getD j 0).testBit (7 - 1 - i)) =
      (List.range 7).filter (fun i => (polys.getD j 0).testBit (6 - i) && decide (i ≤ t) && us.getD (t - i) false) := by
    refine List.filter_congr fun i hi => ?_
    rw [Nat.testBit_and, show 7 - 1 - i = 6 - i by omega, hregister i (List.mem_range.1 hi), Bool.and_comm, Bool.and_assoc]
  rw [hfilter]

/-! ### Path metrics -/

theorem correlate_append {vs ws : List Int} {bs cs : List Bool} (h : vs.length = bs.length) :
    correlate (vs ++ ws) (bs ++ cs) = correlate vs bs + correlate ws cs := by
  rw [correlate, List.zipWith_append h, List.sum_append]
  rfl

/-- A correlation, place by place (R386). -/
theorem correlate_eq_sum {n : Nat} {vs : List Int} {bs : List Bool} (hvs : vs.length = n) (hbs : bs.length = n) :
    correlate vs bs = ((List.range n).map (fun p => vs.getD p 0 * if bs.getD p false then 1 else -1)).sum := by
  have hterms : List.zipWith (fun v b => v * signOf b) vs bs =
      (List.range n).map (fun p => vs.getD p 0 * if bs.getD p false then 1 else -1) := by
    refine List.ext_getElem (by simp [hvs, hbs]) fun p hp _ => ?_
    have hp' : p < n := by simpa [hvs, hbs] using hp
    simp [signOf, List.getD_eq_getElem?_getD, List.getElem?_eq_getElem (show p < vs.length by omega),
      List.getElem?_eq_getElem (show p < bs.length by omega)]
  rw [correlate, hterms]

/-- The correlation of the soft values, in groups of four, with the bits that an input gives (R386). -/
def pathMetric (polys : List Nat) (groups : List (List Int)) (us : List Bool) : Int :=
  correlate groups.flatten (encodeBits polys 0 us)

/-- One more input bit adds its branch metric (R386). -/
theorem pathMetric_concat {polys : List Nat} (hpolys : polys.length = 4) {groups : List (List Int)}
    (hgroups : ∀ g, g ∈ groups → g.length = 4) {us : List Bool} (hus : us.length = groups.length) (vs : List Int) (u : Bool) :
    pathMetric polys (groups ++ [vs]) (us ++ [u]) =
      pathMetric polys groups us + correlate vs (motherBits polys (u.toNat * 64 + endState 0 us)) := by
  have hlength : groups.flatten.length = (encodeBits polys 0 us).length := by
    rw [length_flatten_of_forall hgroups, length_encodeBits hpolys, hus, Nat.mul_comm]
  rw [pathMetric, encodeBits_concat, List.flatten_append, correlate_append hlength]
  simp [pathMetric]

/-- The input has only zeros after the first `info` bits (R386). -/
def Admissible (info : Nat) (us : List Bool) : Prop := ∀ i, info ≤ i → us.getD i false = false

theorem admissible_concat {info : Nat} {us : List Bool} {u : Bool} :
    Admissible info (us ++ [u]) ↔ Admissible info us ∧ (info ≤ us.length → u = false) := by
  constructor
  · refine fun h => ⟨fun i hi => ?_, fun hi => ?_⟩
    · rcases Nat.lt_or_ge i us.length with hin | hout
      · have := h i hi
        rwa [List.getD_append _ _ _ _ hin] at this
      · exact List.getD_eq_default _ _ hout
    · have := h us.length hi
      rwa [List.getD_append_right _ _ _ _ (Nat.le_refl _), Nat.sub_self] at this
  · rintro ⟨hus, hu⟩ i hi
    rcases Nat.lt_trichotomy i us.length with hin | rfl | hout
    · rw [List.getD_append _ _ _ _ hin]
      exact hus i hi
    · rw [List.getD_append_right _ _ _ _ (Nat.le_refl _), Nat.sub_self]
      exact hu hi
    · exact List.getD_eq_default _ _ (by simp; omega)

/-- An admissible input of the decoder's length is its information bits and six zeros (R386). -/
theorem admissible_iff {info : Nat} {us : List Bool} (hlength : us.length = info + 6) :
    Admissible info us ↔ us = us.take info ++ List.replicate 6 false := by
  constructor
  · intro h
    refine List.ext_getElem (by simp; omega) fun i hi hi' => ?_
    rcases Nat.lt_or_ge i info with hin | hout
    · rw [List.getElem_append_left (by simp; omega)]
      simp
    · rw [List.getElem_append_right (by simp; omega)]
      have := h i hout
      rw [List.getD_eq_getElem _ _ hi] at this
      rw [this, List.getElem_replicate]
  · intro h i hi
    rw [h, List.getD_append_right _ _ _ _ (by simp; omega), List.getD_eq_getElem?_getD, List.getElem?_getD_replicate_default_eq]

/-- Six zeros bring the encoder back to state 0 (R382). -/
theorem endState_tail {st : Nat} (h : st < 64) : endState st (List.replicate 6 false) = 0 := by
  simp only [List.replicate, endState, Bool.toNat_false]
  omega

/-! ### The survivors -/

/-- What add-compare-select keeps: one of the two extensions, by its decision (R386). -/
theorem acs_sound {table : List (List Bool)} {ms : List Metric} {vs : List Int} {tail : Bool} {succ : Nat} {m : Int} (hsucc : succ < 64)
    (h : (acs table ms vs tail succ).1 = some m) :
    (tail = true → succ / 32 = 0) ∧ ∃ m0,
      ms.getD (succ % 32 * 2 + (acs table ms vs tail succ).2.toNat) none = some m0 ∧
      m = m0 + correlate vs (table.getD (succ / 32 * 64 + (succ % 32 * 2 + (acs table ms vs tail succ).2.toNat)) []) := by
  unfold acs at h ⊢
  dsimp only at h ⊢
  split at h
  · cases h
  · rename_i hfree
    rw [if_neg hfree]
    refine ⟨fun ht => ?_, ?_⟩
    · simp [ht] at hfree
      omega
    · split at h <;> rename_i hwin
      · rw [if_pos hwin]
        obtain ⟨m0, hm0, hm⟩ := Option.map_eq_some_iff.1 h
        exact ⟨m0, hm0, hm.symm⟩
      · rw [if_neg hwin]
        obtain ⟨m0, hm0, hm⟩ := Option.map_eq_some_iff.1 h
        exact ⟨m0, hm0, hm.symm⟩

/-- The second of two metrics wins when it is larger, or when only it is there (R386). -/
theorem secondWins_max {a b : Metric} {m : Int} (h : a = some m ∨ b = some m) :
    ∃ k, (if secondWins a b then b else a) = some k ∧ m ≤ k := by
  match a, b, h with
  | some x, some y, h =>
    simp only [secondWins, decide_eq_true_iff]
    split
    · rcases h with h | h <;> cases h
      · exact ⟨y, rfl, by omega⟩
      · exact ⟨m, rfl, le_refl m⟩
    · rcases h with h | h <;> cases h
      · exact ⟨m, rfl, le_refl m⟩
      · exact ⟨x, rfl, by omega⟩
  | some x, none, h =>
    rcases h with h | h <;> cases h
    exact ⟨m, rfl, le_refl m⟩
  | none, some y, h =>
    rcases h with h | h <;> cases h
    exact ⟨m, rfl, le_refl m⟩
  | none, none, h => rcases h with h | h <;> cases h

/-- Add-compare-select keeps at least as much as either extension that is allowed (R386). -/
theorem acs_best {table : List (List Bool)} {ms : List Metric} {vs : List Int} {tail : Bool} {succ : Nat} (b : Bool) {m0 : Int}
    (hfree : ¬ (tail = true ∧ succ / 32 = 1)) (hm0 : ms.getD (succ % 32 * 2 + b.toNat) none = some m0) :
    ∃ m, (acs table ms vs tail succ).1 = some m ∧
      m0 + correlate vs (table.getD (succ / 32 * 64 + (succ % 32 * 2 + b.toNat)) []) ≤ m := by
  have hfree' : ¬ (tail && decide (succ / 32 = 1)) = true := by simpa using hfree
  have hone : extend (ms.getD (succ % 32 * 2 + b.toNat) none)
      (correlate vs (table.getD (succ / 32 * 64 + (succ % 32 * 2 + b.toNat)) [])) =
        some (m0 + correlate vs (table.getD (succ / 32 * 64 + (succ % 32 * 2 + b.toNat)) [])) := by rw [hm0]; rfl
  have hmax := secondWins_max
    (a := extend (ms.getD (succ % 32 * 2) none) (correlate vs (table.getD (succ / 32 * 64 + succ % 32 * 2) [])))
    (b := extend (ms.getD (succ % 32 * 2 + 1) none) (correlate vs (table.getD (succ / 32 * 64 + succ % 32 * 2 + 1) [])))
    (m := m0 + correlate vs (table.getD (succ / 32 * 64 + (succ % 32 * 2 + b.toNat)) []))
    (by cases b with
      | false => exact .inl hone
      | true => exact .inr hone)
  obtain ⟨k, hk, hle⟩ := hmax
  refine ⟨k, ?_, hle⟩
  rw [← hk]
  unfold acs
  dsimp only
  rw [if_neg hfree']
  split <;> rfl

/-- The branch table lists the mother bits of every register value (R386). -/
theorem getD_branchTable (polys : List Nat) {sr : Nat} (h : sr < 128) : (branchTable polys).getD sr [] = motherBits polys sr := by
  simp [branchTable, List.getD_eq_getElem?_getD, h]

/-- After the forward pass over some groups: every metric is that of the path traced back from its state, which is admissible and
ends there, and no admissible path has a larger one (R386). -/
structure Survivors (polys : List Nat) (info : Nat) (groups : List (List Int)) (ms : List Metric) (ds : List (List Bool)) :
    Prop where
  depth : ds.length = groups.length
  sound : ∀ st m, st < 64 → ms.getD st none = some m →
    Admissible info (traceback st ds).reverse ∧ endState 0 (traceback st ds).reverse = st ∧
    pathMetric polys groups (traceback st ds).reverse = m
  best : ∀ us : List Bool, us.length = groups.length → Admissible info us →
    ∃ m, ms.getD (endState 0 us) none = some m ∧ pathMetric polys groups us ≤ m

/-- Before the first step only state 0 is reached, by the empty path (R386). -/
theorem survivors_start (polys : List Nat) (info : Nat) : Survivors polys info [] startMetrics [] where
  depth := rfl
  sound st m hst hm := by
    cases st with
    | zero =>
      cases hm
      exact ⟨fun i _ => rfl, rfl, rfl⟩
    | succ st =>
      have hnone : startMetrics.getD (st + 1) none = none := by
        rw [startMetrics, List.getD_cons_succ, List.getD_eq_getElem?_getD, List.getElem?_getD_replicate_default_eq]
      rw [hnone] at hm
      cases hm
  best us hus _ := by
    rw [List.length_eq_zero_iff.1 hus]
    exact ⟨0, rfl, le_refl 0⟩

section Step

variable {polys : List Nat} {info : Nat} {groups : List (List Int)} {ms : List Metric} {ds : List (List Bool)}

theorem getD_acsAll_metric (table : List (List Bool)) (ms : List Metric) (vs : List Int) (tail : Bool) {succ : Nat}
    (h : succ < 64) : ((acsAll table ms vs tail).map (fun p => p.1)).getD succ none = (acs table ms vs tail succ).1 := by
  simp [acsAll, List.getD_eq_getElem?_getD, h]

theorem getD_acsAll_decision (table : List (List Bool)) (ms : List Metric) (vs : List Int) (tail : Bool) {succ : Nat}
    (h : succ < 64) : ((acsAll table ms vs tail).map (fun p => p.2)).getD succ false = (acs table ms vs tail succ).2 := by
  simp [acsAll, List.getD_eq_getElem?_getD, h]

variable (hpolys : polys.length = 4) (hgroups : ∀ g, g ∈ groups → g.length = 4)
include hpolys hgroups

/-- A trellis step keeps survivors (R386). -/
theorem Survivors.step (h : Survivors polys info groups ms ds) (vs : List Int) {tail : Bool}
    (htail : tail = true ↔ info ≤ groups.length) :
    Survivors polys info (groups ++ [vs]) ((acsAll (branchTable polys) ms vs tail).map (fun p => p.1))
      ((acsAll (branchTable polys) ms vs tail).map (fun p => p.2) :: ds) where
  depth := by simp [h.depth]
  sound succ m hsucc hm := by
    rw [getD_acsAll_metric _ _ _ _ hsucc] at hm
    obtain ⟨hinput, m0, hm0, hsum⟩ := acs_sound hsucc hm
    rw [traceback, getD_acsAll_decision _ _ _ _ hsucc, List.reverse_cons]
    generalize hb : (acs (branchTable polys) ms vs tail succ).2 = b at hm0 hsum ⊢
    have hbit := b.toNat_le
    have hprev : succ % 32 * 2 + b.toNat < 64 := by omega
    obtain ⟨hadm, hend, hmetric⟩ := h.sound _ m0 hprev hm0
    have hlength : (traceback (succ % 32 * 2 + b.toNat) ds).reverse.length = groups.length := by simp [h.depth]
    have hu : (decide (succ / 32 = 1)).toNat = succ / 32 := by
      rcases (show succ / 32 = 0 ∨ succ / 32 = 1 by omega) with hzero | hone
      · rw [hzero]; rfl
      · rw [hone]; rfl
    refine ⟨admissible_concat.2 ⟨hadm, fun hi => ?_⟩, ?_, ?_⟩
    · rw [hlength] at hi
      rw [hinput (htail.2 hi)]
      rfl
    · rw [endState_concat, hend, hu]
      omega
    · rw [pathMetric_concat hpolys hgroups hlength, hmetric, hend, hu, hsum, getD_branchTable _ (by omega)]
  best us hus hadm := by
    have hne : us ≠ [] := by
      rintro rfl
      simp at hus
    obtain ⟨ws, u, rfl⟩ : ∃ ws u, us = ws ++ [u] := ⟨us.dropLast, us.getLast hne, (List.dropLast_append_getLast hne).symm⟩
    have hws : ws.length = groups.length := by simpa using hus
    obtain ⟨hadm', hlast⟩ := admissible_concat.1 hadm
    obtain ⟨m0, hm0, hle⟩ := h.best ws hws hadm'
    have hstate := endState_lt ws (show 0 < 64 by decide)
    have hu := u.toNat_le
    rw [endState_concat, pathMetric_concat hpolys hgroups hws]
    generalize endState 0 ws = st at hm0 hstate ⊢
    have hbit : (decide (st % 2 = 1)).toNat = st % 2 := by
      rcases Nat.mod_two_eq_zero_or_one st with hzero | hone
      · rw [hzero]; rfl
      · rw [hone]; rfl
    have hprev : (u.toNat * 64 + st) / 2 % 32 * 2 + (decide (st % 2 = 1)).toNat = st := by omega
    have hinput : (u.toNat * 64 + st) / 2 / 32 = u.toNat := by omega
    obtain ⟨m, hm, hmax⟩ := acs_best (table := branchTable polys) (vs := vs) (tail := tail) (succ := (u.toNat * 64 + st) / 2)
      (decide (st % 2 = 1)) (m0 := m0)
      (by
        rintro ⟨ht, hone⟩
        rw [hinput, hlast (by rw [hws]; exact htail.1 ht)] at hone
        cases hone)
      (by rw [hprev]; exact hm0)
    rw [hprev, hinput, getD_branchTable _ (by omega)] at hmax
    refine ⟨m, ?_, by omega⟩
    rw [getD_acsAll_metric _ _ _ _ (by omega), hm]

omit hgroups in
/-- The forward pass keeps survivors (R386). -/
theorem Survivors.forward (rest : List (List Int)) : ∀ {groups : List (List Int)} {ms ds},
    (∀ g, g ∈ groups ++ rest → g.length = 4) → Survivors polys info groups ms ds →
    Survivors polys info (groups ++ rest) (forward (branchTable polys) ms ds (info - groups.length) rest).1
      (forward (branchTable polys) ms ds (info - groups.length) rest).2 := by
  induction rest with
  | nil =>
    intro groups ms ds _ h
    rwa [List.append_nil]
  | cons vs rest ih =>
    intro groups ms ds hlengths h
    have hstep := h.step hpolys (fun g hg => hlengths g (List.mem_append_left _ hg)) vs
      (tail := decide (info - groups.length = 0)) (by rw [decide_eq_true_iff, Nat.sub_eq_zero_iff_le])
    have hrest := ih (groups := groups ++ [vs]) (by simpa using hlengths) hstep
    rw [List.append_assoc, List.singleton_append, List.length_append, List.length_singleton, ← Nat.sub_sub] at hrest
    exact hrest

end Step

/-- The pieces of a list that they cut whole make it up again. -/
theorem flatten_pieces {α : Type} (n k : Nat) : ∀ xs : List α, xs.length = n * k → (pieces n k xs).flatten = xs := by
  induction k with
  | zero => exact fun xs h => (List.length_eq_zero_iff.1 (by simpa using h)).symm
  | succ k ih =>
    intro xs h
    rw [Nat.mul_succ] at h
    rw [pieces, List.flatten_cons, ih _ (by rw [List.length_drop]; omega), List.take_append_drop]

/-- Every piece of a list that they cut whole is whole. -/
theorem length_of_mem_pieces {α : Type} (n k : Nat) : ∀ xs : List α, xs.length = n * k → ∀ g, g ∈ pieces n k xs → g.length = n := by
  induction k with
  | zero => intro xs _ g hg; cases hg
  | succ k ih =>
    intro xs h g hg
    rw [Nat.mul_succ] at h
    rcases List.mem_cons.1 hg with rfl | hg
    · rw [List.length_take]
      omega
    · exact ih _ (by rw [List.length_drop]; omega) g hg

/-- Settles O56: the survivor of state 0 after the tail is the path the decoder answers, and none is better. -/
theorem viterbiOptimal : Obligations.ViterbiOptimal := by
  intro polys v info hpolys hv answer correlation
  have hflat : (pieces 4 (info + 6) v).flatten = v := flatten_pieces 4 (info + 6) v hv
  have hsurvive := Survivors.forward (info := info) hpolys (pieces 4 (info + 6) v) (groups := [])
    (length_of_mem_pieces 4 (info + 6) v hv) (survivors_start polys info)
  rw [List.nil_append, List.length_nil, Nat.sub_zero] at hsurvive
  have hcorrelation (u : List Bool) (hu : u.length = info) :
      correlation u = pathMetric polys (pieces 4 (info + 6) v) (u ++ List.replicate 6 false) := by
    rw [pathMetric, hflat]
    exact (correlate_eq_sum hv (by rw [← hu]; exact length_motherSequence hpolys u)).symm
  have hbest (u : List Bool) (hu : u.length = info) : ∃ m,
      (forward (branchTable polys) startMetrics [] info (pieces 4 (info + 6) v)).1.getD 0 none = some m ∧ correlation u ≤ m := by
    obtain ⟨m, hm, hle⟩ := hsurvive.best (u ++ List.replicate 6 false) (by simp [hu]) (by
      rw [admissible_iff (by simp [hu]), List.take_append_of_le_length hu.ge, List.take_of_length_le hu.le])
    rw [endState_append, endState_tail (endState_lt u (by decide))] at hm
    exact ⟨m, hm, (hcorrelation u hu).trans_le hle⟩
  obtain ⟨m, hm, -⟩ := hbest (List.replicate info false) (by simp)
  obtain ⟨hadm, -, hmetric⟩ := hsurvive.sound 0 m (by decide) hm
  have hlength : answer.1.length = info := length_viterbi polys v info
  have hanswer : answer.2 = m := by
    show ((forward (branchTable polys) startMetrics [] info (pieces 4 (info + 6) v)).1.getD 0 none).getD 0 = m
    rw [hm]
    rfl
  have hpath : (traceback 0 (forward (branchTable polys) startMetrics [] info (pieces 4 (info + 6) v)).2).reverse =
      answer.1 ++ List.replicate 6 false := (admissible_iff (by simp [hsurvive.depth])).1 hadm
  refine ⟨hlength, ?_, fun u hu => ?_, fun u hu => ⟨?_, fun t j ht hj => ?_⟩⟩
  · rw [hcorrelation _ hlength, ← hpath, hmetric, hanswer]
  · obtain ⟨m', hm', hle⟩ := hbest u hu
    rw [hm] at hm'
    cases hm'
    rwa [hanswer]
  · rw [length_motherSequence hpolys, hu]
  · exact getD_motherSequence hpolys u (by omega) hj

end Sys2Proof.Machine
end

section
/-! PROOFS. The output regions of the commands, and the invariant of the block (spec files 20, 40, 42, 43 and 60, R42, R45, R48, R107,
R210, R306, R334, R411, R500, R600). -/

namespace Sys2Proof.Machine

set_option Elab.async false

/-! ### Output regions -/

/-- BUF after stores inside the regions of a list, of no other bytes (R107). -/
inductive StoresWithin (regions : List (Nat × Nat)) (m : Memory) : Memory → Prop
  | nothing : StoresWithin regions m m
  | store {n : Memory} (a len : Nat) (bs : List Byte) (hbefore : StoresWithin regions m n) (hregion : (a, len) ∈ regions)
      (hlength : bs.length ≤ len) : StoresWithin regions m (n.write a bs)

/-- A byte outside the regions reads as before (R107). -/
theorem StoresWithin.read {regions : List (Nat × Nat)} {m n : Memory} {a : Nat} (h : StoresWithin regions m n)
    (houtside : ∀ r, r ∈ regions → ¬ (r.1 ≤ a ∧ a < r.1 + r.2)) : n.read a = m.read a := by
  induction h with
  | nothing => rfl
  | store b len bs _ hregion hlength ih =>
    have hout := houtside _ hregion
    dsimp only at hout
    rw [read_write_outside _ _ _ _ (by omega), ih]

/-- Stores inside BUF keep the canonical form (R53). -/
theorem StoresWithin.wf {regions : List (Nat × Nat)} {m n : Memory} (h : StoresWithin regions m n)
    (hfits : ∀ r, r ∈ regions → r.1 + r.2 ≤ 65536) (hm : m.wf = true) : n.wf = true := by
  induction h with
  | nothing => exact hm
  | store b len bs _ hregion hlength ih =>
    have hfit := hfits _ hregion
    dsimp only at hfit
    exact wf_write _ _ _ ih (by rw [bufSize_eq]; omega)

/-- What BQ_RUN and PLL_RUN have passed of their output (R267, R273). -/
theorem legal_of_f64RunCheck {s : State} (hcheck : f64RunCheck s = none) : arg2 s + 8 * arg1 s ≤ 65536 := by
  unfold f64RunCheck at hcheck
  simp only [ite_some_eq_none, not_not, regionOk_iff] at hcheck
  exact hcheck.2.2.2.1

/-- What VIT_DECODE has passed of its output (R388). -/
theorem legal_of_vitDecodeCheck {level : Nat} {s : State} (hcheck : vitDecodeCheck level s = none) :
    arg2 s + 4 * totalBlocks s.vit level (arg1 s) ≤ 65536 := by
  unfold vitDecodeCheck at hcheck
  simp only [ite_some_eq_none, not_not, regionOk_iff] at hcheck
  exact hcheck.2.2.2.2.2.2.1

/-- What RS_DECODE has passed of its outputs (R340). -/
theorem legal_of_rsDecodeCheck {s : State} (hcheck : rsDecodeCheck s = none) :
    arg0 s + s.rs.n.toNat ≤ 65536 ∧ arg3 s + s.rs.latched.nroots.toNat ≤ 65536 := by
  unfold rsDecodeCheck at hcheck
  simp only [ite_some_eq_none, not_not, regionOk_iff] at hcheck
  obtain ⟨-, -, hword, -, hpositions, -⟩ := hcheck
  exact ⟨hword, hpositions⟩

/-- The output regions of a command that passed its checks lie in BUF (R106). -/
theorem storedRegions_fit {i : Instr} {s : State} (hfm : FmInv s.fm) (hcheck : checkOf i s = none) :
    ∀ r, r ∈ storedRegions i s → r.1 + r.2 ≤ 65536 := by
  intro r hr
  cases i with
  | fmProcess =>
    obtain ⟨hrunning, hroom, hdst⟩ := legal_of_fmProcessCheck hcheck
    rw [length_fmOutput hfm hrunning] at hroom
    rw [List.mem_singleton.1 hr]
    dsimp only
    omega
  | bqRun | pllRun =>
    rw [List.mem_singleton.1 hr]
    exact legal_of_f64RunCheck hcheck
  | dabFeed =>
    obtain ⟨-, -, -, -, -, hdst⟩ := legal_of_dabFeedCheck hcheck
    rw [List.mem_singleton.1 hr]
    exact hdst
  | rsDecode =>
    obtain ⟨hword, hpositions⟩ := legal_of_rsDecodeCheck hcheck
    rcases List.mem_cons.1 hr with rfl | hr
    · exact hword
    · rw [List.mem_singleton.1 hr]
      exact hpositions
  | vitDecode =>
    rw [List.mem_singleton.1 hr]
    exact legal_of_vitDecodeCheck hcheck
  | _ => cases hr

/-- The effect of a command that passed its checks stores inside its output regions only (R107). -/
theorem storesWithin_effectOf {i : Instr} {s : State} (hdab : DabInv s.dab) (hcheck : checkOf i s = none) :
    StoresWithin (storedRegions i s) s.buf (effectOf i s).state.buf := by
  cases i with
  | fmProcess =>
    rw [effectOf, fmProcessEffect, iqPairs_eq]
    exact .store _ _ _ .nothing (List.mem_singleton.2 rfl) (length_pcmBytes _).le
  | bqRun sel =>
    refine .store _ _ _ .nothing (List.mem_singleton.2 rfl) (le_of_eq ?_)
    rw [length_f64Bytes, length_runSamples, f64s_eq, f64sAt, List.length_map, List.length_range]
  | pllRun =>
    refine .store _ _ _ .nothing (List.mem_singleton.2 rfl) (le_of_eq ?_)
    rw [length_f64Bytes, length_runSamples, f64s_eq, f64sAt, List.length_map, List.length_range]
  | dabFeed =>
    obtain ⟨-, -, -, hwords, -, -⟩ := legal_of_dabFeedCheck hcheck
    rw [effectOf]
    rcases dabFeedEffect_cases s with ⟨-, heffect⟩ | ⟨hfull, sf, total, hvalid, heffect⟩ | ⟨-, -, heffect⟩ <;> rw [heffect]
    · exact .nothing
    · exact .store _ _ _ .nothing (List.mem_singleton.2 rfl) (length_of_accepted hdab hwords hfull hvalid).le
    · exact .nothing
  | rsDecode =>
    rw [effectOf]
    rcases rsDecodeEffect_cases s with ⟨r0, r1, heffect⟩ | ⟨cw, ps, hword, -, heffect⟩ <;> rw [heffect]
    · exact .nothing
    · have hcw : cw.length = s.rs.n.toNat := by
        rw [length_of_rsCorrect hword, receivedWord, length_symbolsOf, length_bytesAt]
      refine .store _ _ _ (.store _ _ _ .nothing (List.mem_cons_self ..) ?_) (List.mem_cons_of_mem _ (List.mem_singleton.2 rfl)) ?_
      · rw [length_bytesOf, hcw]
      · rw [length_bytesOf]
        exact length_positions_of_rsCorrect hword
  | vitDecode sel =>
    refine .store _ _ _ .nothing (List.mem_singleton.2 rfl) (le_of_eq ?_)
    rw [length_packBits, length_viterbi]
    omega
  | fmStart =>
    rw [effectOf, fmStartEffect_writes]
    exact .nothing
  | brAdd =>
    obtain ⟨rate, bytes, t0, hstate⟩ := brAddEffect_writes s
    rw [effectOf, hstate]
    exact .nothing
  | nop | fmFinish | iqPolar | bqDesign | bqClear | pllClear | dabReset | rsInit | crcCalc | crcCheck | pwrCalc | stnScore =>
    exact .nothing

/-- Settles O9: an error record leaves BUF alone, and an effect stores inside its regions. -/
theorem storedBytesOnly : Obligations.StoredBytesOnly := by
  intro i s t hinv hrun a houtside
  obtain ⟨-, -, hdab, -, -, -⟩ := hinv
  rcases exec_cases hrun with ⟨e, rfl⟩ | ⟨-, hcheck, rfl⟩
  · rw [raiseError_buf]
  · rw [succeed_buf]
    exact (storesWithin_effectOf hdab hcheck).read houtside

/-! ### The invariant and the commands -/

/-- The part of the invariant that speaks of BUF and the units: all but the error flags. -/
structure UnitsInv (s : State) : Prop where
  buf : s.buf.wf = true
  fm : FmInv s.fm
  dab : DabInv s.dab
  rs : RsInv s.rs
  fmPower : s.fm.pwr.toNat ≤ 100
  lastPower : s.diag.pwrLast.toNat ≤ 100

theorem BlockInv.units {s : State} (h : BlockInv s) : UnitsInv s := by
  obtain ⟨hbuf, hfm, hdab, hrs, -, hfmPower, hlastPower⟩ := h
  exact ⟨hbuf, hfm, hdab, hrs, hfmPower, hlastPower⟩

theorem BlockInv.errors {s : State} (h : BlockInv s) : ErrInv s := by
  obtain ⟨-, -, -, -, herr, -⟩ := h
  exact herr

theorem UnitsInv.blockInv {s : State} (h : UnitsInv s) (herr : ErrInv s) : BlockInv s :=
  ⟨h.buf, h.fm, h.dab, h.rs, herr, h.fmPower, h.lastPower⟩

/-- The stream that FM_START starts meets the invariant (R210, R211). -/
theorem streaming_fmStarted {s : State} (hcheck : fmStartCheck s = none) : Streaming (fmStarted numerics s.fm) := by
  unfold fmStartCheck at hcheck
  dsimp only at hcheck
  rw [ite_some_eq_none, ite_some_eq_none, ite_some_eq_none, not_not] at hcheck
  obtain ⟨⟨hlow, hhigh⟩, hpaths, hrate, -⟩ := hcheck
  have hfactor : (wrap32 (decimation s.fm.samplerate.toNat)).toNat = 1000000 / s.fm.samplerate.toNat + 1 := by
    have := Nat.div_le_self 1000000 s.fm.samplerate.toNat
    exact toNat_wrap32 (by unfold decimation; omega)
  have hzero : Between (-127 * ((0#32 : Word).toNat : Int)) 0#32 (128 * ((0#32 : Word).toNat : Int)) := ⟨by decide, by decide⟩
  have hprev : Between (-127) (0#32 : Word) 128 := ⟨by decide, by decide⟩
  refine ⟨hlow, hhigh, hfactor, ?_, hzero, hzero, hprev, hprev, fun hstereo => ?_, rfl, fun hemph => ?_⟩
  · exact hfactor ▸ Nat.succ_pos _
  · rw [show (fmStarted numerics s.fm).lEmph = ctrlEmph s.fm from rfl]
    rw [show (fmStarted numerics s.fm).lStereo = ctrlStereo s.fm from rfl] at hstereo
    simpa [hstereo] using hpaths
  · rw [show (fmStarted numerics s.fm).lEmph = ctrlEmph s.fm from rfl] at hemph
    rw [hemph] at hrate
    simp only [Bool.true_and, Bool.not_eq_true', Bool.not_eq_false, Bool.and_eq_true, decide_eq_true_iff] at hrate
    obtain ⟨⟨houtLow, houtHigh⟩, hratio⟩ := hrate
    have hout : (fmStarted numerics s.fm).lOutRate = s.fm.outRate := by
      show (if ctrlEmph s.fm = true then s.fm.outRate else 0#32) = s.fm.outRate
      rw [if_pos hemph]
    rw [EmphInv, hout]
    have havg : Between (-16384) (0#32 : Word) 16384 := ⟨by decide, by decide⟩
    exact ⟨houtLow, houtHigh, hratio, hlow, havg, Nat.le_of_eq (Nat.zero_mul _)⟩

/-- A percentage is held in its word (R411). -/
theorem toNat_power_le (s : State) (a count : Nat) : (wrap32 (powerAt s a count)).toNat ≤ 100 := by
  have hpercent : powerAt s a count ≤ 100 := powerPercent_le ..
  rw [toNat_wrap32 (by omega)]
  exact hpercent

/-- The FM unit after a command that passed its checks (R210, R220, R241, R245). -/
theorem fmInv_effectOf {i : Instr} {s : State} (hwf : i.wf = true) (h : UnitsInv s) (hcheck : checkOf i s = none) :
    FmInv (effectOf i s).state.fm ∧ (effectOf i s).state.fm.pwr.toNat ≤ 100 := by
  have hframe := (unitFrame_effectOf i hwf s).fm
  cases i with
  | fmStart =>
    rw [effectOf, fmStartEffect_writes]
    exact ⟨(streaming_fmStarted hcheck).fmInv, Nat.zero_le _⟩
  | fmFinish => exact ⟨fun hrunning => absurd hrunning Bool.false_ne_true, h.fmPower⟩
  | fmProcess =>
    obtain ⟨hrunning, -, -⟩ := legal_of_fmProcessCheck hcheck
    have hstream := h.fm.streaming hrunning
    have hend : Streaming (fmOutput s).1.fm := Streaming.fmRun numerics _ hstream
    have hsame : SameStream ⟨s.fm, s.pll, s.bq⟩ (fmOutput s).1 := sameStream_fmRun numerics _ _
    rw [effectOf, fmProcessEffect_eq hstream]
    show FmInv (refreshPower s (fmOutput s).1.fm (arg0 s) (arg1 s / 2)) ∧ _ ≤ 100
    constructor
    · obtain ⟨pwr, pwrT, valid, hfm⟩ := refreshPower_eq s (fmOutput s).1.fm (arg0 s) (arg1 s / 2)
      rw [hfm]
      exact hend.fmInv
    · show (refreshPower s (fmOutput s).1.fm (arg0 s) (arg1 s / 2)).pwr.toNat ≤ 100
      unfold refreshPower
      split
      · exact toNat_power_le ..
      · rw [hsame.fm]
        exact h.fmPower
  | _ =>
    rw [hframe (fun _ => ⟨by simp, by simp, by simp⟩)]
    exact ⟨h.fm, h.fmPower⟩

/-- The cleared synchronizer meets its invariant (R305). -/
theorem dabInv_clearSync (d : Dab) : DabInv (clearSync d) :=
  ⟨Nat.zero_le _, fun _ h => (List.not_mem_nil h).elim, fun h => absurd rfl h, Nat.zero_le _, fun _ => rfl⟩

/-- A window with one more fragment, or with the oldest of five dropped, meets the synchronizer's invariant (R302, R306). -/
theorem dabInv_fed {s : State} (h : DabInv s.dab) (hcheck : dabFeedCheck s = none) {d : Dab}
    (hwin : d.win.length ≤ 4) (hsub : ∀ frag, frag ∈ d.win → frag ∈ (fedDab s).win) (hlen : d.fragLen = s.dab.fragLen)
    (hfed : d.winF = s.dab.fragLen) (hfails : d.fails = s.dab.fails) (hsynced : d.synced = s.dab.synced) : DabInv d := by
  obtain ⟨hlow, hhigh, hunit, -, -, -⟩ := legal_of_dabFeedCheck hcheck
  obtain ⟨-, hfrags, -, hbound, hsearching⟩ := h
  refine ⟨hwin, fun frag hfrag => ?_, fun _ => ⟨hfed.trans hlen.symm, ?_⟩, hfails ▸ hbound, ?_⟩
  · rw [hlen]
    rcases List.mem_append.1 (hsub frag hfrag) with hheld | hnew
    · exact hfrags frag hheld
    · rw [List.mem_singleton.1 hnew, length_bytesAt]
  · rw [hlen]
    exact ⟨hlow, hhigh, hunit⟩
  · rw [hfails, hsynced]
    exact hsearching

/-- The synchronizer after DAB_FEED (R302, R306). -/
theorem dabInv_dabFeedEffect {s : State} (h : DabInv s.dab) (hcheck : dabFeedCheck s = none) :
    DabInv (dabFeedEffect s).state.dab := by
  have hheld := length_win_fedDab s
  have hfew := h.1
  rcases dabFeedEffect_cases s with ⟨hroom, heffect⟩ | ⟨-, sf, total, -, heffect⟩ | ⟨hfull, -, heffect⟩ <;> rw [heffect]
  · exact dabInv_fed h hcheck (d := fedDab s) (by omega) (fun _ hfrag => hfrag) rfl rfl rfl rfl
  · exact ⟨Nat.zero_le _, fun _ hfrag => (List.not_mem_nil hfrag).elim, fun hne => absurd rfl hne, Nat.zero_le _, fun _ => rfl⟩
  · have hnone (d : Dab) (hwin : d.win = []) (hfails : d.fails.toNat ≤ 254) (hsynced : d.synced = false → d.fails = 0#8) :
        DabInv d := by
      refine ⟨by simp [hwin], fun _ hfrag => ?_, fun hne => absurd hwin hne, hfails, hsynced⟩
      rw [hwin] at hfrag
      cases hfrag
    obtain ⟨-, -, -, -, hthr, -⟩ := legal_of_dabFeedCheck hcheck
    show DabInv (rejectSuperframe (fedDab s))
    rcases Bool.eq_false_or_eq_true (fedDab s).synced with hs | hs
    · rcases Nat.lt_or_ge ((fedDab s).fails.toNat + 1) (fedDab s).lossThr.toNat with hkept | hlost
      · rw [(rejectSuperframe_of_kept hs hkept).2]
        have hthr' : (fedDab s).lossThr.toNat ≤ 255 := hthr
        refine hnone _ rfl ?_ (fun hfalse => absurd hfalse (by simp))
        show ((fedDab s).fails + 1#8).toNat ≤ 254
        rw [BitVec.toNat_add]
        simp only [BitVec.toNat_ofNat]
        omega
      · rw [(rejectSuperframe_of_lost hs hlost).2]
        exact hnone _ rfl (Nat.zero_le _) (fun _ => rfl)
    · rw [rejectSuperframe_of_searching hs]
      refine dabInv_fed h hcheck ?_ (fun _ hfrag => List.mem_of_mem_drop hfrag) rfl rfl rfl rfl
      show ((fedDab s).win.drop 1).length ≤ 4
      rw [List.length_drop]
      omega

/-- The synchronizer after a command that passed its checks (R305, R306). -/
theorem dabInv_effectOf {i : Instr} {s : State} (hwf : i.wf = true) (h : UnitsInv s) (hcheck : checkOf i s = none) :
    DabInv (effectOf i s).state.dab := by
  have hframe := (unitFrame_effectOf i hwf s).dab
  cases i with
  | dabReset => exact dabInv_clearSync s.dab
  | dabFeed => exact dabInv_dabFeedEffect h.dab hcheck
  | _ =>
    rw [hframe (fun _ => ⟨by simp, by simp⟩)]
    exact h.dab

/-- The Reed-Solomon unit after RS_INIT (R48, R334). -/
theorem rsInv_rsInitEffect {s : State} (hcheck : rsInitCheck s = none) : RsInv (rsInitEffect s).state.rs := by
  have hlegal := rsLegal_of_rsInitCheck hcheck
  have hlegal' := hlegal
  obtain ⟨hlow, hhigh, -, -, -, -, -, -, -, hfits⟩ := hlegal'
  have hpow : 2 ^ s.rs.config.symsize.toNat ≤ 2 ^ 8 := Nat.pow_le_pow_right (by decide) hhigh
  have hn : (BitVec.ofNat 32 (2 ^ s.rs.config.symsize.toNat - 1 - s.rs.config.pad.toNat)).toNat =
      2 ^ s.rs.config.symsize.toNat - 1 - s.rs.config.pad.toNat := toNat_wrap32 (by omega)
  rw [rsInitEffect_eq hfits]
  refine ⟨hlegal, hn, ?_, fun _ => rfl⟩
  dsimp only
  rw [hn]
  exact toNat_wrap32 (by omega)

/-- The Reed-Solomon unit after a command that passed its checks (R334). -/
theorem rsInv_effectOf {i : Instr} {s : State} (hwf : i.wf = true) (h : UnitsInv s) (hcheck : checkOf i s = none) :
    RsInv (effectOf i s).state.rs := by
  have hframe := (unitFrame_effectOf i hwf s).rs
  cases i with
  | rsInit => exact rsInv_rsInitEffect hcheck
  | _ =>
    rw [hframe (fun _ => by simp)]
    exact h.rs

/-- PWR_LAST after a command (R412, R414). -/
theorem lastPower_effectOf {i : Instr} {s : State} (hwf : i.wf = true) (h : UnitsInv s) :
    (effectOf i s).state.diag.pwrLast.toNat ≤ 100 := by
  have hframe := (unitFrame_effectOf i hwf s).diag
  cases i with
  | pwrCalc => exact toNat_power_le ..
  | brAdd =>
    obtain ⟨rate, bytes, t0, hstate⟩ := brAddEffect_writes s
    rw [effectOf, hstate]
    exact h.lastPower
  | _ =>
    rw [hframe (fun _ => ⟨by simp, by simp⟩)]
    exact h.lastPower

/-- A command that passed its checks keeps BUF and the units in the invariant. -/
theorem UnitsInv.effectOf {i : Instr} {s : State} (hwf : i.wf = true) (h : UnitsInv s) (hcheck : checkOf i s = none) :
    UnitsInv (effectOf i s).state where
  buf := (storesWithin_effectOf h.dab hcheck).wf (storedRegions_fit h.fm hcheck) h.buf
  fm := (fmInv_effectOf hwf h hcheck).1
  dab := dabInv_effectOf hwf h hcheck
  rs := rsInv_effectOf hwf h hcheck
  fmPower := (fmInv_effectOf hwf h hcheck).2
  lastPower := lastPower_effectOf hwf h

/-! ### The invariant and the host -/

/-- A state with the same BUF and units. -/
theorem UnitsInv.of_eq {s t : State} (h : UnitsInv s) (hbuf : t.buf = s.buf) (hfm : t.fm = s.fm) (hdab : t.dab = s.dab)
    (hrs : t.rs = s.rs) (hpower : t.diag.pwrLast = s.diag.pwrLast) : UnitsInv t :=
  ⟨hbuf ▸ h.buf, hfm ▸ h.fm, hdab ▸ h.dab, hrs ▸ h.rs, hfm ▸ h.fmPower, hpower ▸ h.lastPower⟩

/-- The code of the reset values is a legal one (R47, R334). -/
theorem rsLegal_reset : RsLegal RsConfig.reset := by
  have hprimitive : isPrimitive 8 0x11D = true := by decide +kernel
  exact ⟨by decide, by decide, hprimitive, by decide, by decide, by decide, by decide, by decide, by decide, by decide⟩

/-- The Reed-Solomon unit after reset (R47, R48). -/
theorem rsInv_reset : RsInv Rs.reset := ⟨rsLegal_reset, by decide, by decide, fun _ => rfl⟩

/-- The units after reset, with any BUF in its canonical form (R600, R602). -/
theorem unitsInv_reset {s : State} (hbuf : s.buf.wf = true) : UnitsInv (softReset s) where
  buf := hbuf
  fm := fun hrunning => absurd hrunning Bool.false_ne_true
  dab := dabInv_clearSync Dab.reset
  rs := rsInv_reset
  fmPower := Nat.zero_le _
  lastPower := Nat.zero_le _

/-- No error is reported after reset, nor by a success (R35, R500, R504). -/
theorem errInv_of_clear {s : State} (herr : s.err = false) (hcode : s.errcode = 0#8) : ErrInv s := by
  simp [ErrInv, herr, hcode]

/-- The flags of an error record (R35, R500, R504). -/
theorem errInv_raiseError (e : CmdError) (s : State) : ErrInv (raiseError e s) := by
  obtain ⟨hlow, hhigh⟩ := errNumber_range e.code
  refine ⟨⟨fun _ hzero => ?_, fun _ => rfl⟩, hhigh⟩
  rw [raiseError_errcode] at hzero
  rw [hzero] at hlow
  exact absurd hlow (by decide)

theorem ErrInv.of_eq {s t : State} (h : ErrInv s) (herr : t.err = s.err) (hcode : t.errcode = s.errcode) : ErrInv t := by
  rw [ErrInv, herr, hcode]
  exact h

/-- Settles O23: the reset state is a soft reset of itself. -/
theorem invReset : Obligations.InvReset :=
  (unitsInv_reset (s := State.reset) wf_reset).blockInv (errInv_of_clear rfl rfl)

/-- A stored register keeps the units in the invariant: it is a configuration register, and those of the synchronizer's fragments
and of the Reed-Solomon code clear what depends on them (R31, R45, R335). -/
theorem UnitsInv.storeCsr {s : State} (h : UnitsInv s) (v : Word) (c : Csr) : UnitsInv (storeCsr s v c) := by
  cases c with
  | fmCtrl | fmSamplerate | fmOutRate | stPilotF | stPilotQm | stSubF | stSubQm | stLpfF | stLpfQm =>
    exact ⟨h.buf, h.fm, h.dab, h.rs, h.fmPower, h.lastPower⟩
  | dabFragLen =>
    exact ⟨h.buf, h.fm, dabInv_clearSync { s.dab with fragLen := v }, h.rs, h.fmPower, h.lastPower⟩
  | dabCtrl | dabLossThr => exact ⟨h.buf, h.fm, h.dab, h.rs, h.fmPower, h.lastPower⟩
  | rsConfig r =>
    obtain ⟨hlegal, hn, hk, -⟩ := h.rs
    exact ⟨h.buf, h.fm, h.dab, ⟨hlegal, hn, hk, fun hready => absurd hready Bool.false_ne_true⟩, h.fmPower, h.lastPower⟩
  | crc mode r =>
    match mode with
    | 0 | 1 => exact h.of_eq rfl rfl rfl rfl rfl
  | _ => exact h.of_eq rfl rfl rfl rfl rfl

/-- A register write keeps the invariant (R31, R602). -/
theorem BlockInv.writeCsr {s : State} (h : BlockInv s) (v : Word) (c : Csr) : BlockInv (writeCsr s v c) := by
  cases writeCase s v c with
  | resets _ _ ht =>
    rw [ht]
    exact (unitsInv_reset h.units.buf).blockInv (errInv_of_clear rfl rfl)
  | stores ht =>
    have hsame := sameEngine_storeCsr s v c
    rw [ht]
    exact (h.units.storeCsr v c).blockInv (h.errors.of_eq hsame.err hsame.errcode)
  | nothing ht | clearsSticky ht | clearsIrqs ht | enablesIrqs ht | overruns ht | accepts ht | ignores ht =>
    rw [ht]
    exact (h.units.of_eq rfl rfl rfl rfl rfl).blockInv (h.errors.of_eq rfl rfl)

/-- A host write keeps the invariant (R53, R105). -/
theorem BlockInv.writeAt {s : State} (h : BlockInv s) {off : Nat} {w : Width} (hwindow : off < Config.mmioSize)
    (hok : accessOk off w = true) (v : BitVec 64) : BlockInv (writeAt off w v s) := by
  rcases writeAt_cases off w v s with ⟨c, -, -, ht⟩ | ht | ht | ⟨hbuf, ht⟩ <;> rw [ht]
  · exact h.writeCsr _ c
  · exact h
  · exact h
  · have hinside : off - Config.bufWindow + widthBytes w ≤ 65536 := by
      rw [mmioSize_eq] at hwindow
      rw [bufWindow_eq] at hbuf ⊢
      rcases (accessOk_iff off w).1 hok with ⟨hbelow, -, -⟩ | ⟨-, rfl | ⟨rfl, halign⟩ | ⟨rfl, halign⟩⟩
      · omega
      · simp only [widthBytes]; omega
      · simp only [widthBytes]; omega
      · simp only [widthBytes]; omega
    have hwf := wf_write s.buf (off - Config.bufWindow) (leBytes (widthBytes w) v.toNat) h.units.buf
      (by rw [length_leBytes, bufSize_eq]; exact hinside)
    exact UnitsInv.blockInv ⟨hwf, h.units.fm, h.units.dab, h.units.rs, h.units.fmPower, h.units.lastPower⟩
      (h.errors.of_eq rfl rfl)

/-- Settles O24: each case of a step keeps the units and the error flags in the invariant. -/
theorem invKept : Obligations.InvKept := by
  intro s t h hstep
  have henv (env : List Event) : BlockInv { s with env := env } :=
    (h.units.of_eq rfl rfl rfl rfl rfl).blockInv (h.errors.of_eq rfl rfl)
  cases stepCase hstep with
  | idle hdue _ =>
    rw [hdue.eq]
    exact henv _
  | fails u e hdue _ ht =>
    have hu : UnitsInv u := by
      rw [hdue.eq]
      exact (henv u.env).units
    rw [ht]
    exact (hu.of_eq (t := raiseError e u) rfl rfl rfl rfl rfl).blockInv (errInv_raiseError e u)
  | succeeds u i hdue _ _ hwf hcheck ht =>
    have hu : UnitsInv u := by
      rw [hdue.eq]
      exact (henv u.env).units
    rw [ht]
    exact ((hu.effectOf hwf hcheck).of_eq (t := succeed (effectOf i u)) rfl rfl rfl rfl rfl).blockInv (errInv_of_clear rfl rfl)
  | elapses us rest _ ht =>
    rw [ht]
    exact ((henv rest).units.of_eq rfl rfl rfl rfl rfl).blockInv ((henv rest).errors.of_eq rfl rfl)
  | reads off w rest _ _ _ ht =>
    obtain ⟨latch, haz, data, hread⟩ := readAt_writes off w { s with env := rest }
    rw [ht, hread]
    exact ((henv rest).units.of_eq rfl rfl rfl rfl rfl).blockInv ((henv rest).errors.of_eq rfl rfl)
  | writes off w v rest _ hwindow hok ht =>
    rw [ht]
    exact (henv rest).writeAt hwindow hok v

end Sys2Proof.Machine
end

section
/-! PROOFS. The exact angle on real numbers (spec file 40, R222). -/

namespace Sys2Proof.Machine

set_option Elab.async false

/-- A point's coordinates in polar form. -/
structure Polar (x y : Int) (r θ : ℝ) : Prop where
  radius : 0 < r
  re : (x : ℝ) = r * Real.cos θ
  im : (y : ℝ) = r * Real.sin θ

/-- Squaring a point doubles its angle. -/
theorem Polar.square {x y : Int} {r θ : ℝ} (h : Polar x y r θ) : Polar (x * x - y * y) (2 * x * y) (r * r) (2 * θ) where
  radius := mul_pos h.radius h.radius
  re := by
    push_cast
    rw [h.re, h.im, Real.cos_two_mul']
    ring
  im := by
    push_cast
    rw [h.re, h.im, Real.sin_two_mul]
    ring

/-- Squaring a point and turning it back by pi. -/
theorem Polar.squareBack {x y : Int} {r θ : ℝ} (h : Polar x y r θ) :
    Polar (y * y - x * x) (-(2 * x * y)) (r * r) (2 * θ - Real.pi) where
  radius := mul_pos h.radius h.radius
  re := by
    rw [Real.cos_sub_pi, mul_neg, ← h.square.re]
    push_cast
    ring
  im := by
    rw [Real.sin_sub_pi, mul_neg, ← h.square.im]
    push_cast
    ring

/-- The digits are those of the angle, in units of pi (R222). -/
theorem angleDigits_eq_floor (k : Nat) : ∀ {x y : Int} {r θ : ℝ}, Polar x y r θ → 0 ≤ θ → θ < Real.pi →
    (angleDigits k x y : Int) = ⌊θ / Real.pi * 2 ^ k⌋ := by
  have hpi := Real.pi_pos
  induction k with
  | zero =>
    intro x y r θ _ hlow hhigh
    have hzero : ⌊θ / Real.pi * 2 ^ 0⌋ = 0 := by
      rw [pow_zero, mul_one, Int.floor_eq_zero_iff]
      exact ⟨div_nonneg hlow hpi.le, (div_lt_one hpi).2 hhigh⟩
    rw [hzero]
    rfl
  | succ k ih =>
    intro x y r θ hpolar hlow hhigh
    rcases lt_or_ge θ (Real.pi / 2) with hright | hleft
    · have hx : ¬ x ≤ 0 := by
        have hcos := Real.cos_pos_of_mem_Ioo ⟨by linarith, hright⟩
        have : (0 : ℝ) < x := by
          rw [hpolar.re]
          exact mul_pos hpolar.radius hcos
        exact not_le.2 (by exact_mod_cast this)
      have hscale : θ / Real.pi * 2 ^ (k + 1) = 2 * θ / Real.pi * 2 ^ k := by ring
      rw [angleDigits, if_neg hx, ih hpolar.square (by linarith) (by linarith), hscale]
    · have hx : x ≤ 0 := by
        have hcos := Real.cos_nonpos_of_pi_div_two_le_of_le hleft (by linarith)
        have : (x : ℝ) ≤ 0 := by
          rw [hpolar.re]
          exact mul_nonpos_of_nonneg_of_nonpos hpolar.radius.le hcos
        exact_mod_cast this
      have hscale : θ / Real.pi * 2 ^ (k + 1) = (2 * θ - Real.pi) / Real.pi * 2 ^ k + ((2 ^ k : Nat) : ℝ) := by
        push_cast
        field_simp
        ring
      rw [angleDigits, if_pos hx, Nat.cast_add, ih hpolar.squareBack (by linarith) (by linarith), hscale, Int.floor_add_natCast]
      exact add_comm _ _

/-- A point other than the origin, by its modulus and argument. -/
theorem polar_arg {x y : Int} (h : ¬ (x = 0 ∧ y = 0)) :
    Polar x y ‖(⟨x, y⟩ : ℂ)‖ (Complex.arg ⟨x, y⟩) where
  radius := by
    refine norm_pos_iff.2 fun hzero => h ⟨?_, ?_⟩
    · exact Int.cast_eq_zero.1 (congrArg Complex.re hzero)
    · exact Int.cast_eq_zero.1 (congrArg Complex.im hzero)
  re := (Complex.norm_mul_cos_arg (⟨x, y⟩ : ℂ)).symm
  im := (Complex.norm_mul_sin_arg (⟨x, y⟩ : ℂ)).symm

/-- The exact angle of a point above the axis is the floor (R222). -/
theorem angleExact_eq_floor {x y : Int} (hy : 0 < y) :
    0 ≤ Complex.arg (⟨x, y⟩ : ℂ) ∧ angleExact y x = ⌊Complex.arg (⟨x, y⟩ : ℂ) / Real.pi * 16384⌋ := by
  have him : (0 : ℝ) < y := by exact_mod_cast hy
  have hlow : 0 ≤ Complex.arg (⟨x, y⟩ : ℂ) := Complex.arg_nonneg_iff.2 him.le
  have hhigh : Complex.arg (⟨x, y⟩ : ℂ) < Real.pi := Complex.arg_lt_pi_iff.2 (.inr him.ne')
  refine ⟨hlow, ?_⟩
  rw [angleExact_of_pos hy, angleDigits_eq_floor 14 (polar_arg (by omega)) hlow hhigh]
  norm_num

/-- Settles O33: on the axis the angle is 0 or pi, above it a floor, and below it the negative of the mirrored point's. -/
theorem angleExactIsTruncated : Obligations.AngleExactIsTruncated := by
  intro y x r
  have hpi := Real.pi_pos
  obtain ⟨hlow, hhigh⟩ := angleExact_bounds y x
  refine ⟨fun hzero => ?_, fun hpoint => ?_, hlow, hhigh⟩
  · rw [hzero.1, hzero.2]
    rfl
  · rcases lt_trichotomy y 0 with hneg | hzero | hpos
    · obtain ⟨hmirrorLow, hmirror⟩ := angleExact_eq_floor (x := x) (y := -y) (by omega)
      have hflip := angleExact_neg (y := -y) (by omega) x
      rw [neg_neg] at hflip
      have harg : Complex.arg (⟨x, y⟩ : ℂ) = -Complex.arg (⟨x, ((-y : Int) : ℝ)⟩ : ℂ) := by
        have hconj : (⟨x, ((-y : Int) : ℝ)⟩ : ℂ) = (starRingEnd ℂ) ⟨x, y⟩ := by
          apply Complex.ext <;> simp
        have hbelow : Complex.arg (⟨x, y⟩ : ℂ) < 0 := Complex.arg_neg_iff.2 (Int.cast_lt_zero.2 hneg)
        rw [hconj, Complex.arg_conj, if_neg (by linarith), neg_neg]
      have hr : r = -(Complex.arg (⟨x, ((-y : Int) : ℝ)⟩ : ℂ) / Real.pi * 16384) := by
        show Complex.arg (⟨x, y⟩ : ℂ) / Real.pi * 16384 = _
        rw [harg]
        ring
      have hnot : ¬ 0 ≤ r := by
        have hbelow : Complex.arg (⟨x, y⟩ : ℂ) < 0 := Complex.arg_neg_iff.2 (Int.cast_lt_zero.2 hneg)
        exact not_le.2 (mul_neg_of_neg_of_pos (div_neg_of_neg_of_pos hbelow hpi) (by norm_num))
      rw [if_neg hnot, hflip, hmirror, hr, Int.ceil_neg]
    · subst hzero
      rcases lt_or_ge x 0 with hx | hx
      · have harg : Complex.arg (⟨x, ((0 : Int) : ℝ)⟩ : ℂ) = Real.pi :=
          Complex.arg_eq_pi_iff.2 ⟨Int.cast_lt_zero.2 hx, by simp⟩
        have hr : r = 16384 := by
          show Complex.arg (⟨x, ((0 : Int) : ℝ)⟩ : ℂ) / Real.pi * 16384 = 16384
          rw [harg, div_self hpi.ne', one_mul]
        have hexact : angleExact 0 x = 16384 := by simp [angleExact, hx]
        rw [hexact, hr]
        norm_num
      · have harg : Complex.arg (⟨x, ((0 : Int) : ℝ)⟩ : ℂ) = 0 :=
          Complex.arg_eq_zero_iff.2 ⟨Int.cast_nonneg hx, by simp⟩
        have hr : r = 0 := by
          show Complex.arg (⟨x, ((0 : Int) : ℝ)⟩ : ℂ) / Real.pi * 16384 = 0
          rw [harg, zero_div, zero_mul]
        have hexact : angleExact 0 x = 0 := by simp [angleExact, hx]
        rw [hexact, hr]
        norm_num
    · obtain ⟨hargLow, hfloor⟩ := angleExact_eq_floor (x := x) hpos
      have hnonneg : 0 ≤ r := mul_nonneg (div_nonneg hargLow hpi.le) (by norm_num)
      rw [if_pos hnonneg, hfloor]

end Sys2Proof.Machine
end

section
/-! PROOFS. The Reed-Solomon decoder finds the codeword within its bound (spec file 43, R331, R338). -/

namespace Sys2Proof.Machine

set_option Elab.async false

open Polynomial

/-! ### Syndromes -/

theorem getD_syndromes (code : RsCode) (r : List Nat) {i : Nat} (hi : i < code.nroots) :
    (syndromes code r).getD i 0 = wordAt code (rsRoot code i) r := by
  simp [syndromes, List.getD_eq_getElem?_getD, hi]

@[simp] theorem length_syndromes (code : RsCode) (r : List Nat) : (syndromes code r).length = code.nroots := by simp [syndromes]

/-- A codeword vanishes at every root, and only a codeword does (R331). -/
theorem isCodeword_iff (code : RsCode) (r : List Nat) :
    isCodeword code r = true ↔ ∀ i, i < code.nroots → wordAt code (rsRoot code i) r = 0 := by
  simp [isCodeword, syndromes]

section Model

variable {code : RsCode} {F : Type} [Field F] {φ : Nat → F}

theorem FieldModel.locator_eq (hφ : FieldModel code F φ) (h : PrimitiveCode code) (n j : Nat) :
    φ (locator code n j) = φ 2 ^ (code.prim * (n - 1 - j)) := hφ.alphaPow_eq h _

theorem FieldModel.locator_ne_zero (hφ : FieldModel code F φ) (h : PrimitiveCode code) (n j : Nat) : φ (locator code n j) ≠ 0 := by
  rw [hφ.locator_eq h]
  exact pow_ne_zero _ (hφ.alpha_ne_zero h)

/-- The value of a word at a root, as a power sum of the locators (R331). -/
theorem FieldModel.wordAt_root (hφ : FieldModel code F φ) (h : PrimitiveCode code) {r : List Nat} (hr : Elements code r) (i : Nat) :
    φ (wordAt code (rsRoot code i) r) =
      ∑ j ∈ Finset.range r.length, φ (r.getD j 0) * φ (locator code r.length j) ^ code.fcr * φ (locator code r.length j) ^ i := by
  rw [(hφ.wordAt_eq h.hasDegree _ hr).2, rsRoot, hφ.alphaPow_eq h]
  refine Finset.sum_congr rfl fun j _ => ?_
  rw [hφ.locator_eq h, mul_assoc, ← pow_add, ← pow_mul, ← pow_mul]
  congr 2
  ring

/-- The product of the X + x at another locator is 0 exactly when that locator is among them. -/
theorem FieldModel.eval_roots_eq_zero_iff (hφ : FieldModel code F φ) (h : PrimitiveCode code)
    (hg : Nat.gcd code.prim (rsOrder code) = 1) {n j : Nat} (hn : n ≤ rsOrder code) {L : List Nat} (hL : ∀ l, l ∈ L → l < n)
    (hj : j < n) :
    (toPoly φ (rootsPoly code (L.map (locator code n)))).eval (φ (locator code n j)) = 0 ↔ j ∈ L := by
  have hxs : Elements code (L.map (locator code n)) := by
    intro x hx
    obtain ⟨l, -, rfl⟩ := List.mem_map.1 hx
    exact alphaPow_lt h _
  rw [hφ.toPoly_roots hxs, eval_list_prod, List.prod_eq_zero_iff]
  simp only [List.map_map, List.mem_map, Function.comp, eval_add, eval_X, eval_C]
  constructor
  · rintro ⟨l, hl, hzero⟩
    have hsame : φ (locator code n j) = φ (locator code n l) := by
      have := hφ.add_self (φ (locator code n l))
      calc φ (locator code n j) = φ (locator code n j) + (φ (locator code n l) + φ (locator code n l)) := by rw [this, add_zero]
        _ = φ (locator code n l) := by rw [← add_assoc, hzero, zero_add]
    rw [hφ.locator_inj h hg hn hj (hL l hl) hsame]
    exact hl
  · exact fun hj => ⟨j, hj, hφ.add_self _⟩

/-- A polynomial that is not 0 has at most as many roots among the locators as its degree. -/
theorem FieldModel.length_roots_le (hφ : FieldModel code F φ) (h : PrimitiveCode code)
    (hg : Nat.gcd code.prim (rsOrder code) = 1) {n : Nat} (hn : n ≤ rsOrder code) {p : List Nat} (hp : Elements code p)
    (hlast : p.getLast? = some 1) :
    ((List.range n).filter (fun j => polyAt code p (locator code n j) == 0)).length ≤ p.length - 1 := by
  classical
  have hnonzero : toPoly φ p ≠ 0 := hφ.toPoly_ne_zero p hlast
  have hroot (j : Nat) (hj : j ∈ (List.range n).filter (fun j => polyAt code p (locator code n j) == 0)) :
      j < n ∧ φ (locator code n j) ∈ (toPoly φ p).roots.toFinset := by
    rw [List.mem_filter, List.mem_range, beq_iff_eq] at hj
    refine ⟨hj.1, Multiset.mem_toFinset.2 ((mem_roots hnonzero).2 ?_)⟩
    rw [IsRoot.def, ← hφ.polyAt_eq h.hasDegree _ hp, hj.2, hφ.zero]
  rw [← List.toFinset_card_of_nodup (List.nodup_range.filter _)]
  calc _ ≤ (toPoly φ p).roots.toFinset.card := by
        refine Finset.card_le_card_of_injOn (fun j => φ (locator code n j)) (fun j hj => ?_) (fun i hi j hj hsame => ?_)
        · exact (hroot j (List.mem_toFinset.1 (Finset.mem_coe.1 hj))).2
        · exact hφ.locator_inj h hg hn (hroot i (List.mem_toFinset.1 (Finset.mem_coe.1 hi))).1
            (hroot j (List.mem_toFinset.1 (Finset.mem_coe.1 hj))).1 hsame
    _ ≤ Multiset.card (toPoly φ p).roots := Multiset.toFinset_card_le _
    _ ≤ (toPoly φ p).natDegree := card_roots' _
    _ ≤ p.length - 1 := natDegree_toPoly p

end Model

/-! ### A word within the bound -/

/-- A received word of a legal code with its erasures, and a codeword within the decoder's bound of it (R338 case 2). -/
structure WithinBound (code : RsCode) (n : Nat) (r c erased : List Nat) : Prop where
  primitive : PrimitiveCode code
  coprime : Nat.gcd code.prim (rsOrder code) = 1
  short : n ≤ rsOrder code
  lengthR : r.length = n
  lengthC : c.length = n
  symbolsR : Elements code r
  symbolsC : Elements code c
  codeword : isCodeword code c = true
  inside : ∀ j, j ∈ erased → j < n
  bound : 2 * (errorPositions r c erased).length + erased.length ≤ code.nroots

/-- What position j adds to the syndromes: its error, times the locator's power FCR (R331). -/
def errorWeight {F : Type} [Field F] (φ : Nat → F) (code : RsCode) (n : Nat) (r c : List Nat) (j : Nat) : F :=
  (φ (r.getD j 0) + φ (c.getD j 0)) * φ (locator code n j) ^ code.fcr

/-- The polynomial of the erased locators (R338). -/
def erasurePoly (code : RsCode) (n : Nat) (erased : List Nat) : List Nat := rootsPoly code (erased.map (locator code n))

/-- The syndromes with the erased positions' terms taken out (R338). -/
def reducedSyndromes (code : RsCode) (n : Nat) (syn erased : List Nat) : List Nat :=
  (List.range (code.nroots - erased.length)).map (fun i => pairing code (erasurePoly code n erased) (syn.drop i))

/-- The polynomial whose roots are the suspect locators outside E (R338). -/
def errorPoly (code : RsCode) (n : Nat) (syn erased : List Nat) : List Nat :=
  annihilator code ((code.nroots - erased.length) / 2) (reducedSyndromes code n syn erased)

theorem suspectPositions_eq (code : RsCode) (n : Nat) (syn erased : List Nat) : suspectPositions code n syn erased =
    (List.range n).filter (fun j => erased.contains j || polyAt code (errorPoly code n syn erased) (locator code n j) == 0) := rfl

section Bound

variable {code : RsCode} {n : Nat} {r c erased : List Nat} {F : Type} [Field F] {φ : Nat → F}

theorem WithinBound.getD_r (h : WithinBound code n r c erased) (j : Nat) : r.getD j 0 < 2 ^ code.m := h.symbolsR.getD j

theorem WithinBound.getD_c (h : WithinBound code n r c erased) (j : Nat) : c.getD j 0 < 2 ^ code.m := h.symbolsC.getD j

/-- Only a position in error adds to the syndromes. -/
theorem WithinBound.errorWeight_eq_zero_iff (h : WithinBound code n r c erased) (hφ : FieldModel code F φ) (j : Nat) :
    errorWeight φ code n r c j = 0 ↔ r.getD j 0 = c.getD j 0 := by
  rw [errorWeight, mul_eq_zero, or_iff_left (pow_ne_zero _ (hφ.locator_ne_zero h.primitive n j)), ← hφ.xor]
  constructor
  · exact fun hzero => Nat.xor_eq_zero_iff.1 (hφ.eq_zero _ (xor_lt (h.getD_r j) (h.getD_c j)) hzero)
  · intro hsame
    rw [hsame, Nat.xor_self, hφ.zero]

/-- The syndromes are power sums of the locators, with the positions' weights (R331). -/
theorem WithinBound.syndrome_sum (h : WithinBound code n r c erased) (hφ : FieldModel code F φ) {i : Nat} (hi : i < code.nroots) :
    φ ((syndromes code r).getD i 0) =
      ∑ j ∈ Finset.range n, errorWeight φ code n r c j * φ (locator code n j) ^ i := by
  have hr := hφ.wordAt_root h.primitive h.symbolsR i
  have hc := hφ.wordAt_root h.primitive h.symbolsC i
  rw [(isCodeword_iff code c).1 h.codeword i hi, hφ.zero, h.lengthC] at hc
  rw [h.lengthR] at hr
  rw [getD_syndromes code r hi, hr, ← add_zero (∑ j ∈ Finset.range n, _), hc, ← Finset.sum_add_distrib]
  refine Finset.sum_congr rfl fun j _ => ?_
  rw [errorWeight]
  ring

/-- A short polynomial paired with the syndromes from the i-th on: the sum of its weighted values at the locators. -/
theorem WithinBound.pairing_syndromes (h : WithinBound code n r c erased) (hφ : FieldModel code F φ) {p : List Nat}
    (hp : Elements code p) {i : Nat} (hlength : i + p.length ≤ code.nroots) :
    φ (pairing code p ((syndromes code r).drop i)) =
      ∑ j ∈ Finset.range n,
        errorWeight φ code n r c j * φ (locator code n j) ^ i * (toPoly φ p).eval (φ (locator code n j)) := by
  refine hφ.pairing_sums (Finset.range n) (fun j => φ (locator code n j)) p _
    (fun j => errorWeight φ code n r c j * φ (locator code n j) ^ i) hp ?_ fun k hk => ?_
  · rw [List.length_drop, length_syndromes]
    omega
  · rw [List.length_drop, length_syndromes] at hk
    rw [List.getD_eq_getElem?_getD, List.getElem?_drop, ← List.getD_eq_getElem?_getD, h.syndrome_sum hφ (by omega)]
    refine Finset.sum_congr rfl fun j _ => ?_
    rw [pow_add, mul_assoc]

theorem WithinBound.elements_erasurePoly (h : WithinBound code n r c erased) : Elements code (erasurePoly code n erased) := by
  refine Elements.roots h.primitive fun x hx => ?_
  obtain ⟨j, -, rfl⟩ := List.mem_map.1 hx
  exact alphaPow_lt h.primitive _

theorem length_erasurePoly (code : RsCode) (n : Nat) (erased : List Nat) :
    (erasurePoly code n erased).length = erased.length + 1 := by
  rw [erasurePoly, length_rootsPoly, List.length_map]

/-- The reduced syndromes are power sums, to which only the errors outside E add (R338). -/
theorem WithinBound.reduced_sum (h : WithinBound code n r c erased) (hφ : FieldModel code F φ) {i : Nat}
    (hi : i < code.nroots - erased.length) :
    φ ((reducedSyndromes code n (syndromes code r) erased).getD i 0) =
      ∑ j ∈ Finset.range n,
        errorWeight φ code n r c j * (toPoly φ (erasurePoly code n erased)).eval (φ (locator code n j)) *
          φ (locator code n j) ^ i := by
  have hentry : (reducedSyndromes code n (syndromes code r) erased).getD i 0 =
      pairing code (erasurePoly code n erased) ((syndromes code r).drop i) := by
    simp [reducedSyndromes, List.getD_eq_getElem?_getD, hi]
  rw [hentry, h.pairing_syndromes hφ h.elements_erasurePoly (by rw [length_erasurePoly]; omega)]
  refine Finset.sum_congr rfl fun j _ => ?_
  ring

/-- The error polynomial is not 0, of a degree of at most half the free roots, and vanishes on the reduced syndromes (R338). -/
theorem WithinBound.errorPoly_spec (h : WithinBound code n r c erased) (hφ : FieldModel code F φ) :
    Elements code (errorPoly code n (syndromes code r) erased) ∧
    (errorPoly code n (syndromes code r) erased).getLast? = some 1 ∧
    (errorPoly code n (syndromes code r) erased).length ≤ (code.nroots - erased.length) / 2 + 1 ∧
    ∀ i, i < (code.nroots - erased.length) / 2 →
      pairing code (errorPoly code n (syndromes code r) erased)
        ((reducedSyndromes code n (syndromes code r) erased).drop i) = 0 :=
  hφ.annihilator_spec h.primitive _ _

/-- The errors outside E are the positions outside E where the words differ (R338). -/
theorem WithinBound.mem_errorPositions (h : WithinBound code n r c erased) (j : Nat) :
    j ∈ errorPositions r c erased ↔ j < n ∧ j ∉ erased ∧ r.getD j 0 ≠ c.getD j 0 := by
  simp [errorPositions, h.lengthR]

/-- What position j adds to the reduced syndromes (R338). -/
noncomputable def reducedWeight (φ : Nat → F) (code : RsCode) (n : Nat) (r c erased : List Nat) (j : Nat) : F :=
  errorWeight φ code n r c j * (toPoly φ (erasurePoly code n erased)).eval (φ (locator code n j))

/-- Only the errors outside E add to the reduced syndromes. -/
theorem WithinBound.reducedWeight_ne_zero_iff (h : WithinBound code n r c erased) (hφ : FieldModel code F φ) {j : Nat}
    (hj : j < n) : reducedWeight φ code n r c erased j ≠ 0 ↔ j ∈ errorPositions r c erased := by
  have hgamma : (toPoly φ (erasurePoly code n erased)).eval (φ (locator code n j)) = 0 ↔ j ∈ erased :=
    hφ.eval_roots_eq_zero_iff h.primitive h.coprime h.short h.inside hj
  rw [reducedWeight, mul_ne_zero_iff, Ne, Ne, hgamma, h.errorWeight_eq_zero_iff hφ, h.mem_errorPositions]
  exact ⟨fun ⟨hdiffer, hout⟩ => ⟨hj, hout, hdiffer⟩, fun ⟨_, hout, hdiffer⟩ => ⟨hdiffer, hout⟩⟩

/-- A short polynomial paired with the reduced syndromes from the i-th on. -/
theorem WithinBound.pairing_reduced (h : WithinBound code n r c erased) (hφ : FieldModel code F φ) {p : List Nat}
    (hp : Elements code p) {i : Nat} (hlength : i + p.length ≤ code.nroots - erased.length) :
    φ (pairing code p ((reducedSyndromes code n (syndromes code r) erased).drop i)) =
      ∑ j ∈ Finset.range n,
        reducedWeight φ code n r c erased j * φ (locator code n j) ^ i * (toPoly φ p).eval (φ (locator code n j)) := by
  have hcount : (reducedSyndromes code n (syndromes code r) erased).length = code.nroots - erased.length := by
    simp [reducedSyndromes]
  refine hφ.pairing_sums (Finset.range n) (fun j => φ (locator code n j)) p _
    (fun j => reducedWeight φ code n r c erased j * φ (locator code n j) ^ i) hp ?_ fun k hk => ?_
  · rw [List.length_drop, hcount]
    omega
  · rw [List.length_drop, hcount] at hk
    rw [List.getD_eq_getElem?_getD, List.getElem?_drop, ← List.getD_eq_getElem?_getD, h.reduced_sum hφ (by omega)]
    refine Finset.sum_congr rfl fun j _ => ?_
    rw [reducedWeight, pow_add, mul_assoc _ (φ (locator code n j) ^ i)]

/-- The power sums of the errors outside E, weighted with the error polynomial's values, are 0 (R338). -/
theorem WithinBound.errorPoly_sum [DecidableEq F] (h : WithinBound code n r c erased) (hφ : FieldModel code F φ) {i : Nat}
    (hi : i < (code.nroots - erased.length) / 2) :
    ∑ j ∈ (errorPositions r c erased).toFinset,
      (reducedWeight φ code n r c erased j *
          (toPoly φ (errorPoly code n (syndromes code r) erased)).eval (φ (locator code n j))) *
        φ (locator code n j) ^ i = 0 := by
  obtain ⟨helements, -, hlength, hvanish⟩ := h.errorPoly_spec hφ
  have hpair := h.pairing_reduced hφ helements (i := i) (by omega)
  rw [hvanish i hi, hφ.zero] at hpair
  rw [hpair]
  refine Finset.sum_subset_zero_on_sdiff (fun j hj => ?_) (fun j hj => ?_) fun j _ => by ring
  · exact Finset.mem_range.2 ((h.mem_errorPositions j).1 (List.mem_toFinset.1 hj)).1
  · obtain ⟨hin, hout⟩ := Finset.mem_sdiff.1 hj
    have hzero : reducedWeight φ code n r c erased j = 0 := by
      by_contra hne
      exact hout (List.mem_toFinset.2 ((h.reducedWeight_ne_zero_iff hφ (Finset.mem_range.1 hin)).1 hne))
    rw [hzero, zero_mul, zero_mul]

/-- An error outside E stands at a root of the error polynomial (R338). -/
theorem WithinBound.errorPoly_root (h : WithinBound code n r c erased) (hφ : FieldModel code F φ) {k : Nat}
    (hk : k ∈ errorPositions r c erased) :
    polyAt code (errorPoly code n (syndromes code r) erased) (locator code n k) = 0 := by
  classical
  obtain ⟨helements, -, -, -⟩ := h.errorPoly_spec hφ
  have hbound := h.bound
  have hcard : (errorPositions r c erased).toFinset.card ≤ (code.nroots - erased.length) / 2 := by
    have hnodup : (errorPositions r c erased).Nodup := List.nodup_range.filter _
    rw [List.toFinset_card_of_nodup hnodup]
    omega
  have hinj : Set.InjOn (fun j => φ (locator code n j)) (errorPositions r c erased).toFinset := fun i hi j hj hsame =>
    hφ.locator_inj h.primitive h.coprime h.short ((h.mem_errorPositions i).1 (List.mem_toFinset.1 hi)).1
      ((h.mem_errorPositions j).1 (List.mem_toFinset.1 hj)).1 hsame
  have hproduct := weights_eq_zero _ _ _ hinj _ hcard (fun i hi => h.errorPoly_sum hφ hi) k (List.mem_toFinset.2 hk)
  have hweight := (h.reducedWeight_ne_zero_iff hφ ((h.mem_errorPositions k).1 hk).1).2 hk
  refine hφ.eq_zero _ (polyAt_lt h.primitive.hasDegree _ helements) ?_
  rw [hφ.polyAt_eq h.primitive.hasDegree _ helements]
  exact (mul_eq_zero.1 hproduct).resolve_left hweight

/-- A position that is no suspect is not in error (R338). -/
theorem WithinBound.mem_suspects (h : WithinBound code n r c erased) (hφ : FieldModel code F φ) {j : Nat} (hj : j < n)
    (hdiffer : r.getD j 0 ≠ c.getD j 0) : j ∈ suspectPositions code n (syndromes code r) erased := by
  rw [suspectPositions_eq, List.mem_filter, List.mem_range, Bool.or_eq_true, List.contains_iff_mem, beq_iff_eq]
  by_cases herased : j ∈ erased
  · exact ⟨hj, .inl herased⟩
  · refine ⟨hj, .inr (h.errorPoly_root hφ ?_)⟩
    simp only [errorPositions, List.mem_filter, List.mem_range, h.lengthR]
    simpa [herased, hj] using hdiffer

/-- There are at most NROOTS suspects (R338). -/
theorem WithinBound.length_suspects_le (h : WithinBound code n r c erased) (hφ : FieldModel code F φ) :
    (suspectPositions code n (syndromes code r) erased).length ≤ code.nroots := by
  obtain ⟨helements, hlast, hlength, -⟩ := h.errorPoly_spec hφ
  have hbound := h.bound
  have hroots := hφ.length_roots_le h.primitive h.coprime h.short helements hlast
  have herased : ((List.range n).filter (fun j => erased.contains j)).length ≤ erased.length := by
    refine (List.subperm_of_subset (List.nodup_range.filter _) fun j hj => ?_).length_le
    simpa using (List.mem_filter.1 hj).2
  have hsplit := countP_or_le (fun j => erased.contains j)
    (fun j => polyAt code (errorPoly code n (syndromes code r) erased) (locator code n j) == 0) (List.range n)
  have hpart : (List.range n).countP (fun j => !erased.contains j &&
        polyAt code (errorPoly code n (syndromes code r) erased) (locator code n j) == 0) ≤
      (List.range n).countP (fun j => polyAt code (errorPoly code n (syndromes code r) erased) (locator code n j) == 0) :=
    List.countP_mono_left fun j _ hj => ((Bool.and_eq_true ..).mp hj).2
  rw [← List.countP_eq_length_filter] at hroots herased
  rw [suspectPositions_eq, ← List.countP_eq_length_filter]
  omega

/-- The error value at a suspect position is what the codeword differs by there (R338). -/
theorem WithinBound.errorValue_eq (h : WithinBound code n r c erased) (hφ : FieldModel code F φ) {k : Nat}
    (hk : k ∈ suspectPositions code n (syndromes code r) erased) :
    errorValue code (syndromes code r)
      (((suspectPositions code n (syndromes code r) erased).filter (fun j => j != k)).map (locator code n)) (locator code n k) =
      r.getD k 0 ^^^ c.getD k 0 := by
  have hsuspects := h.length_suspects_le hφ
  have hinside : ∀ j, j ∈ suspectPositions code n (syndromes code r) erased → j < n := by
    intro j hj
    rw [suspectPositions_eq] at hj
    exact List.mem_range.1 (List.mem_filter.1 hj).1
  generalize hothers : (suspectPositions code n (syndromes code r) erased).filter (fun j => j != k) = others
  have hmem (j : Nat) : j ∈ others ↔ j ∈ suspectPositions code n (syndromes code r) erased ∧ j ≠ k := by
    rw [← hothers, List.mem_filter, bne_iff_ne]
  have hfewer : others.length < (suspectPositions code n (syndromes code r) erased).length := by
    rw [← hothers]
    exact List.length_filter_lt_length_iff_exists.2 ⟨k, hk, by simp⟩
  have hp : Elements code (rootsPoly code (others.map (locator code n))) := by
    refine Elements.roots h.primitive fun x hx => ?_
    obtain ⟨j, -, rfl⟩ := List.mem_map.1 hx
    exact alphaPow_lt h.primitive _
  have heval {j : Nat} (hj : j < n) :
      (toPoly φ (rootsPoly code (others.map (locator code n)))).eval (φ (locator code n j)) = 0 ↔ j ∈ others :=
    hφ.eval_roots_eq_zero_iff h.primitive h.coprime h.short (fun l hl => hinside l ((hmem l).1 hl).1) hj
  have hvalue : (toPoly φ (rootsPoly code (others.map (locator code n)))).eval (φ (locator code n k)) ≠ 0 := by
    rw [Ne, heval (hinside k hk), hmem]
    exact fun hboth => hboth.2 rfl
  -- of the sum that the pairing is, only the term of k is left
  have hpair := h.pairing_syndromes hφ hp (i := 0) (by rw [length_rootsPoly, List.length_map]; omega)
  rw [List.drop_zero, Finset.sum_eq_single_of_mem k (Finset.mem_range.2 (hinside k hk))] at hpair
  · have hlocator : locator code n k < 2 ^ code.m := alphaPow_lt h.primitive _
    have hne : locator code n k ≠ 0 := fun hzero => hφ.locator_ne_zero h.primitive n k (by rw [hzero, hφ.zero])
    have hpow : gfPow code (locator code n k) code.fcr < 2 ^ code.m := gfPow_lt h.primitive _ hlocator
    refine hφ.inj (gfMul_lt h.primitive.hasDegree _ (pairing_lt h.primitive.hasDegree _ hp)) (xor_lt (h.getD_r k) (h.getD_c k)) ?_
    rw [errorValue, hφ.mul _ _ (pairing_lt h.primitive.hasDegree _ hp), hpair,
      hφ.gfInv_eq h.primitive (gfMul_lt h.primitive.hasDegree _ hpow), hφ.mul _ _ hpow, hφ.gfPow_eq h.primitive _ hlocator hne,
      hφ.polyAt_eq h.primitive.hasDegree _ hp, hφ.xor, errorWeight]
    have hfcr := pow_ne_zero code.fcr (hφ.locator_ne_zero h.primitive n k)
    field_simp
  · intro j hj hjk
    have hjn := Finset.mem_range.1 hj
    by_cases hsame : r.getD j 0 = c.getD j 0
    · rw [(h.errorWeight_eq_zero_iff hφ j).2 hsame, zero_mul, zero_mul]
    · rw [(heval hjn).2 ((hmem j).2 ⟨h.mem_suspects hφ hjn hsame, hjk⟩), mul_zero]

/-- The word RS_CORRECT tries is the codeword within the bound (R338). -/
theorem WithinBound.rsCandidate_eq (h : WithinBound code n r c erased) : rsCandidate code r erased = c := by
  obtain ⟨F, inst, φ, hφ⟩ := h.primitive.exists_fieldModel
  refine List.ext_getElem (by rw [length_rsCandidate, h.lengthR, h.lengthC]) fun k hk hk' => ?_
  have hkn : k < n := by rwa [h.lengthC] at hk'
  have hkr : k < r.length := by rwa [h.lengthR]
  have hr := List.getD_eq_getElem r 0 hkr
  have hc := List.getD_eq_getElem c 0 hk'
  simp only [rsCandidate, List.getElem_map, List.getElem_zipIdx, Nat.zero_add, h.lengthR]
  by_cases hsuspect : k ∈ suspectPositions code n (syndromes code r) erased
  · rw [if_pos (List.contains_iff_mem.2 hsuspect), h.errorValue_eq hφ hsuspect, hr, hc, ← Nat.xor_assoc, Nat.xor_self, Nat.zero_xor]
  · rw [if_neg (fun hin => hsuspect (List.contains_iff_mem.1 hin)), ← hr, ← hc]
    by_contra hdiffer
    exact hsuspect (h.mem_suspects hφ hkn hdiffer)

end Bound

/-- Settles O50: an answer is checked against the bound, and the candidate is the codeword within it where there is one. -/
theorem rsCorrectSound : Obligations.RsCorrectSound := by
  refine ⟨?sound, fun code r => isCodeword_iff code r, fun code r erased => rsCorrect_of_codeword, ?complete⟩
  case sound =>
    intro code r erased c ps h
    refine ⟨length_of_rsCorrect h, (isCodeword_iff code c).1 (isCodeword_of_rsCorrect h), fun hword => ?_, fun hword => ?_⟩
    · rw [rsCorrect_of_codeword hword] at h
      cases h
      exact ⟨rfl, rfl⟩
    · rcases rsCorrect_answer h with ⟨htrue, -⟩ | ⟨-, -, hbound, rfl⟩
      · rw [hword] at htrue
        cases htrue
      · obtain ⟨-, hsymbols, hcount⟩ := withinBound_iff.1 hbound
        refine ⟨hsymbols, List.pairwise_lt_range.filter _, fun j => ?_, hcount⟩
        simp [correctedPositions]
  case complete =>
    intro cfg r erased c hlegal code n symbols differ e hr hc hnodup hinside hcount hnot hcodeword hbound
    obtain ⟨hlow, hhigh, hpoly, -, -, -, hcoprime, -, -, hfits⟩ := hlegal
    have hrange : r.length = n := hr.1
    have hpositions : errorPositions r c erased = (List.range n).filter (fun j => !erased.contains j && differ j) := by
      rw [← hrange]
      rfl
    have hwithin : WithinBound code n r c erased :=
      { primitive := ⟨hlow, hpoly⟩, coprime := hcoprime, short := Nat.sub_le _ _, lengthR := hr.1, lengthC := hc.1
        symbolsR := hr.2, symbolsC := hc.2, codeword := hcodeword, inside := hinside, bound := by rw [hpositions]; exact hbound }
    rw [rsCorrect_of_not_codeword hnot, hwithin.rsCandidate_eq, if_pos (withinBound_iff.2 ⟨hcodeword, hc.2, hwithin.bound⟩)]
    rw [correctedPositions, hrange]

end Sys2Proof.Machine
end

section
/-! PROOFS. The phase-locked loop: binary64 sums and products that are exact, WRAP's two loops, and PLL_RUN (spec file 41, R227,
R271, R272, R273). -/

namespace Sys2Proof.Machine

set_option Elab.async false

/-! ### Patterns and their values -/

theorem toNat_fabs (x : F64) : (fabs x).toNat = x.toNat % 2 ^ 63 := by
  rw [fabs, BitVec.toNat_and, show (0x7FFFFFFFFFFFFFFF#64).toNat = 2 ^ 63 - 1 by decide, Nat.and_two_pow_sub_one_eq_mod]

/-- Where a finite number's parts stand in its pattern. -/
theorem toNat_of_unpack {x : F64} {neg : Bool} {m : Nat} {e : Int} (h : unpack x = .fin neg m e) :
    m < 2 ^ 53 ∧ (e = -1074 ∨ 2 ^ 52 ≤ m) ∧ x.toNat = (if neg then 2 ^ 63 else 0) + ((e + 1074).toNat * 2 ^ 52 + m) ∧
      (e + 1074).toNat * 2 ^ 52 + m < 2047 * 2 ^ 52 := by
  have hlt := x.isLt
  unfold unpack at h
  dsimp only at h
  split_ifs at h with hinf hfrac hsub
  · obtain ⟨rfl, rfl, rfl⟩ := Unpacked.fin.inj h
    refine ⟨by omega, .inl rfl, ?_, by omega⟩
    simp only [decide_eq_true_eq]
    split <;> omega
  · obtain ⟨rfl, rfl, rfl⟩ := Unpacked.fin.inj h
    refine ⟨by omega, .inr (by omega), ?_, by omega⟩
    simp only [decide_eq_true_eq]
    split <;> omega

theorem isFinite_iff (x : F64) : isFinite x = true ↔ ∃ neg m e, unpack x = .fin neg m e := by
  unfold isFinite
  cases unpack x <;> simp

theorem isFinite_of_bits {x : F64} (h : x.toNat % 2 ^ 63 < 2047 * 2 ^ 52) : isFinite x = true := (fixed_of_bits x h).2

/-- Packing a number's parts gives the number back. -/
theorem packExact_unpack {x : F64} {neg : Bool} {m : Nat} {e : Int} (h : unpack x = .fin neg m e) : packExact neg m e = x := by
  obtain ⟨-, -, hbits, hfinite⟩ := toNat_of_unpack h
  rw [packExact, if_neg (by omega), ← hbits, BitVec.ofNat_toNat, BitVec.setWidth_eq]

theorem orderKey_of_nonneg {x : F64} (h : x.toNat < 2 ^ 63) : orderKey x = x.toNat := if_neg (by omega)

theorem orderKey_of_flt {x y : F64} (h : flt x y = true) : orderKey x < orderKey y := by
  unfold flt at h
  split at h
  · cases h
  · cases h
  · exact of_decide_eq_true h

theorem orderKey_of_fle {x y : F64} (h : fle x y = true) : orderKey x ≤ orderKey y := by
  unfold fle at h
  split at h
  · cases h
  · cases h
  · exact of_decide_eq_true h

theorem bits_lt_of_flt {x y : F64} (hy : y.toNat < 2 ^ 63) (h : flt (fabs x) y = true) : x.toNat % 2 ^ 63 < y.toNat := by
  have hkey := orderKey_of_flt h
  rw [orderKey_of_nonneg hy, orderKey_of_nonneg (by rw [toNat_fabs]; omega), toNat_fabs] at hkey
  exact_mod_cast hkey

theorem bits_le_of_fle {x y : F64} (hy : y.toNat < 2 ^ 63) (h : fle (fabs x) y = true) : x.toNat % 2 ^ 63 ≤ y.toNat := by
  have hkey := orderKey_of_fle h
  rw [orderKey_of_nonneg hy, orderKey_of_nonneg (by rw [toNat_fabs]; omega), toNat_fabs] at hkey
  exact_mod_cast hkey

/-- A number below infinity in magnitude is finite. -/
theorem isFinite_of_flt_infinity {x : F64} (h : flt (fabs x) (infinity false) = true) : isFinite x = true :=
  isFinite_of_bits (bits_lt_of_flt (by decide) h)

/-- The absolute value of a finite number. -/
theorem fixed_fabs {x : F64} (hx : isFinite x = true) : isFinite (fabs x) = true ∧ fixed (fabs x) = |fixed x| := by
  have hbits := bits_of_isFinite hx
  have habs := toNat_fabs x
  obtain ⟨hvalue, hfinite⟩ := fixed_of_bits (fabs x) (by omega)
  rw [if_neg (by omega), habs, Nat.mod_mod] at hvalue
  refine ⟨hfinite, ?_⟩
  rw [hvalue, (fixed_of_bits x hbits).1]
  split
  · rw [abs_neg, Nat.abs_cast]
  · rw [Nat.abs_cast]

/-! ### Sums and products that need no rounding -/

theorem shiftRne_mul_pow (t a : Nat) : shiftRne (t * 2 ^ a) a = t := by
  have hpos := Nat.two_pow_pos a
  unfold shiftRne
  rw [Nat.mul_div_cancel _ hpos, Nat.mul_mod_left]
  dsimp only
  rw [if_neg (by omega)]

/-- A number that has a pattern is packed as it is, whatever power of two its mantissa was scaled by. -/
theorem roundPack_exact (neg : Bool) {t : Nat} (a : Nat) {q : Int} (ht : t ≠ 0) (hlt : t < 2 ^ 53) (hq : -1074 ≤ q)
    (hnormal : q = -1074 ∨ 2 ^ 52 ≤ t) : roundPack neg (t * 2 ^ a) (q - a) = packExact neg t q := by
  have hscaled : t * 2 ^ a ≠ 0 := Nat.mul_ne_zero ht (Nat.two_pow_pos a).ne'
  have hlog : Nat.log2 (t * 2 ^ a) = Nat.log2 t + a := by
    refine (Nat.log2_eq_iff hscaled).2 ⟨?_, ?_⟩
    · rw [pow_add]
      exact Nat.mul_le_mul_right _ (Nat.log2_self_le ht)
    · rw [show Nat.log2 t + a + 1 = (Nat.log2 t + 1) + a by omega, pow_add]
      exact Nat.mul_lt_mul_of_pos_right Nat.lt_log2_self (Nat.two_pow_pos a)
  have hlow : Nat.log2 t < 53 := (Nat.log2_lt ht).2 hlt
  have hhigh : q = -1074 ∨ 52 ≤ Nat.log2 t := hnormal.imp_right (Nat.le_log2 ht).2
  have hexponent : max (q - a + (Nat.log2 (t * 2 ^ a) : Int) - 52) (-1074) = q := by
    rw [hlog]
    push_cast
    omega
  unfold roundPack
  rw [if_neg hscaled]
  dsimp only
  rw [hexponent]
  split
  case isTrue hle =>
    obtain rfl : a = 0 := by omega
    norm_num
  case isFalse hgt =>
    rw [show (q - (q - (a : Int))).toNat = a by omega, shiftRne_mul_pow]

/-- Twice a finite number below 2^1023 in magnitude is finite. -/
theorem isFinite_fmul_two {x : F64} (h : flt (fabs x) 0x7FE0000000000000#64 = true) : isFinite (fmul ftwo x) = true := by
  have hbound := bits_lt_of_flt (by decide) h
  obtain ⟨neg, m, e, hx⟩ := (isFinite_iff x).1 (isFinite_of_bits (lt_trans hbound (by decide)))
  obtain ⟨hm, hnormal, hbits, hfinite⟩ := toNat_of_unpack hx
  have htwo : unpack ftwo = .fin false (2 ^ 52) (-51) := by decide
  have hmax : (e + 1074).toNat * 2 ^ 52 + m < 2046 * 2 ^ 52 := by
    rw [hbits, show (0x7FE0000000000000#64).toNat = 2046 * 2 ^ 52 by decide] at hbound
    split at hbound <;> omega
  have he := unpack_exponent hx
  unfold fmul
  simp only [htwo, hx]
  rw [show (false != neg) = neg by cases neg <;> rfl]
  by_cases hzero : m = 0
  · rw [hzero, Nat.mul_zero, roundPack, if_pos rfl]
    cases neg <;> decide
  by_cases hlarge : 2 ^ 52 ≤ m
  · rw [Nat.mul_comm, show -51 + e = (e + 1) - ((52 : Nat) : Int) by push_cast; ring,
      roundPack_exact neg 52 hzero hm (by omega) (.inr hlarge)]
    have hfits : (e + 1 + 1074).toNat * 2 ^ 52 + m < 2047 * 2 ^ 52 := by
      have hone : (e + 1 + 1074).toNat = (e + 1074).toNat + 1 := by omega
      calc (e + 1 + 1074).toNat * 2 ^ 52 + m = (e + 1074).toNat * 2 ^ 52 + m + 2 ^ 52 := by rw [hone]; ring
        _ < 2046 * 2 ^ 52 + 2 ^ 52 := Nat.add_lt_add_right hmax _
        _ = 2047 * 2 ^ 52 := by norm_num
    exact (fixed_packExact neg m (e + 1) (by omega) (.inr hlarge) hfits).2
  · obtain rfl : e = -1074 := hnormal.resolve_right hlarge
    rw [show 2 ^ 52 * m = 2 * m * 2 ^ 51 by ring, show -51 + -1074 = (-1074 : Int) - ((51 : Nat) : Int) by norm_num,
      roundPack_exact neg 51 (by omega) (by omega) (le_refl _) (.inl rfl)]
    exact (fixed_packExact neg (2 * m) (-1074) (by omega) (.inl rfl) (by norm_num; omega)).2

theorem unpack_signedZero (b : Bool) : unpack (signedZero b) = .fin b 0 (-1074) := by cases b <;> decide

/-- A finite number times a zero is a zero. -/
theorem fmul_signedZero {x : F64} (hx : isFinite x = true) (b : Bool) : ∃ b', fmul x (signedZero b) = signedZero b' := by
  obtain ⟨neg, m, e, hparts⟩ := (isFinite_iff x).1 hx
  refine ⟨neg != b, ?_⟩
  unfold fmul
  simp only [hparts, unpack_signedZero, Nat.mul_zero]
  rfl

/-- A zero times a finite number is a zero. -/
theorem signedZero_fmul {x : F64} (hx : isFinite x = true) (b : Bool) : ∃ b', fmul (signedZero b) x = signedZero b' := by
  obtain ⟨neg, m, e, hparts⟩ := (isFinite_iff x).1 hx
  refine ⟨b != neg, ?_⟩
  unfold fmul
  simp only [hparts, unpack_signedZero, Nat.zero_mul]
  rfl

theorem fadd_signedZeros (a b : Bool) : fadd (signedZero a) (signedZero b) = signedZero (a && b) := by
  cases a <;> cases b <;> decide

/-- The pattern of an infinity. -/
theorem eq_infinity_of_unpack {x : F64} {neg : Bool} (h : unpack x = .inf neg) : x = infinity neg := by
  have hlt := x.isLt
  unfold unpack at h
  dsimp only at h
  split_ifs at h with hinf hfrac hsub
  obtain rfl := Unpacked.inf.inj h
  refine BitVec.eq_of_toNat_eq ?_
  by_cases hneg : 2 ^ 63 ≤ x.toNat
  · rw [decide_eq_true hneg, show (infinity true).toNat = 2 ^ 63 + 2047 * 2 ^ 52 by decide]
    omega
  · rw [decide_eq_false hneg, show (infinity false).toNat = 2047 * 2 ^ 52 by decide]
    omega

/-- A zero added to a number that is neither a NaN nor a zero leaves it. -/
theorem fadd_signedZero {x : F64} (hnan : unpack x ≠ .nan) (hzero : ∀ a, x ≠ signedZero a) (b : Bool) :
    fadd x (signedZero b) = x := by
  unfold fadd
  cases hx : unpack x with
  | nan => exact absurd hx hnan
  | inf neg =>
    simp only [unpack_signedZero]
    exact (eq_infinity_of_unpack hx).symm
  | fin neg m e =>
    have he := unpack_exponent hx
    obtain ⟨hm, hnormal, -, -⟩ := toNat_of_unpack hx
    have hne : m ≠ 0 := by
      rintro rfl
      refine hzero neg ?_
      obtain rfl : e = -1074 := hnormal.resolve_right (by decide)
      rw [← packExact_unpack hx]
      cases neg <;> decide
    have hpos : 0 < m * 2 ^ (e + 1074).toNat := Nat.mul_pos (Nat.pos_of_ne_zero hne) (Nat.two_pow_pos _)
    have hround : roundPack neg (m * 2 ^ (e + 1074).toNat) (-1074) = x := by
      rw [show (-1074 : Int) = e - ((e + 1074).toNat : Int) by omega, roundPack_exact neg _ hne hm he hnormal, packExact_unpack hx]
    simp only [unpack_signedZero, min_eq_right he]
    have hsum : scaled neg m e (-1074) + scaled b 0 (-1074) (-1074) =
        if neg then -((m * 2 ^ (e + 1074).toNat : Nat) : Int) else ((m * 2 ^ (e + 1074).toNat : Nat) : Int) := by
      simp [scaled]
    rw [hsum]
    generalize m * 2 ^ (e + 1074).toNat = n at *
    cases neg
    · simp only [Bool.false_eq_true, if_false, Int.natAbs_natCast]
      rw [if_neg (by omega), decide_eq_false (by omega), hround]
    · simp only [if_true, Int.natAbs_neg, Int.natAbs_natCast]
      rw [if_neg (by omega), decide_eq_true (by omega), hround]

/-! ### WRAP -/

/-- A loop that runs while a condition holds, at most so often: where a bound on the turns left holds at first, is kept by a turn
and excludes the condition at 0, the loop ends within it. -/
theorem loop_exits {α : Type} {loop : Nat → α → α} {go : α → Bool} {turn : α → α} {left : Nat → α → Prop}
    (hsucc : ∀ n v, loop (n + 1) v = if go v then loop n (turn v) else v) (hzero : ∀ v, loop 0 v = v)
    (hkept : ∀ k v, left (k + 1) v → go v = true → left k (turn v)) (hlast : ∀ v, left 0 v → go v = false) :
    ∀ k turns, k ≤ turns → ∀ v, left k v →
      ∃ i k', i ≤ k ∧ (∀ n, n < i → go (turn^[n] v) = true) ∧ go (turn^[i] v) = false ∧ loop turns v = turn^[i] v ∧
        left k' (turn^[i] v) := by
  have hexit {turns k : Nat} {v : α} (hstop : go v = false) (hleft : left k v) :
      ∃ i k', i ≤ k ∧ (∀ n, n < i → go (turn^[n] v) = true) ∧ go (turn^[i] v) = false ∧ loop turns v = turn^[i] v ∧
        left k' (turn^[i] v) := by
    refine ⟨0, k, Nat.zero_le k, fun n hn => absurd hn (Nat.not_lt_zero n), hstop, ?_, hleft⟩
    cases turns with
    | zero => exact hzero v
    | succ turns => rw [hsucc, hstop]; rfl
  intro k
  induction k with
  | zero => exact fun turns _ v hleft => hexit (hlast v hleft) hleft
  | succ k ih =>
    intro turns hturns v hleft
    cases hgo : go v with
    | false => exact hexit hgo hleft
    | true =>
      obtain ⟨turns, rfl⟩ : ∃ n, turns = n + 1 := ⟨turns - 1, by omega⟩
      obtain ⟨i, k', hi, hbefore, hafter, hvalue, hleft'⟩ := ih turns (by omega) (turn v) (hkept k v hleft hgo)
      refine ⟨i + 1, k', by omega, fun n hn => ?_, hafter, ?_, hleft'⟩
      · cases n with
        | zero => exact hgo
        | succ n => exact hbefore n (by omega)
      · rw [hsucc, hgo]
        exact hvalue

/-- The binade of 2 pi's last bits but two: 2^1024 least subnormals are 2^-50. -/
def phaseUnit : Int := 2 ^ 1024

theorem phaseUnit_pos : 0 < phaseUnit := pow_pos (by norm_num) _

theorem fixed_twoPi : isFinite twoPi64 = true ∧ fixed twoPi64 = 7074237752028440 * phaseUnit := by
  have hbits : twoPi64.toNat % 2 ^ 63 = 4618760256179416344 := by decide
  obtain ⟨hvalue, hfinite⟩ := fixed_of_bits twoPi64 (by rw [hbits]; norm_num)
  refine ⟨hfinite, ?_⟩
  rw [hvalue, if_neg (by decide), hbits, magnitudeOf, if_neg (by norm_num),
    show 4618760256179416344 / 2 ^ 52 - 1 = 1024 by norm_num, show 4618760256179416344 % 2 ^ 52 = 2570638124657944 by norm_num,
    phaseUnit]
  rw [Nat.cast_mul, Nat.cast_pow, Nat.cast_ofNat]
  generalize (2 : Int) ^ 1024 = u
  omega

theorem fixed_wrapBound : isFinite (fofNat 1024) = true ∧ fixed (fofNat 1024) = 2 ^ 60 * phaseUnit := by
  have hvalue : fofNat 1024 = 0x4090000000000000#64 := by decide
  have hbits : (0x4090000000000000#64 : F64).toNat % 2 ^ 63 = 0x4090000000000000 := by decide
  obtain ⟨hfixed, hfinite⟩ := fixed_of_bits 0x4090000000000000#64 (by rw [hbits]; norm_num)
  rw [hvalue]
  refine ⟨hfinite, ?_⟩
  rw [hfixed, if_neg (by decide), hbits, magnitudeOf, if_neg (by norm_num),
    show 0x4090000000000000 / 2 ^ 52 - 1 = 1024 + 8 by norm_num, show 0x4090000000000000 % 2 ^ 52 = 0 by norm_num,
    phaseUnit, pow_add, Nat.cast_mul, Nat.cast_mul, Nat.cast_pow 2 1024, Nat.cast_ofNat]
  generalize (2 : Int) ^ 1024 = u
  omega

/-- A phase on its way up: at most `k` turns below 0 (R272). -/
def TurnsUp (k : Nat) (v : F64) : Prop :=
  isFinite v = true ∧ -(k * (7074237752028312 * phaseUnit)) ≤ fixed v ∧ -(2 ^ 60 * phaseUnit) < fixed v ∧
    fixed v < 2 ^ 60 * phaseUnit

/-- A phase on its way down: at most `k` turns above 2 pi (R272). -/
def TurnsDown (k : Nat) (v : F64) : Prop :=
  isFinite v = true ∧ 0 ≤ fixed v ∧ fixed v < 2 ^ 60 * phaseUnit ∧
    fixed v < 7074237752028440 * phaseUnit + k * (7074237752028312 * phaseUnit)

theorem fixed_zero : isFinite 0#64 = true ∧ fixed 0#64 = 0 := by decide

/-- A sum of phases below 1024.0 in magnitude is off by at most 2^-43. -/
theorem fadd_phase {v w : F64} (hv : isFinite v = true) (hw : isFinite w = true)
    (hsum : (fixed v + fixed w).natAbs < 2 ^ 60 * phaseUnit) :
    isFinite (fadd v w) = true ∧ fixed (fadd v w) ≤ fixed v + fixed w + 128 * phaseUnit ∧
      fixed v + fixed w ≤ fixed (fadd v w) + 128 * phaseUnit ∧ (0 ≤ fixed v + fixed w → 0 ≤ fixed (fadd v w)) := by
  have hlimit : (2 : Int) ^ 60 * phaseUnit ≤ 2 ^ 2097 := by
    rw [phaseUnit, ← pow_add]
    exact pow_le_pow_right₀ (by norm_num) (by norm_num)
  have hsmall : (fixed v + fixed w).natAbs < 2 ^ 2097 := by
    have hint : ((fixed v + fixed w).natAbs : Int) < ((2 ^ 2097 : Nat) : Int) := by
      rw [Nat.cast_pow]
      exact lt_of_lt_of_le hsum hlimit
    exact_mod_cast hint
  obtain ⟨hfinite, herror⟩ := fixed_fadd v w hv hw hsmall
  generalize fixed (fadd v w) = r at *
  generalize fixed v + fixed w = t at *
  generalize phaseUnit = u at *
  refine ⟨hfinite, ?_, ?_, ?_⟩ <;> omega

theorem turnsUp_fadd (k : Nat) (v : F64) (h : TurnsUp (k + 1) v) (hgo : flt v 0#64 = true) :
    TurnsUp k (fadd v twoPi64) := by
  obtain ⟨hfinite, hturns, hlow, -⟩ := h
  obtain ⟨htwoPi, hvalue⟩ := fixed_twoPi
  have hneg := (flt_iff hfinite fixed_zero.1).1 hgo
  have hunit := phaseUnit_pos
  rw [fixed_zero.2] at hneg
  rw [Nat.cast_succ, add_mul, one_mul] at hturns
  obtain ⟨hsum, hbelow, habove, -⟩ := fadd_phase hfinite htwoPi (by rw [hvalue]; omega)
  rw [hvalue] at hbelow habove
  exact ⟨hsum, by omega, by omega, by omega⟩

theorem turnsDown_fsub (k : Nat) (v : F64) (h : TurnsDown (k + 1) v) (hgo : fle twoPi64 v = true) :
    TurnsDown k (fsub v twoPi64) := by
  obtain ⟨hfinite, -, hhigh, hturns⟩ := h
  obtain ⟨htwoPi, hvalue⟩ := fixed_twoPi
  obtain ⟨hminus, hopposite⟩ := fixed_fneg htwoPi
  have hle := (fle_iff htwoPi hfinite).1 hgo
  have hunit := phaseUnit_pos
  rw [Nat.cast_succ, add_mul, one_mul] at hturns
  rw [hvalue] at hle hopposite
  obtain ⟨hdifference, hbelow, -, hsign⟩ := fadd_phase hfinite hminus (by rw [hopposite]; omega)
  rw [hopposite] at hbelow hsign
  exact ⟨hdifference, hsign (by omega), by rw [fsub]; omega, by rw [fsub]; omega⟩

theorem TurnsUp.stop {v : F64} (h : TurnsUp 0 v) : flt v 0#64 = false := by
  obtain ⟨hfinite, hturns, -, -⟩ := h
  rw [Bool.eq_false_iff, Ne, flt_iff hfinite fixed_zero.1, fixed_zero.2]
  omega

theorem TurnsDown.stop {v : F64} (h : TurnsDown 0 v) : fle twoPi64 v = false := by
  obtain ⟨hfinite, -, -, hturns⟩ := h
  rw [Bool.eq_false_iff, Ne, fle_iff fixed_twoPi.1 hfinite, fixed_twoPi.2]
  omega

theorem outOfWrapBound_iff (v : F64) : outOfWrapBound v = true ↔ isNaN v = true ∨ fle (fofNat 1024) (fabs v) = true := by
  unfold outOfWrapBound isNaN
  cases hv : unpack v with
  | nan => simp
  | inf neg =>
    rw [eq_infinity_of_unpack hv]
    cases neg <;> decide
  | fin neg m e => simp

theorem wrapPhase_of_outside {v : F64} (h : isNaN v = true ∨ fle (fofNat 1024) (fabs v) = true) : wrapPhase v = 0#64 := by
  rw [wrapPhase, if_pos ((outOfWrapBound_iff v).2 h)]

/-- A phase within WRAP's bound is less than 1024.0 in magnitude. -/
theorem turnsUp_of_inside {v : F64} (h : ¬ (isNaN v = true ∨ fle (fofNat 1024) (fabs v) = true)) : TurnsUp 163 v := by
  obtain ⟨hnan, hbound⟩ := not_or.1 h
  have hfinite : isFinite v = true := by
    have hout := mt (outOfWrapBound_iff v).1 h
    unfold outOfWrapBound at hout
    unfold isFinite
    cases hv : unpack v <;> simp [hv] at hout ⊢
  obtain ⟨habs, hvalue⟩ := fixed_fabs hfinite
  obtain ⟨hlimit, hlimitValue⟩ := fixed_wrapBound
  rw [fle_iff hlimit habs, hvalue, hlimitValue, not_le, abs_lt] at hbound
  have hunit := phaseUnit_pos
  exact ⟨hfinite, by omega, hbound.1, hbound.2⟩

/-- WRAP runs its two loops to their ends, each within 163 turns (R272). -/
theorem wrapPhase_of_inside {v : F64} (h : ¬ (isNaN v = true ∨ fle (fofNat 1024) (fabs v) = true)) :
    ∃ i j k, i ≤ 163 ∧ j ≤ 163 ∧
      (∀ n, n < i → flt ((fun x => fadd x twoPi64)^[n] v) 0#64 = true) ∧
      flt ((fun x => fadd x twoPi64)^[i] v) 0#64 = false ∧
      (∀ n, n < j → fle twoPi64 ((fun x => fsub x twoPi64)^[n] ((fun x => fadd x twoPi64)^[i] v)) = true) ∧
      fle twoPi64 ((fun x => fsub x twoPi64)^[j] ((fun x => fadd x twoPi64)^[i] v)) = false ∧
      wrapPhase v = (fun x => fsub x twoPi64)^[j] ((fun x => fadd x twoPi64)^[i] v) ∧ TurnsDown k (wrapPhase v) := by
  obtain ⟨i, _, hi, hbefore, hstop, hup, hfinite, -, -, hhigh⟩ :=
    loop_exits (loop := wrapUp) (go := fun x => flt x 0#64) (turn := fun x => fadd x twoPi64) (fun _ _ => rfl) (fun _ => rfl)
      turnsUp_fadd (fun _ => TurnsUp.stop) 163 wrapTurns (by decide) v (turnsUp_of_inside h)
  have hnonneg : 0 ≤ fixed ((fun x => fadd x twoPi64)^[i] v) := by
    rw [Bool.eq_false_iff, Ne, flt_iff hfinite fixed_zero.1, fixed_zero.2] at hstop
    omega
  have hunit := phaseUnit_pos
  obtain ⟨j, k, hj, hbefore', hstop', hdown, hleft⟩ :=
    loop_exits (loop := wrapDown) (go := fun x => fle twoPi64 x) (turn := fun x => fsub x twoPi64) (fun _ _ => rfl)
      (fun _ => rfl) turnsDown_fsub (fun _ => TurnsDown.stop) 163 wrapTurns (by decide) _
      ⟨hfinite, hnonneg, hhigh, by push_cast; omega⟩
  have hvalue : wrapPhase v = (fun x => fsub x twoPi64)^[j] ((fun x => fadd x twoPi64)^[i] v) := by
    rw [wrapPhase, if_neg (mt (outOfWrapBound_iff v).1 h), hup, hdown]
  exact ⟨i, j, k, hi, hj, hbefore, hstop, hbefore', hstop', hvalue, hvalue ▸ hleft⟩

/-- WRAP leaves a phase in [0, 2 pi) (R272). -/
theorem wrapPhase_range (v : F64) : fle 0#64 (wrapPhase v) = true ∧ flt (wrapPhase v) twoPi64 = true := by
  by_cases h : isNaN v = true ∨ fle (fofNat 1024) (fabs v) = true
  · rw [wrapPhase_of_outside h]
    decide
  · obtain ⟨i, j, k, -, -, -, -, -, hstop, hvalue, hfinite, hnonneg, -, -⟩ := wrapPhase_of_inside h
    rw [← hvalue, Bool.eq_false_iff, Ne, fle_iff fixed_twoPi.1 hfinite] at hstop
    rw [fle_iff fixed_zero.1 hfinite, flt_iff hfinite fixed_twoPi.1, fixed_zero.2]
    exact ⟨hnonneg, not_le.1 hstop⟩

/-! ### One step of the loop -/

/-- What is in [-1.0, 1.0] stays there negated. -/
theorem fneg_unitBounded {c : F64} (h : unitBounded c = true) : fle (fneg fone) (fneg c) = true ∧ fle (fneg c) fone = true := by
  have hbits := bits_le_of_fle (by decide) h
  have hfinite : isFinite c = true := isFinite_of_bits (lt_of_le_of_lt hbits (by decide))
  have hone : isFinite fone = true := by decide
  obtain ⟨habs, hvalue⟩ := fixed_fabs hfinite
  obtain ⟨hminus, hopposite⟩ := fixed_fneg hfinite
  obtain ⟨hminusOne, hoppositeOne⟩ := fixed_fneg hone
  rw [unitBounded, fle_iff habs hone, hvalue, abs_le] at h
  rw [fle_iff hminusOne hminus, fle_iff hminus hone, hopposite, hoppositeOne]
  omega

theorem isFinite_sin {x : F64} (hx : isFinite x = true) : isFinite (numerics.sin x) = true :=
  isFinite_of_bits (lt_of_le_of_lt (bits_le_of_fle (by decide) (unitBounded_conformSin Config.sinChoice hx)) (by decide))

/-- WRAP does not see a zero added to a sum that is not -0.0. -/
theorem wrapPhase_fadd_zeros {z : F64} (hz : z ≠ signedZero true) (b : Bool) :
    wrapPhase (fadd (fadd z (signedZero b)) (signedZero false)) = wrapPhase z := by
  by_cases hnan : unpack z = .nan
  · have hsum : fadd z (signedZero b) = canonicalNaN := by
      unfold fadd
      simp only [hnan]
    rw [hsum, wrapPhase_of_outside (v := z) (.inl (by unfold isNaN; simp only [hnan]))]
    decide
  · by_cases hzero : z = signedZero false
    · rw [hzero, fadd_signedZeros, fadd_signedZeros]
      cases b <;> rfl
    · have hkept := fadd_signedZero hnan (fun a => by cases a <;> assumption)
      rw [hkept, hkept]

/-- A zero added leaves a number, but for the sign of a zero. -/
theorem fadd_signedZero_or {x : F64} (hnan : isNaN x = false) (b : Bool) :
    fadd x (signedZero b) = x ∨ (fabs x = 0#64 ∧ fabs (fadd x (signedZero b)) = 0#64) := by
  by_cases hzero : ∃ a, x = signedZero a
  · obtain ⟨a, rfl⟩ := hzero
    right
    cases a <;> cases b <;> decide
  · left
    refine fadd_signedZero (fun hx => ?_) (not_exists.1 hzero) b
    unfold isNaN at hnan
    simp only [hx] at hnan
    cases hnan

/-! ### PLL_RUN -/

theorem pllRunEffect_eq (s : State) {l : Pll} {out : List F64}
    (hrun : runSamples (pllStep numerics) s.pll (f64sAt s.buf (arg0 s) (arg1 s)) = (l, out)) :
    pllRunEffect s = {
      state := { s with pll := l, buf := s.buf.write (arg2 s) (f64Bytes out) }
      res := results s.snap.r1 0#32 0#32 0#32
      irqs := 0#9 } := by
  unfold pllRunEffect
  simp only [f64s_eq, hrun]

/-- Settles O38: WRAP's loops by the turns left to the phase, the step by the zeros its products are, the run by its effect. -/
theorem pllRunCompletes : Obligations.PllRunCompletes := by
  refine ⟨?run, ?step, ?wrap⟩
  case run =>
    intro s hsrc hdst hin hout run
    refine ⟨doneWith { s with pll := run.1, buf := s.buf.write (arg2 s) (f64Bytes run.2) } s.snap.r1 0#32 0#32 0#32 0x001#9, ?_,
      stored_write .., rfl⟩
    rw [exec_pllRun]
    exact runCommand_eq_doneWith (f64RunCheck_of_legal hsrc hdst hin hout) (pllRunEffect_eq s rfl) rfl
  case step =>
    intro l p finite u c e
    refine ⟨rfl, rfl, rfl, rfl, rfl, rfl, wrapPhase_range _,
      fun hphase => fneg_unitBounded (unitBounded_conformSin Config.sinChoice (isFinite_fmul_two hphase)), ?_⟩
    intro hp hphase hkp hki hinteg
    obtain ⟨a, he⟩ : ∃ a, e = signedZero a := by
      rw [show e = fmul (signedZero false) (numerics.sin l.phase) from congrArg (fmul · _) hp]
      exact signedZero_fmul (isFinite_sin (isFinite_of_flt_infinity hphase)) false
    obtain ⟨b, hb⟩ := fmul_signedZero (isFinite_of_flt_infinity hki) a
    obtain ⟨d, hd⟩ := fmul_signedZero (isFinite_of_flt_infinity hkp) a
    have hinteg' : u.integ = fadd l.integ (signedZero b) := by
      rw [← hb, ← he]
      rfl
    refine ⟨hinteg' ▸ fadd_signedZero_or hinteg b, fun hzero hsum => ?_⟩
    have hstill : u.integ = signedZero false := by
      rw [hinteg', hzero]
      exact fadd_signedZeros false b
    have hphase' : u.phase = wrapPhase (fadd (fadd (fadd l.phase l.w0) (signedZero d)) (signedZero false)) := by
      rw [← hstill, ← hd, ← he]
      rfl
    rw [hphase']
    exact wrapPhase_fadd_zeros hsum d
  case wrap =>
    intro v outside up
    refine ⟨wrapPhase_of_outside, fun h => ?_⟩
    obtain ⟨i, j, k, hi, hj, hbefore, hstop, hbefore', hstop', hvalue, -⟩ := wrapPhase_of_inside h
    exact ⟨i, j, hi, hj, hbefore, hstop, hbefore', hstop', hvalue⟩

end Sys2Proof.Machine
end

section
/-! PROOFS. DAB_RESET (spec file 42, R305). -/

namespace Sys2Proof.Machine

set_option Elab.async false

/-- DAB_RESET has the one selector 0 and no checks (R133, R305). -/
theorem exec_dabReset (s : State) : exec (.dabReset 0#4) s = runCommand noChecks dabResetEffect s :=
  runCommand_selZero noChecks dabResetEffect s

/-- DAB_RESET empties the window, ends Synced with FAILS 0, and announces nothing (R305, R308). -/
theorem dabResetEffect_eq (s : State) :
    dabResetEffect s = {
      state := { s with dab := { s.dab with win := [], fails := 0#8, synced := false } }
      res := ⟨0#32, 0#32, 0#32, 0#32⟩
      irqs := 0#9 } := rfl

/-- Settles O42: no check can fail, and the effect writes the window, FAILS and SYNCED alone. -/
theorem dabResetCompletes : Obligations.DabResetCompletes := by
  intro s
  rw [exec_dabReset]
  exact runCommand_eq_doneWith (noChecks_eq s) (dabResetEffect_eq s) rfl

end Sys2Proof.Machine
end
